-- ==== Sys2Proof/Word.lean ====
section
/-! DEFINITION. The two data types of the codec: the 32-bit word and the byte (`20_memory.md` R51). -/

namespace Sys2Proof

/-- A byte (R51). -/
abbrev Byte := BitVec 8

/-- A word: the unit of the stream and of every value, 32 bits, unsigned (R5, R7). -/
abbrev Word := BitVec 32

end Sys2Proof
end

