-- ==== Sys2Proof/Machine/Bits.lean ====
section
/-! DEFINITION. Number and byte-order helpers: the width function, rounding, little-endian bytes, and
the positional numbers the pack engine is made of (`00_scope.md` R7 to R9, `20_memory.md` R52, R54). -/

namespace Sys2Proof.Machine

/-- `bits(v)`, the least `w` with `v < 2^w` (R9). -/
def bitWidth (v : Word) : Nat :=
  if v = 0#32 then 0 else Nat.log2 v.toNat + 1

/-- `ceil(x / m)` (R7). -/
def ceilDiv (x m : Nat) : Nat := (x + m - 1) / m

/-- `roundup(x, m) = m * ceil(x / m)` (R7). -/
def roundup (x m : Nat) : Nat := m * ceilDiv x m

/-- How many words lead from word index `i` to the next multiple of 4 (R56, R86, R96). -/
def padTo4 (i : Nat) : Nat := roundup i 4 - i

/-- Byte `i` of a word, byte 0 the least significant (R52). -/
def byteOf (w : Word) (i : Nat) : Byte := w.extractLsb' (8 * i) 8

/-- The four bytes of a word in memory order (R52). -/
def leBytes (w : Word) : List Byte := [byteOf w 0, byteOf w 1, byteOf w 2, byteOf w 3]

/-- The word whose bytes in memory order are `a b c d` (R52). -/
def ofLe (a b c d : Byte) : Word := d ++ c ++ b ++ a

/-- The bytes of a sequence of words in memory order (R52). -/
def bytesOfWords (ws : List Word) : List Byte := ws.flatMap leBytes

/-- A byte sequence laid four to a word, lowest index in the lowest byte, the last word filled with
zero bytes (R54, R89). -/
def packBytes : List Byte → List Word
  | a :: b :: c :: d :: rest => ofLe a b c d :: packBytes rest
  | [a, b, c] => [ofLe a b c 0#8]
  | [a, b] => [ofLe a b 0#8 0#8]
  | [a] => [ofLe a 0#8 0#8 0#8]
  | [] => []

/-- The positional number `sum_j (x_j mod 2^b) * 2^(j*b)` of a digit sequence, least significant digit
first (R121), in nested form. -/
def joinBits (b : Nat) : List Word → Nat
  | [] => 0
  | x :: xs => x.toNat % 2 ^ b + 2 ^ b * joinBits b xs

/-- Digit `j` of width `b` of a positional number: `(S >> (j*b)) mod 2^b` (R122 to R125). -/
def digit (b S j : Nat) : Word := BitVec.ofNat 32 (S / 2 ^ (j * b) % 2 ^ b)

end Sys2Proof.Machine
end

