-- ==== Sys2Proof/Syntax.lean ====
section
/-! DEFINITION. The operations of the codec: one constructor of `Instr` per row of
`spec/opcode_table.json` (5 host commands, `ILLEGAL`, 30 internal operations, 12 stream records), and
the places an operation's bits are read from. -/

namespace Sys2Proof

/-- The operations. A width `b` is in `0..32` and a bucket number `k` in `0..31` by type (U8). -/
inductive Instr where
  /-- `RESET`, R212. -/
  | reset
  /-- `ENC.P`, R213. -/
  | encP
  /-- `ENC.D`, R214. -/
  | encD
  /-- `DEC.P`, R215. -/
  | decP
  /-- `DEC.D`, R216. -/
  | decD
  /-- `ILLEGAL`: any other command word, R81 and R217. -/
  | illegal (w : Word)
  /-- `VPACK128(v, b)`, R122. -/
  | vpack128 (b : Fin 33) (v : List Word)
  /-- `VUNPACK128(w, b)`, R123. -/
  | vunpack128 (b : Fin 33) (w : List Word)
  /-- `SPACK32(v, b)`, R124. -/
  | spack32 (b : Fin 33) (v : List Word)
  /-- `SUNPACK32(w, b)`, R125. -/
  | sunpack32 (b : Fin 33) (w : List Word)
  /-- `ES.CLEAR`, R143. -/
  | esClear
  /-- `ES.RESET`, R144. -/
  | esReset
  /-- `ES.ENSURE(k, n)`, R145. -/
  | esEnsure (k : Fin 32) (n : Word)
  /-- `ES.APPEND(k, x)`, R146. -/
  | esAppend (k : Fin 32) (x : Word)
  /-- `ES.WRITE`, R147. -/
  | esWrite
  /-- `ES.READ(p)`, R148. -/
  | esRead (p : Word)
  /-- `ES.GET(k)`, R149. -/
  | esGet (k : Fin 32)
  /-- `BLK.DELTA`, R161. -/
  | blkDelta
  /-- `BLK.HIST`, R162. -/
  | blkHist
  /-- `BLK.SELECT`, R163. -/
  | blkSelect
  /-- `BLK.EMIT`, R165. -/
  | blkEmit
  /-- `BLK.LOAD`, R166. -/
  | blkLoad
  /-- `BLK.STORE`, R167. -/
  | blkStore
  /-- `BLK.ENC`, R168. -/
  | blkEnc
  /-- `BLK.META`, R169. -/
  | blkMeta
  /-- `BLK.PATCH`, R170. -/
  | blkPatch
  /-- `BLK.PREFIX`, R171. -/
  | blkPrefix
  /-- `BLK.DEC`, R172. -/
  | blkDec
  /-- `ARR.ENC`, R190. -/
  | arrEnc
  /-- `PAGE.ENC(n)`, R191. -/
  | pageEnc (n : Word)
  /-- `BC.WRITE`, R192. -/
  | bcWrite
  /-- `ARR.DEC`, R193. -/
  | arrDec
  /-- `PAGE.DEC(n, h)`, R194. -/
  | pageDec (n h : Word)
  /-- `BC.READ(q)`, R195. -/
  | bcRead (q : Word)
  /-- `BC.PUT(x)`, R196. -/
  | bcPut (x : Byte)
  /-- `BC.GET()`, R197. -/
  | bcGet
  /-- The record `ARRAY_HDR`, R84: the length `L`. -/
  | arrayHdr (l : Word)
  /-- The record `PAGE_HDR`, R86: the word count `W`. -/
  | pageHdr (w : Word)
  /-- One word of the record `PAGE_PAD`, R86. -/
  | pagePad
  /-- The record `PACKED128(b)`, R87: `4*b` words. -/
  | packed128 (b : Fin 33) (ws : List Word)
  /-- The record `BC_SIZE`, R88: the byte count `BS`. -/
  | bcSize (bs : Word)
  /-- The record `BC_BYTES`, R89: the `BS` metadata bytes. -/
  | bcBytes (bytes : List Byte)
  /-- The record `META`, R90: `b`, `cexcept`, `maxb` (equal to `b` where the byte is absent, R169) and
  the positions. -/
  | metaRec (b c m : Byte) (pos : List Byte)
  /-- The record `ES_BITMAP`, R93. -/
  | esBitmap (m : Word)
  /-- The record `ES_COUNT` of bucket `k`, R94: the count `c_k`. -/
  | esCount (k : Fin 32) (c : Word)
  /-- One word of the record `ES_PAD`, R96. -/
  | esPad
  /-- One group of the record `ES_G128(k+1)` of bucket `k`, R95. -/
  | esG128 (k : Fin 32) (ws : List Word)
  /-- One group of the record `ES_G32(k+1)` of bucket `k`, R97, of whose 32 values the first `n` are
  residuals and the rest fill. -/
  | esG32 (k : Fin 32) (n : Fin 33) (ws : List Word)
deriving DecidableEq, Repr

/-- Which record stands at a place of the stream, with the context its layout depends on (R83 to R97:
the bits of a record do not tell its kind; log 14). -/
inductive Expect where
  | arrayHdr
  | pageHdr
  | pagePad
  | packed128 (b : Fin 33)
  | bcSize
  | bcBytes (n : Nat)
  | metaRec
  | esBitmap
  | esCount (k : Fin 32)
  | esPad
  | esG128 (k : Fin 32)
  | esG32 (k : Fin 32) (n : Fin 33)
deriving DecidableEq, Repr

/-- Where an operation's bits are read from: the command register (format C), the sequencer's
operation number (format I), or a place of the stream (format S); R81. -/
inductive Ctx where
  | command
  | internal
  | stream (e : Expect)
deriving DecidableEq, Repr

/-- The place an operation's encoding belongs to. -/
def Instr.ctx (i : Instr) : Ctx :=
  match i with
  | .reset | .encP | .encD | .decP | .decD | .illegal _ => .command
  | .vpack128 _ _ | .vunpack128 _ _ | .spack32 _ _ | .sunpack32 _ _ => .internal
  | .esClear | .esReset | .esEnsure _ _ | .esAppend _ _ | .esWrite | .esRead _ | .esGet _ => .internal
  | .blkDelta | .blkHist | .blkSelect | .blkEmit | .blkLoad | .blkStore | .blkEnc => .internal
  | .blkMeta | .blkPatch | .blkPrefix | .blkDec => .internal
  | .arrEnc | .pageEnc _ | .bcWrite | .arrDec | .pageDec _ _ | .bcRead _ | .bcPut _ | .bcGet => .internal
  | .arrayHdr _ => .stream .arrayHdr
  | .pageHdr _ => .stream .pageHdr
  | .pagePad => .stream .pagePad
  | .packed128 b _ => .stream (.packed128 b)
  | .bcSize _ => .stream .bcSize
  | .bcBytes bytes => .stream (.bcBytes bytes.length)
  | .metaRec _ _ _ _ => .stream .metaRec
  | .esBitmap _ => .stream .esBitmap
  | .esCount k _ => .stream (.esCount k)
  | .esPad => .stream .esPad
  | .esG128 k _ => .stream (.esG128 k)
  | .esG32 k n _ => .stream (.esG32 k n)

end Sys2Proof
end

