-- ==== Sys2Proof/WellFormed.lean ====
section
/-! DEFINITION. Which operations the encodings admit: group sizes (`40_vector_pack.md` R120, U8), the
five command words (`30_encoding.md` R80, R81), the ranges of a `META` record (R90, R104 items 5 and 6)
and the sizes of the stream groups (R87, R95, R97). Ranges of widths and bucket numbers hold by type. -/

namespace Sys2Proof

/-- The five command words of R80. -/
def legalCommandWords : List Word :=
  [0x00000000#32, 0x00000001#32, 0x00000101#32, 0x00000002#32, 0x00000102#32]

/-- The positions of a `META` record: each at most 127, strictly increasing (R90). -/
abbrev PositionsOk (pos : List Byte) : Prop :=
  pos.Pairwise (fun p q => p.toNat < q.toNat) ∧ ∀ p ∈ pos, p.toNat ≤ 127

/-- The field ranges of a `META` record (R90, R91). -/
abbrev MetaOk (b c m : Byte) (pos : List Byte) : Prop :=
  b.toNat ≤ 32 ∧ c.toNat ≤ 128 ∧ pos.length = c.toNat ∧ PositionsOk pos ∧
    (if c = 0#8 then m = b else b.toNat < m.toNat ∧ m.toNat ≤ 32)

/-- An operation the encodings admit. -/
def Instr.wf (i : Instr) : Bool :=
  match i with
  | .reset | .encP | .encD | .decP | .decD => true
  | .illegal w => decide (w ∉ legalCommandWords)
  | .vpack128 _ v => decide (v.length = 128)
  | .vunpack128 b w => decide (w.length = 4 * b.val)
  | .spack32 _ v => decide (v.length = 32)
  | .sunpack32 b w => decide (w.length = b.val)
  | .esClear | .esReset | .esEnsure _ _ | .esAppend _ _ | .esWrite | .esRead _ | .esGet _ => true
  | .blkDelta | .blkHist | .blkSelect | .blkEmit | .blkLoad | .blkStore | .blkEnc => true
  | .blkMeta | .blkPatch | .blkPrefix | .blkDec => true
  | .arrEnc | .pageEnc _ | .bcWrite | .arrDec | .pageDec _ _ | .bcRead _ | .bcPut _ | .bcGet => true
  | .arrayHdr _ | .pageHdr _ | .pagePad | .bcSize _ | .bcBytes _ => true
  | .packed128 b ws => decide (ws.length = 4 * b.val)
  | .metaRec b c m pos => decide (MetaOk b c m pos)
  | .esBitmap _ | .esCount _ _ | .esPad => true
  | .esG128 k ws => decide (ws.length = 4 * (k.val + 1))
  | .esG32 k n ws => decide (ws.length = k.val + 1 ∧ 1 ≤ n.val)

end Sys2Proof
end

