-- ==== Sys2Proof/Decode.lean ====
section
/-! DEFINITION. The encodings of `30_encoding.md`: the decoder (total on any bytes, rejecting by name)
and, after it, the encoder. Format C is the 32-bit command word (R80), format I the 8-bit operation
number (R81) followed by the operand bytes (DESIGN CHOICE, log 9), format S the stream records (R83 to
R97), whose kind is told by their place (log 14). -/

namespace Sys2Proof

open Sys2Proof.Machine

/-- Why bytes are no operation. -/
inductive DecodeError where
  /-- The bytes end before the operation does. Safe: nothing is run. -/
  | truncated
  /-- No internal operation has this number (R81). Safe: nothing is run. -/
  | noSuchCode (code : Byte)
  /-- A width operand above 32 (U8). Safe: nothing is run. -/
  | widthRange (b : Byte)
  /-- A bucket operand above 31 (R141). Safe: nothing is run. -/
  | bucketRange (k : Byte)
  /-- The fields of a stream record are out of range (R90, R97, R104). Safe: nothing is run. -/
  | fieldRange
deriving DecidableEq, Repr

/-- The command of a 32-bit command word (R80, R81): total, every other word is `ILLEGAL`. -/
def decodeCommand (w : Word) : Instr :=
  if w = 0x00000000#32 then .reset
  else if w = 0x00000001#32 then .encP
  else if w = 0x00000101#32 then .encD
  else if w = 0x00000002#32 then .decP
  else if w = 0x00000102#32 then .decD
  else .illegal w

/-- The next word of a byte sequence (R52). -/
def takeWord : List Byte → Except DecodeError (Word × List Byte)
  | a :: b :: c :: d :: rest => .ok (ofLe a b c d, rest)
  | _ => .error .truncated

/-- The next byte. -/
def takeByte : List Byte → Except DecodeError (Byte × List Byte)
  | a :: rest => .ok (a, rest)
  | [] => .error .truncated

/-- The next `n` words. -/
def takeWords : Nat → List Byte → Except DecodeError (List Word × List Byte)
  | 0, bs => .ok ([], bs)
  | n + 1, bs =>
    match takeWord bs with
    | .error e => .error e
    | .ok (w, rest) =>
      match takeWords n rest with
      | .error e => .error e
      | .ok (ws, rest') => .ok (w :: ws, rest')

/-- The next `n` bytes. -/
def takeBytes (n : Nat) (bs : List Byte) : Except DecodeError (List Byte × List Byte) :=
  if n ≤ bs.length then .ok (bs.take n, bs.drop n) else .error .truncated

/-- Continue with what was read. -/
def andThen {α β : Type} (r : Except DecodeError (α × List Byte))
    (k : α → List Byte → Except DecodeError β) : Except DecodeError β :=
  match r with
  | .error e => .error e
  | .ok (a, rest) => k a rest

/-- A width operand, `0..32` (R120). -/
def takeWidth (bs : List Byte) : Except DecodeError (Fin 33 × List Byte) :=
  andThen (takeByte bs) fun b rest =>
    if h : b.toNat < 33 then .ok (⟨b.toNat, h⟩, rest) else .error (.widthRange b)

/-- A bucket operand, `0..31` (R141). -/
def takeBucket (bs : List Byte) : Except DecodeError (Fin 32 × List Byte) :=
  andThen (takeByte bs) fun k rest =>
    if h : k.toNat < 32 then .ok (⟨k.toNat, h⟩, rest) else .error (.bucketRange k)

/-- The operands of an internal operation, after its number (log 9). -/
def decodeOperands (code : Nat) (bs : List Byte) : Except DecodeError (Instr × List Byte) :=
  match code with
  | 0x10 => andThen (takeWidth bs) fun b r => andThen (takeWords 128 r) fun v r' => .ok (.vpack128 b v, r')
  | 0x11 => andThen (takeWidth bs) fun b r => andThen (takeWords (4 * b.val) r) fun w r' => .ok (.vunpack128 b w, r')
  | 0x12 => andThen (takeWidth bs) fun b r => andThen (takeWords 32 r) fun v r' => .ok (.spack32 b v, r')
  | 0x13 => andThen (takeWidth bs) fun b r => andThen (takeWords b.val r) fun w r' => .ok (.sunpack32 b w, r')
  | 0x20 => .ok (.esClear, bs)
  | 0x21 => .ok (.esReset, bs)
  | 0x22 => andThen (takeBucket bs) fun k r => andThen (takeWord r) fun n r' => .ok (.esEnsure k n, r')
  | 0x23 => andThen (takeBucket bs) fun k r => andThen (takeWord r) fun x r' => .ok (.esAppend k x, r')
  | 0x24 => .ok (.esWrite, bs)
  | 0x25 => andThen (takeWord bs) fun p r => .ok (.esRead p, r)
  | 0x26 => andThen (takeBucket bs) fun k r => .ok (.esGet k, r)
  | 0x30 => .ok (.blkDelta, bs)
  | 0x31 => .ok (.blkHist, bs)
  | 0x32 => .ok (.blkSelect, bs)
  | 0x33 => .ok (.blkEmit, bs)
  | 0x34 => .ok (.blkLoad, bs)
  | 0x35 => .ok (.blkStore, bs)
  | 0x36 => .ok (.blkEnc, bs)
  | 0x37 => .ok (.blkMeta, bs)
  | 0x38 => .ok (.blkPatch, bs)
  | 0x39 => .ok (.blkPrefix, bs)
  | 0x3A => .ok (.blkDec, bs)
  | 0x40 => .ok (.arrEnc, bs)
  | 0x41 => andThen (takeWord bs) fun n r => .ok (.pageEnc n, r)
  | 0x42 => .ok (.bcWrite, bs)
  | 0x43 => .ok (.arrDec, bs)
  | 0x44 => andThen (takeWord bs) fun n r => andThen (takeWord r) fun h r' => .ok (.pageDec n h, r')
  | 0x45 => andThen (takeWord bs) fun q r => .ok (.bcRead q, r)
  | 0x46 => andThen (takeByte bs) fun x r => .ok (.bcPut x, r)
  | 0x47 => .ok (.bcGet, bs)
  | _ => .error (.noSuchCode (BitVec.ofNat 8 code))

/-- A `META` record: two bytes, or three and the positions (R90, R91). -/
def decodeMeta (bs : List Byte) : Except DecodeError (Instr × List Byte) :=
  andThen (takeByte bs) fun b r =>
    andThen (takeByte r) fun c r =>
      if c = 0#8 then
        if MetaOk b c b [] then .ok (.metaRec b c b [], r) else .error .fieldRange
      else
        andThen (takeByte r) fun m r =>
          andThen (takeBytes c.toNat r) fun pos r =>
            if MetaOk b c m pos then .ok (.metaRec b c m pos, r) else .error .fieldRange

/-- The record that stands at a place of the stream (R84 to R97). Padding words and pad bytes are not
examined (D7). -/
def decodeRecord (e : Expect) (bs : List Byte) : Except DecodeError (Instr × List Byte) :=
  match e with
  | .arrayHdr => andThen (takeWord bs) fun w r => .ok (.arrayHdr w, r)
  | .pageHdr => andThen (takeWord bs) fun w r => .ok (.pageHdr w, r)
  | .pagePad => andThen (takeWord bs) fun _ r => .ok (.pagePad, r)
  | .packed128 b => andThen (takeWords (4 * b.val) bs) fun ws r => .ok (.packed128 b ws, r)
  | .bcSize => andThen (takeWord bs) fun w r => .ok (.bcSize w, r)
  | .bcBytes n => andThen (takeBytes (4 * ceilDiv n 4) bs) fun bytes r => .ok (.bcBytes (bytes.take n), r)
  | .metaRec => decodeMeta bs
  | .esBitmap => andThen (takeWord bs) fun w r => .ok (.esBitmap w, r)
  | .esCount k => andThen (takeWord bs) fun w r => .ok (.esCount k w, r)
  | .esPad => andThen (takeWord bs) fun _ r => .ok (.esPad, r)
  | .esG128 k => andThen (takeWords (4 * (k.val + 1)) bs) fun ws r => .ok (.esG128 k ws, r)
  | .esG32 k n =>
    andThen (takeWords (k.val + 1) bs) fun ws r =>
      if 1 ≤ n.val then .ok (.esG32 k n ws, r) else .error .fieldRange

/-- The decoder: the operation at the head of a byte sequence, read at the given place, and the bytes
after it. -/
def decode (c : Ctx) (bs : List Byte) : Except DecodeError (Instr × List Byte) :=
  match c with
  | .command => andThen (takeWord bs) fun w r => .ok (decodeCommand w, r)
  | .internal => andThen (takeByte bs) fun code r => decodeOperands code.toNat r
  | .stream e => decodeRecord e bs

/-- The words of a stream record as the encoder lays them out (R84 to R97); padding is 0 (D7). A
`META` record lies in the byte container and has no words of its own (R90). -/
def recWords (i : Instr) : List Word :=
  match i with
  | .arrayHdr l => [l]
  | .pageHdr w => [w]
  | .pagePad => [0#32]
  | .packed128 _ ws => ws
  | .bcSize bs => [bs]
  | .bcBytes bytes => packBytes bytes
  | .esBitmap m => [m]
  | .esCount _ c => [c]
  | .esPad => [0#32]
  | .esG128 _ ws => ws
  | .esG32 _ _ ws => ws
  | .metaRec _ _ _ _ => []
  | .reset | .encP | .encD | .decP | .decD | .illegal _ => []
  | .vpack128 _ _ | .vunpack128 _ _ | .spack32 _ _ | .sunpack32 _ _ => []
  | .esClear | .esReset | .esEnsure _ _ | .esAppend _ _ | .esWrite | .esRead _ | .esGet _ => []
  | .blkDelta | .blkHist | .blkSelect | .blkEmit | .blkLoad | .blkStore | .blkEnc => []
  | .blkMeta | .blkPatch | .blkPrefix | .blkDec => []
  | .arrEnc | .pageEnc _ | .bcWrite | .arrDec | .pageDec _ _ | .bcRead _ | .bcPut _ | .bcGet => []

/-- The words of stream records in order (R83). -/
abbrev wordsOf (rs : List Instr) : List Word := rs.flatMap recWords

/-- The bytes of a `META` record (R90, R91). -/
def metaBytes (b c m : Byte) (pos : List Byte) : List Byte :=
  if c = 0#8 then [b, c] else b :: c :: m :: pos

/-- A width or bucket operand as a byte. -/
def smallByte (n : Nat) : Byte := BitVec.ofNat 8 n

/-- The encoder: the bytes of an operation in memory order. -/
def encode (i : Instr) : List Byte :=
  match i with
  | .reset => leBytes 0x00000000#32
  | .encP => leBytes 0x00000001#32
  | .encD => leBytes 0x00000101#32
  | .decP => leBytes 0x00000002#32
  | .decD => leBytes 0x00000102#32
  | .illegal w => leBytes w
  | .vpack128 b v => 0x10#8 :: smallByte b.val :: bytesOfWords v
  | .vunpack128 b w => 0x11#8 :: smallByte b.val :: bytesOfWords w
  | .spack32 b v => 0x12#8 :: smallByte b.val :: bytesOfWords v
  | .sunpack32 b w => 0x13#8 :: smallByte b.val :: bytesOfWords w
  | .esClear => [0x20#8]
  | .esReset => [0x21#8]
  | .esEnsure k n => 0x22#8 :: smallByte k.val :: leBytes n
  | .esAppend k x => 0x23#8 :: smallByte k.val :: leBytes x
  | .esWrite => [0x24#8]
  | .esRead p => 0x25#8 :: leBytes p
  | .esGet k => [0x26#8, smallByte k.val]
  | .blkDelta => [0x30#8]
  | .blkHist => [0x31#8]
  | .blkSelect => [0x32#8]
  | .blkEmit => [0x33#8]
  | .blkLoad => [0x34#8]
  | .blkStore => [0x35#8]
  | .blkEnc => [0x36#8]
  | .blkMeta => [0x37#8]
  | .blkPatch => [0x38#8]
  | .blkPrefix => [0x39#8]
  | .blkDec => [0x3A#8]
  | .arrEnc => [0x40#8]
  | .pageEnc n => 0x41#8 :: leBytes n
  | .bcWrite => [0x42#8]
  | .arrDec => [0x43#8]
  | .pageDec n h => 0x44#8 :: (leBytes n ++ leBytes h)
  | .bcRead q => 0x45#8 :: leBytes q
  | .bcPut x => [0x46#8, x]
  | .bcGet => [0x47#8]
  | .metaRec b c m pos => metaBytes b c m pos
  | .arrayHdr _ | .pageHdr _ | .pagePad | .packed128 _ _ | .bcSize _ | .bcBytes _ => bytesOfWords (recWords i)
  | .esBitmap _ | .esCount _ _ | .esPad | .esG128 _ _ | .esG32 _ _ _ => bytesOfWords (recWords i)

/-- Room for the longest operation with zero operands: a number, a width and 128 words. -/
def operandRoom : List Byte := List.replicate 513 0#8

/-- The bytes of a table row of `nbits` bits with value `w`, and the place it is read at: 8 bits are an
operation number whose operand bytes are 0 (format I), 32 bits a command word (format C). The words of
the records `PAGE_PAD` and `ES_PAD` are 0, the command word of `RESET`; a place of the stream, which
would tell them apart, is not part of the number (log 15). -/
def tableBytes (nbits w : Nat) : Option (Ctx × List Byte) :=
  match nbits with
  | 8 => some (.internal, BitVec.ofNat 8 w :: operandRoom)
  | 32 => some (.command, leBytes (BitVec.ofNat 32 w))
  | _ => none

/-- The operation the decoder reads from a table row's bits. -/
def decodeTableWord (nbits w : Nat) : Option Instr :=
  match tableBytes nbits w with
  | none => none
  | some (c, bs) =>
    match decode c bs with
    | .ok (i, _) => some i
    | .error _ => none

end Sys2Proof
end

