-- ==== Sys2Proof/Config.lean ====
section
/-! DEFINITION. What is fixed for the life of one codec instance (`00_scope.md` R5, R6), and the free
values: constants without a body, of which nothing can be proved (`93_implementation_defined.md` U2). -/

namespace Sys2Proof

/-- The parameters an instance takes (R6). Each legal range is a proof field, so a parameter set that
the spec refuses (U11) cannot be built. `ADDR_W` is OPEN in the spec (D24). -/
structure Params where
  /-- `PAGE_SIZE`: the most values of one page. -/
  pageSize : Nat
  /-- `ADDR_W`: the width of a byte address. -/
  addrW : Nat
  /-- `ES_DEFAULT_CAP`: the capacity of a bucket after `ES.RESET`. -/
  esDefaultCap : Nat
  pageSize_blocks : pageSize % 128 = 0
  pageSize_min : 128 ≤ pageSize
  pageSize_max : pageSize ≤ 2 ^ 31
  esDefaultCap_blocks : esDefaultCap % 128 = 0
  esDefaultCap_pos : 0 < esDefaultCap
deriving DecidableEq, Repr

/-- The defaults of R6. `ADDR_W = 64` is a DESIGN CHOICE (log 1): the spec leaves it OPEN. -/
def Params.standard : Params where
  pageSize := 65536
  addrW := 64
  esDefaultCap := 128
  pageSize_blocks := by decide
  pageSize_min := by decide
  pageSize_max := by decide
  esDefaultCap_blocks := by decide
  esDefaultCap_pos := by decide

/-- What byte address `a` holds where the spec leaves the contents of `DST` unspecified (U2: after
`BufferOverrun`, and after a hardware reset during a command). The first argument is the counter
`State.freeCtr`. FREE VALUE (log 11). -/
opaque Config.freeByte : Nat → Nat → Byte

/-- The `maxb` of a histogram without a nonzero counter: the maximum of the empty set in R163. The
argument is the counter `State.freeCtr`. FREE VALUE (log 12). -/
opaque Config.freeWidth : Nat → Fin 33

end Sys2Proof
end

