-- ==== Sys2Proof/Machine/State.lean ====
section
/-! DEFINITION. The state of one codec instance (`10_state.md` R20), with what the spec makes an
argument of the step beside it (the external memory, the parameters, the host's choices), the reasons a
step can stop, and the state after hardware reset (`70_reset_and_hazards.md` R260). -/

namespace Sys2Proof.Machine

/-- `PHASE` (R24). -/
inductive Phase where
  | idle
  | run
deriving DecidableEq, Repr

/-- The result codes of `STATUS.ERR` (R31, R230); the codes 6 and 7 are never produced. -/
inductive ErrCode where
  | ok
  | alignment
  | invalidLength
  | insufficientStorage
  | bufferOverrun
  | illegalCommand
deriving DecidableEq, Repr

/-- The fields of `STATUS` (R31). Its other bits read as 0. -/
structure Status where
  busy : Bool
  done : Bool
  err : ErrCode
deriving DecidableEq, Repr

/-- An error a command raises (R230), with the payload of `InsufficientStorage`. -/
inductive Error where
  | alignment
  | invalidLength
  | insufficientStorage (required : Word)
  | bufferOverrun
  | illegalCommand
deriving DecidableEq, Repr

/-- Which check of R104 a stream fails. -/
inductive Malformed where
  /-- Item 1: a read at or beyond `SRC_LEN` (R58). -/
  | streamEnd
  /-- Item 2: `L mod 128` is not 0. -/
  | arrayLength
  /-- Item 3: `W < 1 + p`. -/
  | pageWords
  /-- Item 3: `BS > BC_CAP`. -/
  | containerSize
  /-- Item 4: a bucket count of 0 or above the bound of R37. -/
  | bucketCount
  /-- Item 5: a record head beyond the metadata bytes. -/
  | metaEnd
  /-- Item 5: `b > 32` or `cexcept > 128`. -/
  | metaHead
  /-- Item 6: `maxb` or positions beyond the metadata bytes. -/
  | exceptionEnd
  /-- Item 6: not `b < maxb <= 32`. -/
  | metaMaxb
  /-- Item 6: a position above 127 or out of order. -/
  | position
  /-- Item 7: a bucket without a residual left (R149). -/
  | bucketEnd
  /-- Item 8: the block area does not end at the `BS` word (R194). -/
  | areaEnd
  /-- `BC.GET` at the end of the container (R197). -/
  | containerEnd
  /-- A record whose fields the encoding does not admit, or whose bytes end too early, met where a record
  is issued alone (R90, R97). DESIGN CHOICE that this faults whatever `CMD` holds (log 31). -/
  | recordFields
deriving DecidableEq, Repr

/-- Why the machine stops with a fault. -/
inductive Fault where
  /-- The stream is not well formed (R103, R104, U1): raised by the parse operations. Safe: the spec
  gives no behaviour, and no state follows. -/
  | malformed (why : Malformed)
  /-- An access at or beyond `2^ADDR_W`, where there is no byte (R50), raised by every memory access. No
  launched command reaches it (R61). That it faults is DEDUCED for an internal operation run alone (log 18)
  and a DESIGN CHOICE for a host access (log 30). Safe: no state follows. -/
  | outsideMemory
  /-- `BC.PUT` with `BC.len = BC_CAP`: the byte does not exist (R35, R196). No command reaches it.
  Safe: no state follows. -/
  | containerFull
  /-- `maxb - b - 1` is not in `0..31` where a bucket is used (R141). No command reaches it. Safe: no
  state follows. -/
  | noSuchBucket
deriving DecidableEq, Repr

/-- Why the machine refuses to go on. -/
inductive Refusal where
  /-- An arm of `exec` without a meaning. No arm answers it. -/
  | notModelled (mnemonic : String)
  /-- `SRC` or `DST` wraps past the top of the address space (R61 (a), U6): raised by ENC and DEC.
  Safe. -/
  | bufferWraps
  /-- `SRC` and `DST` overlap (R61 (b), U6): raised by ENC and DEC. Safe. -/
  | buffersOverlap
  /-- The host wrote `SRC` or `DST`, or read `DST`, while `BUSY = 1` (R62, R269, U6): raised by host
  actions. Safe. -/
  | bufferLent
  /-- A pack engine group that is not 128 or 32 values, or not the words of its width (R127, U8):
  raised by the four engine operations and the group records. Safe. -/
  | groupSize
  /-- A stream record outside ENC and DEC (log 13): raised by the twelve records. Safe. -/
  | noStream
  /-- The sequencer's bytes are no operation (R81): raised by `step`. Safe. -/
  | noOperation
deriving DecidableEq, Repr

/-- The four argument registers (R25). -/
inductive ArgReg where
  | srcBase
  | srcLen
  | dstBase
  | dstCap
deriving DecidableEq, Repr

/-- The eight host registers `CR0..CR7` (R25). -/
inductive HostReg where
  | cmd
  | arg (r : ArgReg)
  | status
  | result
  | required
deriving DecidableEq, Repr

/-- What the host does (R12, R82, R261, R268). The registers it may not write are left out by type
(R25; log 20). -/
inductive HostAction where
  /-- A write of an argument register. -/
  | writeArg (r : ArgReg) (v : Nat)
  /-- A write of `CMD`. -/
  | writeCmd (w : Word)
  /-- A read of a register. -/
  | readReg (r : HostReg)
  /-- A write of one byte of external memory. -/
  | writeMem (a : Nat) (v : Byte)
  /-- A read of one byte of external memory. -/
  | readMem (a : Nat)
  /-- The pseudo-operation `WAIT`: poll `STATUS` until `DONE = 1`. -/
  | wait
  /-- Hardware reset. -/
  | hardReset
  /-- The host does nothing while the instance goes on. -/
  | idle
deriving DecidableEq, Repr

/-- One bucket of the exception store (R36). `ES.cnt` is the length of `val` (U4; log 4). -/
structure Bucket where
  val : List Word
  cap : Nat
  rd : Nat
deriving DecidableEq, Repr

/-- The state. The fields up to `mp` are the tuple of R20. -/
structure State where
  /-- `CMD` (R26). -/
  cmd : Word
  /-- `SRC_BASE` (R27), a number below `2^ADDR_W`. -/
  srcBase : Nat
  /-- `SRC_LEN` (R28). -/
  srcLen : Word
  /-- `DST_BASE` (R29), a number below `2^ADDR_W`. -/
  dstBase : Nat
  /-- `DST_CAP` (R30). -/
  dstCap : Word
  /-- `STATUS` (R31). -/
  status : Status
  /-- `RESULT` (R32). -/
  result : Word
  /-- `REQUIRED` (R33). -/
  required : Word
  /-- `BLK[0..127]` (R22). -/
  blk : Vector Word 128
  /-- `FREQ[0..32]` (R23). -/
  freq : Vector (BitVec 8) 33
  /-- `SEL.b` (R23). -/
  selB : BitVec 6
  /-- `SEL.cexcept` (R23). -/
  selC : BitVec 8
  /-- `SEL.maxb` (R23). -/
  selM : BitVec 6
  /-- `DPREV[0..3]` (R34). -/
  dprev : Vector Word 4
  /-- `BC.mem[0 .. BC.len)` (R35); `BC.len` is its length (U4; log 4). -/
  bcMem : List Byte
  /-- `BC.rd` (R35). -/
  bcRd : Nat
  /-- The exception store's 32 buckets (R36). -/
  es : Vector Bucket 32
  /-- `PHASE` (R24). -/
  phase : Phase
  /-- `DELTA_EN` (R24). -/
  deltaEn : Bool
  /-- `IC` (R24). -/
  ic : Nat
  /-- `OC` (R24). -/
  oc : Nat
  /-- `REM` (R24). -/
  rem : Word
  /-- `HDR` (R24). -/
  hdr : Nat
  /-- `MP` (R24). -/
  mp : Nat
  /-- The parameters (R6), fixed for the life of the instance. -/
  cfg : Params
  /-- The external memory (R50), in canonical form: addresses strictly rising, no byte listed that
  equals what an unlisted address reads as. -/
  mem : List Host.Cell
  /-- The operation the sequencer issues next: the latched command word (R210), or any other operation
  with the place its bytes are read at (log 8). The model's own. -/
  issue : Option (Ctx × List Byte)
  /-- The host's actions, next one first (log 7). -/
  host : List HostAction
  /-- What the host has read, newest first (log 7). The model's own. -/
  hostLog : List Nat
  /-- What the last internal operation returned (log 10). The model's own. -/
  ret : List Word
  /-- The counter free values are drawn with (log 11). The model's own. -/
  freeCtr : Nat
deriving DecidableEq, Repr

/-- An empty bucket with the default capacity (R36, R144). -/
def Bucket.empty (p : Params) : Bucket := { val := [], cap := p.esDefaultCap, rd := 0 }

/-- The instance after hardware reset, for parameters `p`, memory `m` and host actions `h` (R260).
What R260 leaves unspecified (`BLK`, `FREQ`, `SEL`, the cursors) is 0: DESIGN CHOICE, log 3. -/
def State.fresh (p : Params) (m : List Host.Cell) (h : List HostAction) (log : List Nat) (free : Nat) : State where
  cmd := 0#32
  srcBase := 0
  srcLen := 0#32
  dstBase := 0
  dstCap := 0#32
  status := { busy := false, done := false, err := .ok }
  result := 0#32
  required := 0#32
  blk := Vector.replicate 128 0#32
  freq := Vector.replicate 33 0#8
  selB := 0#6
  selC := 0#8
  selM := 0#6
  dprev := Vector.replicate 4 0#32
  bcMem := []
  bcRd := 0
  es := Vector.replicate 32 (Bucket.empty p)
  phase := .idle
  deltaEn := false
  ic := 0
  oc := 0
  rem := 0#32
  hdr := 0
  mp := 0
  cfg := p
  mem := m
  issue := none
  host := h
  hostLog := log
  ret := []
  freeCtr := free

/-- The machine after hardware reset (R260), with the default parameters (R6), nothing in memory and no
host action pending. -/
def State.reset : State := State.fresh Params.standard [] [] [] 0

end Sys2Proof.Machine
end

