-- ==== Sys2Proof/Machine/Flags.lean ====
section
/-! DEFINITION. The flags: `STATUS` as the host reads it (`10_state.md` R31, R38) and the error codes
(`60_exceptions.md` R230). No data path operation writes a flag (R38). -/

namespace Sys2Proof.Machine

/-- The number of a result code in `STATUS.ERR` (R31, R230). -/
def ErrCode.number : ErrCode → BitVec 3
  | .ok => 0#3
  | .alignment => 1#3
  | .invalidLength => 2#3
  | .insufficientStorage => 3#3
  | .bufferOverrun => 4#3
  | .illegalCommand => 5#3

/-- The result code of an error (R230). -/
def Error.code : Error → ErrCode
  | .alignment => .alignment
  | .invalidLength => .invalidLength
  | .insufficientStorage _ => .insufficientStorage
  | .bufferOverrun => .bufferOverrun
  | .illegalCommand => .illegalCommand

/-- What an error records in `REQUIRED` (R233, R236). -/
def Error.required : Error → Word
  | .insufficientStorage l => l
  | .alignment | .invalidLength | .bufferOverrun | .illegalCommand => 0#32

/-- `STATUS` as one word: `BUSY` in bit 0, `DONE` in bit 1, `ERR` in bits 4:2, the rest 0 (R31). -/
def Status.word (t : Status) : Word :=
  0#27 ++ t.err.number ++ BitVec.ofBool t.done ++ BitVec.ofBool t.busy

/-- The flags while a command runs (R210, R268). -/
def Status.running : Status := { busy := true, done := false, err := .ok }

/-- The flags after a command ended with a result code (R210, R236). -/
def Status.ended (c : ErrCode) : Status := { busy := false, done := true, err := c }

end Sys2Proof.Machine
end

