-- ==== Sys2Proof/Machine/Operands.lean ====
section
/-! DEFINITION. The operand forms: the word addresses of the two buffers, the fields of the command
word, the bounds computed from the parameters, bucket numbers, and the checks on the argument
registers. -/

namespace Sys2Proof.Machine

/-- The byte address of word `i` of `SRC` (R11, R58). -/
def srcAddr (s : State) (i : Nat) : Nat := s.srcBase + 4 * i

/-- The byte address of word `j` of `DST` (R11, R57, R59). -/
def dstAddr (s : State) (j : Nat) : Nat := s.dstBase + 4 * j

/-- `BC_CAP = PAGE_SIZE + 3*PAGE_SIZE/128` (R6, R35). -/
def bcCap (p : Params) : Nat := p.pageSize + 3 * p.pageSize / 128

/-- The most residuals of one bucket in one page, `102 * PAGE_SIZE / 128` (R37). -/
def bucketBound (p : Params) : Nat := 102 * p.pageSize / 128

/-- The bucket `maxb - b - 1` of a block, where it is one of the 32 (R141). -/
def bucketIndex (b m : Nat) : Option (Fin 32) :=
  if h : b < m ∧ m - b - 1 < 32 then some ⟨m - b - 1, h.2⟩ else none

/-- What stream the command in `CMD` codes: ENC produces one, DEC parses one (R80). -/
inductive Coding where
  | produce
  | parse
  | none
deriving DecidableEq, Repr

/-- The coding of a command word (R80). -/
def codingOf (w : Word) : Coding :=
  if w = 0x00000001#32 ∨ w = 0x00000101#32 then .produce
  else if w = 0x00000002#32 ∨ w = 0x00000102#32 then .parse
  else .none

/-- One of the buffers is not on a 16-byte boundary (R55, R231). -/
abbrev Misaligned (s : State) : Prop := s.srcBase % 16 ≠ 0 ∨ s.dstBase % 16 ≠ 0

/-- A buffer wraps past the top of the address space: R61 (a) does not hold. -/
abbrev Wraps (s : State) : Prop :=
  2 ^ s.cfg.addrW < s.srcBase + 4 * s.srcLen.toNat ∨ 2 ^ s.cfg.addrW < s.dstBase + 4 * s.dstCap.toNat

/-- The byte ranges of the two buffers have a byte in common: R61 (b) does not hold. An empty range
has no byte. -/
abbrev Overlaps (s : State) : Prop :=
  s.srcLen ≠ 0#32 ∧ s.dstCap ≠ 0#32 ∧
    s.srcBase < s.dstBase + 4 * s.dstCap.toNat ∧ s.dstBase < s.srcBase + 4 * s.srcLen.toNat

/-- The launch of ENC and DEC is refused when R61 does not hold (R249 (c), U6; log 17). -/
def launchRefusal (s : State) : Option Refusal :=
  if Wraps s then some .bufferWraps else if Overlaps s then some .buffersOverlap else none

/-- Byte address `a` is in `SRC` (R61). -/
abbrev InSrc (s : State) (a : Nat) : Prop := s.srcBase ≤ a ∧ a < s.srcBase + 4 * s.srcLen.toNat

/-- Byte address `a` is in `DST` (R61). -/
abbrev InDst (s : State) (a : Nat) : Prop := s.dstBase ≤ a ∧ a < s.dstBase + 4 * s.dstCap.toNat

end Sys2Proof.Machine
end

