-- ==== Sys2Proof/Machine/Ops.lean ====
section
/-! DEFINITION. The named operations over memory and registers that every meaning is made of: the
external memory (`20_memory.md`), the three ways an operation ends, the output and input primitives
`Emit`, `SrcWord`, `DstVal` (R57 to R59), the instance reset (`44_commands.md` R211), acceptance and
completion of a command (R210), and raising an error (`60_exceptions.md` R236). An error needs no
return: the next acceptance acknowledges it (R237). -/

namespace Sys2Proof.Machine

/-! ### External memory -/

/-- What a byte that nothing has written reads as. DESIGN CHOICE (log 2). -/
def memDefault : Byte := 0#8

/-- `Mem[a]` (R52). -/
def Memory.read (m : List Host.Cell) (a : Nat) : Byte :=
  match m with
  | [] => memDefault
  | (b, v) :: rest => if a = b then v else if a < b then memDefault else Memory.read rest a

/-- `Mem[a] <- v` (R52), keeping the canonical form. -/
def Memory.write (m : List Host.Cell) (a : Nat) (v : Byte) : List Host.Cell :=
  match m with
  | [] => if v = memDefault then [] else [(a, v)]
  | (b, w) :: rest =>
    if a < b then (if v = memDefault then (b, w) :: rest else (a, v) :: (b, w) :: rest)
    else if a = b then (if v = memDefault then rest else (a, v) :: rest)
    else (b, w) :: Memory.write rest a v

/-- The canonical form: addresses strictly rising, no byte listed that reads so unlisted. -/
abbrev Memory.wf (m : List Host.Cell) : Prop :=
  m.Pairwise (fun c d => c.1 < d.1) ∧ ∀ c ∈ m, c.2 ≠ memDefault

/-- `MemRead(a, 4)`, little-endian (R52). -/
def Memory.readWord (m : List Host.Cell) (a : Nat) : Word :=
  ofLe (Memory.read m a) (Memory.read m (a + 1)) (Memory.read m (a + 2)) (Memory.read m (a + 3))

/-- `MemWrite(a, 4, v)`, little-endian (R52). -/
def Memory.writeWord (m : List Host.Cell) (a : Nat) (v : Word) : List Host.Cell :=
  Memory.write (Memory.write (Memory.write (Memory.write m a (byteOf v 0)) (a + 1) (byteOf v 1))
    (a + 2) (byteOf v 2)) (a + 3) (byteOf v 3)

/-- Consecutive words written from address `a` on (R11). -/
def Memory.writeWords (m : List Host.Cell) (a : Nat) (ws : List Word) : List Host.Cell :=
  match ws with
  | [] => m
  | w :: rest => Memory.writeWords (Memory.writeWord m a w) (a + 4) rest

/-- The `n` consecutive words from address `a` on (R11). -/
def Memory.readWords (m : List Host.Cell) (a n : Nat) : List Word :=
  (List.range n).map fun i => Memory.readWord m (a + 4 * i)

/-- The `n` bytes from address `a` on hold free values (U2; log 11). -/
def Memory.fillFree (ctr : Nat) (m : List Host.Cell) (a n : Nat) : List Host.Cell :=
  match n with
  | 0 => m
  | n + 1 => Memory.fillFree ctr (Memory.write m a (Config.freeByte ctr a)) (a + 1) n

/-! ### How an operation ends -/

/-- How a part of a command ends: with a value, with an error (R236), or with a fault. -/
inductive Res (α : Type) where
  | ok (a : α) (s : State)
  | raised (e : Error) (s : State)
  | stop (f : Fault)

/-- What follows an operation that ended with a value. -/
def Res.bind {α β : Type} (r : Res α) (k : α → State → Res β) : Res β :=
  match r with
  | .ok a s => k a s
  | .raised e s => .raised e s
  | .stop f => .stop f

/-- What follows a read, which may fault. -/
def Res.need {α β : Type} (r : Except Fault α) (k : α → Res β) : Res β :=
  match r with
  | .ok a => k a
  | .error f => .stop f

/-- `n` executions of one operation, one after the other. -/
def Res.times (f : State → Res Unit) : Nat → State → Res Unit
  | 0, s => .ok () s
  | n + 1, s => (f s).bind fun _ s => Res.times f n s

/-! ### Buffers -/

/-- Store one word of external memory (R52); no address is at or beyond `2^ADDR_W` (R50). -/
def putWord (a : Nat) (v : Word) (s : State) : Res Unit :=
  if 2 ^ s.cfg.addrW < a + 4 then .stop .outsideMemory
  else .ok () { s with mem := Memory.writeWord s.mem a v }

/-- `Emit(v)`: the check comes before the write (R57). -/
def emit (v : Word) (s : State) : Res Unit :=
  if s.dstCap.toNat ≤ s.oc then .raised .bufferOverrun s
  else (putWord (dstAddr s s.oc) v s).bind fun _ s => .ok () { s with oc := s.oc + 1 }

/-- `Emit` of each word in order. -/
def emitAll : List Word → State → Res Unit
  | [], s => .ok () s
  | w :: ws, s => (emit w s).bind fun _ s => emitAll ws s

/-- `Emit` of the words of stream records in order (R83). -/
def emitRecords (rs : List Instr) (s : State) : Res Unit := emitAll (wordsOf rs) s

/-- `SrcWord(i)` during DEC (R58). -/
def srcWord (s : State) (i : Nat) : Except Fault Word :=
  if s.srcLen.toNat ≤ i then .error (.malformed .streamEnd)
  else if 2 ^ s.cfg.addrW < srcAddr s i + 4 then .error .outsideMemory
  else .ok (Memory.readWord s.mem (srcAddr s i))

/-- `SrcWord(i .. i + n)`, each read guarded by R58 (R148). -/
def srcWords (s : State) (i : Nat) : Nat → Except Fault (List Word)
  | 0 => .ok []
  | n + 1 =>
    match srcWord s i with
    | .error f => .error f
    | .ok w =>
      match srcWords s (i + 1) n with
      | .error f => .error f
      | .ok ws => .ok (w :: ws)

/-! ### Reset, acceptance, completion, errors -/

/-- `INST.RESET` (R211): `ES.RESET`, an empty container, a zero delta state. -/
def instReset (s : State) : State :=
  { s with
    es := Vector.replicate 32 (Bucket.empty s.cfg)
    bcMem := []
    bcRd := 0
    dprev := Vector.replicate 4 0#32 }

/-- `accept(word)` (R210). The argument registers are their own latches: no write reaches them while
`BUSY = 1` (R268; log 16). `DELTA_EN` is latched from `CMD.V`, bit 8 of the word (R24, R26; log 27). -/
def accept (w : Word) (s : State) : State :=
  { s with
    cmd := w
    status := Status.running
    result := 0#32
    required := 0#32
    phase := .run
    deltaEn := w.getLsbD 8
    issue := some (.command, leBytes w) }

/-- `complete(r)` (R210). -/
def complete (r : Word) (s : State) : State :=
  { s with result := r, status := Status.ended .ok, phase := .idle }

/-- The words `0 .. DST_CAP-1` of `DST` hold unspecified values (R238, R261, U2; log 11). -/
def forgetDst (s : State) : State :=
  { s with
    mem := Memory.fillFree s.freeCtr s.mem s.dstBase
      (min (s.dstBase + 4 * s.dstCap.toNat) (2 ^ s.cfg.addrW) - s.dstBase)
    freeCtr := s.freeCtr + 1 }

/-- What an error leaves in the instance and in `DST` (R236, R238). -/
def raiseTrace (e : Error) (s : State) : State :=
  match e with
  | .illegalCommand => s
  | .alignment => instReset s
  | .invalidLength => instReset s
  | .insufficientStorage _ => instReset s
  | .bufferOverrun => forgetDst (instReset s)

/-- `raise E(info)` (R236): the one way an error is taken. -/
def raise (e : Error) (s : State) : State :=
  { raiseTrace e s with
    result := 0#32
    required := e.required
    status := Status.ended e.code
    phase := .idle }

/-! ### The outcome of an operation run alone -/

/-- An internal operation without a result. Where it raises, the running command ends (R236). -/
def Res.outcome (r : Res Unit) : Host.Outcome State Fault Refusal :=
  match r with
  | .ok _ s => .next s
  | .raised e s => .next (raise e s)
  | .stop f => .fault f

/-- An internal operation whose result goes to its caller (log 10). -/
def Res.returning (r : Res (List Word)) : Host.Outcome State Fault Refusal :=
  (r.bind fun ws s => .ok () { s with ret := ws }).outcome

/-- An internal operation whose result is a number. -/
def Res.returningNat (r : Res Nat) : Host.Outcome State Fault Refusal :=
  (r.bind fun n s => .ok [BitVec.ofNat 32 n] s).returning

end Sys2Proof.Machine
end

