-- ==== Sys2Proof/Machine/Container.lean ====
section
/-! DEFINITION. The byte container (`43_page_framer.md` R192, R195 to R197). -/

namespace Sys2Proof.Machine

/-- `BC.PUT(x)` (R196). A full container has no byte `BC.mem[BC.len]` (R35; log 18). -/
def bcPut (x : Byte) (s : State) : Res Unit :=
  if bcCap s.cfg ≤ s.bcMem.length then .stop .containerFull
  else .ok () { s with bcMem := s.bcMem ++ [x] }

/-- `BC.PUT` of each byte in order. -/
def bcPutAll : List Byte → State → Res Unit
  | [], s => .ok () s
  | x :: xs, s => (bcPut x s).bind fun _ s => bcPutAll xs s

/-- `BC.GET()` (R197). -/
def bcGet (s : State) : Res Byte :=
  match s.bcMem[s.bcRd]? with
  | none => .stop (.malformed .containerEnd)
  | some x => .ok x { s with bcRd := s.bcRd + 1 }

/-- The records `BC_SIZE` and `BC_BYTES` of a container (R192). -/
def bcRecords (bytes : List Byte) : List Instr :=
  [.bcSize (BitVec.ofNat 32 bytes.length), .bcBytes bytes]

/-- `BC.WRITE` (R192). -/
def bcWrite (s : State) : Res Unit := emitRecords (bcRecords s.bcMem) s

/-- The check on a `BC_SIZE` record (R195, R104 item 3). -/
def takeBcSize (bs : Word) (s : State) : Res Unit :=
  if bcCap s.cfg < bs.toNat then .stop (.malformed .containerSize) else .ok () s

/-- The metadata bytes of a page are loaded (R195). -/
def takeBcBytes (bytes : List Byte) (s : State) : State := { s with bcMem := bytes, bcRd := 0 }

/-- `BC.READ(q)` (R195): the number of words consumed. -/
def bcRead (q : Nat) (s : State) : Res Nat :=
  Res.need (srcWord s q) fun bs =>
    (takeBcSize bs s).bind fun _ s =>
      Res.need (srcWords s (q + 1) (ceilDiv bs.toNat 4)) fun ws =>
        .ok (1 + ceilDiv bs.toNat 4) (takeBcBytes ((bytesOfWords ws).take bs.toNat) s)

/-- `BC.WRITE`, R192. -/
def execBcWrite (s : State) : Host.Outcome State Fault Refusal := (bcWrite s).outcome

/-- `BC.READ`, R195. -/
def execBcRead (q : Word) (s : State) : Host.Outcome State Fault Refusal := (bcRead q.toNat s).returningNat

/-- `BC.PUT`, R196 (ENC only). Run alone it runs whatever `CMD` holds: DESIGN CHOICE (log 29). -/
def execBcPut (x : Byte) (s : State) : Host.Outcome State Fault Refusal := (bcPut x s).outcome

/-- `BC.GET`, R197 (DEC only). The byte is zero-extended (R101). Run alone it runs whatever `CMD` holds:
DESIGN CHOICE (log 29). -/
def execBcGet (s : State) : Host.Outcome State Fault Refusal :=
  ((bcGet s).bind fun x s => .ok [x.setWidth 32] s).returning

end Sys2Proof.Machine
end

