-- ==== Sys2Proof/Machine/Engine.lean ====
section
/-! DEFINITION. The vector bit-packing engine (`40_vector_pack.md`): four pure functions with the bit
layout of R121 (the spec's own, from the family's general knowledge; log 21), and the operations that
run them alone. -/

namespace Sys2Proof.Machine

/-- The values of lane `l` in rank order: `v[4*j + l]` for `j = 0..31` (R121). -/
def laneOf (v : List Word) (l : Nat) : List Word :=
  (List.range 32).map fun j => v.getD (4 * j + l) 0#32

/-- `VPACK128(v, b)` (R122): word `4*t + l` is word `t` of lane `l`. -/
def vpack (b : Nat) (v : List Word) : List Word :=
  (List.range (4 * b)).map fun i => digit 32 (joinBits b (laneOf v (i % 4))) (i / 4)

/-- The words of lane `l` of a packed group: `w[4*t + l]` for `t = 0..b-1` (R123). -/
def laneWords (b : Nat) (w : List Word) (l : Nat) : List Word :=
  (List.range b).map fun t => w.getD (4 * t + l) 0#32

/-- `VUNPACK128(w, b)` (R123): value `4*j + l` is digit `j` of lane `l`. -/
def vunpack (b : Nat) (w : List Word) : List Word :=
  (List.range 128).map fun i => digit b (joinBits 32 (laneWords b w (i % 4))) (i / 4)

/-- `SPACK32(v, b)` (R124). -/
def spack (b : Nat) (v : List Word) : List Word :=
  (List.range b).map fun t => digit 32 (joinBits b v) t

/-- `SUNPACK32(w, b)` (R125). -/
def sunpack (b : Nat) (w : List Word) : List Word :=
  (List.range 32).map fun j => digit b (joinBits 32 w) j

/-- An engine operation run alone: refused on a group of the wrong size (R127, U8), else its result
goes to the caller and nothing else changes (R120). -/
def engineOp (fits : Bool) (out : List Word) (s : State) : Host.Outcome State Fault Refusal :=
  if fits then (Res.ok out s).returning else .refused .groupSize

/-- `VPACK128`, R122. -/
def execVpack128 (b : Fin 33) (v : List Word) (s : State) : Host.Outcome State Fault Refusal :=
  engineOp (v.length == 128) (vpack b.val v) s

/-- `VUNPACK128`, R123. -/
def execVunpack128 (b : Fin 33) (w : List Word) (s : State) : Host.Outcome State Fault Refusal :=
  engineOp (w.length == 4 * b.val) (vunpack b.val w) s

/-- `SPACK32`, R124. -/
def execSpack32 (b : Fin 33) (v : List Word) (s : State) : Host.Outcome State Fault Refusal :=
  engineOp (v.length == 32) (spack b.val v) s

/-- `SUNPACK32`, R125. -/
def execSunpack32 (b : Fin 33) (w : List Word) (s : State) : Host.Outcome State Fault Refusal :=
  engineOp (w.length == b.val) (sunpack b.val w) s

end Sys2Proof.Machine
end

