-- ==== Sys2Proof/Machine/Store.lean ====
section
/-! DEFINITION. The sorted exception store (`41_exception_store.md`). -/

namespace Sys2Proof.Machine

/-- The buckets in ascending order. -/
def bucketNumbers : List (Fin 32) := List.finRange 32

/-- Bucket `k` replaced. -/
def setBucket (k : Fin 32) (b : Bucket) (s : State) : State := { s with es := s.es.set k.val b }

/-- `ES.CLEAR` (R143): counts and cursors 0, capacities kept. -/
def esClear (s : State) : State :=
  { s with es := Vector.ofFn fun k : Fin 32 => { val := [], cap := s.es[k.val].cap, rd := 0 } }

/-- `ES.RESET` (R144): counts and cursors 0, capacities the default. -/
def esReset (s : State) : State := { s with es := Vector.replicate 32 (Bucket.empty s.cfg) }

/-- The capacity `ES.ENSURE` leaves for a count `c`, a capacity `cap` and `n` more (R145). -/
def grownCap (c cap n : Nat) : Nat :=
  if cap < c + n then roundup (max (c + n) (2 * cap)) 128 else cap

/-- `ES.ENSURE(k, n)` (R145). -/
def esEnsure (k : Fin 32) (n : Nat) (s : State) : State :=
  setBucket k { s.es[k.val] with cap := grownCap s.es[k.val].val.length s.es[k.val].cap n } s

/-- `ES.APPEND` of a sequence of residuals to one bucket, in order (R146). The bound of R37 is not looked at:
`ES.READ` keeps it by its check of the count word; a record or an operation run alone may pass it: DESIGN
CHOICE (logs 13, 22). -/
def esAppendAll (k : Fin 32) (xs : List Word) (s : State) : State :=
  setBucket k { s.es[k.val] with val := s.es[k.val].val ++ xs } s

/-- `ES.APPEND(k, x)` (R146). -/
def esAppend (k : Fin 32) (x : Word) (s : State) : State := esAppendAll k [x] s

/-- `ES.GET(k)` (R149). -/
def esGet (k : Fin 32) (s : State) : Res Word :=
  match s.es[k.val].val[s.es[k.val].rd]? with
  | none => .stop (.malformed .bucketEnd)
  | some x => .ok x (setBucket k { s.es[k.val] with rd := s.es[k.val].rd + 1 } s)

/-! ### Serializing -/

/-- The bitmap of nonempty buckets: the sum of `2^k` over them (R93, R147). -/
def esBitmapOf (es : Vector Bucket 32) : Word :=
  BitVec.ofNat 32 (joinBits 1 (bucketNumbers.map fun k => if es[k.val].val = [] then 0#32 else 1#32))

/-- How many residuals of `c` are in tail groups (R97). -/
def tailCount (c : Nat) : Nat := c % 128

/-- How many tail groups `c` residuals have (R97). -/
def tailGroups (c : Nat) : Nat := ceilDiv (tailCount c) 32

/-- Of `r` tail residuals, how many are in tail group `j`. -/
def tailShare (r j : Nat) : Fin 33 := ⟨min 32 (r - 32 * j), by omega⟩

/-- The records of one nonempty bucket whose count word stands at word index `i` (R94 to R97). -/
def bucketRecords (i : Nat) (k : Fin 32) (val : List Word) : List Instr :=
  let c := val.length
  let g := c / 128
  let t := tailGroups c
  let tail := val.drop (128 * g) ++ List.replicate (32 * t - tailCount c) 0#32
  .esCount k (BitVec.ofNat 32 c)
    :: (List.replicate (if 1 ≤ g then padTo4 (i + 1) else 0) .esPad
    ++ (List.range g).map (fun j => .esG128 k (vpack (k.val + 1) ((val.drop (128 * j)).take 128)))
    ++ (List.range t).map (fun j =>
        .esG32 k (tailShare (tailCount c) j) (spack (k.val + 1) ((tail.drop (32 * j)).take 32))))

/-- The records of the nonempty buckets among `ks`, from word index `i` on (R94). -/
def bucketsRecords (es : Vector Bucket 32) : List (Fin 32) → Nat → List Instr
  | [], _ => []
  | k :: ks, i =>
    if es[k.val].val = [] then bucketsRecords es ks i
    else
      bucketRecords i k es[k.val].val
        ++ bucketsRecords es ks (i + (wordsOf (bucketRecords i k es[k.val].val)).length)

/-- The records of the exception store whose bitmap stands at word index `i` (R93 to R97). -/
def esRecords (i : Nat) (es : Vector Bucket 32) : List Instr :=
  .esBitmap (esBitmapOf es) :: bucketsRecords es bucketNumbers (i + 1)

/-- `ES.WRITE` (R147): the number of words emitted. -/
def esWrite (s : State) : Res Nat :=
  (emitRecords (esRecords s.oc s.es) s).bind fun _ t => .ok (t.oc - s.oc) t

/-! ### Parsing -/

/-- A bucket before its residuals are read: empty, its cursor 0 (R148). -/
def openBucket (k : Fin 32) (s : State) : State :=
  setBucket k { s.es[k.val] with val := [], rd := 0 } s

/-- The count word of bucket `k` (R148, R104 item 4). -/
def takeEsCount (k : Fin 32) (c : Word) (s : State) : Res Unit :=
  if c = 0#32 ∨ bucketBound s.cfg < c.toNat then .stop (.malformed .bucketCount)
  else .ok () (esEnsure k c.toNat (openBucket k s))

/-- A vector group of bucket `k` (R148). `ES.READ` has checked the count word, and takes as many groups as it
says; an `ES_G128` record run alone appends its residuals with no check of `ES.cnt[k]` against the bound of R37
or the count word, and may pass either: DESIGN CHOICE (log 13). -/
def takeEsG128 (k : Fin 32) (ws : List Word) (s : State) : State :=
  esAppendAll k (vunpack (k.val + 1) ws) s

/-- A tail group of bucket `k`, of which `n` values are residuals; the rest is discarded without being
examined (R148). As for `takeEsG128`, an `ES_G32` record run alone may take `ES.cnt[k]` past the bound of R37
and the count word: DESIGN CHOICE (log 13). -/
def takeEsG32 (k : Fin 32) (n : Nat) (ws : List Word) (s : State) : State :=
  esAppendAll k ((sunpack (k.val + 1) ws).take n) s

/-- The `g` vector groups of bucket `k` from word index `q` on; the word index after them (R148). -/
def readG128s (k : Fin 32) : Nat → Nat → State → Res Nat
  | 0, q, s => .ok q s
  | g + 1, q, s =>
    Res.need (srcWords s q (4 * (k.val + 1))) fun ws =>
      readG128s k g (q + 4 * (k.val + 1)) (takeEsG128 k ws s)

/-- The `t` tail groups of bucket `k`, holding `r` residuals, from word index `q` on (R148). -/
def readG32s (k : Fin 32) : Nat → Nat → Nat → State → Res Nat
  | 0, _, q, s => .ok q s
  | t + 1, r, q, s =>
    Res.need (srcWords s q (k.val + 1)) fun ws =>
      readG32s k t (r - 32) (q + (k.val + 1)) (takeEsG32 k (min 32 r) ws s)

/-- Bucket `k` of a store whose bitmap is `m`, its count word at index `q`; the word index after it
(R148). -/
def esReadBucket (m : Word) (k : Fin 32) (q : Nat) (s : State) : Res Nat :=
  if m.getLsbD k.val then
    Res.need (srcWord s q) fun c =>
      (takeEsCount k c s).bind fun _ s =>
        (readG128s k (c.toNat / 128) (if 1 ≤ c.toNat / 128 then roundup (q + 1) 4 else q + 1) s).bind fun q s =>
          readG32s k (tailGroups c.toNat) (tailCount c.toNat) q s
  else .ok q (openBucket k s)

/-- The buckets `ks` in order (R148). -/
def esReadBuckets (m : Word) : List (Fin 32) → Nat → State → Res Nat
  | [], q, s => .ok q s
  | k :: ks, q, s => (esReadBucket m k q s).bind fun q s => esReadBuckets m ks q s

/-- `ES.READ(p)` (R148): the number of words consumed. -/
def esRead (p : Nat) (s : State) : Res Nat :=
  Res.need (srcWord s p) fun m =>
    (esReadBuckets m bucketNumbers (p + 1) s).bind fun q s => .ok (q - p) s

/-! ### The operations -/

/-- `ES.CLEAR`, R143. -/
def execEsClear (s : State) : Host.Outcome State Fault Refusal := .next (esClear s)

/-- `ES.RESET`, R144. -/
def execEsReset (s : State) : Host.Outcome State Fault Refusal := .next (esReset s)

/-- `ES.ENSURE`, R145. -/
def execEsEnsure (k : Fin 32) (n : Word) (s : State) : Host.Outcome State Fault Refusal :=
  .next (esEnsure k n.toNat s)

/-- `ES.APPEND`, R146. Run alone it appends whatever `x` and `ES.cnt[k]` are, also past `ES.cap[k]` and the bound
of R37: DESIGN CHOICE (log 22). -/
def execEsAppend (k : Fin 32) (x : Word) (s : State) : Host.Outcome State Fault Refusal :=
  .next (esAppend k x s)

/-- `ES.WRITE`, R147. -/
def execEsWrite (s : State) : Host.Outcome State Fault Refusal := (esWrite s).returningNat

/-- `ES.READ`, R148. -/
def execEsRead (p : Word) (s : State) : Host.Outcome State Fault Refusal := (esRead p.toNat s).returningNat

/-- `ES.GET`, R149. -/
def execEsGet (k : Fin 32) (s : State) : Host.Outcome State Fault Refusal :=
  ((esGet k s).bind fun x s => .ok [x] s).returning

end Sys2Proof.Machine
end

