-- ==== Sys2Proof/Machine/Block.lean ====
section
/-! DEFINITION. The block encoder and decoder, the bit-width selector and the delta processor
(`42_block_codec.md`). -/

namespace Sys2Proof.Machine

/-! ### Delta processor -/

/-- Element 124 to 127 of a block: what `DPREV` carries to the next one (R34, R161, R171). -/
def blockTail (v : Vector Word 128) : Vector Word 4 := Vector.ofFn fun l : Fin 4 => v[124 + l.val]

/-- The differences of a block, the first one from the carried value `p`, modulo `2^32` (R161). -/
def deltas (p : Word) (raw : Vector Word 128) : Vector Word 128 :=
  Vector.ofFn fun i : Fin 128 => if i.val = 0 then raw[0] - p else raw[i.val] - raw[i.val - 1]

/-- The running sums of a sequence from `acc` on, modulo `2^32` (R171). -/
def runningSums (acc : Word) : List Word → List Word
  | [] => []
  | x :: xs => (acc + x) :: runningSums (acc + x) xs

/-- The prefix sums of a block, seeded by the carried value `p` (R171). -/
def prefixSums (p : Word) (d : Vector Word 128) : Vector Word 128 :=
  Vector.ofFn fun i : Fin 128 => (runningSums p d.toList).getD i.val 0#32

/-- The work of `BLK.DELTA` (R161). -/
def blkDelta (s : State) : State :=
  { s with blk := deltas s.dprev[3] s.blk, dprev := blockTail s.blk }

/-- The work of `BLK.PREFIX` (R171). -/
def blkPrefix (s : State) : State :=
  { s with
    blk := prefixSums s.dprev[3] s.blk
    dprev := blockTail (prefixSums s.dprev[3] s.blk) }

/-! ### Histogram and selector -/

/-- How many values of a block have width `w` (R162). -/
def widthCount (v : List Word) (w : Nat) : Nat := v.countP fun x => bitWidth x == w

/-- The histogram of a block (R162). -/
def histogram (v : Vector Word 128) : Vector (BitVec 8) 33 :=
  Vector.ofFn fun w : Fin 33 => BitVec.ofNat 8 (widthCount v.toList w.val)

/-- `BLK.HIST` (R162). -/
def blkHist (s : State) : State := { s with freq := histogram s.blk }

/-- The counter of width `w` as a number. -/
def freqAt (f : Vector (BitVec 8) 33) (w : Nat) : Nat := (f.toList.getD w 0#8).toNat

/-- The highest width below `n` with a nonzero counter (R163). -/
def highestWidth (f : Vector (BitVec 8) 33) : Nat → Option (Fin 33)
  | 0 => none
  | n + 1 => if h : n < 33 then (if freqAt f n ≠ 0 then some ⟨n, h⟩ else highestWidth f n) else highestWidth f n

/-- `cost(b)` at `c = cexcept(b)` (R163). -/
def costOf (m b c : Nat) : Nat := 8 * c + (m - b) * c + 128 * b

/-- A candidate of the width scan. -/
structure Candidate where
  b : Nat
  c : Nat
  cost : Nat
deriving DecidableEq, Repr

/-- The challengers `b = n-1` downto 0 against the best candidate so far, `c` being `cexcept(n)`; only
a strictly smaller cost wins (R163). -/
def scanWidths (f : Nat → Nat) (m : Nat) : Nat → Nat → Candidate → Candidate
  | 0, _, best => best
  | n + 1, c, best =>
    scanWidths f m n (c + f (n + 1))
      (if costOf m n (c + f (n + 1)) < best.cost then ⟨n, c + f (n + 1), costOf m n (c + f (n + 1))⟩ else best)

/-- The width choice for a histogram whose highest width is `m` (R163). -/
def chooseWidth (f : Nat → Nat) (m : Nat) : Candidate := scanWidths f m m 0 ⟨m, 0, 128 * m⟩

/-- `SEL <- (b, cexcept, maxb)` (R23). -/
def setSel (b c m : Nat) (s : State) : State :=
  { s with selB := BitVec.ofNat 6 b, selC := BitVec.ofNat 8 c, selM := BitVec.ofNat 6 m }

/-- `BLK.SELECT` with the highest width `m` (R163). -/
def selectAt (m : Nat) (s : State) : State :=
  setSel (chooseWidth (freqAt s.freq) m).b (chooseWidth (freqAt s.freq) m).c m s

/-- `BLK.SELECT` (R163). A histogram without a nonzero counter, which no `BLK.HIST` leaves, has no
highest width: `maxb` is then a free width and the rest is computed from it (log 12). -/
def blkSelect (s : State) : State :=
  match highestWidth s.freq 33 with
  | some m => selectAt m.val s
  | none => { selectAt (Config.freeWidth s.freeCtr).val s with freeCtr := s.freeCtr + 1 }

/-! ### Metadata and exceptions -/

/-- The exceptions of a block at width `b`, positions ascending: each value that is at least `2^b`, with
its residual `value >> b` (R165). -/
def exceptionsFrom (b : Nat) : Nat → List Word → List (Nat × Word)
  | _, [] => []
  | i, x :: xs =>
    if 2 ^ b ≤ x.toNat then (i, x >>> b) :: exceptionsFrom b (i + 1) xs else exceptionsFrom b (i + 1) xs

/-- The position byte and the residual of each exception, in order (R165). -/
def putExceptions (k : Fin 32) : List (Nat × Word) → State → Res Unit
  | [], s => .ok () s
  | (i, x) :: rest, s =>
    (bcPut (BitVec.ofNat 8 i) s).bind fun _ s => putExceptions k rest (esAppend k x s)

/-- The exceptional part of `BLK.EMIT`: `maxb`, the positions and the residuals (R165). -/
def emitExceptions (s : State) : Res Unit :=
  (bcPut (s.selM.setWidth 8) s).bind fun _ s =>
    match bucketIndex s.selB.toNat s.selM.toNat with
    | none => .stop .noSuchBucket
    | some k =>
      putExceptions k (exceptionsFrom s.selB.toNat 0 s.blk.toList) (esEnsure k s.selC.toNat s)

/-- `BLK.EMIT` (R165). -/
def blkEmit (s : State) : Res Unit :=
  (bcPut (s.selB.setWidth 8) s).bind fun _ s =>
    (bcPut s.selC s).bind fun _ s =>
      if s.selC = 0#8 then .ok () s else emitExceptions s

/-- The head of a `META` record taken into `SEL` (R169, R104 items 5 and 6), its fields `b`, `cexcept`
and `maxb`. -/
def checkMetaHead (b c : Byte) : Option Malformed :=
  if 32 < b.toNat ∨ 128 < c.toNat then some .metaHead else none

/-- The field `maxb` of a record with exceptions (R169). -/
def checkMetaMaxb (b m : Byte) : Option Malformed :=
  if b.toNat < m.toNat ∧ m.toNat ≤ 32 then none else some .metaMaxb

/-- A failed check is a fault (R249 (b)). -/
def Res.check (c : Option Malformed) (r : Res Unit) : Res Unit :=
  match c with
  | some why => .stop (.malformed why)
  | none => r

/-- `BLK.META` (R169). -/
def blkMeta (s : State) : Res Unit :=
  if s.bcMem.length < s.bcRd + 2 then .stop (.malformed .metaEnd)
  else
    (bcGet s).bind fun b s => (bcGet s).bind fun c s =>
      Res.check (checkMetaHead b c) <|
        if c = 0#8 then .ok () (setSel b.toNat 0 b.toNat s)
        else if s.bcMem.length < s.bcRd + 1 + c.toNat then .stop (.malformed .exceptionEnd)
        else
          (bcGet s).bind fun m s =>
            Res.check (checkMetaMaxb b m) (.ok () (setSel b.toNat c.toNat m.toNat s))

/-- The patch of `n` exceptions from bucket `k`, the next position being at least `lo` (R170). -/
def patchLoop (k : Fin 32) : Nat → Nat → State → Res Unit
  | 0, _, s => .ok () s
  | n + 1, lo, s =>
    (bcGet s).bind fun i s =>
      if h : i.toNat < 128 ∧ lo ≤ i.toNat then
        (esGet k s).bind fun x s =>
          patchLoop k n (i.toNat + 1)
            { s with blk := s.blk.set i.toNat (s.blk[i.toNat] ||| (x <<< s.selB.toNat)) }
      else .stop (.malformed .position)

/-- `BLK.PATCH` (R170). -/
def blkPatch (s : State) : Res Unit :=
  if s.selC = 0#8 then .ok () s
  else
    match bucketIndex s.selB.toNat s.selM.toNat with
    | none => .stop .noSuchBucket
    | some k => patchLoop k s.selC.toNat 0 s

/-! ### Blocks in and out -/

/-- A list of 128 values as the block buffer. -/
def blockOf (v : List Word) : Vector Word 128 := Vector.ofFn fun i : Fin 128 => v.getD i.val 0#32

/-- `BLK.LOAD` (R166). -/
def blkLoad (s : State) : Res Unit :=
  if 2 ^ s.cfg.addrW < srcAddr s (s.ic + 128) then .stop .outsideMemory
  else
    .ok () { s with
      blk := Vector.ofFn fun i : Fin 128 => Memory.readWord s.mem (srcAddr s (s.ic + i.val))
      ic := s.ic + 128 }

/-- `BLK.STORE` (R167). -/
def blkStore (s : State) : Res Unit :=
  if 2 ^ s.cfg.addrW < dstAddr s (s.oc + 128) then .stop .outsideMemory
  else
    .ok () { s with
      mem := Memory.writeWords s.mem (dstAddr s s.oc) s.blk.toList
      oc := s.oc + 128 }

/-- The words of a packed block area taken into `BLK`, and passed (R172). `BLK.DEC` has read them under the
guard of R58; a `PACKED128` record run alone carries them, and `SRC_LEN` is not looked at: DESIGN CHOICE
(log 13). -/
def takePacked (b : Nat) (ws : List Word) (s : State) : State :=
  { s with blk := blockOf (vunpack b ws), ic := s.ic + 4 * b }

/-- `BLK.DELTA`, executed only when `DELTA_EN = 1` (R161, R168): otherwise `DPREV` is never written (R34), and
nothing else is either (log 28). -/
def deltaIfEnabled (s : State) : State := if s.deltaEn then blkDelta s else s

/-- `BLK.PREFIX`, executed only when `DELTA_EN = 1` (R171, R172): otherwise `DPREV` is never written (R34), and
nothing else is either (log 28). -/
def prefixIfEnabled (s : State) : State := if s.deltaEn then blkPrefix s else s

/-- `BLK.ENC` (R168). -/
def blkEnc (s : State) : Res Unit :=
  (blkLoad s).bind fun _ s =>
    (blkEmit (blkSelect (blkHist (deltaIfEnabled s)))).bind fun _ s =>
      emitAll (vpack s.selB.toNat s.blk.toList) s

/-- `BLK.DEC` (R172). -/
def blkDec (s : State) : Res Unit :=
  (blkMeta s).bind fun _ s =>
    Res.need (srcWords s s.ic (4 * s.selB.toNat)) fun ws =>
      (blkPatch (takePacked s.selB.toNat ws s)).bind fun _ s => blkStore (prefixIfEnabled s)

/-! ### The operations

Each is the encoder's or the decoder's (the column "side" of `42_block_codec.md`). Run alone, none looks
at the command in `CMD`: DESIGN CHOICE (log 29). -/

/-- `BLK.DELTA`, R161. Run alone with `DELTA_EN = 0`, it completes and changes nothing: DEDUCED (log 28). -/
def execBlkDelta (s : State) : Host.Outcome State Fault Refusal := .next (deltaIfEnabled s)

/-- `BLK.HIST`, R162. -/
def execBlkHist (s : State) : Host.Outcome State Fault Refusal := .next (blkHist s)

/-- `BLK.SELECT`, R163. -/
def execBlkSelect (s : State) : Host.Outcome State Fault Refusal := .next (blkSelect s)

/-- `BLK.EMIT`, R165. Run alone it appends whatever `SEL` and `ES.cnt[k]` are, also past the bound of R37: DESIGN
CHOICE (log 22). -/
def execBlkEmit (s : State) : Host.Outcome State Fault Refusal := (blkEmit s).outcome

/-- `BLK.LOAD`, R166 (ENC only). Run alone it runs whatever `CMD` holds: DESIGN CHOICE (log 29). -/
def execBlkLoad (s : State) : Host.Outcome State Fault Refusal := (blkLoad s).outcome

/-- `BLK.STORE`, R167 (DEC only). Run alone it runs whatever `CMD` holds: DESIGN CHOICE (log 29). -/
def execBlkStore (s : State) : Host.Outcome State Fault Refusal := (blkStore s).outcome

/-- `BLK.ENC`, R168. -/
def execBlkEnc (s : State) : Host.Outcome State Fault Refusal := (blkEnc s).outcome

/-- `BLK.META`, R169 (DEC only). Run alone it runs whatever `CMD` holds: DESIGN CHOICE (log 29). -/
def execBlkMeta (s : State) : Host.Outcome State Fault Refusal := (blkMeta s).outcome

/-- `BLK.PATCH`, R170 (DEC only). Run alone it runs whatever `CMD` holds: DESIGN CHOICE (log 29). -/
def execBlkPatch (s : State) : Host.Outcome State Fault Refusal := (blkPatch s).outcome

/-- `BLK.PREFIX`, R171. Run alone with `DELTA_EN = 0`, it completes and changes nothing: DEDUCED (log 28). -/
def execBlkPrefix (s : State) : Host.Outcome State Fault Refusal := .next (prefixIfEnabled s)

/-- `BLK.DEC`, R172. -/
def execBlkDec (s : State) : Host.Outcome State Fault Refusal := (blkDec s).outcome

end Sys2Proof.Machine
end

