-- ==== Sys2Proof/Machine/Framer.lean ====
section
/-! DEFINITION. The page framer and the array frame (`43_page_framer.md` R190, R191, R193, R194). -/

namespace Sys2Proof.Machine

/-! ### Encode -/

/-- The patch of the page header word (R57, R191). -/
def patchHeader (s : State) : Res Unit := putWord (dstAddr s s.hdr) (BitVec.ofNat 32 (s.oc - s.hdr)) s

/-- `PAGE.ENC(n)` (R191). -/
def pageEnc (n : Nat) (s : State) : Res Unit :=
  (emitRecords [.pageHdr 0#32] { s with hdr := s.oc }).bind fun _ s =>
    (emitRecords (List.replicate (padTo4 s.oc) .pagePad) { esClear s with bcMem := [] }).bind fun _ s =>
      (Res.times blkEnc (n / 128) s).bind fun _ s =>
        (patchHeader s).bind fun _ s =>
          (bcWrite s).bind fun _ s => (esWrite s).bind fun _ s => .ok () s

/-- The page loop of `ARR.ENC`: at most `k` pages, until `REM` is 0 (R190). -/
def pagesEnc : Nat → State → Res Unit
  | 0, s => .ok () s
  | k + 1, s =>
    if s.rem = 0#32 then .ok () s
    else
      (pageEnc (min s.cfg.pageSize s.rem.toNat) s).bind fun _ s =>
        pagesEnc k { s with rem := s.rem - BitVec.ofNat 32 (min s.cfg.pageSize s.rem.toNat) }

/-- `ARR.ENC` (R190): the number of words written. The loop runs `ceil(L / PAGE_SIZE)` times (R84). -/
def arrEnc (s : State) : Res Nat :=
  (emitRecords [.arrayHdr s.srcLen] { s with ic := 0, oc := 0, rem := s.srcLen }).bind fun _ s =>
    (pagesEnc (ceilDiv s.rem.toNat s.cfg.pageSize) s).bind fun _ s => .ok s.oc s

/-! ### Decode -/

/-- The record `ARRAY_HDR` taken by the decoder: the capacity check, the length check, `REM`
(R193, R104 item 2). -/
def takeArrayHdr (l : Word) (s : State) : Res Unit :=
  if s.dstCap.toNat < l.toNat then .raised (.insufficientStorage l) s
  else if l.toNat % 128 ≠ 0 then .stop (.malformed .arrayLength)
  else .ok () { s with rem := l }

/-- The record `PAGE_HDR` at word index `h` taken by the decoder: `HDR` and `MP` (R194, R104 item 3). -/
def takePageHdr (h : Nat) (w : Word) (s : State) : Res Unit :=
  if w.toNat < 1 + padTo4 (h + 1) then .stop (.malformed .pageWords)
  else .ok () { s with hdr := h, mp := h + w.toNat }

/-- `PAGE.DEC(n, h)` (R194): the number of words of the page. -/
def pageDec (n h : Nat) (s : State) : Res Nat :=
  Res.need (srcWord s h) fun w =>
    (takePageHdr h w s).bind fun _ s =>
      (bcRead s.mp s).bind fun cb s =>
        (esRead (s.mp + cb) s).bind fun ce s =>
          (Res.times blkDec (n / 128) { s with ic := h + 1 + padTo4 (h + 1) }).bind fun _ s =>
            if s.ic ≠ s.mp then .stop (.malformed .areaEnd) else .ok (w.toNat + cb + ce) s

/-- The page loop of `ARR.DEC` from word index `h` on: at most `k` pages, until `REM` is 0; the number
of stream words consumed (R193). -/
def pagesDec : Nat → Nat → State → Res Nat
  | 0, h, s => .ok h s
  | k + 1, h, s =>
    if s.rem = 0#32 then .ok h s
    else
      (pageDec (min s.cfg.pageSize s.rem.toNat) h s).bind fun m s =>
        pagesDec k (h + m) { s with rem := s.rem - BitVec.ofNat 32 (min s.cfg.pageSize s.rem.toNat) }

/-- What `ARR.DEC` has done at its end: the values written, which it returns, and the cursor `h`, which
is the number of stream words consumed (R193). -/
structure Decoded where
  values : Nat
  words : Nat
deriving DecidableEq, Repr

/-- `ARR.DEC` (R193). -/
def arrDec (s : State) : Res Decoded :=
  Res.need (srcWord s 0) fun l =>
    (takeArrayHdr l { s with oc := 0 }).bind fun _ s =>
      (pagesDec (ceilDiv s.rem.toNat s.cfg.pageSize) 1 s).bind fun h s => .ok { values := l.toNat, words := h } s

/-- What `ARR.DEC` returns: the number of values written (R193). -/
def arrDecValues (s : State) : Res Nat := (arrDec s).bind fun d s => .ok d.values s

/-! ### The operations

Each is the encoder's or the decoder's (the column "side" of `43_page_framer.md`). Run alone, none looks
at the command in `CMD`: DESIGN CHOICE (log 29). -/

/-- `ARR.ENC`, R190. -/
def execArrEnc (s : State) : Host.Outcome State Fault Refusal := (arrEnc s).returningNat

/-- `PAGE.ENC`, R191. -/
def execPageEnc (n : Word) (s : State) : Host.Outcome State Fault Refusal := (pageEnc n.toNat s).outcome

/-- `ARR.DEC`, R193. -/
def execArrDec (s : State) : Host.Outcome State Fault Refusal := (arrDecValues s).returningNat

/-- `PAGE.DEC`, R194. -/
def execPageDec (n h : Word) (s : State) : Host.Outcome State Fault Refusal :=
  (pageDec n.toNat h.toNat s).returningNat

end Sys2Proof.Machine
end

