-- ==== Sys2Proof/Machine/Commands.lean ====
section
/-! DEFINITION. The codec facade: the host commands (`44_commands.md` R212 to R217). -/

namespace Sys2Proof.Machine

/-- The end of an ENC or DEC: the second `INST.RESET` and `complete`, or `raise`, or a fault
(R211, R213 to R216). -/
def finishCommand (r : Res Nat) : Host.Outcome State Fault Refusal :=
  match r with
  | .ok n s => .next (complete (BitVec.ofNat 32 n) (instReset s))
  | .raised e s => .next (raise e s)
  | .stop f => .fault f

/-- The checks ENC makes before any memory access, in order (R213, R240). -/
def encError (s : State) : Option Error :=
  if Misaligned s then some .alignment
  else if s.srcLen.toNat % 128 ≠ 0 then some .invalidLength
  else none

/-- The check DEC makes before any memory access (R215, R240). -/
def decError (s : State) : Option Error := if Misaligned s then some .alignment else none

/-- ENC and DEC: the launch conditions (R61), the checks, `INST.RESET`, the variant, the work (R213 to
R216). -/
def codecCommand (err : Option Error) (delta : Bool) (work : State → Res Nat) (s : State) :
    Host.Outcome State Fault Refusal :=
  match launchRefusal s with
  | some r => .refused r
  | none =>
    match err with
    | some e => .next (raise e s)
    | none => finishCommand (work { instReset s with deltaEn := delta })

/-- `RESET`, R212. Its variant bit is 0, so `DELTA_EN` is 0 as after a hardware reset (R24, R262; log 27). -/
def execReset (s : State) : Host.Outcome State Fault Refusal :=
  .next (complete 0#32 { instReset s with deltaEn := false })

/-- `ENC.P`, R213. -/
def execEncP (s : State) : Host.Outcome State Fault Refusal := codecCommand (encError s) false arrEnc s

/-- `ENC.D`, R214. -/
def execEncD (s : State) : Host.Outcome State Fault Refusal := codecCommand (encError s) true arrEnc s

/-- `DEC.P`, R215. -/
def execDecP (s : State) : Host.Outcome State Fault Refusal := codecCommand (decError s) false arrDecValues s

/-- `DEC.D`, R216. -/
def execDecD (s : State) : Host.Outcome State Fault Refusal := codecCommand (decError s) true arrDecValues s

/-- `ILLEGAL`, R217: `IllegalCommand`, with no `INST.RESET` and no memory access, whatever the word is. -/
def execIllegal (_w : Word) (s : State) : Host.Outcome State Fault Refusal := .next (raise .illegalCommand s)

end Sys2Proof.Machine
end

