-- ==== Sys2Proof/Machine/Records.lean ====
section
/-! DEFINITION. The stream records (`30_encoding.md` R83 to R97) as operations: while ENC runs, the
record is produced, as the encoder's pseudocode emits it; while DEC runs, it is parsed, as the decoder's
pseudocode takes it, and the stream cursor `IC` passes its words; outside the two there is no stream.
The direction is the command in `CMD`. A record run alone is not held against the records before it: DESIGN
CHOICE (log 13). -/

namespace Sys2Proof.Machine

/-- A record in the direction of the running command. -/
def recordOp (produce parse : State → Res Unit) (s : State) : Host.Outcome State Fault Refusal :=
  match codingOf s.cmd with
  | .produce => (produce s).outcome
  | .parse => (parse s).outcome
  | .none => .refused .noStream

/-- The stream cursor passes `n` words (R24). The words of a record run alone are its own, so the guard of
R58 is not applied: `IC` is not compared with `SRC_LEN`, and may pass it: DESIGN CHOICE (log 13). -/
def passWords (n : Nat) (s : State) : State := { s with ic := s.ic + n }

/-- A group record, refused where it is not the words of its width (U8). -/
def groupOp (fits : Bool) (produce parse : State → Res Unit) (s : State) : Host.Outcome State Fault Refusal :=
  if fits then recordOp produce parse s else .refused .groupSize

/-- `META` produced: its bytes are put into the container (R90, R165). -/
def putMeta (b c m : Byte) (pos : List Byte) (s : State) : Res Unit := bcPutAll (metaBytes b c m pos) s

/-- `META` parsed: its head is taken into `SEL`, and `BC.rd` passes the head; the positions are left
for `BLK.PATCH` (R169). The record's bytes are its own, so `BC.len` is not looked at, and in a record run
alone `BC.rd` may pass it: DESIGN CHOICE (log 13). -/
def takeMeta (b c m : Byte) (s : State) : Res Unit :=
  Res.check (checkMetaHead b c) <|
    if c = 0#8 then .ok () (setSel b.toNat 0 b.toNat { s with bcRd := s.bcRd + 2 })
    else Res.check (checkMetaMaxb b m) (.ok () (setSel b.toNat c.toNat m.toNat { s with bcRd := s.bcRd + 3 }))

/-- `ARRAY_HDR`, R84: word 0 of the stream (R190, R193). Parsed alone, it sets `IC` to 1 without comparing
with `SRC_LEN`: DESIGN CHOICE (log 13). -/
def execArrayHdr (l : Word) (s : State) : Host.Outcome State Fault Refusal :=
  recordOp (emitRecords [.arrayHdr l])
    (fun s => (takeArrayHdr l { s with oc := 0 }).bind fun _ s => .ok () { s with ic := 1 }) s

/-- `PAGE_HDR`, R86 (R191, R194). -/
def execPageHdr (w : Word) (s : State) : Host.Outcome State Fault Refusal :=
  recordOp (fun s => emitRecords [.pageHdr w] { s with hdr := s.oc })
    (fun s => (takePageHdr s.ic w s).bind fun _ s => .ok () (passWords 1 s)) s

/-- `PAGE_PAD`, R86: one word, 0 on encode, not examined on decode. -/
def execPagePad (s : State) : Host.Outcome State Fault Refusal :=
  recordOp (emitRecords [.pagePad]) (fun s => .ok () (passWords 1 s)) s

/-- `PACKED128`, R87 (R168, R172). -/
def execPacked128 (b : Fin 33) (ws : List Word) (s : State) : Host.Outcome State Fault Refusal :=
  groupOp (ws.length == 4 * b.val) (emitRecords [.packed128 b ws]) (fun s => .ok () (takePacked b.val ws s)) s

/-- `BC_SIZE`, R88 (R192, R195). -/
def execBcSize (bs : Word) (s : State) : Host.Outcome State Fault Refusal :=
  recordOp (emitRecords [.bcSize bs]) (fun s => (takeBcSize bs s).bind fun _ s => .ok () (passWords 1 s)) s

/-- `BC_BYTES`, R89 (R192, R195). -/
def execBcBytes (bytes : List Byte) (s : State) : Host.Outcome State Fault Refusal :=
  recordOp (emitRecords [.bcBytes bytes])
    (fun s =>
      if bcCap s.cfg < bytes.length then .stop (.malformed .containerSize)
      else .ok () (passWords (ceilDiv bytes.length 4) (takeBcBytes bytes s))) s

/-- `META`, R90 (R165, R169). -/
def execMetaRec (b c m : Byte) (pos : List Byte) (s : State) : Host.Outcome State Fault Refusal :=
  recordOp (putMeta b c m pos) (takeMeta b c m) s

/-- `ES_BITMAP`, R93 (R147, R148): the decoder empties every bucket and
resets its cursor before it reads the residuals of those named. -/
def execEsBitmap (m : Word) (s : State) : Host.Outcome State Fault Refusal :=
  recordOp (emitRecords [.esBitmap m]) (fun s => .ok () (passWords 1 (esClear s))) s

/-- `ES_COUNT`, R94 (R147, R148). -/
def execEsCount (k : Fin 32) (c : Word) (s : State) : Host.Outcome State Fault Refusal :=
  recordOp (emitRecords [.esCount k c])
    (fun s => (takeEsCount k c s).bind fun _ s => .ok () (passWords 1 s)) s

/-- `ES_PAD`, R96: one word, 0 on encode, not examined on decode. -/
def execEsPad (s : State) : Host.Outcome State Fault Refusal :=
  recordOp (emitRecords [.esPad]) (fun s => .ok () (passWords 1 s)) s

/-- `ES_G128`, R95 (R147, R148). Parsed alone, it appends its 128 residuals without comparing `ES.cnt[k]` with the
bound of R37 or the count word: DESIGN CHOICE (log 13). -/
def execEsG128 (k : Fin 32) (ws : List Word) (s : State) : Host.Outcome State Fault Refusal :=
  groupOp (ws.length == 4 * (k.val + 1)) (emitRecords [.esG128 k ws])
    (fun s => .ok () (passWords (4 * (k.val + 1)) (takeEsG128 k ws s))) s

/-- `ES_G32`, R97 (R147, R148). Parsed alone, it appends its `n` residuals without comparing `ES.cnt[k]` with the
bound of R37 or the count word: DESIGN CHOICE (log 13). -/
def execEsG32 (k : Fin 32) (n : Fin 33) (ws : List Word) (s : State) : Host.Outcome State Fault Refusal :=
  groupOp (ws.length == k.val + 1) (emitRecords [.esG32 k n ws])
    (fun s => .ok () (passWords (k.val + 1) (takeEsG32 k n.val ws s))) s

end Sys2Proof.Machine
end

