-- ==== Sys2Proof/Machine/Dispatch.lean ====
section
/-! DEFINITION. The dispatch: one arm per operation, each a direct call of its meaning. -/

namespace Sys2Proof.Machine

def exec (i : Instr) (s : State) : Host.Outcome State Fault Refusal :=
  match i with
  | .reset => Sys2Proof.Machine.execReset s
  | .encP => Sys2Proof.Machine.execEncP s
  | .encD => Sys2Proof.Machine.execEncD s
  | .decP => Sys2Proof.Machine.execDecP s
  | .decD => Sys2Proof.Machine.execDecD s
  | .illegal w => Sys2Proof.Machine.execIllegal w s
  | .vpack128 b v => Sys2Proof.Machine.execVpack128 b v s
  | .vunpack128 b w => Sys2Proof.Machine.execVunpack128 b w s
  | .spack32 b v => Sys2Proof.Machine.execSpack32 b v s
  | .sunpack32 b w => Sys2Proof.Machine.execSunpack32 b w s
  | .esClear => Sys2Proof.Machine.execEsClear s
  | .esReset => Sys2Proof.Machine.execEsReset s
  | .esEnsure k n => Sys2Proof.Machine.execEsEnsure k n s
  | .esAppend k x => Sys2Proof.Machine.execEsAppend k x s
  | .esWrite => Sys2Proof.Machine.execEsWrite s
  | .esRead p => Sys2Proof.Machine.execEsRead p s
  | .esGet k => Sys2Proof.Machine.execEsGet k s
  | .blkDelta => Sys2Proof.Machine.execBlkDelta s
  | .blkHist => Sys2Proof.Machine.execBlkHist s
  | .blkSelect => Sys2Proof.Machine.execBlkSelect s
  | .blkEmit => Sys2Proof.Machine.execBlkEmit s
  | .blkLoad => Sys2Proof.Machine.execBlkLoad s
  | .blkStore => Sys2Proof.Machine.execBlkStore s
  | .blkEnc => Sys2Proof.Machine.execBlkEnc s
  | .blkMeta => Sys2Proof.Machine.execBlkMeta s
  | .blkPatch => Sys2Proof.Machine.execBlkPatch s
  | .blkPrefix => Sys2Proof.Machine.execBlkPrefix s
  | .blkDec => Sys2Proof.Machine.execBlkDec s
  | .arrEnc => Sys2Proof.Machine.execArrEnc s
  | .pageEnc n => Sys2Proof.Machine.execPageEnc n s
  | .bcWrite => Sys2Proof.Machine.execBcWrite s
  | .arrDec => Sys2Proof.Machine.execArrDec s
  | .pageDec n h => Sys2Proof.Machine.execPageDec n h s
  | .bcRead q => Sys2Proof.Machine.execBcRead q s
  | .bcPut x => Sys2Proof.Machine.execBcPut x s
  | .bcGet => Sys2Proof.Machine.execBcGet s
  | .arrayHdr l => Sys2Proof.Machine.execArrayHdr l s
  | .pageHdr w => Sys2Proof.Machine.execPageHdr w s
  | .pagePad => Sys2Proof.Machine.execPagePad s
  | .packed128 b ws => Sys2Proof.Machine.execPacked128 b ws s
  | .bcSize bs => Sys2Proof.Machine.execBcSize bs s
  | .bcBytes bytes => Sys2Proof.Machine.execBcBytes bytes s
  | .metaRec b c m pos => Sys2Proof.Machine.execMetaRec b c m pos s
  | .esBitmap m => Sys2Proof.Machine.execEsBitmap m s
  | .esCount k c => Sys2Proof.Machine.execEsCount k c s
  | .esPad => Sys2Proof.Machine.execEsPad s
  | .esG128 k ws => Sys2Proof.Machine.execEsG128 k ws s
  | .esG32 k n ws => Sys2Proof.Machine.execEsG32 k n ws s

end Sys2Proof.Machine
end

