-- ==== Sys2Proof/Machine/HostPort.lean ====
section
/-! DEFINITION. The host's side: register reads and writes, memory accesses, hardware reset, and the
host syntax of the commands (`10_state.md` R25 to R33, `20_memory.md` R62, `30_encoding.md` R82,
`70_reset_and_hazards.md` R261, R268, R269). -/

namespace Sys2Proof.Machine

/-- What the host reads in an argument register (R27 to R30). -/
def argValue (s : State) (r : ArgReg) : Nat :=
  match r with
  | .srcBase => s.srcBase
  | .srcLen => s.srcLen.toNat
  | .dstBase => s.dstBase
  | .dstCap => s.dstCap.toNat

/-- What the host reads in a register: always the current value, with no side effect (R25, R268). -/
def regValue (s : State) (r : HostReg) : Nat :=
  match r with
  | .cmd => s.cmd.toNat
  | .arg r => argValue s r
  | .status => s.status.word.toNat
  | .result => s.result.toNat
  | .required => s.required.toNat

/-- An argument register takes the low bits of what is written, as many as it has (R27 to R30; log 19). -/
def setArg (r : ArgReg) (v : Nat) (s : State) : State :=
  match r with
  | .srcBase => { s with srcBase := v % 2 ^ s.cfg.addrW }
  | .srcLen => { s with srcLen := BitVec.ofNat 32 v }
  | .dstBase => { s with dstBase := v % 2 ^ s.cfg.addrW }
  | .dstCap => { s with dstCap := BitVec.ofNat 32 v }

/-- The host receives values, the last one newest. -/
def logValues (vs : List Nat) (s : State) : State := { s with hostLog := vs.reverse ++ s.hostLog }

/-- A write of an argument register; ignored while `BUSY = 1` (R25, R268). -/
def hostWriteArg (r : ArgReg) (v : Nat) (s : State) : State := if s.status.busy then s else setArg r v s

/-- A write of `CMD`: accepted, or ignored while `BUSY = 1` (R210, R268). -/
def hostWriteCmd (w : Word) (s : State) : State := if s.status.busy then s else accept w s

/-- A byte the host writes; lent buffers are not the host's (R62, R269). At or beyond `2^ADDR_W` there is no
byte (R50), and the model faults: DESIGN CHOICE (log 30). -/
def hostWriteMem (a : Nat) (v : Byte) (s : State) : Host.Outcome State Fault Refusal :=
  if 2 ^ s.cfg.addrW ≤ a then .fault .outsideMemory
  else if s.status.busy = true ∧ (InSrc s a ∨ InDst s a) then .refused .bufferLent
  else .next { s with mem := Memory.write s.mem a v }

/-- A byte the host reads; it may read `SRC` but not `DST` while `BUSY = 1` (R62, R269). At or beyond
`2^ADDR_W` there is no byte (R50), and the model faults: DESIGN CHOICE (log 30). -/
def hostReadMem (a : Nat) (s : State) : Host.Outcome State Fault Refusal :=
  if 2 ^ s.cfg.addrW ≤ a then .fault .outsideMemory
  else if s.status.busy = true ∧ InDst s a then .refused .bufferLent
  else .next (logValues [(Memory.read s.mem a).toNat] s)

/-- A command that codes a stream is running: its buffers are in use. -/
abbrev Coded (s : State) : Prop := s.status.busy = true ∧ codingOf s.cmd ≠ .none

/-- Hardware reset (R260, R261). The parameters, the host's actions and what it has read are not the
instance's; memory is not touched, but that an ENC or DEC cut short leaves `DST` unspecified (log 23). -/
def hardReset (s : State) : Host.Outcome State Fault Refusal :=
  if Coded s then
    match launchRefusal s with
    | some r => .refused r
    | none => .next (State.fresh s.cfg (forgetDst s).mem s.host s.hostLog (forgetDst s).freeCtr)
  else .next (State.fresh s.cfg s.mem s.host s.hostLog s.freeCtr)

/-- `WAIT` that finds `DONE = 1`: it yields `(ERR, RESULT, REQUIRED)` (R82, R265). -/
def hostWaited (s : State) : State :=
  logValues [s.status.err.number.toNat, s.result.toNat, s.required.toNat] s

/-- The five register writes of a command line with operands (R82). -/
def commandLine (w : Word) (src len dst cap : Nat) : List HostAction :=
  [.writeArg .srcBase src, .writeArg .srcLen len, .writeArg .dstBase dst, .writeArg .dstCap cap, .writeCmd w]

end Sys2Proof.Machine
end

