-- ==== Sys2Proof/Machine/Sequencer.lean ====
section
/-! DEFINITION. Fetching the bytes of the operation the sequencer issues next: the command word that
acceptance latched (`44_commands.md` R210), or another operation's bytes with their place (log 8). -/

namespace Sys2Proof.Machine

/-- What the sequencer does next. -/
inductive Fetched where
  /-- Nothing is issued. -/
  | nothing
  /-- The operation the bytes encode. -/
  | operation (i : Instr)
  /-- The bytes are a stream record whose fields are out of range, or end too early: the stream is not
  well formed (R103). -/
  | badRecord
  /-- The bytes are no operation. -/
  | noOperation
deriving DecidableEq, Repr

/-- A place the stream is parsed at. -/
def Ctx.isStream (c : Ctx) : Bool :=
  match c with
  | .stream _ => true
  | .command => false
  | .internal => false

/-- The fetch. -/
def fetch (s : State) : Fetched :=
  match s.issue with
  | none => .nothing
  | some (c, bs) =>
    match decode c bs with
    | .ok (i, _) => .operation i
    | .error _ => if Ctx.isStream c then .badRecord else .noOperation

/-- The operation has been issued. -/
def issued (s : State) : State := { s with issue := none }

/-- A table row's operation put where the next step fetches it: a command word is accepted, as a host
write of `CMD` accepts it; an operation number goes to the sequencer with zero operand bytes. The host
lets the instance go on for one step. -/
def placeTableWord (nbits w : Nat) (s : State) : State :=
  match tableBytes nbits w with
  | some (.command, _) => { accept (BitVec.ofNat 32 w) s with host := .idle :: s.host }
  | some (c, bs) => { s with issue := some (c, bs), host := .idle :: s.host }
  | none => s

end Sys2Proof.Machine
end

