-- ==== Sys2Proof/Machine/Step.lean ====
section
/-! DEFINITION. One step of the machine: the host's next action, or the operation the sequencer issues
(`70_reset_and_hazards.md` R277; logs 6 and 7). -/

namespace Sys2Proof.Machine

/-- The instance goes on: the issued operation is run; with nothing issued it changes no state (R277).
Bytes issued at a place of the stream that are no record fault, and `CMD` is not looked at: DESIGN CHOICE
(log 31). -/
def advance (s : State) : Host.Outcome State Fault Refusal :=
  match fetch s with
  | .nothing => .next s
  | .operation i => exec i (issued s)
  | .badRecord => .fault (.malformed .recordFields)
  | .noOperation => .refused .noOperation

/-- One action of the host, already taken off its list. -/
def hostStep (a : HostAction) (s : State) : Host.Outcome State Fault Refusal :=
  match a with
  | .writeArg r v => .next (hostWriteArg r v s)
  | .writeCmd w => .next (hostWriteCmd w s)
  | .readReg r => .next (logValues [regValue s r] s)
  | .writeMem a v => hostWriteMem a v s
  | .readMem a => hostReadMem a s
  | .hardReset => hardReset s
  | .wait => if s.status.done then .next (hostWaited s) else advance { s with host := .wait :: s.host }
  | .idle => advance s

/-- The step. Between two host actions the instance goes on while the host waits or does nothing. -/
def step (s : State) : Host.Outcome State Fault Refusal :=
  match s.host with
  | [] => advance s
  | a :: rest => hostStep a { s with host := rest }

/-- The operation of a table row stored where the next step fetches it. -/
def State.withFetchWord (s : State) (nbits w : Nat) : State := placeTableWord nbits w s

end Sys2Proof.Machine
end

