-- ==== Sys2Proof/Machine/Stream.lean ====
section
/-! DEFINITION. The stream of an array as one function of the values, without a machine: the format of
`30_encoding.md` Part B, written once over sequences. The claims compare the machine's ENC and DEC with
it (R105, R198, R218); no meaning uses it. -/

namespace Sys2Proof.Machine

/-- `k` consecutive pieces of `n` elements. -/
def pieces {α : Type} (n : Nat) : Nat → List α → List (List α)
  | 0, _ => []
  | k + 1, v => v.take n :: pieces n k (v.drop n)

/-- The blocks of an array of a multiple of 128 values (R84). -/
def blocksOf (vals : List Word) : List (Vector Word 128) :=
  (pieces 128 (vals.length / 128) vals).map blockOf

/-- The blocks the selector sees: in the delta variant their differences, the carried value `p` flowing
from block to block across pages (R34, R161). -/
def codedBlocks (delta : Bool) : Word → List (Vector Word 128) → List (Vector Word 128)
  | _, [] => []
  | p, v :: vs => (if delta then deltas p v else v) :: codedBlocks delta v[127] vs

/-- `maxb` of a block (R163). -/
def blockMaxb (v : Vector Word 128) : Nat :=
  match highestWidth (histogram v) 33 with
  | some m => m.val
  | none => 0

/-- The choice of `b` and `cexcept` for a block (R163). -/
def blockChoice (v : Vector Word 128) : Candidate := chooseWidth (freqAt (histogram v)) (blockMaxb v)

/-- The exceptions of a block at its chosen width (R165). -/
def blockExceptions (v : Vector Word 128) : List (Nat × Word) := exceptionsFrom (blockChoice v).b 0 v.toList

/-- The `META` record of a block (R90, R165). -/
def blockMeta (v : Vector Word 128) : List Byte :=
  metaBytes (BitVec.ofNat 8 (blockChoice v).b) (BitVec.ofNat 8 (blockChoice v).c) (BitVec.ofNat 8 (blockMaxb v))
    ((blockExceptions v).map fun e => BitVec.ofNat 8 e.1)

/-- The residuals a block puts into bucket `k` (R92, R165). -/
def blockResiduals (k : Fin 32) (v : Vector Word 128) : List Word :=
  if (blockChoice v).b < blockMaxb v ∧ blockMaxb v - (blockChoice v).b - 1 = k.val
  then (blockExceptions v).map (·.2) else []

/-- The packed words of a block (R87). -/
def blockPacked (v : Vector Word 128) : List Word := vpack (blockChoice v).b v.toList

/-- The exception store of a page; capacities and cursors play no part in the stream (R142). -/
def pageStore (blocks : List (Vector Word 128)) : Vector Bucket 32 :=
  Vector.ofFn fun k : Fin 32 => { val := blocks.flatMap (blockResiduals k), cap := 0, rd := 0 }

/-- The `PACKED128` record of a block (R87). -/
def packedRecord (v : Vector Word 128) : Instr := .packed128 (Fin.ofNat 33 (blockChoice v).b) (blockPacked v)

/-- The header, the padding and the block area of a page whose header is at word index `h` (R86, R87). -/
def pageHead (h : Nat) (blocks : List (Vector Word 128)) : List Instr :=
  let body := List.replicate (padTo4 (h + 1)) .pagePad ++ blocks.map packedRecord
  .pageHdr (BitVec.ofNat 32 (1 + (wordsOf body).length)) :: body

/-- The container and the exception store of a page, whose `BC_SIZE` stands at word index `q` (R88 to R97). -/
def pageBack (q : Nat) (blocks : List (Vector Word 128)) : List Instr :=
  bcRecords (blocks.flatMap blockMeta) ++
    esRecords (q + (wordsOf (bcRecords (blocks.flatMap blockMeta))).length) (pageStore blocks)

/-- The records of a page whose header is at word index `h` (R83, R86 to R97). -/
def pageRecords (h : Nat) (blocks : List (Vector Word 128)) : List Instr :=
  pageHead h blocks ++ pageBack (h + (wordsOf (pageHead h blocks)).length) blocks

/-- The words of a page whose header is at word index `h`. -/
def pageStream (h : Nat) (blocks : List (Vector Word 128)) : List Word := wordsOf (pageRecords h blocks)

/-- The records of pages from word index `h` on; the next header follows the last word without
realignment (R98). -/
def pagesRecords : Nat → List (List (Vector Word 128)) → List Instr
  | _, [] => []
  | h, p :: ps => pageRecords h p ++ pagesRecords (h + (pageStream h p).length) ps

/-- The blocks of an array cut into pages of `PAGE_SIZE` values, the last one shorter (R84). -/
def pagesOf (pageSize : Nat) (blocks : List (Vector Word 128)) : List (List (Vector Word 128)) :=
  pieces (pageSize / 128) (ceilDiv blocks.length (pageSize / 128)) blocks

/-- The pages of an array, each as the blocks the selector sees (R84, R161). -/
def codedPages (pageSize : Nat) (delta : Bool) (vals : List Word) : List (List (Vector Word 128)) :=
  pagesOf pageSize (codedBlocks delta 0#32 (blocksOf vals))

/-- The records of the stream of an array (R83, R84). -/
def arrayRecords (pageSize : Nat) (delta : Bool) (vals : List Word) : List Instr :=
  .arrayHdr (BitVec.ofNat 32 vals.length) :: pagesRecords 1 (codedPages pageSize delta vals)

/-- The stream of an array (R83). -/
def streamOf (pageSize : Nat) (delta : Bool) (vals : List Word) : List Word :=
  wordsOf (arrayRecords pageSize delta vals)

/-- The advised bound on a page of `nb` blocks (R99). -/
def pageBound (nb : Nat) : Nat := 663 + 128 * nb + ceilDiv (3 * nb) 4

end Sys2Proof.Machine
end

