-- ==== Sys2Proof/Safety.lean ====
section
/-! DEFINITION. The terms the claims use: the invariant every step keeps, the conditions a command runs
under, what an instruction leaves unchanged, and what a reader of the two buffers sees. -/

namespace Sys2Proof.Machine

/-! ### The invariant -/

/-- What holds of every state the machine can reach, and is kept by every step whatever is issued. -/
structure Inv (s : State) : Prop where
  /-- The memory is in canonical form, -/
  mem_wf : Memory.wf s.mem
  /-- and lists no address at or beyond `2^ADDR_W` (R50). -/
  mem_below : ∀ c ∈ s.mem, c.1 < 2 ^ s.cfg.addrW
  /-- The base registers have `ADDR_W` bits (R27, R29). -/
  srcBase_lt : s.srcBase < 2 ^ s.cfg.addrW
  dstBase_lt : s.dstBase < 2 ^ s.cfg.addrW
  /-- `BUSY` and `DONE` are never both 1 (R31). -/
  not_busy_done : ¬(s.status.busy = true ∧ s.status.done = true)
  /-- `PHASE` mirrors `STATUS.BUSY` (R24). -/
  phase_busy : s.phase = .run ↔ s.status.busy = true
  /-- While busy `RESULT` and `REQUIRED` read 0 and `ERR` reads `OK` (R268). -/
  busy_clear : s.status.busy = true → s.result = 0#32 ∧ s.required = 0#32 ∧ s.status.err = .ok
  /-- A command is issued only while one is running (R210). -/
  command_busy : ∀ bs, s.issue = some (.command, bs) → s.status.busy = true
  /-- On any failure `RESULT` is 0 (R32, R218 (d)). -/
  failed_result : s.status.err ≠ .ok → s.result = 0#32
  /-- `REQUIRED` is 0 after every outcome but `InsufficientStorage` (R33). -/
  required_zero : s.status.err ≠ .insufficientStorage → s.required = 0#32
  /-- `BC.len` is at most `BC_CAP` (R35). -/
  container_fits : s.bcMem.length ≤ bcCap s.cfg
  /-- The capacity of a bucket is a multiple of 128 (R36). -/
  capacities : ∀ k : Fin 32, s.es[k.val].cap % 128 = 0
  /-- The selector's widths are in `0..32` (R23). -/
  selB_le : s.selB.toNat ≤ 32
  selM_le : s.selM.toNat ≤ 32

/-! ### Conditions -/

/-- The launch conditions of R61: no buffer wraps, the buffers are disjoint. -/
abbrev Lendable (s : State) : Prop := ¬Wraps s ∧ ¬Overlaps s

/-- Both buffers are on 16-byte boundaries (R55). -/
abbrev Aligned (s : State) : Prop := s.srcBase % 16 = 0 ∧ s.dstBase % 16 = 0

/-- `n` more words can be emitted: they fit `DST_CAP` (R57) and the address space (R61). -/
abbrev Room (s : State) (n : Nat) : Prop :=
  s.oc + n ≤ s.dstCap.toNat ∧ s.dstBase + 4 * s.dstCap.toNat ≤ 2 ^ s.cfg.addrW

/-- Words `i .. i + n` of `SRC` can be read (R58, R61). -/
abbrev Readable (s : State) (i n : Nat) : Prop :=
  i + n ≤ s.srcLen.toNat ∧ s.srcBase + 4 * s.srcLen.toNat ≤ 2 ^ s.cfg.addrW

/-! ### Views -/

/-- The `n` words of `SRC` from word `i` on. -/
def srcView (s : State) (i n : Nat) : List Word := Memory.readWords s.mem (srcAddr s i) n

/-- The `n` words of `DST` from word `j` on. -/
def dstView (s : State) (j n : Nat) : List Word := Memory.readWords s.mem (dstAddr s j) n

/-- The values ENC compresses (R28). -/
def inputValues (s : State) : List Word := srcView s 0 s.srcLen.toNat

/-- The encode command of a variant (R80). -/
def encOf (delta : Bool) : Instr := if delta then .encD else .encP

/-- The decode command of a variant (R80). -/
def decOf (delta : Bool) : Instr := if delta then .decD else .decP

/-- The most words the stream of `nb` blocks can have (R99). -/
def worstCase (p : Params) (nb : Nat) : Nat :=
  1 + nb / (p.pageSize / 128) * pageBound (p.pageSize / 128)
    + (if nb % (p.pageSize / 128) = 0 then 0 else pageBound (nb % (p.pageSize / 128)))

/-! ### Lengths and places in the stream (R94 to R98)

Computed from the counts alone, so that the claims do not measure the records with themselves. -/

/-- The padding words after the count word at word index `i` of a bucket of `c` residuals (R96). -/
def bucketPad (i c : Nat) : Nat := if c < 128 then 0 else roundup (i + 1) 4 - (i + 1)

/-- The words of bucket `k`, of `c` residuals, from word index `i` on (R94 to R97). -/
def bucketLength (i k c : Nat) : Nat :=
  if c = 0 then 0 else 1 + bucketPad i c + 4 * (k + 1) * (c / 128) + (k + 1) * ceilDiv (c % 128) 32

/-- The word index at which bucket `k` begins, in a store whose bitmap stands at word index `o` and whose
buckets have the counts `cnt` (R94). -/
def bucketStart (o : Nat) (cnt : Nat → Nat) : Nat → Nat
  | 0 => o + 1
  | k + 1 => bucketStart o cnt k + bucketLength (bucketStart o cnt k) k (cnt k)

/-- `E`, the words of a store (R98). -/
def storeLength (o : Nat) (cnt : Nat → Nat) : Nat := bucketStart o cnt 32 - o

/-- Word `i` of a store is a padding word (R96). -/
def StorePadding (o : Nat) (cnt : Nat → Nat) (i : Nat) : Prop :=
  ∃ k, k < 32 ∧ cnt k ≠ 0 ∧ bucketStart o cnt k < o + i ∧
    o + i ≤ bucketStart o cnt k + bucketPad (bucketStart o cnt k) (cnt k)

/-- `ES.cnt`. -/
def countsOf (es : Vector Bucket 32) (k : Nat) : Nat := (es.toList.map (·.val.length)).getD k 0

/-- How many residuals the blocks of a page put into bucket `k` (R141). -/
def pageCounts (blocks : List (Vector Word 128)) (k : Nat) : Nat :=
  (blocks.map fun v =>
    if (blockChoice v).c ≠ 0 ∧ blockMaxb v - (blockChoice v).b - 1 = k then (blockChoice v).c else 0).sum

/-- `W` of a page whose header is at word index `h` (R98). -/
def headLength (h : Nat) (blocks : List (Vector Word 128)) : Nat :=
  1 + (roundup (h + 1) 4 - (h + 1)) + (blocks.map fun v => 4 * (blockChoice v).b).sum

/-- `BS` of a page (R98). -/
def metaLength (blocks : List (Vector Word 128)) : Nat :=
  (blocks.map fun v => if (blockChoice v).c = 0 then 2 else 3 + (blockChoice v).c).sum

/-- `T_page`, the words of a page whose header is at word index `h` (R98). -/
def pageLength (h : Nat) (blocks : List (Vector Word 128)) : Nat :=
  let front := headLength h blocks + 1 + ceilDiv (metaLength blocks) 4
  front + storeLength (h + front) (pageCounts blocks)

/-- The sum of `T_page` over pages, the first header at word index `h` (R98). -/
def pagesLength : Nat → List (List (Vector Word 128)) → Nat
  | _, [] => 0
  | h, p :: ps => pageLength h p + pagesLength (h + pageLength h p) ps

/-- The words `ws`, from word index `i` on, of bucket `k` holding `val` (R94 to R97): the count, then, only
where a vector group follows, zeros up to a multiple of 4, the vector groups of 128 residuals each, and
the tail groups of 32 each, the last one filled with zeros. -/
structure BucketLayout (i : Nat) (k : Fin 32) (val ws : List Word) : Prop where
  count : ws[0]? = some (BitVec.ofNat 32 val.length)
  padding : ∀ j, j < bucketPad i val.length → ws[1 + j]? = some 0#32
  groups : ∀ j, j < val.length / 128 →
    (ws.drop (1 + bucketPad i val.length + 4 * (k.val + 1) * j)).take (4 * (k.val + 1)) =
      vpack (k.val + 1) ((val.drop (128 * j)).take 128)
  tails : ∀ j, j < ceilDiv (val.length % 128) 32 →
    (ws.drop (1 + bucketPad i val.length + 4 * (k.val + 1) * (val.length / 128) + (k.val + 1) * j)).take
        (k.val + 1) =
      spack (k.val + 1) ((List.range 32).map fun e => val.getD (128 * (val.length / 128) + 32 * j + e) 0#32)

/-- The words `ws` of a store whose bitmap stands at word index `o` (R93 to R97): every word of it. -/
structure StoreLayout (o : Nat) (es : Vector Bucket 32) (ws : List Word) : Prop where
  length : ws.length = storeLength o (countsOf es)
  bitmap : ∃ m, ws[0]? = some m ∧ ∀ k : Fin 32, m.getLsbD k.val = true ↔ es[k.val].val ≠ []
  buckets : ∀ k : Fin 32, es[k.val].val ≠ [] →
    BucketLayout (bucketStart o (countsOf es) k.val) k es[k.val].val
      (ws.drop (bucketStart o (countsOf es) k.val - o))

/-- Every `PACKED128` and `ES_G128` record of `rs`, the first of which is emitted at word index `o`, starts
at a multiple of 4 (R198 (c)). -/
def GroupsAligned (o : Nat) (rs : List Instr) : Prop :=
  ∀ a r b, rs = a ++ r :: b → ((∃ w ws, r = .packed128 w ws) ∨ ∃ k ws, r = .esG128 k ws) →
    (o + (wordsOf a).length) % 4 = 0

/-! ### What an instruction leaves

A claim gives the next state as a record update of the state before: a field that is not named is
unchanged, memory included. Where memory is named, these say what became of it, byte by byte. -/

/-- Every byte outside the `n` bytes from address `b` on reads in `m'` as it does in `m`. -/
abbrev SameOutside (m m' : List Host.Cell) (b n : Nat) : Prop :=
  ∀ a, (a < b ∨ b + n ≤ a) → Memory.read m' a = Memory.read m a

/-- The memory `m` is that of `s` after exactly the words `ws` were stored from word `j` of `DST` on. -/
structure Stored (s : State) (j : Nat) (ws : List Word) (m : List Host.Cell) : Prop where
  wf : Memory.wf m
  words : Memory.readWords m (dstAddr s j) ws.length = ws
  frame : SameOutside s.mem m (dstAddr s j) (4 * ws.length)

/-- The exception store `INST.RESET` leaves (R144, R211). -/
abbrev EmptyStore (p : Params) (es : Vector Bucket 32) : Prop :=
  ∀ k : Fin 32, es[k.val].val = [] ∧ es[k.val].rd = 0 ∧ es[k.val].cap = p.esDefaultCap

/-- Delta state zero (R34, R211). -/
abbrev NoCarry (d : Vector Word 4) : Prop := ∀ l : Fin 4, d[l.val] = 0#32

/-- What the delta state becomes over the blocks `raw`: the last four raw values where the delta variant
runs and there is a block, else as it was (R34, R161, R171). -/
def carriedOver (s : State) (raw : List (Vector Word 128)) : Vector Word 4 :=
  match s.deltaEn, raw.getLast? with
  | true, some v => blockTail v
  | true, none => s.dprev
  | false, _ => s.dprev

/-- The record `i` is produced as the words `ws` at the output cursor: while ENC runs, and where the
words fit, nothing else happens. -/
abbrev Produces (i : Instr) (ws : List Word) : Prop :=
  ∀ s : State, codingOf s.cmd = .produce → Memory.wf s.mem → Room s ws.length →
    ∃ m, exec i s = .next { s with mem := m, oc := s.oc + ws.length } ∧ Stored s s.oc ws m

/-- The record `i` is parsed as the update `f` while DEC runs, in a state that meets `pre`. -/
abbrev Parses (i : Instr) (pre : State → Prop) (f : State → State) : Prop :=
  ∀ s : State, codingOf s.cmd = .parse → pre s → exec i s = .next (f s)

end Sys2Proof.Machine
end

