-- ==== Sys2Proof/Certificates/Slice0/Obligations.lean ====
section
/-! DEFINITION. The statements for the provers. A next state is given as a record update of the state
before, so that every field it does not name is unchanged; where it names the memory, `Stored` and
`SameOutside` of `Sys2Proof/Safety.lean` say what each byte became. -/

open Sys2Proof Sys2Proof.Machine

/-! ### Encoding -/

/-- Decoding the encoding of a well-formed operation, at its place, gives it back and leaves the bytes after
it, with every operand at every value the encoding admits. The command words and the records' words are the
spec's (R80 to R97); that an internal operation's operands are bytes, and which, is the model's choice (log
9), and so is the place that tells a record and what its bits leave open (log 14). -/
def Obligations.DecodeInvertsEncode : Prop :=
  ∀ (i : Instr) (rest : List Byte), i.wf = true → decode i.ctx (encode i ++ rest) = .ok (i, rest)

/-- Every 32-bit word is one well-formed command, and encoding that command gives the word back: the five
words of R80 are the five commands, and every other word is `ILLEGAL` with that word (R81). -/
def Obligations.CommandWordsTotal : Prop :=
  ∀ w : Word, ∃ i : Instr, decode .command (leBytes w) = .ok (i, []) ∧ i.wf = true ∧ encode i = leBytes w ∧
    ((∃ v, i = .illegal v) ↔ w ∉ legalCommandWords)

/-- What the decoder answers is well formed and belongs to the place it was read at. A command and an
internal operation have no second encoding: the bytes read were the encoding of what was decoded (R81, R90,
R120). That an internal operation's operands are bytes, and which, is the model's choice (log 9). A stream
record has other encodings, whose padding words and pad bytes are not examined (D7): nothing is said of
them here. -/
def Obligations.DecodedIsWellFormed : Prop :=
  ∀ (c : Ctx) (bs rest : List Byte) (i : Instr), decode c bs = .ok (i, rest) →
    i.wf = true ∧ i.ctx = c ∧ ((c = .command ∨ c = .internal) → bs = encode i ++ rest)

/-- A few words of R80 and R81, written out, decode to the operations they stand for. -/
def Obligations.TableWordsDecode : Prop :=
  decodeTableWord 32 0x00000000 = some .reset ∧ decodeTableWord 32 0x00000001 = some .encP ∧
    decodeTableWord 32 0x00000101 = some .encD ∧ decodeTableWord 32 0x00000002 = some .decP ∧
    decodeTableWord 32 0x00000102 = some .decD ∧ decodeTableWord 32 0x00000100 = some (.illegal 0x100#32) ∧
    decodeTableWord 8 0x24 = some .esWrite ∧ decodeTableWord 8 0x3A = some .blkDec ∧
    decodeTableWord 8 0x47 = some .bcGet ∧ decodeTableWord 8 0x48 = none

/-! ### The step and the host -/

/-- A step runs the decoded operation: where the bytes issued decode to `i`, the step is `exec i`, with
the operation taken off the issue register. The host's list is as it was where the host waits and `DONE`
is 0, and loses its head where the host idles (model's own form of the sequencer, logs 7 and 8). -/
def Obligations.StepRunsIssuedOperation : Prop :=
  ∀ (s : State) (c : Ctx) (bs rest : List Byte) (i : Instr) (h : List HostAction),
    s.issue = some (c, bs) → decode c bs = .ok (i, rest) →
    (s.host = [] → step s = exec i { s with issue := none }) ∧
    (s.host = .idle :: h → step s = exec i { s with issue := none, host := h }) ∧
    (s.host = .wait :: h → s.status.done = false → step s = exec i { s with issue := none })

/-- With nothing issued the instance changes no state, however long the host waits (R277). -/
def Obligations.IdleInstanceRests : Prop :=
  ∀ (s : State) (h : List HostAction), s.issue = none →
    (s.host = [] → step s = .next s) ∧
    (s.host = .idle :: h → step s = .next { s with host := h }) ∧
    (s.host = .wait :: h → s.status.done = false → step s = .next s)

/-- A write of `CMD` while `BUSY = 0` is accepted: the word is latched and issued, `BUSY` is set, `DONE`,
`ERR`, `RESULT` and `REQUIRED` are cleared, `PHASE` is `RUN` (R210), and `DELTA_EN` is latched from bit 8 of
the word (R24, R26; that this is at acceptance and for an illegal word too is log 27); and at the host's next
wait the command of the word runs on that state. -/
def Obligations.WrittenCommandRuns : Prop :=
  ∀ (s : State) (w : Word) (i : Instr) (h : List HostAction),
    s.status.busy = false → s.host = .writeCmd w :: .wait :: h → decode .command (leBytes w) = .ok (i, []) →
    ∃ t, step s = .next { t with issue := some (.command, leBytes w) } ∧
      t = { s with
        cmd := w, status := { busy := true, done := false, err := .ok }, result := 0#32, required := 0#32,
        phase := .run, deltaEn := w.getLsbD 8, issue := none, host := .wait :: h } ∧
      step { t with issue := some (.command, leBytes w) } = exec i t

/-- A host read of a register always returns its current value: `CMD` the last word written, the argument
registers, `STATUS` as one word, `RESULT`, `REQUIRED` (R25 to R33). While `BUSY = 1` a host write of a register
is ignored, and `RESULT`, `REQUIRED` and `STATUS` read 0, 0 and `BUSY = 1, DONE = 0, ERR = OK`, the word 1
(R268). Where the host keeps what it read is the model's form of the host (log 7). -/
def Obligations.BusyHostAccess : Prop :=
  ∀ (s : State) (h : List HostAction),
    (∀ p ∈ [(HostReg.cmd, s.cmd.toNat), (.arg .srcBase, s.srcBase), (.arg .srcLen, s.srcLen.toNat),
        (.arg .dstBase, s.dstBase), (.arg .dstCap, s.dstCap.toNat), (.status, s.status.word.toNat),
        (.result, s.result.toNat), (.required, s.required.toNat)],
      step { s with host := .readReg p.1 :: h } = .next { s with host := h, hostLog := p.2 :: s.hostLog }) ∧
    (Inv s → s.status.busy = true →
      (∀ w, step { s with host := .writeCmd w :: h } = .next { s with host := h }) ∧
      (∀ r v, step { s with host := .writeArg r v :: h } = .next { s with host := h }) ∧
      s.status = { busy := true, done := false, err := .ok } ∧
      ∀ p ∈ [(HostReg.status, 1), (.result, 0), (.required, 0)],
        step { s with host := .readReg p.1 :: h } = .next { s with host := h, hostLog := p.2 :: s.hostLog })

/-- The fields of `STATUS` and the numbers of the result codes (R31, R230). -/
def Obligations.StatusLayout : Prop :=
  ∀ t : Status, t.word.getLsbD 0 = t.busy ∧ t.word.getLsbD 1 = t.done ∧ t.word.extractLsb' 2 3 = t.err.number ∧
    (∀ n, 5 ≤ n → t.word.getLsbD n = false) ∧
    [ErrCode.ok, .alignment, .invalidLength, .insufficientStorage, .bufferOverrun, .illegalCommand].map
      ErrCode.number = [0#3, 1#3, 2#3, 3#3, 4#3, 5#3]

/-- The host writes an argument register while `BUSY = 0`: that register takes the value, and nothing
else changes (R25, R27 to R30). -/
def Obligations.ArgumentRegisterWrites : Prop :=
  ∀ (s : State) (v : Nat) (x : Word) (h : List HostAction), s.status.busy = false →
    (v < 2 ^ s.cfg.addrW →
      step { s with host := .writeArg .srcBase v :: h } = .next { s with host := h, srcBase := v } ∧
      step { s with host := .writeArg .dstBase v :: h } = .next { s with host := h, dstBase := v }) ∧
    step { s with host := .writeArg .srcLen x.toNat :: h } = .next { s with host := h, srcLen := x } ∧
    step { s with host := .writeArg .dstCap x.toNat :: h } = .next { s with host := h, dstCap := x }

/-- The host writes a byte of external memory that is not lent: that byte reads so and every other byte
is unchanged; it reads a byte that is not lent as it stands (R50, R52). While `BUSY = 1` a host write of a
byte of `SRC` or `DST`, and a host read of a byte of `DST`, has no meaning and is refused (R62, R249 (c),
R269). At or beyond `2^ADDR_W` there is no byte (R50): that the access faults is the model's choice (log 30,
DESIGN CHOICE). -/
def Obligations.HostMemoryAccess : Prop :=
  ∀ (s : State) (a : Nat) (v : Byte) (h : List HostAction), Memory.wf s.mem →
    (a < 2 ^ s.cfg.addrW →
      ((s.status.busy = true → ¬InSrc s a ∧ ¬InDst s a) →
        ∃ m, step { s with host := .writeMem a v :: h } = .next { s with host := h, mem := m } ∧
          Memory.wf m ∧ Memory.read m a = v ∧ SameOutside s.mem m a 1) ∧
      ((s.status.busy = true → ¬InDst s a) →
        step { s with host := .readMem a :: h } =
          .next { s with host := h, hostLog := (Memory.read s.mem a).toNat :: s.hostLog }) ∧
      (s.status.busy = true →
        (InSrc s a ∨ InDst s a → step { s with host := .writeMem a v :: h } = .refused .bufferLent) ∧
        (InDst s a → step { s with host := .readMem a :: h } = .refused .bufferLent))) ∧
    (2 ^ s.cfg.addrW ≤ a →
      step { s with host := .writeMem a v :: h } = .fault .outsideMemory ∧
      step { s with host := .readMem a :: h } = .fault .outsideMemory)

/-- `WAIT` with `DONE = 1` yields `(ERR, RESULT, REQUIRED)` to the host and changes nothing of the
instance (R82, R265). The form of the host's record is the model's (log 7). -/
def Obligations.WaitYieldsOutcome : Prop :=
  ∀ (s : State) (h : List HostAction), s.status.done = true → s.host = .wait :: h →
    step s = .next { s with
      host := h
      hostLog := s.required.toNat :: s.result.toNat :: s.status.err.number.toNat :: s.hostLog }

/-- Hardware reset: the host registers, `STATUS`, `PHASE`, `DELTA_EN`, the delta state, the container and
the exception store take their reset values, and external memory is not touched (R260), but that a command
cut short leaves `DST` unspecified (R261): free values (log 11), of which nothing is said. That the commands
so cut short are ENC and DEC, while a RESET or an illegal word leaves `DST` too, is the model's reading of
R261 (log 23, DEDUCED, unsafe), and so is the premise on the buffers of an ENC or DEC. Nothing is said of the
registers R260 leaves unspecified. -/
def Obligations.HardwareReset : Prop :=
  ∀ (s : State) (h : List HostAction), Memory.wf s.mem → s.host = .hardReset :: h → (Coded s → Lendable s) →
    ∃ t, step s = .next t ∧ t.cmd = 0#32 ∧ t.srcBase = 0 ∧ t.srcLen = 0#32 ∧ t.dstBase = 0 ∧ t.dstCap = 0#32 ∧
      t.status = { busy := false, done := false, err := .ok } ∧ t.result = 0#32 ∧ t.required = 0#32 ∧
      t.phase = .idle ∧ t.deltaEn = false ∧ NoCarry t.dprev ∧ t.bcMem = [] ∧ t.bcRd = 0 ∧
      EmptyStore t.cfg t.es ∧ t.cfg = s.cfg ∧ t.issue = none ∧ t.host = h ∧ t.hostLog = s.hostLog ∧
      (¬Coded s → t.mem = s.mem) ∧ ∀ a, ¬InDst s a → Memory.read t.mem a = Memory.read s.mem a

/-- The machine after reset meets the invariant. -/
def Obligations.ResetMeetsInvariant : Prop := Inv State.reset

/-- Every step keeps the invariant, from every state that meets it, whatever the host does and whatever
is issued. -/
def Obligations.StepKeepsInvariant : Prop := ∀ s t : State, Inv s → step s = .next t → Inv t

/-! ### Errors and refusals -/

/-- `AlignmentError`: ENC and DEC with a buffer off a 16-byte boundary end with code 1 and write nothing
to memory, whatever the lengths; the instance is left as after `INST.RESET` (R55, R231, R236, R240). -/
def Obligations.AlignmentErrorTaken : Prop :=
  ∀ i ∈ [Instr.encP, .encD, .decP, .decD], ∀ s : State, Lendable s → ¬Aligned s →
    ∃ e d, exec i s = .next { s with
        status := { busy := false, done := true, err := .alignment }, result := 0#32, required := 0#32,
        phase := .idle, es := e, bcMem := [], bcRd := 0, dprev := d } ∧
      EmptyStore s.cfg e ∧ NoCarry d

/-- `InvalidInputLength`: ENC with aligned buffers and a length that is not a multiple of 128 ends with
code 2 and writes nothing to memory (R28, R232, R236, R240). -/
def Obligations.InvalidInputLengthTaken : Prop :=
  ∀ (delta : Bool) (s : State), Lendable s → Aligned s → s.srcLen.toNat % 128 ≠ 0 →
    ∃ e d, exec (encOf delta) s = .next { s with
        status := { busy := false, done := true, err := .invalidLength }, result := 0#32, required := 0#32,
        phase := .idle, es := e, bcMem := [], bcRd := 0, dprev := d } ∧
      EmptyStore s.cfg e ∧ NoCarry d

/-- `InsufficientStorage`: DEC of a stream whose word 0 is above `DST_CAP` ends with code 3, `REQUIRED`
holds that word, and no byte of memory is written (R30, R33, R233, R236). -/
def Obligations.InsufficientStorageTaken : Prop :=
  ∀ (delta : Bool) (s : State) (l : Word), Lendable s → Aligned s → s.srcLen ≠ 0#32 →
    Memory.readWord s.mem s.srcBase = l → s.dstCap.toNat < l.toNat →
    ∃ e d, exec (decOf delta) s = .next { s with
        status := { busy := false, done := true, err := .insufficientStorage }, result := 0#32,
        required := l, phase := .idle, es := e, bcMem := [], bcRd := 0, dprev := d, deltaEn := delta, oc := 0 } ∧
      EmptyStore s.cfg e ∧ NoCarry d

/-- `IllegalCommand`: every command word but the five ends with code 5, whatever the argument registers
hold, with no `INST.RESET` and nothing written to memory (R81, R217, R235). -/
def Obligations.IllegalCommandTaken : Prop :=
  ∀ (w : Word) (s : State), w ∉ legalCommandWords →
    decode .command (leBytes w) = .ok (.illegal w, []) ∧
      exec (.illegal w) s = .next { s with
        status := { busy := false, done := true, err := .illegalCommand }, result := 0#32, required := 0#32,
        phase := .idle }

/-- ENC and DEC started with a buffer that wraps past the top of the address space, or with overlapping
buffers, have no meaning: the launch is refused (R61, R249 (c)). -/
def Obligations.LaunchRefused : Prop :=
  ∀ i ∈ [Instr.encP, .encD, .decP, .decD], ∀ s : State,
    (Wraps s → exec i s = .refused .bufferWraps) ∧
    (¬Wraps s → Overlaps s → exec i s = .refused .buffersOverlap)

/-- A DEC of a stream without a word, or of one whose `L` fits but is not a multiple of 128, meets a
stream that is not well formed: a fault (R58, R104 items 1 and 2, R232). -/
def Obligations.MalformedHeadFaults : Prop :=
  ∀ (delta : Bool) (s : State), Lendable s → Aligned s →
    (s.srcLen = 0#32 → exec (decOf delta) s = .fault (.malformed .streamEnd)) ∧
    (∀ l, s.srcLen ≠ 0#32 → Memory.readWord s.mem s.srcBase = l → l.toNat ≤ s.dstCap.toNat → l.toNat % 128 ≠ 0 →
      exec (decOf delta) s = .fault (.malformed .arrayLength))

/-- A stream record issued while the command in `CMD` codes no stream is refused (model's choice,
log 13), and a group of values or words of the wrong size is refused (R127, U8). -/
def Obligations.RecordsAndGroupsRefused : Prop :=
  (∀ (i : Instr) (e : Expect) (s : State), i.wf = true → i.ctx = .stream e → codingOf s.cmd = .none →
    exec i s = .refused .noStream) ∧
  (∀ (b : Fin 33) (v : List Word) (s : State),
    (v.length ≠ 128 → exec (.vpack128 b v) s = .refused .groupSize) ∧
    (v.length ≠ 4 * b.val → exec (.vunpack128 b v) s = .refused .groupSize ∧
      exec (.packed128 b v) s = .refused .groupSize) ∧
    (v.length ≠ 32 → exec (.spack32 b v) s = .refused .groupSize) ∧
    (v.length ≠ b.val → exec (.sunpack32 b v) s = .refused .groupSize) ∧
    ∀ k : Fin 32, (v.length ≠ 4 * (k.val + 1) → exec (.esG128 k v) s = .refused .groupSize) ∧
      (v.length ≠ k.val + 1 → exec (.esG32 k b v) s = .refused .groupSize))

/-! ### The commands -/

/-- RESET, written to `CMD` and run: `INST.RESET`, then completion with `RESULT = 0`; `DELTA_EN`, the store,
the container and the delta state are as a hardware reset leaves them, the argument registers are as the
host wrote them and no memory is touched (R24, R212, R262; log 27). -/
def Obligations.ResetCommand : Prop :=
  (∀ s : State, ∃ e d, exec .reset s = .next { s with
      status := { busy := false, done := true, err := .ok }, result := 0#32, phase := .idle,
      es := e, bcMem := [], bcRd := 0, dprev := d, deltaEn := false } ∧ EmptyStore s.cfg e ∧ NoCarry d) ∧
  (∀ (s : State) (h : List HostAction), s.status.busy = false → s.host = .writeCmd 0#32 :: .idle :: h →
    ∃ t e d, step s = .next t ∧ step t = .next { s with
        host := h, cmd := 0#32, status := { busy := false, done := true, err := .ok }, result := 0#32,
        required := 0#32, phase := .idle, issue := none, es := e, bcMem := [], bcRd := 0, dprev := d,
        deltaEn := false } ∧
      EmptyStore s.cfg e ∧ NoCarry d)

/-- ENC on success: the first words of `DST` are the stream of the values at `SRC`, every other byte of
memory is unchanged, `RESULT` is the number of words, and the instance is left as after `INST.RESET`
(R190, R211, R213, R214, Part B of `30_encoding.md` as `streamOf`). -/
def Obligations.EncWritesStream : Prop :=
  ∀ (delta : Bool) (s : State) (ws : List Word), Memory.wf s.mem → Lendable s → Aligned s →
    s.srcLen.toNat % 128 = 0 → ws = streamOf s.cfg.pageSize delta (inputValues s) → ws.length ≤ s.dstCap.toNat →
    ∃ m e d hd bl fr sb sc sm, exec (encOf delta) s = .next { s with
        mem := m, status := { busy := false, done := true, err := .ok }, result := BitVec.ofNat 32 ws.length,
        phase := .idle, es := e, bcMem := [], bcRd := 0, dprev := d, deltaEn := delta,
        ic := s.srcLen.toNat, oc := ws.length, rem := 0#32, hdr := hd,
        blk := bl, freq := fr, selB := sb, selC := sc, selM := sm } ∧
      Stored s 0 ws m ∧ EmptyStore s.cfg e ∧ NoCarry d

/-- `BufferOverrun`: where the stream is longer than `DST_CAP`, ENC ends with code 4; of memory every byte
outside `DST` is unchanged, and the bytes of `DST` are free values (log 11), whatever they are (R57, R234,
R236, R238). -/
def Obligations.EncOverruns : Prop :=
  ∀ (delta : Bool) (s : State), Memory.wf s.mem → Lendable s → Aligned s → s.srcLen.toNat % 128 = 0 →
    s.dstCap.toNat < (streamOf s.cfg.pageSize delta (inputValues s)).length →
    ∃ t, exec (encOf delta) s = .next t ∧ t.status = { busy := false, done := true, err := .bufferOverrun } ∧
      t.result = 0#32 ∧ t.required = 0#32 ∧ t.phase = .idle ∧ EmptyStore s.cfg t.es ∧ t.bcMem = [] ∧ t.bcRd = 0 ∧
      NoCarry t.dprev ∧ t.cmd = s.cmd ∧ t.srcBase = s.srcBase ∧ t.srcLen = s.srcLen ∧ t.dstBase = s.dstBase ∧
      t.dstCap = s.dstCap ∧ t.cfg = s.cfg ∧ t.issue = s.issue ∧ t.host = s.host ∧ t.hostLog = s.hostLog ∧
      t.deltaEn = delta ∧ t.mp = s.mp ∧ t.ret = s.ret ∧
      ∀ a, ¬InDst s a → Memory.read t.mem a = Memory.read s.mem a

/-- DEC of the stream of an array that fits: the first values of `DST` are the array, every other byte of
memory is unchanged, `RESULT` is the length, and the instance is left as after `INST.RESET` (R105, R193,
R211, R215, R216). No word beyond the stream need be lent. -/
def Obligations.DecRestoresValues : Prop :=
  ∀ (delta : Bool) (s : State) (vals ws : List Word), Memory.wf s.mem → Lendable s → Aligned s →
    vals.length % 128 = 0 → vals.length ≤ s.dstCap.toNat → ws = streamOf s.cfg.pageSize delta vals →
    ws.length ≤ s.srcLen.toNat → srcView s 0 ws.length = ws →
    ∃ m e d ic hd mp bl sb sc sm, exec (decOf delta) s = .next { s with
        mem := m, status := { busy := false, done := true, err := .ok }, result := BitVec.ofNat 32 vals.length,
        phase := .idle, es := e, bcMem := [], bcRd := 0, dprev := d, deltaEn := delta,
        ic := ic, oc := vals.length, rem := 0#32, hdr := hd, mp := mp,
        blk := bl, selB := sb, selC := sc, selM := sm } ∧
      Stored s 0 vals m ∧ EmptyStore s.cfg e ∧ NoCarry d

/-- Round trip of the commands: an ENC that ends with `OK`, and then a DEC of the words it produced with
the same variant into buffers that meet the launch conditions, gives the array back (R105, R218 (a)). -/
def Obligations.CommandRoundTrip : Prop :=
  ∀ (delta : Bool) (s t : State) (base : Nat) (cap : Word), Memory.wf s.mem →
    exec (encOf delta) s = .next t → t.status.err = .ok → s.srcLen.toNat ≤ cap.toNat →
    Lendable { t with srcBase := t.dstBase, srcLen := t.result, dstBase := base, dstCap := cap } →
    base % 16 = 0 →
    ∃ u, exec (decOf delta) { t with srcBase := t.dstBase, srcLen := t.result, dstBase := base, dstCap := cap } =
        .next u ∧ u.status = { busy := false, done := true, err := .ok } ∧ u.result = s.srcLen ∧
      dstView u 0 s.srcLen.toNat = inputValues s

/-- Decoding with the other variant raises no error: of a delta stream the plain variant yields the deltas,
and of a plain stream the delta variant yields the prefix sums, modulo `2^32` (R100, R271). -/
def Obligations.PlainDecodeYieldsDeltas : Prop :=
  ∀ (s : State) (vals : List Word), Memory.wf s.mem → Lendable s → Aligned s →
    vals.length % 128 = 0 → vals.length ≤ s.dstCap.toNat →
    (∀ ws, ws = streamOf s.cfg.pageSize true vals → ws.length ≤ s.srcLen.toNat → srcView s 0 ws.length = ws →
      ∃ t, exec .decP s = .next t ∧ t.status = { busy := false, done := true, err := .ok } ∧
        t.result = BitVec.ofNat 32 vals.length ∧
        ∀ i, i < vals.length → Memory.readWord t.mem (dstAddr s i) =
          vals.getD i 0#32 - (if i = 0 then 0#32 else vals.getD (i - 1) 0#32)) ∧
    (∀ ws, ws = streamOf s.cfg.pageSize false vals → ws.length ≤ s.srcLen.toNat → srcView s 0 ws.length = ws →
      ∃ t, exec .decD s = .next t ∧ t.status = { busy := false, done := true, err := .ok } ∧
        t.result = BitVec.ofNat 32 vals.length ∧
        ∀ i, i < vals.length → (Memory.readWord t.mem (dstAddr s i)).toNat =
          (∑ j ∈ Finset.range (i + 1), (vals.getD j 0#32).toNat) % 2 ^ 32)

/-- Sufficient capacity: ENC succeeds whenever `DST_CAP` is at least the bound of R99 (R218 (c)). -/
def Obligations.SufficientCapacity : Prop :=
  ∀ (delta : Bool) (s : State), Memory.wf s.mem → Lendable s → Aligned s → s.srcLen.toNat % 128 = 0 →
    worstCase s.cfg (s.srcLen.toNat / 128) ≤ s.dstCap.toNat →
    ∃ t, exec (encOf delta) s = .next t ∧ t.status = { busy := false, done := true, err := .ok } ∧
      t.result.toNat ≤ worstCase s.cfg (s.srcLen.toNat / 128)

/-- Independence of history: the outcome of an ENC or DEC is a function of the command, the argument
registers, the parameters and the contents of `SRC` alone (R218 (b)). `REQUIRED` is 0 while a command
runs (R210). -/
def Obligations.HistoryIndependence : Prop :=
  ∀ i ∈ [Instr.encP, .encD, .decP, .decD], ∀ s s' t : State, Memory.wf s.mem → Memory.wf s'.mem →
    s'.cfg = s.cfg → s'.srcBase = s.srcBase → s'.srcLen = s.srcLen → s'.dstBase = s.dstBase →
    s'.dstCap = s.dstCap → s.required = 0#32 → s'.required = 0#32 →
    (∀ a, InSrc s a → Memory.read s'.mem a = Memory.read s.mem a) →
    exec i s = .next t →
    ∃ t', exec i s' = .next t' ∧ t'.status = t.status ∧ t'.result = t.result ∧ t'.required = t.required ∧
      (t.status.err = .ok → dstView t' 0 t.result.toNat = dstView t 0 t.result.toNat)

/-- A command, whatever its outcome, writes no byte outside `DST`, and no register the host writes
(R30, R62, R238). -/
def Obligations.CommandsWriteOnlyDst : Prop :=
  ∀ (i : Instr) (s t : State), i.ctx = .command → Memory.wf s.mem → exec i s = .next t →
    t.cmd = s.cmd ∧ t.srcBase = s.srcBase ∧ t.srcLen = s.srcLen ∧ t.dstBase = s.dstBase ∧ t.dstCap = s.dstCap ∧
      ∀ a, ¬InDst s a → Memory.read t.mem a = Memory.read s.mem a

/-! ### The pack engine -/

/-- `VPACK128` gives the `4*b` words of R122 and `VUNPACK128` the 128 values of R123; neither changes
anything but the words returned. -/
def Obligations.VectorResults : Prop :=
  ∀ (b : Fin 33) (v : List Word) (s : State),
    (v.length = 128 →
      ∃ out, exec (.vpack128 b v) s = .next { s with ret := out } ∧ out.length = 4 * b.val ∧
        ∀ l t, l < 4 → t < b.val → (out.getD (4 * t + l) 0#32).toNat =
          (∑ j ∈ Finset.range 32, (v.getD (4 * j + l) 0#32).toNat % 2 ^ b.val * 2 ^ (j * b.val))
            / 2 ^ (32 * t) % 2 ^ 32) ∧
    (v.length = 4 * b.val →
      ∃ out, exec (.vunpack128 b v) s = .next { s with ret := out } ∧ out.length = 128 ∧
        ∀ l j, l < 4 → j < 32 → (out.getD (4 * j + l) 0#32).toNat =
          (∑ t ∈ Finset.range b.val, (v.getD (4 * t + l) 0#32).toNat * 2 ^ (32 * t))
            / 2 ^ (j * b.val) % 2 ^ b.val)

/-- `SPACK32` gives the `b` words of R124 and `SUNPACK32` the 32 values of R125; neither changes anything
but the words returned. -/
def Obligations.ScalarResults : Prop :=
  ∀ (b : Fin 33) (v : List Word) (s : State),
    (v.length = 32 →
      ∃ out, exec (.spack32 b v) s = .next { s with ret := out } ∧ out.length = b.val ∧
        ∀ t, t < b.val → (out.getD t 0#32).toNat =
          (∑ j ∈ Finset.range 32, (v.getD j 0#32).toNat % 2 ^ b.val * 2 ^ (j * b.val)) / 2 ^ (32 * t) % 2 ^ 32) ∧
    (v.length = b.val →
      ∃ out, exec (.sunpack32 b v) s = .next { s with ret := out } ∧ out.length = 32 ∧
        ∀ j, j < 32 → (out.getD j 0#32).toNat =
          (∑ t ∈ Finset.range b.val, (v.getD t 0#32).toNat * 2 ^ (32 * t)) / 2 ^ (j * b.val) % 2 ^ b.val)

/-- The laws of the engine (R126): (a) and (c) unpacking a pack gives the values modulo `2^b`, (b) and (d)
packing an unpack gives the words back, (e) a pack depends on the low `b` bits alone. -/
def Obligations.EngineLaws : Prop :=
  ∀ b, b ≤ 32 →
    (∀ v : List Word, v.length = 128 → vunpack b (vpack b v) = v.map fun x => BitVec.ofNat 32 (x.toNat % 2 ^ b)) ∧
    (∀ w : List Word, w.length = 4 * b → vpack b (vunpack b w) = w) ∧
    (∀ v : List Word, v.length = 32 → sunpack b (spack b v) = v.map fun x => BitVec.ofNat 32 (x.toNat % 2 ^ b)) ∧
    (∀ w : List Word, w.length = b → spack b (sunpack b w) = w) ∧
    (∀ v v' : List Word, (v.map fun x => x.toNat % 2 ^ b) = (v'.map fun x => x.toNat % 2 ^ b) →
      vpack b v = vpack b v' ∧ spack b v = spack b v')

/-! ### The byte container -/

/-- `BC.PUT` appends a byte, and `BC.GET` returns the byte at the read cursor, zero-extended, and moves
the cursor; at the end of the container `BC.GET` meets a stream that is not well formed (R101, R196,
R197). That a byte has room is R35's invariant, taken as a hypothesis; a full container is log 18, and that
the two run whatever `CMD` holds is log 29. -/
def Obligations.ContainerPutGet : Prop :=
  ∀ s : State,
    (∀ x, s.bcMem.length < bcCap s.cfg → exec (.bcPut x) s = .next { s with bcMem := s.bcMem ++ [x] }) ∧
    (∀ h : s.bcRd < s.bcMem.length,
      exec .bcGet s = .next { s with bcRd := s.bcRd + 1, ret := [BitVec.ofNat 32 (s.bcMem[s.bcRd]).toNat] }) ∧
    (s.bcMem.length ≤ s.bcRd → exec .bcGet s = .fault (.malformed .containerEnd))

/-- `BC.WRITE` emits the byte count and then the bytes, lowest index in the lowest byte, the last word
filled with zero bytes (R54, R89, R192). -/
def Obligations.ContainerWritten : Prop :=
  ∀ (s : State) (n : Nat), n = ceilDiv s.bcMem.length 4 → Memory.wf s.mem → s.bcMem.length < 2 ^ 32 →
    Room s (1 + n) →
    ∃ m, exec .bcWrite s = .next { s with mem := m, oc := s.oc + (1 + n) } ∧ Memory.wf m ∧
      (Memory.readWord m (dstAddr s s.oc)).toNat = s.bcMem.length ∧
      (∀ i, i < 4 * n → Memory.read m (dstAddr s (s.oc + 1) + i) = s.bcMem.getD i 0#8) ∧
      SameOutside s.mem m (dstAddr s s.oc) (4 * (1 + n))

/-- `BC.READ` loads the bytes the size word counts, and returns the number of words consumed; a size
above the capacity, and bytes beyond `SRC_LEN`, are a stream that is not well formed (R58, R195, R104 items 1
and 3). -/
def Obligations.ContainerRead : Prop :=
  ∀ (s : State) (q bs : Word), Readable s q.toNat 1 → Memory.readWord s.mem (srcAddr s q.toNat) = bs →
    (bs.toNat ≤ bcCap s.cfg → Readable s q.toNat (1 + ceilDiv bs.toNat 4) →
      exec (.bcRead q) s = .next { s with
        bcMem := (List.range bs.toNat).map fun i => Memory.read s.mem (srcAddr s (q.toNat + 1) + i)
        bcRd := 0
        ret := [BitVec.ofNat 32 (1 + ceilDiv bs.toNat 4)] }) ∧
    (bcCap s.cfg < bs.toNat → exec (.bcRead q) s = .fault (.malformed .containerSize)) ∧
    (bs.toNat ≤ bcCap s.cfg → s.srcLen.toNat < q.toNat + (1 + ceilDiv bs.toNat 4) →
      exec (.bcRead q) s = .fault (.malformed .streamEnd))

/-! ### The exception store -/

/-- `ES.CLEAR` empties the 32 buckets and keeps their capacities; `ES.RESET` empties them and gives each
the default capacity; `ES.ENSURE` changes the capacity of its bucket alone, to the next multiple of 128
from the larger of what is needed and twice what there was (R143 to R145). -/
def Obligations.StoreClearedAndGrown : Prop :=
  ∀ s : State,
    (∃ e, exec .esClear s = .next { s with es := e } ∧
      ∀ k : Fin 32, e[k.val].val = [] ∧ e[k.val].rd = 0 ∧ e[k.val].cap = s.es[k.val].cap) ∧
    (∃ e, exec .esReset s = .next { s with es := e } ∧ EmptyStore s.cfg e) ∧
    (∀ (k : Fin 32) (n : Word), ∃ c,
      exec (.esEnsure k n) s = .next { s with es := s.es.set k.val { s.es[k.val] with cap := c } } ∧
      (s.es[k.val].val.length + n.toNat ≤ s.es[k.val].cap → c = s.es[k.val].cap) ∧
      (s.es[k.val].cap < s.es[k.val].val.length + n.toNat →
        c % 128 = 0 ∧ max (s.es[k.val].val.length + n.toNat) (2 * s.es[k.val].cap) ≤ c ∧
        c < max (s.es[k.val].val.length + n.toNat) (2 * s.es[k.val].cap) + 128))

/-- `ES.APPEND` adds a residual at the end of its bucket; `ES.GET` returns the residual at the bucket's
read cursor and moves the cursor, and on an exhausted bucket meets a stream that is not well formed
(R146, R149). R146 states a range of the residual and room in the bucket as what the callers supply: that
`ES.APPEND` does the same outside them, and past the bound of R37, is the model's choice (log 22, DESIGN
CHOICE). -/
def Obligations.StoreAppendsAndReads : Prop :=
  ∀ (s : State) (k : Fin 32),
    (∀ x, exec (.esAppend k x) s =
      .next { s with es := s.es.set k.val { s.es[k.val] with val := s.es[k.val].val ++ [x] } }) ∧
    (∀ h : s.es[k.val].rd < s.es[k.val].val.length,
      exec (.esGet k) s = .next { s with
        es := s.es.set k.val { s.es[k.val] with rd := s.es[k.val].rd + 1 }
        ret := [s.es[k.val].val[s.es[k.val].rd]] }) ∧
    (s.es[k.val].val.length ≤ s.es[k.val].rd → exec (.esGet k) s = .fault (.malformed .bucketEnd))

/-- `ES.WRITE` emits the bitmap of nonempty buckets and then, in ascending order, each nonempty bucket's
count, padding, vector groups and tail groups, word by word as `StoreLayout` places them; it returns the
number of words and leaves the store as it is (R93 to R97, R147). An empty store is one word 0. -/
def Obligations.StoreWritten : Prop :=
  ∀ (s : State) (ws : List Word), Memory.wf s.mem → ws = wordsOf (esRecords s.oc s.es) →
    Room s ws.length →
    (∃ m, exec .esWrite s = .next { s with
        mem := m, oc := s.oc + ws.length, ret := [BitVec.ofNat 32 ws.length] } ∧ Stored s s.oc ws m) ∧
    StoreLayout s.oc s.es ws ∧ ((∀ k : Fin 32, s.es[k.val].val = []) → ws = [0#32])

/-- Round trip of the store: what `ES.WRITE` emits of buckets within their bounds, its padding words holding
anything, read by `ES.READ` at a word index that is the same modulo 4, gives every bucket's residuals back in
order, with its read cursor 0, and consumes exactly those words (R96, R148, R150). Where `SRC_LEN` cuts those
words short, and where a count is 0 or above the bound, the stream is not well formed (R58, R104 items 1
and 4, R148). -/
def Obligations.StoreRoundTrip : Prop :=
  (∀ (s : State) (es : Vector Bucket 32) (o : Nat) (p : Word) (ws : List Word),
    (∀ k : Fin 32, es[k.val].val.length ≤ bucketBound s.cfg ∧ ∀ x ∈ es[k.val].val, x.toNat < 2 ^ (k.val + 1)) →
    o % 4 = p.toNat % 4 → ws = wordsOf (esRecords o es) → s.srcBase + 4 * s.srcLen.toNat ≤ 2 ^ s.cfg.addrW →
    (∀ i, i < ws.length → p.toNat + i < s.srcLen.toNat → ¬StorePadding o (countsOf es) i →
      Memory.readWord s.mem (srcAddr s (p.toNat + i)) = ws.getD i 0#32) →
    (p.toNat + ws.length ≤ s.srcLen.toNat →
      ∃ e, exec (.esRead p) s = .next { s with es := e, ret := [BitVec.ofNat 32 ws.length] } ∧
        ∀ k : Fin 32, e[k.val].val = es[k.val].val ∧ e[k.val].rd = 0) ∧
    (s.srcLen.toNat < p.toNat + ws.length → exec (.esRead p) s = .fault (.malformed .streamEnd))) ∧
  (∀ (s : State) (es : Vector Bucket 32) (k : Fin 32) (p m c : Word) (ws : List Word),
    (∀ j : Fin 32, j < k → es[j.val].val.length ≤ bucketBound s.cfg ∧ (m.getLsbD j.val = true ↔ es[j.val].val ≠ [])) →
    (∀ j : Fin 32, k ≤ j → es[j.val].val = []) → m.getLsbD k.val = true →
    ws = wordsOf (esRecords p.toNat es) → Readable s p.toNat (ws.length + 1) →
    srcView s p.toNat (ws.length + 1) = m :: (ws.drop 1 ++ [c]) → c = 0#32 ∨ bucketBound s.cfg < c.toNat →
    exec (.esRead p) s = .fault (.malformed .bucketCount))

/-! ### The block codec -/

/-- `BLK.DELTA`: when `DELTA_EN = 1` it takes the differences of the raw values and carries the last four of
them (R161); when `DELTA_EN = 0` it is not executed and `DPREV` is never written (R34, R161): run alone, it
completes and changes nothing (log 28, DEDUCED). -/
def Obligations.BlockDelta : Prop :=
  ∀ s : State,
    (s.deltaEn = true → ∃ b d, exec .blkDelta s = .next { s with blk := b, dprev := d } ∧
      b[0] = s.blk[0] - s.dprev[3] ∧ (∀ i : Fin 127, b[i.val + 1] = s.blk[i.val + 1] - s.blk[i.val]) ∧
      ∀ l : Fin 4, d[l.val] = s.blk[124 + l.val]) ∧
    (s.deltaEn = false → exec .blkDelta s = .next s)

/-- `BLK.PREFIX`: when `DELTA_EN = 1`, value `i` is the carried value plus the sum of the elements `0 .. i`,
modulo `2^32`, and the last four values are carried (R171); when `DELTA_EN = 0` it is not executed and
`DPREV` is never written (R34, R171): run alone, it completes and changes nothing (log 28, DEDUCED). It
inverts `BLK.DELTA` for every block and carried value, both leaving the same delta state. -/
def Obligations.BlockPrefix : Prop :=
  (∀ s : State,
    (s.deltaEn = true → ∃ b d, exec .blkPrefix s = .next { s with blk := b, dprev := d } ∧
      (∀ i : Fin 128, b[i.val].toNat =
        (s.dprev[3].toNat + ∑ j : Fin (i.val + 1), (s.blk[j.val]).toNat) % 2 ^ 32) ∧
      ∀ l : Fin 4, d[l.val] = b[124 + l.val]) ∧
    (s.deltaEn = false → exec .blkPrefix s = .next s)) ∧
  (∀ s t : State, exec .blkDelta s = .next t →
    exec .blkPrefix { t with dprev := s.dprev } = .next { t with blk := s.blk })

/-- `BLK.HIST` counts, for every width `w`, the values whose least width is `w`; the counters sum to 128
(R9, R162). -/
def Obligations.BlockHistogram : Prop :=
  ∀ s : State, ∃ f, exec .blkHist s = .next { s with freq := f } ∧
    (∀ w : Fin 33, (f[w.val]).toNat = (Finset.univ.filter fun i : Fin 128 =>
      (s.blk[i.val]).toNat < 2 ^ w.val ∧ ∀ u < w.val, 2 ^ u ≤ (s.blk[i.val]).toNat).card) ∧
    ∑ w : Fin 33, (f[w.val]).toNat = 128

/-- `BLK.SELECT` (R163): of a histogram of 128 values, `SEL.maxb` is the highest width with a nonzero
counter, and `SEL.b` the largest width up to it at which the cost is least; `SEL.cexcept` counts the
values above it. -/
def Obligations.WidthSelection : Prop :=
  ∀ (s : State) (cx cost : Nat → Nat), ∑ w : Fin 33, (s.freq[w.val]).toNat = 128 →
    (∀ b, cx b = ∑ w : Fin 33, if b < w.val then (s.freq[w.val]).toNat else 0) →
    ∃ b c m, exec .blkSelect s = .next { s with selB := b, selC := c, selM := m } ∧
      (∃ h : m.toNat < 33, (s.freq[m.toNat]).toNat ≠ 0) ∧ cx m.toNat = 0 ∧
      b.toNat ≤ m.toNat ∧ c.toNat = cx b.toNat ∧
      ((∀ u, cost u = 8 * cx u + (m.toNat - u) * cx u + 128 * u) →
        ∀ u, u ≤ m.toNat → cost b.toNat ≤ cost u ∧ (cost u = cost b.toNat → u ≤ b.toNat))

/-- `BLK.SELECT` on a histogram without a nonzero counter, for which R163 states no `maxb`: it completes,
with a free width `m` (log 12, a DESIGN CHOICE), and with no value counted chooses `b = 0` for every `m`. -/
def Obligations.EmptyHistogramSelects : Prop :=
  ∀ s : State, (∀ w : Fin 33, s.freq[w.val] = 0#8) →
    ∃ m : Fin 33, exec .blkSelect s = .next { s with
      selB := 0#6, selC := 0#8, selM := BitVec.ofNat 6 m.val, freeCtr := s.freeCtr + 1 }

/-- What the selector guarantees of a histogram of 128 values (R164 (a) to (d)). -/
def Obligations.SelectionGuarantees : Prop :=
  ∀ s : State, ∑ w : Fin 33, (s.freq[w.val]).toNat = 128 →
    ∃ b c m, exec .blkSelect s = .next { s with selB := b, selC := c, selM := m } ∧
      b.toNat ≤ m.toNat ∧ m.toNat ≤ 32 ∧ (c = 0#8 ↔ b = m) ∧ c.toNat ≤ 102 ∧
      128 * b.toNat + c.toNat * (8 + m.toNat - b.toNat) ≤ 128 * m.toNat

/-- `BLK.EMIT` (R165): the metadata bytes go into the container; where there are exceptions their
positions do too, in ascending order, and their residuals go to the bucket `maxb - b - 1`, whose capacity
grows by the rule of `ES.ENSURE`. That it does so whatever `SEL` and the bucket's count are, also past the bound of
R37, is the model's choice (log 22, DESIGN CHOICE). -/
def Obligations.BlockEmit : Prop :=
  ∀ (s : State) (pos : List (Fin 128)),
    pos = (List.finRange 128).filter (fun i => 2 ^ s.selB.toNat ≤ (s.blk[i.val]).toNat) →
    (s.selC = 0#8 → s.bcMem.length + 2 ≤ bcCap s.cfg →
      exec .blkEmit s = .next { s with bcMem := s.bcMem ++ [s.selB.setWidth 8, 0#8] }) ∧
    (∀ k : Fin 32, s.selC ≠ 0#8 → s.selM.toNat = s.selB.toNat + k.val + 1 →
      s.bcMem.length + 3 + pos.length ≤ bcCap s.cfg →
      exec .blkEmit s = .next { s with
        bcMem := s.bcMem ++ [s.selB.setWidth 8, s.selC, s.selM.setWidth 8]
          ++ pos.map (fun i : Fin 128 => BitVec.ofNat 8 i.val)
        es := s.es.set k.val {
          val := s.es[k.val].val ++ pos.map (fun i : Fin 128 => (s.blk[i.val]) >>> s.selB.toNat)
          cap := grownCap s.es[k.val].val.length s.es[k.val].cap s.selC.toNat
          rd := s.es[k.val].rd } })

/-- `BLK.LOAD` reads 128 words of `SRC` at the input cursor; `BLK.STORE` writes the 128 values to `DST` at
the output cursor (R166, R167). Run alone it does so whatever `CMD` holds (model's choice, log 29), and with
no check against `SRC_LEN` and `DST_CAP`, which the rules say the cursors never pass: the pseudocode has none
(log 18, DEDUCED). -/
def Obligations.BlockLoadStore : Prop :=
  ∀ s : State,
    (srcAddr s (s.ic + 128) ≤ 2 ^ s.cfg.addrW →
      ∃ b, exec .blkLoad s = .next { s with blk := b, ic := s.ic + 128 } ∧
        ∀ i : Fin 128, b[i.val] = Memory.readWord s.mem (srcAddr s (s.ic + i.val))) ∧
    (Memory.wf s.mem → dstAddr s (s.oc + 128) ≤ 2 ^ s.cfg.addrW →
      ∃ m, exec .blkStore s = .next { s with mem := m, oc := s.oc + 128 } ∧ Stored s s.oc s.blk.toList m)

/-- `BLK.META` takes the head of the record at the container's read cursor into `SEL`: two bytes where the
record has no exceptions, and then `SEL.maxb` is `SEL.b`; three where it has (R169). Out of range or out
of bytes, it meets a stream that is not well formed. That it runs alone whatever `CMD` holds is the model's
choice (log 29). -/
def Obligations.BlockMeta : Prop :=
  ∀ (s : State) (b c m : Byte) (rest : List Byte),
    (s.bcMem.drop s.bcRd = b :: c :: rest → b.toNat ≤ 32 → c = 0#8 →
      exec .blkMeta s = .next { s with
        bcRd := s.bcRd + 2, selB := b.setWidth 6, selC := 0#8, selM := b.setWidth 6 }) ∧
    (s.bcMem.drop s.bcRd = b :: c :: m :: rest → c ≠ 0#8 → c.toNat ≤ 128 → c.toNat ≤ rest.length →
      b.toNat < m.toNat → m.toNat ≤ 32 →
      exec .blkMeta s = .next { s with
        bcRd := s.bcRd + 3, selB := b.setWidth 6, selC := c, selM := m.setWidth 6 }) ∧
    (s.bcMem.length < s.bcRd + 2 → exec .blkMeta s = .fault (.malformed .metaEnd)) ∧
    (s.bcMem.drop s.bcRd = b :: c :: rest → 32 < b.toNat ∨ 128 < c.toNat →
      exec .blkMeta s = .fault (.malformed .metaHead)) ∧
    (s.bcMem.drop s.bcRd = b :: c :: rest → b.toNat ≤ 32 → c ≠ 0#8 → c.toNat ≤ 128 →
      rest.length < 1 + c.toNat → exec .blkMeta s = .fault (.malformed .exceptionEnd)) ∧
    (s.bcMem.drop s.bcRd = b :: c :: m :: rest → b.toNat ≤ 32 → c ≠ 0#8 → c.toNat ≤ 128 →
      c.toNat ≤ rest.length → ¬(b.toNat < m.toNat ∧ m.toNat ≤ 32) →
      exec .blkMeta s = .fault (.malformed .metaMaxb))

/-- `BLK.PATCH` (R170): without exceptions nothing; with them, each position the container holds takes the
next residual of the bucket, shifted by `SEL.b`, by OR. After any number of good positions, one above 127 or
not above the one before it, the end of the container, and the end of the bucket are a stream that is not
well formed (R104 items 6 and 7). That it runs alone whatever `CMD` holds is the model's choice (log 29). -/
def Obligations.BlockPatch : Prop :=
  ∀ (s : State) (pos : List (Fin 128)) (xs : List Word) (k : Fin 32) (bs : List Byte) (rs : List Word),
    (s.selC = 0#8 → exec .blkPatch s = .next s) ∧
    (s.selC ≠ 0#8 → s.selM.toNat = s.selB.toNat + k.val + 1 → xs.length = pos.length → pos.Pairwise (· < ·) →
      s.bcMem.drop s.bcRd = pos.map (fun i : Fin 128 => BitVec.ofNat 8 i.val) ++ bs →
      s.es[k.val].val.drop s.es[k.val].rd = xs ++ rs →
      (pos.length = s.selC.toNat →
        ∃ v, exec .blkPatch s = .next { s with
            blk := v
            bcRd := s.bcRd + pos.length
            es := s.es.set k.val { s.es[k.val] with rd := s.es[k.val].rd + pos.length } } ∧
          (∀ i : Fin 128, i ∉ pos → v[i.val] = s.blk[i.val]) ∧
          ∀ p ∈ pos.zip xs, v[p.1.val] = s.blk[p.1.val] ||| (p.2 <<< s.selB.toNat)) ∧
      (pos.length < s.selC.toNat →
        (bs = [] → exec .blkPatch s = .fault (.malformed .containerEnd)) ∧
        ∀ x rest, bs = x :: rest →
          (128 ≤ x.toNat ∨ (∃ i ∈ pos, x.toNat ≤ i.val) → exec .blkPatch s = .fault (.malformed .position)) ∧
          (x.toNat < 128 → (∀ i ∈ pos, i.val < x.toNat) → rs = [] →
            exec .blkPatch s = .fault (.malformed .bucketEnd))))

/-- `BLK.ENC` (R168): the block at the input cursor, differenced where the delta variant runs, leaves its
packed words in `DST`, its record in the container and its residuals in its bucket; the output cursor stays
on a multiple of 4 where it was on one. -/
def Obligations.BlockEncode : Prop :=
  ∀ (s : State) (raw v : Vector Word 128), Memory.wf s.mem → srcAddr s (s.ic + 128) ≤ 2 ^ s.cfg.addrW →
    raw.toList = srcView s s.ic 128 → v = (if s.deltaEn then deltas s.dprev[3] raw else raw) →
    s.bcMem.length + (blockMeta v).length ≤ bcCap s.cfg → Room s (blockPacked v).length →
    ∃ m e f, exec .blkEnc s = .next { s with
        mem := m, blk := v, freq := f, selB := BitVec.ofNat 6 (blockChoice v).b,
        selC := BitVec.ofNat 8 (blockChoice v).c, selM := BitVec.ofNat 6 (blockMaxb v),
        ic := s.ic + 128, oc := s.oc + (blockPacked v).length, dprev := carriedOver s [raw],
        bcMem := s.bcMem ++ blockMeta v, es := e } ∧
      Stored s s.oc (blockPacked v) m ∧ (s.oc + (blockPacked v).length) % 4 = s.oc % 4 ∧
      ∀ k : Fin 32, e[k.val].val = s.es[k.val].val ++ blockResiduals k v ∧ e[k.val].rd = s.es[k.val].rd

/-- `BLK.DEC` (R172) of what `BLK.ENC` left of a block, from the same carried value: the block's values
are stored, and the record, the packed words and the residuals are consumed. -/
def Obligations.BlockDecode : Prop :=
  ∀ (s : State) (raw v : Vector Word 128) (bs : List Byte), Memory.wf s.mem →
    v = (if s.deltaEn then deltas s.dprev[3] raw else raw) →
    s.bcMem.drop s.bcRd = blockMeta v ++ bs →
    (∀ k : Fin 32, blockResiduals k v <+: s.es[k.val].val.drop s.es[k.val].rd) →
    Readable s s.ic (blockPacked v).length → srcView s s.ic (blockPacked v).length = blockPacked v →
    dstAddr s (s.oc + 128) ≤ 2 ^ s.cfg.addrW →
    ∃ m e, exec .blkDec s = .next { s with
        mem := m, blk := raw, selB := BitVec.ofNat 6 (blockChoice v).b,
        selC := BitVec.ofNat 8 (blockChoice v).c, selM := BitVec.ofNat 6 (blockMaxb v),
        ic := s.ic + (blockPacked v).length, oc := s.oc + 128, dprev := carriedOver s [raw],
        bcRd := s.bcRd + (blockMeta v).length, es := e } ∧
      Stored s s.oc raw.toList m ∧
      ∀ k : Fin 32, e[k.val].val = s.es[k.val].val ∧ e[k.val].cap = s.es[k.val].cap ∧
        e[k.val].rd = s.es[k.val].rd + (blockResiduals k v).length

/-- `BLK.DEC` of any record the decoder accepts, also of one no encoder produces (R102, R172, U14): the
words unpacked, each residual ORed in at its position, then the prefix sums where the delta variant runs,
are stored; the record, the words and the residuals are consumed. Where there are packed words and `SRC_LEN`
cuts them short the stream is not well formed (R58, R104 item 1); with `b = 0` no word is read, wherever the
input cursor stands. -/
def Obligations.BlockDecodeAnyRecord : Prop :=
  ∀ (s : State) (b mb : Byte) (pos : List (Fin 128)) (xs : List Word) (bs : List Byte), Memory.wf s.mem →
    b.toNat ≤ 32 → (pos = [] → mb = b) → (pos ≠ [] → b.toNat < mb.toNat ∧ mb.toNat ≤ 32) →
    pos.Pairwise (· < ·) → xs.length = pos.length →
    s.bcMem.drop s.bcRd =
      metaBytes b (BitVec.ofNat 8 pos.length) mb (pos.map fun i : Fin 128 => BitVec.ofNat 8 i.val) ++ bs →
    (0 < b.toNat → s.srcBase + 4 * s.srcLen.toNat ≤ 2 ^ s.cfg.addrW → s.srcLen.toNat < s.ic + 4 * b.toNat →
      exec .blkDec s = .fault (.malformed .streamEnd)) ∧
    ((∀ k : Fin 32, mb.toNat = b.toNat + k.val + 1 → xs <+: s.es[k.val].val.drop s.es[k.val].rd) →
      (0 < b.toNat → Readable s s.ic (4 * b.toNat)) → dstAddr s (s.oc + 128) ≤ 2 ^ s.cfg.addrW →
      ∃ (v out : Vector Word 128) (m : List Host.Cell) (e : Vector Bucket 32), exec .blkDec s = .next { s with
          mem := m, blk := out, selB := b.setWidth 6, selC := BitVec.ofNat 8 pos.length, selM := mb.setWidth 6,
          ic := s.ic + 4 * b.toNat, oc := s.oc + 128, dprev := carriedOver s [out],
          bcRd := s.bcRd + (if pos = [] then 2 else 3 + pos.length), es := e } ∧
        out = (if s.deltaEn then prefixSums s.dprev[3] v else v) ∧ Stored s s.oc out.toList m ∧
        (∀ i : Fin 128, i ∉ pos → v[i.val] = (vunpack b.toNat (srcView s s.ic (4 * b.toNat))).getD i.val 0#32) ∧
        (∀ p ∈ pos.zip xs, v[p.1.val] =
          (vunpack b.toNat (srcView s s.ic (4 * b.toNat))).getD p.1.val 0#32 ||| (p.2 <<< b.toNat)) ∧
        ∀ k : Fin 32, e[k.val].val = s.es[k.val].val ∧ e[k.val].cap = s.es[k.val].cap ∧
          e[k.val].rd = s.es[k.val].rd + (if pos ≠ [] ∧ mb.toNat = b.toNat + k.val + 1 then pos.length else 0))

/-! ### The page framer -/

/-- `PAGE.ENC` emits the page of the `n` values at the input cursor, in buffers that do not meet (R86 to
R97, R191). The page has the `T_page` words of R98, and every `PACKED128` and `ES_G128` record is emitted at a
word index that is a multiple of 4 (R198 (c)). R191 states `128 <= n`: that `n = 0` gives an empty page, which
the hypotheses take in, is the model's choice (log 22, DESIGN CHOICE). -/
def Obligations.PageEncode : Prop :=
  ∀ (s : State) (n : Word) (raw coded : List (Vector Word 128)) (ws : List Word), Memory.wf s.mem →
    n.toNat % 128 = 0 → n.toNat ≤ s.cfg.pageSize → srcAddr s (s.ic + n.toNat) ≤ 2 ^ s.cfg.addrW →
    raw = blocksOf (srcView s s.ic n.toNat) → coded = codedBlocks s.deltaEn s.dprev[3] raw →
    ws = pageStream s.oc coded → Room s ws.length →
    (srcAddr s (s.ic + n.toNat) ≤ dstAddr s s.oc ∨ dstAddr s (s.oc + ws.length) ≤ srcAddr s s.ic) →
    ∃ m e bl fr sb sc sm, exec (.pageEnc n) s = .next { s with
        mem := m, oc := s.oc + ws.length, ic := s.ic + n.toNat, hdr := s.oc, dprev := carriedOver s raw,
        bcMem := coded.flatMap blockMeta, es := e, blk := bl, freq := fr, selB := sb, selC := sc, selM := sm } ∧
      Stored s s.oc ws m ∧ ws.length = pageLength s.oc coded ∧ GroupsAligned s.oc (pageRecords s.oc coded) ∧
      ∀ k : Fin 32, e[k.val].val = coded.flatMap (blockResiduals k) ∧ e[k.val].rd = 0

/-- `ARR.ENC` emits the stream of the array from a zero carried value and returns its length (R84, R190),
which is 1 plus the sum of `T_page` of R98 (R198 (a)); every `PACKED128` and `ES_G128` record is emitted at a
word index that is a multiple of 4 (R198 (c)). -/
def Obligations.ArrayEncode : Prop :=
  ∀ (s : State) (ws : List Word), Memory.wf s.mem → Lendable s → s.srcLen.toNat % 128 = 0 →
    s.dprev[3] = 0#32 → ws = streamOf s.cfg.pageSize s.deltaEn (inputValues s) → ws.length ≤ s.dstCap.toNat →
    ∃ m e bm bl fr sb sc sm hd, exec .arrEnc s = .next { s with
        mem := m, ic := s.srcLen.toNat, oc := ws.length, rem := 0#32, hdr := hd,
        dprev := carriedOver s (blocksOf (inputValues s)), bcMem := bm, es := e,
        blk := bl, freq := fr, selB := sb, selC := sc, selM := sm, ret := [BitVec.ofNat 32 ws.length] } ∧
      Stored s 0 ws m ∧
      ws.length = 1 + pagesLength 1 (codedPages s.cfg.pageSize s.deltaEn (inputValues s)) ∧
      GroupsAligned 0 (arrayRecords s.cfg.pageSize s.deltaEn (inputValues s))

/-- `PAGE.DEC` of a page that `PAGE.ENC` could have written at the same word index modulo 4, the padding words
after its header holding anything, gives its values back and returns the number of words of the page (R86,
R194). A page of no blocks (`n = 0`) is taken in; `PAGE.ENC` gives one by the model's choice (log 22, DESIGN
CHOICE). A header beyond `SRC_LEN`, a `W` below `1 + p`, and blocks that decode but do not end at `h + W`, where
the container and the store stand, are a stream that is not well formed (R58, R104 items 1, 3 and 8). -/
def Obligations.PageDecode : Prop :=
  (∀ (s : State) (n h : Word) (raw coded : List (Vector Word 128)) (ws : List Word), Memory.wf s.mem →
    n.toNat = 128 * raw.length → n.toNat ≤ s.cfg.pageSize → coded = codedBlocks s.deltaEn s.dprev[3] raw →
    ws = pageStream h.toNat coded → Readable s h.toNat ws.length →
    (∀ i, i < ws.length → i = 0 ∨ padTo4 (h.toNat + 1) < i →
      Memory.readWord s.mem (srcAddr s (h.toNat + i)) = ws.getD i 0#32) →
    dstAddr s (s.oc + n.toNat) ≤ 2 ^ s.cfg.addrW →
    (srcAddr s (h.toNat + ws.length) ≤ dstAddr s s.oc ∨ dstAddr s (s.oc + n.toNat) ≤ srcAddr s h.toNat) →
    ∃ m e bl sb sc sm, exec (.pageDec n h) s = .next { s with
        mem := m, oc := s.oc + n.toNat, ic := h.toNat + headLength h.toNat coded, hdr := h.toNat,
        mp := h.toNat + headLength h.toNat coded, dprev := carriedOver s raw,
        bcMem := coded.flatMap blockMeta, bcRd := (coded.flatMap blockMeta).length, es := e,
        blk := bl, selB := sb, selC := sc, selM := sm, ret := [BitVec.ofNat 32 ws.length] } ∧
      Stored s s.oc (raw.flatMap Vector.toList) m) ∧
  (∀ (s : State) (n h : Word), s.srcLen.toNat ≤ h.toNat → exec (.pageDec n h) s = .fault (.malformed .streamEnd)) ∧
  (∀ (s : State) (n h w : Word), Readable s h.toNat 1 → Memory.readWord s.mem (srcAddr s h.toNat) = w →
    w.toNat < 1 + padTo4 (h.toNat + 1) → exec (.pageDec n h) s = .fault (.malformed .pageWords)) ∧
  (∀ (s : State) (n h w : Word) (raw coded : List (Vector Word 128)) (area q : Nat) (packed back : List Word),
    Memory.wf s.mem → n.toNat = 128 * raw.length → n.toNat ≤ s.cfg.pageSize →
    coded = codedBlocks s.deltaEn s.dprev[3] raw → area = h.toNat + 1 + padTo4 (h.toNat + 1) →
    q = h.toNat + w.toNat → packed = coded.flatMap blockPacked → back = wordsOf (pageBack q coded) →
    Readable s h.toNat 1 → Memory.readWord s.mem (srcAddr s h.toNat) = w → 1 + padTo4 (h.toNat + 1) ≤ w.toNat →
    Readable s area packed.length → srcView s area packed.length = packed →
    Readable s q back.length → srcView s q back.length = back →
    dstAddr s (s.oc + n.toNat) ≤ 2 ^ s.cfg.addrW →
    (srcAddr s (area + packed.length) ≤ dstAddr s s.oc ∨ dstAddr s (s.oc + n.toNat) ≤ srcAddr s area) →
    area + packed.length ≠ q → exec (.pageDec n h) s = .fault (.malformed .areaEnd))

/-- `ARR.DEC` of a stream, from a zero carried value, gives the array back, returns its length, and ends with
its word cursor `h` at the end of the stream (R193, R198 (b)). -/
def Obligations.ArrayDecode : Prop :=
  ∀ (s : State) (vals ws : List Word), Memory.wf s.mem → Lendable s → s.dprev[3] = 0#32 →
    vals.length % 128 = 0 → vals.length ≤ s.dstCap.toNat → ws = streamOf s.cfg.pageSize s.deltaEn vals →
    ws.length ≤ s.srcLen.toNat → srcView s 0 ws.length = ws →
    ∃ t m e bm rd ic hd mp bl sb sc sm,
      t = { s with
        mem := m, oc := vals.length, rem := 0#32, dprev := carriedOver s (blocksOf vals),
        bcMem := bm, bcRd := rd, es := e, ic := ic, hdr := hd, mp := mp,
        blk := bl, selB := sb, selC := sc, selM := sm } ∧
      arrDec s = .ok { values := vals.length, words := ws.length } t ∧
      exec .arrDec s = .next { t with ret := [BitVec.ofNat 32 vals.length] } ∧ Stored s 0 vals m

/-! ### The stream records -/

/-- While ENC runs a record is produced as its words at the output cursor, `META` as its bytes in the
container (R84 to R97). That a record issued alone is an operation is the model's choice (log 13). -/
def Obligations.RecordsProduced : Prop :=
  (∀ l, Produces (.arrayHdr l) [l]) ∧
  (∀ (w : Word) (s : State), codingOf s.cmd = .produce → Memory.wf s.mem → Room s 1 →
    ∃ m, exec (.pageHdr w) s = .next { s with mem := m, oc := s.oc + 1, hdr := s.oc } ∧ Stored s s.oc [w] m) ∧
  Produces .pagePad [0#32] ∧
  (∀ (b : Fin 33) ws, ws.length = 4 * b.val → Produces (.packed128 b ws) ws) ∧
  (∀ bs, Produces (.bcSize bs) [bs]) ∧
  (∀ bytes, Produces (.bcBytes bytes) (packBytes bytes)) ∧
  (∀ (b c m : Byte) (pos : List Byte) (s : State), codingOf s.cmd = .produce → MetaOk b c m pos →
    s.bcMem.length + (if c = 0#8 then 2 else 3 + pos.length) ≤ bcCap s.cfg →
    exec (.metaRec b c m pos) s =
      .next { s with bcMem := s.bcMem ++ (if c = 0#8 then [b, 0#8] else b :: c :: m :: pos) }) ∧
  (∀ m, Produces (.esBitmap m) [m]) ∧
  (∀ k c, Produces (.esCount k c) [c]) ∧
  Produces .esPad [0#32] ∧
  (∀ (k : Fin 32) ws, ws.length = 4 * (k.val + 1) → Produces (.esG128 k ws) ws) ∧
  (∀ (k : Fin 32) n ws, ws.length = k.val + 1 → Produces (.esG32 k n ws) ws)

/-- While DEC runs a record is parsed: its fields are taken into the registers the decoder keeps them in,
and the stream cursor passes its words (R84 to R97, R148, R169, R193 to R195). That a record issued alone
is an operation, and that `IC` is its cursor, is the model's choice (log 13). A record carries
its own words, and neither `SRC_LEN` nor `BC.len` is looked at, nor, where `ES_G128` and `ES_G32` append their
residuals, the bound of R37, the count word or `ES.cap` (log 13 too, DESIGN CHOICE). -/
def Obligations.RecordsParsed : Prop :=
  (∀ l, Parses (.arrayHdr l) (fun s => l.toNat ≤ s.dstCap.toNat ∧ l.toNat % 128 = 0)
    fun s => { s with oc := 0, rem := l, ic := 1 }) ∧
  (∀ w, Parses (.pageHdr w) (fun s => 1 + padTo4 (s.ic + 1) ≤ w.toNat)
    fun s => { s with hdr := s.ic, mp := s.ic + w.toNat, ic := s.ic + 1 }) ∧
  Parses .pagePad (fun _ => True) (fun s => { s with ic := s.ic + 1 }) ∧
  (∀ (b : Fin 33) ws, Parses (.packed128 b ws) (fun _ => ws.length = 4 * b.val)
    fun s => { s with blk := Vector.ofFn fun i : Fin 128 => (vunpack b.val ws).getD i.val 0#32
                      ic := s.ic + ws.length }) ∧
  (∀ bs, Parses (.bcSize bs) (fun s => bs.toNat ≤ bcCap s.cfg) fun s => { s with ic := s.ic + 1 }) ∧
  (∀ bytes, Parses (.bcBytes bytes) (fun s => bytes.length ≤ bcCap s.cfg)
    fun s => { s with bcMem := bytes, bcRd := 0, ic := s.ic + (packBytes bytes).length }) ∧
  (∀ (b c m : Byte) (pos : List Byte), Parses (.metaRec b c m pos) (fun _ => MetaOk b c m pos)
    fun s => { s with selB := b.setWidth 6, selC := c, selM := m.setWidth 6,
                      bcRd := s.bcRd + (if c = 0#8 then 2 else 3) }) ∧
  (∀ (m : Word) (s : State), codingOf s.cmd = .parse →
    ∃ e, exec (.esBitmap m) s = .next { s with es := e, ic := s.ic + 1 } ∧
      ∀ k : Fin 32, e[k.val].val = [] ∧ e[k.val].rd = 0 ∧ e[k.val].cap = s.es[k.val].cap) ∧
  (∀ k c, Parses (.esCount k c) (fun s => c ≠ 0#32 ∧ c.toNat ≤ bucketBound s.cfg)
    fun s => { s with ic := s.ic + 1
                      es := s.es.set k.val { val := [], rd := 0, cap := grownCap 0 s.es[k.val].cap c.toNat } }) ∧
  Parses .esPad (fun _ => True) (fun s => { s with ic := s.ic + 1 }) ∧
  (∀ (k : Fin 32) ws, Parses (.esG128 k ws) (fun _ => ws.length = 4 * (k.val + 1))
    fun s => { s with ic := s.ic + ws.length
                      es := s.es.set k.val { s.es[k.val] with
                        val := s.es[k.val].val ++ vunpack (k.val + 1) ws } }) ∧
  (∀ (k : Fin 32) (n : Fin 33) ws, Parses (.esG32 k n ws) (fun _ => ws.length = k.val + 1)
    fun s => { s with ic := s.ic + ws.length
                      es := s.es.set k.val { s.es[k.val] with
                        val := s.es[k.val].val ++ (sunpack (k.val + 1) ws).take n.val } })
end

