-- ==== Sys2Proof/Laws/Memory.lean ====
section
/-! SUPPORT. The laws of the external memory: every operation keeps the canonical form, a read after a
write to the same place gives the value written, and a write leaves every other place alone. -/

namespace Sys2Proof.Machine

/-! ### Bytes of a word -/

theorem ofLe_bytes (w : Word) : ofLe (byteOf w 0) (byteOf w 1) (byteOf w 2) (byteOf w 3) = w := by
  apply BitVec.eq_of_getLsbD_eq
  intro i hi
  simp only [ofLe, byteOf, BitVec.getLsbD_append, BitVec.getLsbD_extractLsb']
  rcases Nat.lt_or_ge i 8 with h1 | h1
  · simp [h1]
  · rcases Nat.lt_or_ge i 16 with h2 | h2
    · simp [show ¬ i < 8 by omega, show i - 8 < 8 by omega, show 8 + (i - 8) = i by omega]
    · rcases Nat.lt_or_ge i 24 with h3 | h3
      · simp [show ¬ i < 8 by omega, show ¬ i - 8 < 8 by omega, show i - 8 - 8 < 8 by omega,
          show 16 + (i - 8 - 8) = i by omega]
      · simp [show ¬ i < 8 by omega, show ¬ i - 8 < 8 by omega, show ¬ i - 8 - 8 < 8 by omega,
          show i - 8 - 8 - 8 < 8 by omega, show 24 + (i - 8 - 8 - 8) = i by omega]

theorem byteOf_ofLe (a b c d : Byte) :
    byteOf (ofLe a b c d) 0 = a ∧ byteOf (ofLe a b c d) 1 = b ∧ byteOf (ofLe a b c d) 2 = c ∧
      byteOf (ofLe a b c d) 3 = d := by
  refine ⟨?_, ?_, ?_, ?_⟩ <;> apply BitVec.eq_of_getLsbD_eq <;> intro i hi <;>
    simp only [ofLe, byteOf, BitVec.getLsbD_append, BitVec.getLsbD_extractLsb', hi]
  · simp [hi]
  · simp [show ¬ 8 + i < 8 by omega, hi]
  · simp [show ¬ 16 + i < 8 by omega, show ¬ 16 + i - 8 < 8 by omega, show 16 + i - 8 - 8 = i by omega, hi]
  · simp [show ¬ 24 + i < 8 by omega, show ¬ 24 + i - 8 < 8 by omega, show ¬ 24 + i - 8 - 8 < 8 by omega, show 24 + i - 8 - 8 - 8 = i by omega]

/-! ### One byte -/

/-- Whatever a write lists was listed before, or is what was written. -/
theorem Memory.mem_write {m : List Host.Cell} {a : Nat} {v : Byte} {c : Host.Cell}
    (h : c ∈ Memory.write m a v) : (c = (a, v) ∧ v ≠ memDefault) ∨ c ∈ m := by
  induction m with
  | nil =>
    simp only [Memory.write] at h
    split at h
    · simp at h
    · exact .inl ⟨by simpa using h, ‹_›⟩
  | cons p rest ih =>
    obtain ⟨b, w⟩ := p
    simp only [Memory.write] at h
    split_ifs at h with h1 h2 h3 h4
    · exact .inr h
    · rcases List.mem_cons.1 h with rfl | h
      · exact .inl ⟨rfl, h2⟩
      · exact .inr h
    · exact .inr (List.mem_cons_of_mem _ h)
    · rcases List.mem_cons.1 h with rfl | h
      · exact .inl ⟨rfl, h4⟩
      · exact .inr (List.mem_cons_of_mem _ h)
    · rcases List.mem_cons.1 h with rfl | h
      · exact .inr (List.mem_cons_self ..)
      · rcases ih h with h | h
        · exact .inl h
        · exact .inr (List.mem_cons_of_mem _ h)

theorem Memory.wf_nil : Memory.wf [] := ⟨List.Pairwise.nil, by simp⟩

theorem Memory.wf_tail {p : Host.Cell} {m : List Host.Cell} (h : Memory.wf (p :: m)) : Memory.wf m :=
  ⟨(List.pairwise_cons.1 h.1).2, fun c hc => h.2 c (List.mem_cons_of_mem _ hc)⟩

/-- A write keeps the canonical form. -/
theorem Memory.write_wf {m : List Host.Cell} (h : Memory.wf m) (a : Nat) (v : Byte) :
    Memory.wf (Memory.write m a v) := by
  refine ⟨?_, fun c hc => ?_⟩
  · induction m with
    | nil => simp only [Memory.write]; split <;> simp
    | cons p rest ih =>
      obtain ⟨b, w⟩ := p
      have hp := List.pairwise_cons.1 h.1
      simp only [Memory.write]
      split_ifs with h1 h2 h3 h4
      · exact h.1
      · refine List.pairwise_cons.2 ⟨fun c hc => ?_, h.1⟩
        rcases List.mem_cons.1 hc with rfl | hc
        · exact h1
        · exact Nat.lt_trans h1 (hp.1 c hc)
      · exact hp.2
      · subst h3
        exact List.pairwise_cons.2 ⟨hp.1, hp.2⟩
      · refine List.pairwise_cons.2 ⟨fun c hc => ?_, ih (Memory.wf_tail h)⟩
        rcases Memory.mem_write hc with ⟨rfl, _⟩ | hc
        · show b < a
          omega
        · exact hp.1 c hc
  · rcases Memory.mem_write hc with ⟨rfl, hv⟩ | hc
    · exact hv
    · exact h.2 c hc

/-- An address below every listed one reads as the default. -/
theorem Memory.read_below {m : List Host.Cell} {a : Nat} (h : ∀ c ∈ m, a < c.1) :
    Memory.read m a = memDefault := by
  cases m with
  | nil => rfl
  | cons p rest =>
    have := h p (List.mem_cons_self ..)
    simp [Memory.read, show a ≠ p.1 by omega, this]

/-- Read after write, at the same place and at every other. -/
theorem Memory.read_write {m : List Host.Cell} (h : Memory.wf m) (a : Nat) (v : Byte) (b : Nat) :
    Memory.read (Memory.write m a v) b = if b = a then v else Memory.read m b := by
  induction m with
  | nil =>
    simp only [Memory.write]
    split_ifs with h1 h2 h2
    · simp [Memory.read, h1]
    · simp [Memory.read]
    · simp [Memory.read, h2]
    · simp [Memory.read, h2]
  | cons p rest ih =>
    obtain ⟨c, w⟩ := p
    have hp := (List.pairwise_cons.1 h.1).1
    have ih := ih (Memory.wf_tail h)
    simp only [Memory.write]
    split_ifs with h1 h2 hb hb h3 h4 hb hb hb
    · subst hb
      rw [h2, Memory.read_below]
      intro d hd
      rcases List.mem_cons.1 hd with rfl | hd
      · exact h1
      · exact Nat.lt_trans h1 (hp d hd)
    · rfl
    · simp [Memory.read, hb]
    · by_cases h5 : b < a
      · simp [Memory.read, hb, h5, show b ≠ c by omega, show b < c by omega]
      · simp [Memory.read, hb, h5]
    · subst h3; subst hb
      rw [h4, Memory.read_below]
      exact hp
    · subst h3
      by_cases h5 : b < a
      · simp only [Memory.read, hb, h5, if_true, if_false]
        rw [Memory.read_below]
        intro d hd
        exact Nat.lt_trans h5 (hp d hd)
      · simp [Memory.read, hb, h5]
    · simp [Memory.read, hb]
    · subst h3
      simp [Memory.read, hb]
    · rename_i hb
      subst hb
      simp only [Memory.read, show b ≠ c by omega, show ¬ b < c by omega, if_false]
      rw [ih]; simp
    · rename_i hb
      by_cases h5 : b = c
      · simp [Memory.read, h5]
      · by_cases h6 : b < c
        · simp [Memory.read, h5, h6]
        · simp only [Memory.read, h5, h6, if_false]
          rw [ih]; simp [hb]

/-! ### Words -/

theorem Memory.writeWord_wf {m : List Host.Cell} (h : Memory.wf m) (a : Nat) (v : Word) :
    Memory.wf (Memory.writeWord m a v) := by
  unfold Memory.writeWord
  exact Memory.write_wf (Memory.write_wf (Memory.write_wf (Memory.write_wf h _ _) _ _) _ _) _ _

theorem Memory.read_writeWord {m : List Host.Cell} (h : Memory.wf m) (a : Nat) (v : Word) (b : Nat) :
    Memory.read (Memory.writeWord m a v) b =
      if a ≤ b ∧ b < a + 4 then byteOf v (b - a) else Memory.read m b := by
  have h0 := Memory.write_wf h a (byteOf v 0)
  have h1 := Memory.write_wf h0 (a + 1) (byteOf v 1)
  have h2 := Memory.write_wf h1 (a + 2) (byteOf v 2)
  unfold Memory.writeWord
  rw [Memory.read_write h2, Memory.read_write h1, Memory.read_write h0, Memory.read_write h]
  split_ifs
  all_goals first
    | omega
    | rfl
    | (subst_vars; simp)

theorem Memory.readWord_writeWord {m : List Host.Cell} (h : Memory.wf m) (a : Nat) (v : Word) :
    Memory.readWord (Memory.writeWord m a v) a = v := by
  simp only [Memory.readWord, Memory.read_writeWord h]
  simp [ofLe_bytes]

theorem Memory.readWord_writeWord_of_disjoint {m : List Host.Cell} (h : Memory.wf m) {a b : Nat} (v : Word)
    (hd : b + 4 ≤ a ∨ a + 4 ≤ b) : Memory.readWord (Memory.writeWord m a v) b = Memory.readWord m b := by
  simp only [Memory.readWord, Memory.read_writeWord h]
  rw [if_neg (by omega), if_neg (by omega), if_neg (by omega), if_neg (by omega)]

theorem Memory.writeWords_wf {m : List Host.Cell} (h : Memory.wf m) (a : Nat) (ws : List Word) :
    Memory.wf (Memory.writeWords m a ws) := by
  induction ws generalizing m a with
  | nil => exact h
  | cons w rest ih => exact ih (Memory.writeWord_wf h a w) (a + 4)

/-- A write of words leaves every byte outside them alone. -/
theorem Memory.read_writeWords_of_outside {m : List Host.Cell} (h : Memory.wf m) {a : Nat} {ws : List Word}
    {b : Nat} (hb : b < a ∨ a + 4 * ws.length ≤ b) :
    Memory.read (Memory.writeWords m a ws) b = Memory.read m b := by
  induction ws generalizing m a with
  | nil => rfl
  | cons w rest ih =>
    simp only [List.length_cons] at hb
    rw [Memory.writeWords, ih (Memory.writeWord_wf h a w) (by omega), Memory.read_writeWord h,
      if_neg (by omega)]

theorem Memory.readWord_writeWords_of_outside {m : List Host.Cell} (h : Memory.wf m) {a : Nat}
    {ws : List Word} {b : Nat} (hb : b + 4 ≤ a ∨ a + 4 * ws.length ≤ b) :
    Memory.readWord (Memory.writeWords m a ws) b = Memory.readWord m b := by
  simp only [Memory.readWord]
  rw [Memory.read_writeWords_of_outside h (by omega), Memory.read_writeWords_of_outside h (by omega),
    Memory.read_writeWords_of_outside h (by omega), Memory.read_writeWords_of_outside h (by omega)]

/-- Word `i` of what was written. -/
theorem Memory.readWord_writeWords {m : List Host.Cell} (h : Memory.wf m) (a : Nat) (ws : List Word)
    {i : Nat} (hi : i < ws.length) :
    Memory.readWord (Memory.writeWords m a ws) (a + 4 * i) = ws[i] := by
  induction ws generalizing m a i with
  | nil => simp at hi
  | cons w rest ih =>
    cases i with
    | zero =>
      rw [Memory.writeWords, Memory.readWord_writeWords_of_outside (Memory.writeWord_wf h a w) (by omega)]
      simpa using Memory.readWord_writeWord h a w
    | succ i =>
      rw [Memory.writeWords, show a + 4 * (i + 1) = a + 4 + 4 * i by omega]
      simpa using ih (Memory.writeWord_wf h a w) (a + 4) (by simpa using hi)

@[simp] theorem Memory.readWords_length (m : List Host.Cell) (a n : Nat) :
    (Memory.readWords m a n).length = n := by simp [Memory.readWords]

theorem Memory.readWords_writeWords {m : List Host.Cell} (h : Memory.wf m) (a : Nat) (ws : List Word) :
    Memory.readWords (Memory.writeWords m a ws) a ws.length = ws := by
  apply List.ext_getElem (by simp)
  intro i h1 h2
  simp only [Memory.readWords, List.getElem_map, List.getElem_range]
  exact Memory.readWord_writeWords h a ws h2

/-! ### Unspecified bytes -/

theorem Memory.fillFree_wf {m : List Host.Cell} (h : Memory.wf m) (c a n : Nat) :
    Memory.wf (Memory.fillFree c m a n) := by
  induction n generalizing m a with
  | zero => exact h
  | succ n ih => exact ih (Memory.write_wf h _ _) _

theorem Memory.read_fillFree {m : List Host.Cell} (h : Memory.wf m) (c a n b : Nat) :
    Memory.read (Memory.fillFree c m a n) b =
      if a ≤ b ∧ b < a + n then Config.freeByte c b else Memory.read m b := by
  induction n generalizing m a with
  | zero => simp [Memory.fillFree, show ¬(a ≤ b ∧ b < a) by omega]
  | succ n ih =>
    rw [Memory.fillFree, ih (Memory.write_wf h _ _), Memory.read_write h]
    split_ifs with h1 h2 h3 h3 h3
    all_goals first
      | rfl
      | omega
      | (subst_vars; rfl)

/-! ### No address at or beyond a bound -/

theorem Memory.write_below {m : List Host.Cell} {n a : Nat} (h : ∀ c ∈ m, c.1 < n) (ha : a < n) (v : Byte) :
    ∀ c ∈ Memory.write m a v, c.1 < n := by
  intro c hc
  rcases Memory.mem_write hc with ⟨rfl, _⟩ | hc
  · exact ha
  · exact h c hc

theorem Memory.writeWord_below {m : List Host.Cell} {n a : Nat} (h : ∀ c ∈ m, c.1 < n) (ha : a + 4 ≤ n)
    (v : Word) : ∀ c ∈ Memory.writeWord m a v, c.1 < n := by
  unfold Memory.writeWord
  exact Memory.write_below (Memory.write_below (Memory.write_below (Memory.write_below h (by omega) _)
    (by omega) _) (by omega) _) (by omega) _

theorem Memory.writeWords_below {m : List Host.Cell} {n a : Nat} {ws : List Word} (h : ∀ c ∈ m, c.1 < n)
    (ha : a + 4 * ws.length ≤ n) : ∀ c ∈ Memory.writeWords m a ws, c.1 < n := by
  induction ws generalizing m a with
  | nil => exact h
  | cons w rest ih =>
    simp only [List.length_cons] at ha
    exact ih (Memory.writeWord_below h (by omega) w) (by omega)

theorem Memory.fillFree_below {m : List Host.Cell} {n c a k : Nat} (h : ∀ c ∈ m, c.1 < n) (ha : a + k ≤ n) :
    ∀ d ∈ Memory.fillFree c m a k, d.1 < n := by
  induction k generalizing m a with
  | zero => exact h
  | succ k ih => exact ih (Memory.write_below h (by omega) _) (by omega)

end Sys2Proof.Machine
end

