-- ==== Sys2Proof/Laws/Bits.lean ====
section
/-! SUPPORT. Lemmas of the number helpers, the byte order, and the positional numbers of the pack engine. -/

namespace Sys2Proof.Machine

/-! ### Widths and rounding -/

/-- `bits(v) ≤ w` says `v < 2^w` (R9). -/
theorem bitWidth_le_iff (v : Word) (w : Nat) : bitWidth v ≤ w ↔ v.toNat < 2 ^ w := by
  unfold bitWidth
  split
  · rename_i h
    simp [h]
  · rename_i h
    have hv : v.toNat ≠ 0 := fun h0 => h (BitVec.eq_of_toNat_eq (by simpa using h0))
    rw [Nat.add_one_le_iff, Nat.log2_lt hv]

theorem bitWidth_le_32 (v : Word) : bitWidth v ≤ 32 := (bitWidth_le_iff v 32).2 v.isLt

theorem bitWidth_zero : bitWidth 0#32 = 0 := rfl

theorem ceilDiv_four (n : Nat) : n ≤ 4 * ceilDiv n 4 ∧ 4 * ceilDiv n 4 < n + 4 := by
  unfold ceilDiv; omega

theorem padTo4_lt (i : Nat) : padTo4 i < 4 := by unfold padTo4 roundup ceilDiv; omega

theorem padTo4_aligns (i : Nat) : (i + padTo4 i) % 4 = 0 := by unfold padTo4 roundup ceilDiv; omega

/-- Padding depends on the word index modulo 4 alone (R56). -/
theorem padTo4_mod (i : Nat) : padTo4 i = padTo4 (i % 4) := by unfold padTo4 roundup ceilDiv; omega

theorem roundup_eq_add_padTo4 (i : Nat) : roundup i 4 = i + padTo4 i := by
  unfold padTo4 roundup ceilDiv; omega

/-- A grown capacity is a multiple of 128 wherever the old one was (R36, R145). -/
theorem grownCap_blocks {cap : Nat} (c n : Nat) (h : cap % 128 = 0) : grownCap c cap n % 128 = 0 := by
  unfold grownCap
  split
  · exact Nat.mul_mod_right 128 _
  · exact h

/-! ### Bytes and words -/

@[simp] theorem leBytes_length (w : Word) : (leBytes w).length = 4 := rfl

@[simp] theorem bytesOfWords_nil : bytesOfWords [] = [] := rfl

@[simp] theorem bytesOfWords_cons (w : Word) (ws : List Word) :
    bytesOfWords (w :: ws) = leBytes w ++ bytesOfWords ws := rfl

@[simp] theorem bytesOfWords_length (ws : List Word) : (bytesOfWords ws).length = 4 * ws.length := by
  induction ws with
  | nil => rfl
  | cons w ws ih => simp [ih]; omega

theorem packBytes_length (bs : List Byte) : (packBytes bs).length = ceilDiv bs.length 4 := by
  induction bs using packBytes.induct with
  | case1 a b c d rest ih => simp [packBytes, ih, ceilDiv]; omega
  | case2 | case3 | case4 | case5 => simp [packBytes, ceilDiv]

/-- The bytes of packed words are the bytes packed, and zeros up to the next word (R54, R89). -/
theorem bytesOfWords_packBytes (bs : List Byte) :
    bytesOfWords (packBytes bs) = bs ++ List.replicate (4 * ceilDiv bs.length 4 - bs.length) 0#8 := by
  have four (a b c d : Byte) : leBytes (ofLe a b c d) = [a, b, c, d] := by
    obtain ⟨h0, h1, h2, h3⟩ := byteOf_ofLe a b c d
    simp [leBytes, h0, h1, h2, h3]
  induction bs using packBytes.induct with
  | case1 a b c d rest ih =>
    have : 4 * ceilDiv (rest.length + 1 + 1 + 1 + 1) 4 - (rest.length + 1 + 1 + 1 + 1)
        = 4 * ceilDiv rest.length 4 - rest.length := by unfold ceilDiv; omega
    simp only [packBytes, bytesOfWords_cons, four, ih, List.length_cons, this]
    rfl
  | case2 | case3 | case4 | case5 => simp [packBytes, four, ceilDiv, List.replicate]

end Sys2Proof.Machine

namespace Sys2Proof

open Sys2Proof.Machine

/-! ### Reading back what was laid out -/

@[simp] theorem takeWord_leBytes (w : Word) (rest : List Byte) : takeWord (leBytes w ++ rest) = .ok (w, rest) := by
  simp [takeWord, leBytes, ofLe_bytes]

@[simp] theorem takeByte_cons (a : Byte) (rest : List Byte) : takeByte (a :: rest) = .ok (a, rest) := rfl

theorem takeWords_bytesOfWords (ws : List Word) (rest : List Byte) :
    takeWords ws.length (bytesOfWords ws ++ rest) = .ok (ws, rest) := by
  induction ws with
  | nil => rfl
  | cons w ws ih => simp [takeWords, List.append_assoc, ih]

theorem takeBytes_append (bs rest : List Byte) : takeBytes bs.length (bs ++ rest) = .ok (bs, rest) := by
  simp [takeBytes]

@[simp] theorem andThen_ok {α β : Type} (a : α) (rest : List Byte) (k : α → List Byte → Except DecodeError β) :
    andThen (.ok (a, rest)) k = k a rest := rfl

/-- What `andThen` answered, its first part answered. -/
theorem andThen_eq_ok {α β : Type} {r : Except DecodeError (α × List Byte)}
    {k : α → List Byte → Except DecodeError β} {b : β} (h : andThen r k = .ok b) :
    ∃ a rest, r = .ok (a, rest) ∧ k a rest = .ok b := by
  unfold andThen at h
  split at h
  · cases h
  · exact ⟨_, _, rfl, h⟩

end Sys2Proof

namespace Sys2Proof.Machine

/-! ### Positional numbers -/

theorem joinBits_lt (b : Nat) (xs : List Word) : joinBits b xs < 2 ^ (b * xs.length) := by
  induction xs with
  | nil => simp [joinBits]
  | cons x xs ih =>
    have h1 : x.toNat % 2 ^ b < 2 ^ b := Nat.mod_lt _ (Nat.two_pow_pos b)
    have h2 : 2 ^ b * (joinBits b xs + 1) ≤ 2 ^ b * 2 ^ (b * xs.length) := Nat.mul_le_mul_left _ ih
    have h3 : 2 ^ (b * (xs.length + 1)) = 2 ^ b * 2 ^ (b * xs.length) := by
      rw [← Nat.pow_add, Nat.mul_add, Nat.mul_one, Nat.add_comm]
    simp only [joinBits, List.length_cons, h3]
    rw [Nat.mul_add] at h2
    omega

/-- Digit `j` of a positional number is the `j`-th value modulo `2^b` (R126). -/
theorem joinBits_digit (b : Nat) (xs : List Word) {j : Nat} (hj : j < xs.length) :
    joinBits b xs / 2 ^ (j * b) % 2 ^ b = xs[j].toNat % 2 ^ b := by
  induction xs generalizing j with
  | nil => simp at hj
  | cons x xs ih =>
    have hx : x.toNat % 2 ^ b < 2 ^ b := Nat.mod_lt _ (Nat.two_pow_pos b)
    cases j with
    | zero => simp [joinBits, Nat.add_mul_mod_self_left]
    | succ j =>
      have hd : (x.toNat % 2 ^ b + 2 ^ b * joinBits b xs) / 2 ^ b = joinBits b xs := by
        rw [Nat.add_mul_div_left _ _ (Nat.two_pow_pos b), Nat.div_eq_of_lt hx, Nat.zero_add]
      have hp : 2 ^ ((j + 1) * b) = 2 ^ b * 2 ^ (j * b) := by
        rw [← Nat.pow_add, Nat.add_mul, Nat.one_mul, Nat.add_comm]
      rw [joinBits, hp, ← Nat.div_div_eq_div_mul, hd]
      simpa using ih (by simpa using hj)

/-- A positional number is the sum its digits make (R121). -/
theorem joinBits_eq_sum (b : Nat) (xs : List Word) :
    joinBits b xs = ∑ j ∈ Finset.range xs.length, (xs.getD j 0#32).toNat % 2 ^ b * 2 ^ (j * b) := by
  induction xs with
  | nil => rfl
  | cons x xs ih =>
    rw [List.length_cons, Finset.sum_range_succ']
    simp only [joinBits, ih, Finset.mul_sum, List.getD_cons_succ, List.getD_cons_zero, Nat.zero_mul,
      Nat.pow_zero, Nat.mul_one]
    rw [Nat.add_comm]
    congr 1
    refine Finset.sum_congr rfl fun j _ => ?_
    rw [Nat.add_mul, Nat.one_mul, Nat.pow_add]
    ring

theorem digit_toNat {b : Nat} (hb : b ≤ 32) (S j : Nat) : (digit b S j).toNat = S / 2 ^ (j * b) % 2 ^ b := by
  have h : S / 2 ^ (j * b) % 2 ^ b < 2 ^ b := Nat.mod_lt _ (Nat.two_pow_pos b)
  have : 2 ^ b ≤ 2 ^ 32 := Nat.pow_le_pow_right (by decide) hb
  simp only [digit, BitVec.toNat_ofNat]
  exact Nat.mod_eq_of_lt (by omega)

@[simp] theorem vpack_length (b : Nat) (v : List Word) : (vpack b v).length = 4 * b := by simp [vpack]

@[simp] theorem vunpack_length (b : Nat) (w : List Word) : (vunpack b w).length = 128 := by simp [vunpack]

@[simp] theorem spack_length (b : Nat) (v : List Word) : (spack b v).length = b := by simp [spack]

@[simp] theorem sunpack_length (b : Nat) (w : List Word) : (sunpack b w).length = 32 := by simp [sunpack]

@[simp] theorem laneOf_length (v : List Word) (l : Nat) : (laneOf v l).length = 32 := by simp [laneOf]

@[simp] theorem laneWords_length (b : Nat) (w : List Word) (l : Nat) : (laneWords b w l).length = b := by
  simp [laneWords]

/-- Every unpacked value is below `2^b` (R123, R125). -/
theorem unpack_lt {b : Nat} (hb : b ≤ 32) (w : List Word) :
    (∀ x ∈ vunpack b w, x.toNat < 2 ^ b) ∧ ∀ x ∈ sunpack b w, x.toNat < 2 ^ b := by
  constructor <;> intro x hx <;> simp only [vunpack, sunpack, List.mem_map] at hx <;>
    obtain ⟨i, _, rfl⟩ := hx <;> rw [digit_toNat hb] <;> exact Nat.mod_lt _ (Nat.two_pow_pos b)

end Sys2Proof.Machine
end

