-- ==== Sys2Proof/Laws/State.lean ====
section
/-! SUPPORT. The small lemmas of every named update of the state: each field after it, all at once, so
that no later proof unfolds an update. Simp takes a conjunction apart into one rule per field. -/

namespace Sys2Proof.Machine

@[simp] theorem instReset_fields (s : State) :
    (instReset s).cmd = s.cmd ∧ (instReset s).srcBase = s.srcBase ∧ (instReset s).srcLen = s.srcLen ∧
    (instReset s).dstBase = s.dstBase ∧ (instReset s).dstCap = s.dstCap ∧ (instReset s).status = s.status ∧
    (instReset s).result = s.result ∧ (instReset s).required = s.required ∧ (instReset s).blk = s.blk ∧
    (instReset s).freq = s.freq ∧ (instReset s).selB = s.selB ∧ (instReset s).selC = s.selC ∧
    (instReset s).selM = s.selM ∧ (instReset s).dprev = Vector.replicate 4 0#32 ∧ (instReset s).bcMem = [] ∧
    (instReset s).bcRd = 0 ∧ (instReset s).es = Vector.replicate 32 (Bucket.empty s.cfg) ∧
    (instReset s).phase = s.phase ∧ (instReset s).deltaEn = s.deltaEn ∧ (instReset s).ic = s.ic ∧
    (instReset s).oc = s.oc ∧ (instReset s).rem = s.rem ∧ (instReset s).hdr = s.hdr ∧ (instReset s).mp = s.mp ∧
    (instReset s).cfg = s.cfg ∧ (instReset s).mem = s.mem ∧ (instReset s).issue = s.issue ∧
    (instReset s).host = s.host ∧ (instReset s).hostLog = s.hostLog ∧ (instReset s).ret = s.ret ∧
    (instReset s).freeCtr = s.freeCtr := by
  simp only [instReset, and_self]

@[simp] theorem accept_fields (w : Word) (s : State) :
    (accept w s).cmd = w ∧ (accept w s).srcBase = s.srcBase ∧ (accept w s).srcLen = s.srcLen ∧
    (accept w s).dstBase = s.dstBase ∧ (accept w s).dstCap = s.dstCap ∧ (accept w s).status = Status.running ∧
    (accept w s).result = 0#32 ∧ (accept w s).required = 0#32 ∧ (accept w s).blk = s.blk ∧
    (accept w s).freq = s.freq ∧ (accept w s).selB = s.selB ∧ (accept w s).selC = s.selC ∧
    (accept w s).selM = s.selM ∧ (accept w s).dprev = s.dprev ∧ (accept w s).bcMem = s.bcMem ∧
    (accept w s).bcRd = s.bcRd ∧ (accept w s).es = s.es ∧ (accept w s).phase = .run ∧
    (accept w s).deltaEn = w.getLsbD 8 ∧ (accept w s).ic = s.ic ∧ (accept w s).oc = s.oc ∧
    (accept w s).rem = s.rem ∧ (accept w s).hdr = s.hdr ∧ (accept w s).mp = s.mp ∧ (accept w s).cfg = s.cfg ∧
    (accept w s).mem = s.mem ∧ (accept w s).issue = some (.command, leBytes w) ∧ (accept w s).host = s.host ∧
    (accept w s).hostLog = s.hostLog ∧ (accept w s).ret = s.ret ∧ (accept w s).freeCtr = s.freeCtr := by
  simp only [accept, and_self]

@[simp] theorem complete_fields (r : Word) (s : State) :
    (complete r s).cmd = s.cmd ∧ (complete r s).srcBase = s.srcBase ∧ (complete r s).srcLen = s.srcLen ∧
    (complete r s).dstBase = s.dstBase ∧ (complete r s).dstCap = s.dstCap ∧
    (complete r s).status = Status.ended .ok ∧ (complete r s).result = r ∧
    (complete r s).required = s.required ∧ (complete r s).blk = s.blk ∧ (complete r s).freq = s.freq ∧
    (complete r s).selB = s.selB ∧ (complete r s).selC = s.selC ∧ (complete r s).selM = s.selM ∧
    (complete r s).dprev = s.dprev ∧ (complete r s).bcMem = s.bcMem ∧ (complete r s).bcRd = s.bcRd ∧
    (complete r s).es = s.es ∧ (complete r s).phase = .idle ∧ (complete r s).deltaEn = s.deltaEn ∧
    (complete r s).ic = s.ic ∧ (complete r s).oc = s.oc ∧ (complete r s).rem = s.rem ∧
    (complete r s).hdr = s.hdr ∧ (complete r s).mp = s.mp ∧ (complete r s).cfg = s.cfg ∧
    (complete r s).mem = s.mem ∧ (complete r s).issue = s.issue ∧ (complete r s).host = s.host ∧
    (complete r s).hostLog = s.hostLog ∧ (complete r s).ret = s.ret ∧ (complete r s).freeCtr = s.freeCtr := by
  simp only [complete, and_self]

@[simp] theorem forgetDst_fields (s : State) :
    (forgetDst s).cmd = s.cmd ∧ (forgetDst s).srcBase = s.srcBase ∧ (forgetDst s).srcLen = s.srcLen ∧
    (forgetDst s).dstBase = s.dstBase ∧ (forgetDst s).dstCap = s.dstCap ∧ (forgetDst s).status = s.status ∧
    (forgetDst s).result = s.result ∧ (forgetDst s).required = s.required ∧ (forgetDst s).blk = s.blk ∧
    (forgetDst s).freq = s.freq ∧ (forgetDst s).selB = s.selB ∧ (forgetDst s).selC = s.selC ∧
    (forgetDst s).selM = s.selM ∧ (forgetDst s).dprev = s.dprev ∧ (forgetDst s).bcMem = s.bcMem ∧
    (forgetDst s).bcRd = s.bcRd ∧ (forgetDst s).es = s.es ∧ (forgetDst s).phase = s.phase ∧
    (forgetDst s).deltaEn = s.deltaEn ∧ (forgetDst s).ic = s.ic ∧ (forgetDst s).oc = s.oc ∧
    (forgetDst s).rem = s.rem ∧ (forgetDst s).hdr = s.hdr ∧ (forgetDst s).mp = s.mp ∧
    (forgetDst s).cfg = s.cfg ∧ (forgetDst s).issue = s.issue ∧ (forgetDst s).host = s.host ∧
    (forgetDst s).hostLog = s.hostLog ∧ (forgetDst s).ret = s.ret ∧ (forgetDst s).freeCtr = s.freeCtr + 1 := by
  simp only [forgetDst, and_self]

@[simp] theorem setBucket_fields (k : Fin 32) (b : Bucket) (s : State) :
    (setBucket k b s).cmd = s.cmd ∧ (setBucket k b s).srcBase = s.srcBase ∧
    (setBucket k b s).srcLen = s.srcLen ∧ (setBucket k b s).dstBase = s.dstBase ∧
    (setBucket k b s).dstCap = s.dstCap ∧ (setBucket k b s).status = s.status ∧
    (setBucket k b s).result = s.result ∧ (setBucket k b s).required = s.required ∧
    (setBucket k b s).blk = s.blk ∧ (setBucket k b s).freq = s.freq ∧ (setBucket k b s).selB = s.selB ∧
    (setBucket k b s).selC = s.selC ∧ (setBucket k b s).selM = s.selM ∧ (setBucket k b s).dprev = s.dprev ∧
    (setBucket k b s).bcMem = s.bcMem ∧ (setBucket k b s).bcRd = s.bcRd ∧
    (setBucket k b s).es = s.es.set k.val b ∧ (setBucket k b s).phase = s.phase ∧
    (setBucket k b s).deltaEn = s.deltaEn ∧ (setBucket k b s).ic = s.ic ∧ (setBucket k b s).oc = s.oc ∧
    (setBucket k b s).rem = s.rem ∧ (setBucket k b s).hdr = s.hdr ∧ (setBucket k b s).mp = s.mp ∧
    (setBucket k b s).cfg = s.cfg ∧ (setBucket k b s).mem = s.mem ∧ (setBucket k b s).issue = s.issue ∧
    (setBucket k b s).host = s.host ∧ (setBucket k b s).hostLog = s.hostLog ∧ (setBucket k b s).ret = s.ret ∧
    (setBucket k b s).freeCtr = s.freeCtr := by
  simp only [setBucket, and_self]

@[simp] theorem esClear_fields (s : State) :
    (esClear s).cmd = s.cmd ∧ (esClear s).srcBase = s.srcBase ∧ (esClear s).srcLen = s.srcLen ∧
    (esClear s).dstBase = s.dstBase ∧ (esClear s).dstCap = s.dstCap ∧ (esClear s).status = s.status ∧
    (esClear s).result = s.result ∧ (esClear s).required = s.required ∧ (esClear s).blk = s.blk ∧
    (esClear s).freq = s.freq ∧ (esClear s).selB = s.selB ∧ (esClear s).selC = s.selC ∧
    (esClear s).selM = s.selM ∧ (esClear s).dprev = s.dprev ∧ (esClear s).bcMem = s.bcMem ∧
    (esClear s).bcRd = s.bcRd ∧ (esClear s).phase = s.phase ∧ (esClear s).deltaEn = s.deltaEn ∧
    (esClear s).ic = s.ic ∧ (esClear s).oc = s.oc ∧ (esClear s).rem = s.rem ∧ (esClear s).hdr = s.hdr ∧
    (esClear s).mp = s.mp ∧ (esClear s).cfg = s.cfg ∧ (esClear s).mem = s.mem ∧ (esClear s).issue = s.issue ∧
    (esClear s).host = s.host ∧ (esClear s).hostLog = s.hostLog ∧ (esClear s).ret = s.ret ∧
    (esClear s).freeCtr = s.freeCtr := by
  simp only [esClear, and_self]

@[simp] theorem esReset_fields (s : State) :
    (esReset s).cmd = s.cmd ∧ (esReset s).srcBase = s.srcBase ∧ (esReset s).srcLen = s.srcLen ∧
    (esReset s).dstBase = s.dstBase ∧ (esReset s).dstCap = s.dstCap ∧ (esReset s).status = s.status ∧
    (esReset s).result = s.result ∧ (esReset s).required = s.required ∧ (esReset s).blk = s.blk ∧
    (esReset s).freq = s.freq ∧ (esReset s).selB = s.selB ∧ (esReset s).selC = s.selC ∧
    (esReset s).selM = s.selM ∧ (esReset s).dprev = s.dprev ∧ (esReset s).bcMem = s.bcMem ∧
    (esReset s).bcRd = s.bcRd ∧ (esReset s).es = Vector.replicate 32 (Bucket.empty s.cfg) ∧
    (esReset s).phase = s.phase ∧ (esReset s).deltaEn = s.deltaEn ∧ (esReset s).ic = s.ic ∧
    (esReset s).oc = s.oc ∧ (esReset s).rem = s.rem ∧ (esReset s).hdr = s.hdr ∧ (esReset s).mp = s.mp ∧
    (esReset s).cfg = s.cfg ∧ (esReset s).mem = s.mem ∧ (esReset s).issue = s.issue ∧
    (esReset s).host = s.host ∧ (esReset s).hostLog = s.hostLog ∧ (esReset s).ret = s.ret ∧
    (esReset s).freeCtr = s.freeCtr := by
  simp only [esReset, and_self]

@[simp] theorem esEnsure_fields (k : Fin 32) (n : Nat) (s : State) :
    (esEnsure k n s).cmd = s.cmd ∧ (esEnsure k n s).srcBase = s.srcBase ∧ (esEnsure k n s).srcLen = s.srcLen ∧
    (esEnsure k n s).dstBase = s.dstBase ∧ (esEnsure k n s).dstCap = s.dstCap ∧
    (esEnsure k n s).status = s.status ∧ (esEnsure k n s).result = s.result ∧
    (esEnsure k n s).required = s.required ∧ (esEnsure k n s).blk = s.blk ∧ (esEnsure k n s).freq = s.freq ∧
    (esEnsure k n s).selB = s.selB ∧ (esEnsure k n s).selC = s.selC ∧ (esEnsure k n s).selM = s.selM ∧
    (esEnsure k n s).dprev = s.dprev ∧ (esEnsure k n s).bcMem = s.bcMem ∧ (esEnsure k n s).bcRd = s.bcRd ∧
    (esEnsure k n s).phase = s.phase ∧ (esEnsure k n s).deltaEn = s.deltaEn ∧ (esEnsure k n s).ic = s.ic ∧
    (esEnsure k n s).oc = s.oc ∧ (esEnsure k n s).rem = s.rem ∧ (esEnsure k n s).hdr = s.hdr ∧
    (esEnsure k n s).mp = s.mp ∧ (esEnsure k n s).cfg = s.cfg ∧ (esEnsure k n s).mem = s.mem ∧
    (esEnsure k n s).issue = s.issue ∧ (esEnsure k n s).host = s.host ∧ (esEnsure k n s).hostLog = s.hostLog ∧
    (esEnsure k n s).ret = s.ret ∧ (esEnsure k n s).freeCtr = s.freeCtr := by
  simp only [esEnsure, setBucket, and_self]

@[simp] theorem esAppendAll_fields (k : Fin 32) (xs : List Word) (s : State) :
    (esAppendAll k xs s).cmd = s.cmd ∧ (esAppendAll k xs s).srcBase = s.srcBase ∧
    (esAppendAll k xs s).srcLen = s.srcLen ∧ (esAppendAll k xs s).dstBase = s.dstBase ∧
    (esAppendAll k xs s).dstCap = s.dstCap ∧ (esAppendAll k xs s).status = s.status ∧
    (esAppendAll k xs s).result = s.result ∧ (esAppendAll k xs s).required = s.required ∧
    (esAppendAll k xs s).blk = s.blk ∧ (esAppendAll k xs s).freq = s.freq ∧
    (esAppendAll k xs s).selB = s.selB ∧ (esAppendAll k xs s).selC = s.selC ∧
    (esAppendAll k xs s).selM = s.selM ∧ (esAppendAll k xs s).dprev = s.dprev ∧
    (esAppendAll k xs s).bcMem = s.bcMem ∧ (esAppendAll k xs s).bcRd = s.bcRd ∧
    (esAppendAll k xs s).phase = s.phase ∧ (esAppendAll k xs s).deltaEn = s.deltaEn ∧
    (esAppendAll k xs s).ic = s.ic ∧ (esAppendAll k xs s).oc = s.oc ∧ (esAppendAll k xs s).rem = s.rem ∧
    (esAppendAll k xs s).hdr = s.hdr ∧ (esAppendAll k xs s).mp = s.mp ∧ (esAppendAll k xs s).cfg = s.cfg ∧
    (esAppendAll k xs s).mem = s.mem ∧ (esAppendAll k xs s).issue = s.issue ∧
    (esAppendAll k xs s).host = s.host ∧ (esAppendAll k xs s).hostLog = s.hostLog ∧
    (esAppendAll k xs s).ret = s.ret ∧ (esAppendAll k xs s).freeCtr = s.freeCtr := by
  simp only [esAppendAll, setBucket, and_self]

@[simp] theorem esAppend_fields (k : Fin 32) (x : Word) (s : State) :
    (esAppend k x s).cmd = s.cmd ∧ (esAppend k x s).srcBase = s.srcBase ∧ (esAppend k x s).srcLen = s.srcLen ∧
    (esAppend k x s).dstBase = s.dstBase ∧ (esAppend k x s).dstCap = s.dstCap ∧
    (esAppend k x s).status = s.status ∧ (esAppend k x s).result = s.result ∧
    (esAppend k x s).required = s.required ∧ (esAppend k x s).blk = s.blk ∧ (esAppend k x s).freq = s.freq ∧
    (esAppend k x s).selB = s.selB ∧ (esAppend k x s).selC = s.selC ∧ (esAppend k x s).selM = s.selM ∧
    (esAppend k x s).dprev = s.dprev ∧ (esAppend k x s).bcMem = s.bcMem ∧ (esAppend k x s).bcRd = s.bcRd ∧
    (esAppend k x s).phase = s.phase ∧ (esAppend k x s).deltaEn = s.deltaEn ∧ (esAppend k x s).ic = s.ic ∧
    (esAppend k x s).oc = s.oc ∧ (esAppend k x s).rem = s.rem ∧ (esAppend k x s).hdr = s.hdr ∧
    (esAppend k x s).mp = s.mp ∧ (esAppend k x s).cfg = s.cfg ∧ (esAppend k x s).mem = s.mem ∧
    (esAppend k x s).issue = s.issue ∧ (esAppend k x s).host = s.host ∧ (esAppend k x s).hostLog = s.hostLog ∧
    (esAppend k x s).ret = s.ret ∧ (esAppend k x s).freeCtr = s.freeCtr := by
  simp only [esAppend, esAppendAll, setBucket, and_self]

@[simp] theorem openBucket_fields (k : Fin 32) (s : State) :
    (openBucket k s).cmd = s.cmd ∧ (openBucket k s).srcBase = s.srcBase ∧ (openBucket k s).srcLen = s.srcLen ∧
    (openBucket k s).dstBase = s.dstBase ∧ (openBucket k s).dstCap = s.dstCap ∧
    (openBucket k s).status = s.status ∧ (openBucket k s).result = s.result ∧
    (openBucket k s).required = s.required ∧ (openBucket k s).blk = s.blk ∧ (openBucket k s).freq = s.freq ∧
    (openBucket k s).selB = s.selB ∧ (openBucket k s).selC = s.selC ∧ (openBucket k s).selM = s.selM ∧
    (openBucket k s).dprev = s.dprev ∧ (openBucket k s).bcMem = s.bcMem ∧ (openBucket k s).bcRd = s.bcRd ∧
    (openBucket k s).phase = s.phase ∧ (openBucket k s).deltaEn = s.deltaEn ∧ (openBucket k s).ic = s.ic ∧
    (openBucket k s).oc = s.oc ∧ (openBucket k s).rem = s.rem ∧ (openBucket k s).hdr = s.hdr ∧
    (openBucket k s).mp = s.mp ∧ (openBucket k s).cfg = s.cfg ∧ (openBucket k s).mem = s.mem ∧
    (openBucket k s).issue = s.issue ∧ (openBucket k s).host = s.host ∧ (openBucket k s).hostLog = s.hostLog ∧
    (openBucket k s).ret = s.ret ∧ (openBucket k s).freeCtr = s.freeCtr := by
  simp only [openBucket, setBucket, and_self]

@[simp] theorem takeBcBytes_fields (bytes : List Byte) (s : State) :
    (takeBcBytes bytes s).cmd = s.cmd ∧ (takeBcBytes bytes s).srcBase = s.srcBase ∧
    (takeBcBytes bytes s).srcLen = s.srcLen ∧ (takeBcBytes bytes s).dstBase = s.dstBase ∧
    (takeBcBytes bytes s).dstCap = s.dstCap ∧ (takeBcBytes bytes s).status = s.status ∧
    (takeBcBytes bytes s).result = s.result ∧ (takeBcBytes bytes s).required = s.required ∧
    (takeBcBytes bytes s).blk = s.blk ∧ (takeBcBytes bytes s).freq = s.freq ∧
    (takeBcBytes bytes s).selB = s.selB ∧ (takeBcBytes bytes s).selC = s.selC ∧
    (takeBcBytes bytes s).selM = s.selM ∧ (takeBcBytes bytes s).dprev = s.dprev ∧
    (takeBcBytes bytes s).bcMem = bytes ∧ (takeBcBytes bytes s).bcRd = 0 ∧ (takeBcBytes bytes s).es = s.es ∧
    (takeBcBytes bytes s).phase = s.phase ∧ (takeBcBytes bytes s).deltaEn = s.deltaEn ∧
    (takeBcBytes bytes s).ic = s.ic ∧ (takeBcBytes bytes s).oc = s.oc ∧ (takeBcBytes bytes s).rem = s.rem ∧
    (takeBcBytes bytes s).hdr = s.hdr ∧ (takeBcBytes bytes s).mp = s.mp ∧ (takeBcBytes bytes s).cfg = s.cfg ∧
    (takeBcBytes bytes s).mem = s.mem ∧ (takeBcBytes bytes s).issue = s.issue ∧
    (takeBcBytes bytes s).host = s.host ∧ (takeBcBytes bytes s).hostLog = s.hostLog ∧
    (takeBcBytes bytes s).ret = s.ret ∧ (takeBcBytes bytes s).freeCtr = s.freeCtr := by
  simp only [takeBcBytes, and_self]

@[simp] theorem takeEsG128_fields (k : Fin 32) (ws : List Word) (s : State) :
    (takeEsG128 k ws s).cmd = s.cmd ∧ (takeEsG128 k ws s).srcBase = s.srcBase ∧
    (takeEsG128 k ws s).srcLen = s.srcLen ∧ (takeEsG128 k ws s).dstBase = s.dstBase ∧
    (takeEsG128 k ws s).dstCap = s.dstCap ∧ (takeEsG128 k ws s).status = s.status ∧
    (takeEsG128 k ws s).result = s.result ∧ (takeEsG128 k ws s).required = s.required ∧
    (takeEsG128 k ws s).blk = s.blk ∧ (takeEsG128 k ws s).freq = s.freq ∧ (takeEsG128 k ws s).selB = s.selB ∧
    (takeEsG128 k ws s).selC = s.selC ∧ (takeEsG128 k ws s).selM = s.selM ∧
    (takeEsG128 k ws s).dprev = s.dprev ∧ (takeEsG128 k ws s).bcMem = s.bcMem ∧
    (takeEsG128 k ws s).bcRd = s.bcRd ∧ (takeEsG128 k ws s).phase = s.phase ∧
    (takeEsG128 k ws s).deltaEn = s.deltaEn ∧ (takeEsG128 k ws s).ic = s.ic ∧ (takeEsG128 k ws s).oc = s.oc ∧
    (takeEsG128 k ws s).rem = s.rem ∧ (takeEsG128 k ws s).hdr = s.hdr ∧ (takeEsG128 k ws s).mp = s.mp ∧
    (takeEsG128 k ws s).cfg = s.cfg ∧ (takeEsG128 k ws s).mem = s.mem ∧ (takeEsG128 k ws s).issue = s.issue ∧
    (takeEsG128 k ws s).host = s.host ∧ (takeEsG128 k ws s).hostLog = s.hostLog ∧
    (takeEsG128 k ws s).ret = s.ret ∧ (takeEsG128 k ws s).freeCtr = s.freeCtr := by
  simp only [takeEsG128, esAppendAll, setBucket, and_self]

@[simp] theorem takeEsG32_fields (k : Fin 32) (n : Nat) (ws : List Word) (s : State) :
    (takeEsG32 k n ws s).cmd = s.cmd ∧ (takeEsG32 k n ws s).srcBase = s.srcBase ∧
    (takeEsG32 k n ws s).srcLen = s.srcLen ∧ (takeEsG32 k n ws s).dstBase = s.dstBase ∧
    (takeEsG32 k n ws s).dstCap = s.dstCap ∧ (takeEsG32 k n ws s).status = s.status ∧
    (takeEsG32 k n ws s).result = s.result ∧ (takeEsG32 k n ws s).required = s.required ∧
    (takeEsG32 k n ws s).blk = s.blk ∧ (takeEsG32 k n ws s).freq = s.freq ∧
    (takeEsG32 k n ws s).selB = s.selB ∧ (takeEsG32 k n ws s).selC = s.selC ∧
    (takeEsG32 k n ws s).selM = s.selM ∧ (takeEsG32 k n ws s).dprev = s.dprev ∧
    (takeEsG32 k n ws s).bcMem = s.bcMem ∧ (takeEsG32 k n ws s).bcRd = s.bcRd ∧
    (takeEsG32 k n ws s).phase = s.phase ∧ (takeEsG32 k n ws s).deltaEn = s.deltaEn ∧
    (takeEsG32 k n ws s).ic = s.ic ∧ (takeEsG32 k n ws s).oc = s.oc ∧ (takeEsG32 k n ws s).rem = s.rem ∧
    (takeEsG32 k n ws s).hdr = s.hdr ∧ (takeEsG32 k n ws s).mp = s.mp ∧ (takeEsG32 k n ws s).cfg = s.cfg ∧
    (takeEsG32 k n ws s).mem = s.mem ∧ (takeEsG32 k n ws s).issue = s.issue ∧
    (takeEsG32 k n ws s).host = s.host ∧ (takeEsG32 k n ws s).hostLog = s.hostLog ∧
    (takeEsG32 k n ws s).ret = s.ret ∧ (takeEsG32 k n ws s).freeCtr = s.freeCtr := by
  simp only [takeEsG32, esAppendAll, setBucket, and_self]

@[simp] theorem blkDelta_fields (s : State) :
    (blkDelta s).cmd = s.cmd ∧ (blkDelta s).srcBase = s.srcBase ∧ (blkDelta s).srcLen = s.srcLen ∧
    (blkDelta s).dstBase = s.dstBase ∧ (blkDelta s).dstCap = s.dstCap ∧ (blkDelta s).status = s.status ∧
    (blkDelta s).result = s.result ∧ (blkDelta s).required = s.required ∧
    (blkDelta s).blk = deltas s.dprev[3] s.blk ∧ (blkDelta s).freq = s.freq ∧ (blkDelta s).selB = s.selB ∧
    (blkDelta s).selC = s.selC ∧ (blkDelta s).selM = s.selM ∧ (blkDelta s).dprev = blockTail s.blk ∧
    (blkDelta s).bcMem = s.bcMem ∧ (blkDelta s).bcRd = s.bcRd ∧ (blkDelta s).es = s.es ∧
    (blkDelta s).phase = s.phase ∧ (blkDelta s).deltaEn = s.deltaEn ∧ (blkDelta s).ic = s.ic ∧
    (blkDelta s).oc = s.oc ∧ (blkDelta s).rem = s.rem ∧ (blkDelta s).hdr = s.hdr ∧ (blkDelta s).mp = s.mp ∧
    (blkDelta s).cfg = s.cfg ∧ (blkDelta s).mem = s.mem ∧ (blkDelta s).issue = s.issue ∧
    (blkDelta s).host = s.host ∧ (blkDelta s).hostLog = s.hostLog ∧ (blkDelta s).ret = s.ret ∧
    (blkDelta s).freeCtr = s.freeCtr := by
  simp only [blkDelta, and_self]

@[simp] theorem blkPrefix_fields (s : State) :
    (blkPrefix s).cmd = s.cmd ∧ (blkPrefix s).srcBase = s.srcBase ∧ (blkPrefix s).srcLen = s.srcLen ∧
    (blkPrefix s).dstBase = s.dstBase ∧ (blkPrefix s).dstCap = s.dstCap ∧ (blkPrefix s).status = s.status ∧
    (blkPrefix s).result = s.result ∧ (blkPrefix s).required = s.required ∧
    (blkPrefix s).blk = prefixSums s.dprev[3] s.blk ∧ (blkPrefix s).freq = s.freq ∧
    (blkPrefix s).selB = s.selB ∧ (blkPrefix s).selC = s.selC ∧ (blkPrefix s).selM = s.selM ∧
    (blkPrefix s).dprev = blockTail (prefixSums s.dprev[3] s.blk) ∧ (blkPrefix s).bcMem = s.bcMem ∧
    (blkPrefix s).bcRd = s.bcRd ∧ (blkPrefix s).es = s.es ∧ (blkPrefix s).phase = s.phase ∧
    (blkPrefix s).deltaEn = s.deltaEn ∧ (blkPrefix s).ic = s.ic ∧ (blkPrefix s).oc = s.oc ∧
    (blkPrefix s).rem = s.rem ∧ (blkPrefix s).hdr = s.hdr ∧ (blkPrefix s).mp = s.mp ∧
    (blkPrefix s).cfg = s.cfg ∧ (blkPrefix s).mem = s.mem ∧ (blkPrefix s).issue = s.issue ∧
    (blkPrefix s).host = s.host ∧ (blkPrefix s).hostLog = s.hostLog ∧ (blkPrefix s).ret = s.ret ∧
    (blkPrefix s).freeCtr = s.freeCtr := by
  simp only [blkPrefix, and_self]

@[simp] theorem blkHist_fields (s : State) :
    (blkHist s).cmd = s.cmd ∧ (blkHist s).srcBase = s.srcBase ∧ (blkHist s).srcLen = s.srcLen ∧
    (blkHist s).dstBase = s.dstBase ∧ (blkHist s).dstCap = s.dstCap ∧ (blkHist s).status = s.status ∧
    (blkHist s).result = s.result ∧ (blkHist s).required = s.required ∧ (blkHist s).blk = s.blk ∧
    (blkHist s).freq = histogram s.blk ∧ (blkHist s).selB = s.selB ∧ (blkHist s).selC = s.selC ∧
    (blkHist s).selM = s.selM ∧ (blkHist s).dprev = s.dprev ∧ (blkHist s).bcMem = s.bcMem ∧
    (blkHist s).bcRd = s.bcRd ∧ (blkHist s).es = s.es ∧ (blkHist s).phase = s.phase ∧
    (blkHist s).deltaEn = s.deltaEn ∧ (blkHist s).ic = s.ic ∧ (blkHist s).oc = s.oc ∧ (blkHist s).rem = s.rem ∧
    (blkHist s).hdr = s.hdr ∧ (blkHist s).mp = s.mp ∧ (blkHist s).cfg = s.cfg ∧ (blkHist s).mem = s.mem ∧
    (blkHist s).issue = s.issue ∧ (blkHist s).host = s.host ∧ (blkHist s).hostLog = s.hostLog ∧
    (blkHist s).ret = s.ret ∧ (blkHist s).freeCtr = s.freeCtr := by
  simp only [blkHist, and_self]

@[simp] theorem setSel_fields (b c m : Nat) (s : State) :
    (setSel b c m s).cmd = s.cmd ∧ (setSel b c m s).srcBase = s.srcBase ∧ (setSel b c m s).srcLen = s.srcLen ∧
    (setSel b c m s).dstBase = s.dstBase ∧ (setSel b c m s).dstCap = s.dstCap ∧
    (setSel b c m s).status = s.status ∧ (setSel b c m s).result = s.result ∧
    (setSel b c m s).required = s.required ∧ (setSel b c m s).blk = s.blk ∧ (setSel b c m s).freq = s.freq ∧
    (setSel b c m s).selB = BitVec.ofNat 6 b ∧ (setSel b c m s).selC = BitVec.ofNat 8 c ∧
    (setSel b c m s).selM = BitVec.ofNat 6 m ∧ (setSel b c m s).dprev = s.dprev ∧
    (setSel b c m s).bcMem = s.bcMem ∧ (setSel b c m s).bcRd = s.bcRd ∧ (setSel b c m s).es = s.es ∧
    (setSel b c m s).phase = s.phase ∧ (setSel b c m s).deltaEn = s.deltaEn ∧ (setSel b c m s).ic = s.ic ∧
    (setSel b c m s).oc = s.oc ∧ (setSel b c m s).rem = s.rem ∧ (setSel b c m s).hdr = s.hdr ∧
    (setSel b c m s).mp = s.mp ∧ (setSel b c m s).cfg = s.cfg ∧ (setSel b c m s).mem = s.mem ∧
    (setSel b c m s).issue = s.issue ∧ (setSel b c m s).host = s.host ∧ (setSel b c m s).hostLog = s.hostLog ∧
    (setSel b c m s).ret = s.ret ∧ (setSel b c m s).freeCtr = s.freeCtr := by
  simp only [setSel, and_self]

@[simp] theorem selectAt_fields (m : Nat) (s : State) :
    (selectAt m s).cmd = s.cmd ∧ (selectAt m s).srcBase = s.srcBase ∧ (selectAt m s).srcLen = s.srcLen ∧
    (selectAt m s).dstBase = s.dstBase ∧ (selectAt m s).dstCap = s.dstCap ∧ (selectAt m s).status = s.status ∧
    (selectAt m s).result = s.result ∧ (selectAt m s).required = s.required ∧ (selectAt m s).blk = s.blk ∧
    (selectAt m s).freq = s.freq ∧ (selectAt m s).selB = BitVec.ofNat 6 (chooseWidth (freqAt s.freq) m).b ∧
    (selectAt m s).selC = BitVec.ofNat 8 (chooseWidth (freqAt s.freq) m).c ∧
    (selectAt m s).selM = BitVec.ofNat 6 m ∧ (selectAt m s).dprev = s.dprev ∧ (selectAt m s).bcMem = s.bcMem ∧
    (selectAt m s).bcRd = s.bcRd ∧ (selectAt m s).es = s.es ∧ (selectAt m s).phase = s.phase ∧
    (selectAt m s).deltaEn = s.deltaEn ∧ (selectAt m s).ic = s.ic ∧ (selectAt m s).oc = s.oc ∧
    (selectAt m s).rem = s.rem ∧ (selectAt m s).hdr = s.hdr ∧ (selectAt m s).mp = s.mp ∧
    (selectAt m s).cfg = s.cfg ∧ (selectAt m s).mem = s.mem ∧ (selectAt m s).issue = s.issue ∧
    (selectAt m s).host = s.host ∧ (selectAt m s).hostLog = s.hostLog ∧ (selectAt m s).ret = s.ret ∧
    (selectAt m s).freeCtr = s.freeCtr := by
  simp only [selectAt, setSel, and_self]

@[simp] theorem takePacked_fields (b : Nat) (ws : List Word) (s : State) :
    (takePacked b ws s).cmd = s.cmd ∧ (takePacked b ws s).srcBase = s.srcBase ∧
    (takePacked b ws s).srcLen = s.srcLen ∧ (takePacked b ws s).dstBase = s.dstBase ∧
    (takePacked b ws s).dstCap = s.dstCap ∧ (takePacked b ws s).status = s.status ∧
    (takePacked b ws s).result = s.result ∧ (takePacked b ws s).required = s.required ∧
    (takePacked b ws s).blk = blockOf (vunpack b ws) ∧ (takePacked b ws s).freq = s.freq ∧
    (takePacked b ws s).selB = s.selB ∧ (takePacked b ws s).selC = s.selC ∧ (takePacked b ws s).selM = s.selM ∧
    (takePacked b ws s).dprev = s.dprev ∧ (takePacked b ws s).bcMem = s.bcMem ∧
    (takePacked b ws s).bcRd = s.bcRd ∧ (takePacked b ws s).es = s.es ∧ (takePacked b ws s).phase = s.phase ∧
    (takePacked b ws s).deltaEn = s.deltaEn ∧ (takePacked b ws s).ic = s.ic + 4 * b ∧
    (takePacked b ws s).oc = s.oc ∧ (takePacked b ws s).rem = s.rem ∧ (takePacked b ws s).hdr = s.hdr ∧
    (takePacked b ws s).mp = s.mp ∧ (takePacked b ws s).cfg = s.cfg ∧ (takePacked b ws s).mem = s.mem ∧
    (takePacked b ws s).issue = s.issue ∧ (takePacked b ws s).host = s.host ∧
    (takePacked b ws s).hostLog = s.hostLog ∧ (takePacked b ws s).ret = s.ret ∧
    (takePacked b ws s).freeCtr = s.freeCtr := by
  simp only [takePacked, and_self]

@[simp] theorem passWords_fields (n : Nat) (s : State) :
    (passWords n s).cmd = s.cmd ∧ (passWords n s).srcBase = s.srcBase ∧ (passWords n s).srcLen = s.srcLen ∧
    (passWords n s).dstBase = s.dstBase ∧ (passWords n s).dstCap = s.dstCap ∧
    (passWords n s).status = s.status ∧ (passWords n s).result = s.result ∧
    (passWords n s).required = s.required ∧ (passWords n s).blk = s.blk ∧ (passWords n s).freq = s.freq ∧
    (passWords n s).selB = s.selB ∧ (passWords n s).selC = s.selC ∧ (passWords n s).selM = s.selM ∧
    (passWords n s).dprev = s.dprev ∧ (passWords n s).bcMem = s.bcMem ∧ (passWords n s).bcRd = s.bcRd ∧
    (passWords n s).es = s.es ∧ (passWords n s).phase = s.phase ∧ (passWords n s).deltaEn = s.deltaEn ∧
    (passWords n s).ic = s.ic + n ∧ (passWords n s).oc = s.oc ∧ (passWords n s).rem = s.rem ∧
    (passWords n s).hdr = s.hdr ∧ (passWords n s).mp = s.mp ∧ (passWords n s).cfg = s.cfg ∧
    (passWords n s).mem = s.mem ∧ (passWords n s).issue = s.issue ∧ (passWords n s).host = s.host ∧
    (passWords n s).hostLog = s.hostLog ∧ (passWords n s).ret = s.ret ∧ (passWords n s).freeCtr = s.freeCtr := by
  simp only [passWords, and_self]

@[simp] theorem issued_fields (s : State) :
    (issued s).cmd = s.cmd ∧ (issued s).srcBase = s.srcBase ∧ (issued s).srcLen = s.srcLen ∧
    (issued s).dstBase = s.dstBase ∧ (issued s).dstCap = s.dstCap ∧ (issued s).status = s.status ∧
    (issued s).result = s.result ∧ (issued s).required = s.required ∧ (issued s).blk = s.blk ∧
    (issued s).freq = s.freq ∧ (issued s).selB = s.selB ∧ (issued s).selC = s.selC ∧ (issued s).selM = s.selM ∧
    (issued s).dprev = s.dprev ∧ (issued s).bcMem = s.bcMem ∧ (issued s).bcRd = s.bcRd ∧ (issued s).es = s.es ∧
    (issued s).phase = s.phase ∧ (issued s).deltaEn = s.deltaEn ∧ (issued s).ic = s.ic ∧ (issued s).oc = s.oc ∧
    (issued s).rem = s.rem ∧ (issued s).hdr = s.hdr ∧ (issued s).mp = s.mp ∧ (issued s).cfg = s.cfg ∧
    (issued s).mem = s.mem ∧ (issued s).issue = none ∧ (issued s).host = s.host ∧
    (issued s).hostLog = s.hostLog ∧ (issued s).ret = s.ret ∧ (issued s).freeCtr = s.freeCtr := by
  simp only [issued, and_self]

@[simp] theorem logValues_fields (vs : List Nat) (s : State) :
    (logValues vs s).cmd = s.cmd ∧ (logValues vs s).srcBase = s.srcBase ∧ (logValues vs s).srcLen = s.srcLen ∧
    (logValues vs s).dstBase = s.dstBase ∧ (logValues vs s).dstCap = s.dstCap ∧
    (logValues vs s).status = s.status ∧ (logValues vs s).result = s.result ∧
    (logValues vs s).required = s.required ∧ (logValues vs s).blk = s.blk ∧ (logValues vs s).freq = s.freq ∧
    (logValues vs s).selB = s.selB ∧ (logValues vs s).selC = s.selC ∧ (logValues vs s).selM = s.selM ∧
    (logValues vs s).dprev = s.dprev ∧ (logValues vs s).bcMem = s.bcMem ∧ (logValues vs s).bcRd = s.bcRd ∧
    (logValues vs s).es = s.es ∧ (logValues vs s).phase = s.phase ∧ (logValues vs s).deltaEn = s.deltaEn ∧
    (logValues vs s).ic = s.ic ∧ (logValues vs s).oc = s.oc ∧ (logValues vs s).rem = s.rem ∧
    (logValues vs s).hdr = s.hdr ∧ (logValues vs s).mp = s.mp ∧ (logValues vs s).cfg = s.cfg ∧
    (logValues vs s).mem = s.mem ∧ (logValues vs s).issue = s.issue ∧ (logValues vs s).host = s.host ∧
    (logValues vs s).hostLog = vs.reverse ++ s.hostLog ∧ (logValues vs s).ret = s.ret ∧
    (logValues vs s).freeCtr = s.freeCtr := by
  simp only [logValues, and_self]

@[simp] theorem raise_fields (e : Error) (s : State) :
    (raise e s).cmd = s.cmd ∧ (raise e s).srcBase = s.srcBase ∧ (raise e s).srcLen = s.srcLen ∧
    (raise e s).dstBase = s.dstBase ∧ (raise e s).dstCap = s.dstCap ∧ (raise e s).blk = s.blk ∧
    (raise e s).freq = s.freq ∧ (raise e s).selB = s.selB ∧ (raise e s).selC = s.selC ∧
    (raise e s).selM = s.selM ∧ (raise e s).deltaEn = s.deltaEn ∧ (raise e s).ic = s.ic ∧
    (raise e s).oc = s.oc ∧ (raise e s).rem = s.rem ∧ (raise e s).hdr = s.hdr ∧ (raise e s).mp = s.mp ∧
    (raise e s).cfg = s.cfg ∧ (raise e s).issue = s.issue ∧ (raise e s).host = s.host ∧
    (raise e s).hostLog = s.hostLog ∧ (raise e s).ret = s.ret := by
  cases e <;> simp only [raise, raiseTrace, forgetDst, instReset, and_self]

@[simp] theorem raise_flags (e : Error) (s : State) :
    (raise e s).status = Status.ended e.code ∧ (raise e s).phase = .idle ∧ (raise e s).result = 0#32 ∧
    (raise e s).required = e.required := ⟨rfl, rfl, rfl, rfl⟩

/-- Every error of ENC and DEC leaves the instance as `INST.RESET` does (R236). -/
theorem raise_instance {e : Error} (h : e ≠ .illegalCommand) (s : State) :
    (raise e s).es = (instReset s).es ∧ (raise e s).bcMem = [] ∧ (raise e s).bcRd = 0 ∧
    (raise e s).dprev = (instReset s).dprev := by
  cases e <;> first | exact absurd rfl h | exact ⟨rfl, rfl, rfl, rfl⟩

/-- Only `BufferOverrun` touches memory (R238). -/
theorem raise_memory {e : Error} (h : e ≠ .bufferOverrun) (s : State) :
    (raise e s).mem = s.mem ∧ (raise e s).freeCtr = s.freeCtr := by
  cases e <;> first | exact absurd rfl h | exact ⟨rfl, rfl⟩

@[simp] theorem raise_illegal (s : State) :
    (raise .illegalCommand s).es = s.es ∧ (raise .illegalCommand s).bcMem = s.bcMem ∧
    (raise .illegalCommand s).bcRd = s.bcRd ∧ (raise .illegalCommand s).dprev = s.dprev := ⟨rfl, rfl, rfl, rfl⟩

theorem raise_overrun_memory (s : State) :
    (raise .bufferOverrun s).mem = (forgetDst s).mem ∧ (raise .bufferOverrun s).freeCtr = s.freeCtr + 1 := ⟨rfl, rfl⟩

@[simp] theorem blkSelect_fields (s : State) :
    (blkSelect s).cmd = s.cmd ∧ (blkSelect s).srcBase = s.srcBase ∧ (blkSelect s).srcLen = s.srcLen ∧
    (blkSelect s).dstBase = s.dstBase ∧ (blkSelect s).dstCap = s.dstCap ∧ (blkSelect s).status = s.status ∧
    (blkSelect s).result = s.result ∧ (blkSelect s).required = s.required ∧ (blkSelect s).blk = s.blk ∧
    (blkSelect s).freq = s.freq ∧ (blkSelect s).dprev = s.dprev ∧ (blkSelect s).bcMem = s.bcMem ∧
    (blkSelect s).bcRd = s.bcRd ∧ (blkSelect s).es = s.es ∧ (blkSelect s).phase = s.phase ∧
    (blkSelect s).deltaEn = s.deltaEn ∧ (blkSelect s).ic = s.ic ∧ (blkSelect s).oc = s.oc ∧
    (blkSelect s).rem = s.rem ∧ (blkSelect s).hdr = s.hdr ∧ (blkSelect s).mp = s.mp ∧
    (blkSelect s).cfg = s.cfg ∧ (blkSelect s).mem = s.mem ∧ (blkSelect s).issue = s.issue ∧
    (blkSelect s).host = s.host ∧ (blkSelect s).hostLog = s.hostLog ∧ (blkSelect s).ret = s.ret := by
  unfold blkSelect; split <;> simp

@[simp] theorem deltaIfEnabled_fields (s : State) :
    (deltaIfEnabled s).cmd = s.cmd ∧ (deltaIfEnabled s).srcBase = s.srcBase ∧
    (deltaIfEnabled s).srcLen = s.srcLen ∧ (deltaIfEnabled s).dstBase = s.dstBase ∧
    (deltaIfEnabled s).dstCap = s.dstCap ∧ (deltaIfEnabled s).status = s.status ∧
    (deltaIfEnabled s).result = s.result ∧ (deltaIfEnabled s).required = s.required ∧
    (deltaIfEnabled s).freq = s.freq ∧ (deltaIfEnabled s).selB = s.selB ∧ (deltaIfEnabled s).selC = s.selC ∧
    (deltaIfEnabled s).selM = s.selM ∧ (deltaIfEnabled s).bcMem = s.bcMem ∧ (deltaIfEnabled s).bcRd = s.bcRd ∧
    (deltaIfEnabled s).es = s.es ∧ (deltaIfEnabled s).phase = s.phase ∧
    (deltaIfEnabled s).deltaEn = s.deltaEn ∧ (deltaIfEnabled s).ic = s.ic ∧ (deltaIfEnabled s).oc = s.oc ∧
    (deltaIfEnabled s).rem = s.rem ∧ (deltaIfEnabled s).hdr = s.hdr ∧ (deltaIfEnabled s).mp = s.mp ∧
    (deltaIfEnabled s).cfg = s.cfg ∧ (deltaIfEnabled s).mem = s.mem ∧ (deltaIfEnabled s).issue = s.issue ∧
    (deltaIfEnabled s).host = s.host ∧ (deltaIfEnabled s).hostLog = s.hostLog ∧
    (deltaIfEnabled s).ret = s.ret ∧ (deltaIfEnabled s).freeCtr = s.freeCtr := by
  unfold deltaIfEnabled; split <;> simp

@[simp] theorem prefixIfEnabled_fields (s : State) :
    (prefixIfEnabled s).cmd = s.cmd ∧ (prefixIfEnabled s).srcBase = s.srcBase ∧
    (prefixIfEnabled s).srcLen = s.srcLen ∧ (prefixIfEnabled s).dstBase = s.dstBase ∧
    (prefixIfEnabled s).dstCap = s.dstCap ∧ (prefixIfEnabled s).status = s.status ∧
    (prefixIfEnabled s).result = s.result ∧ (prefixIfEnabled s).required = s.required ∧
    (prefixIfEnabled s).freq = s.freq ∧ (prefixIfEnabled s).selB = s.selB ∧ (prefixIfEnabled s).selC = s.selC ∧
    (prefixIfEnabled s).selM = s.selM ∧ (prefixIfEnabled s).bcMem = s.bcMem ∧
    (prefixIfEnabled s).bcRd = s.bcRd ∧ (prefixIfEnabled s).es = s.es ∧ (prefixIfEnabled s).phase = s.phase ∧
    (prefixIfEnabled s).deltaEn = s.deltaEn ∧ (prefixIfEnabled s).ic = s.ic ∧ (prefixIfEnabled s).oc = s.oc ∧
    (prefixIfEnabled s).rem = s.rem ∧ (prefixIfEnabled s).hdr = s.hdr ∧ (prefixIfEnabled s).mp = s.mp ∧
    (prefixIfEnabled s).cfg = s.cfg ∧ (prefixIfEnabled s).mem = s.mem ∧ (prefixIfEnabled s).issue = s.issue ∧
    (prefixIfEnabled s).host = s.host ∧ (prefixIfEnabled s).hostLog = s.hostLog ∧
    (prefixIfEnabled s).ret = s.ret ∧ (prefixIfEnabled s).freeCtr = s.freeCtr := by
  unfold prefixIfEnabled; split <;> simp

end Sys2Proof.Machine
end

