-- ==== Sys2Proof/Laws/Ops.lean ====
section
/-! SUPPORT. What each shared operation can do, said once: where it ends with a value, in which state;
where it does not, why. Later proofs cite these and do not unfold the operations. -/

namespace Sys2Proof.Machine

/-! ### Sequencing -/

@[simp] theorem Res.bind_ok {α β : Type} (a : α) (s : State) (k : α → State → Res β) :
    (Res.ok a s).bind k = k a s := rfl

@[simp] theorem Res.bind_raised {α β : Type} (e : Error) (s : State) (k : α → State → Res β) :
    (Res.raised e s).bind k = .raised e s := rfl

@[simp] theorem Res.bind_stop {α β : Type} (f : Fault) (k : α → State → Res β) : (Res.stop f).bind k = .stop f := rfl

@[simp] theorem Res.need_ok {α β : Type} (a : α) (k : α → Res β) : Res.need (.ok a) k = k a := rfl

@[simp] theorem Res.need_error {α β : Type} (f : Fault) (k : α → Res β) : Res.need (.error f) k = .stop f := rfl

theorem Res.bind_assoc {α β γ : Type} (r : Res α) (k : α → State → Res β) (l : β → State → Res γ) :
    (r.bind k).bind l = r.bind fun a s => (k a s).bind l := by cases r <;> rfl

/-- A sequence that ended with a value: so did its first part. -/
theorem Res.bind_eq_ok {α β : Type} {r : Res α} {k : α → State → Res β} {b : β} {t : State}
    (h : r.bind k = .ok b t) : ∃ a s, r = .ok a s ∧ k a s = .ok b t := by
  cases r with
  | ok a s => exact ⟨a, s, rfl, h⟩
  | raised | stop => cases h

/-- A sequence that raised an error: its first part did, or what follows it. -/
theorem Res.bind_eq_raised {α β : Type} {r : Res α} {k : α → State → Res β} {e : Error} {t : State}
    (h : r.bind k = .raised e t) : r = .raised e t ∨ ∃ a s, r = .ok a s ∧ k a s = .raised e t := by
  cases r with
  | ok a s => exact .inr ⟨a, s, rfl, h⟩
  | raised e' s => left; simpa using h
  | stop => cases h

theorem Res.need_eq_ok {α β : Type} {r : Except Fault α} {k : α → Res β} {b : β} {t : State}
    (h : Res.need r k = .ok b t) : ∃ a, r = .ok a ∧ k a = .ok b t := by
  cases r with
  | ok a => exact ⟨a, rfl, h⟩
  | error => cases h

/-- Where a sequence of operations keeps a relation at every step, it keeps it to the end. -/
theorem Res.times_ok {R : State → State → Prop} (hr : ∀ s, R s s) (ht : ∀ {a b c}, R a b → R b c → R a c)
    {f : State → Res Unit} (hf : ∀ {s t}, f s = .ok () t → R s t) {n : Nat} {s t : State}
    (h : Res.times f n s = .ok () t) : R s t := by
  induction n generalizing s with
  | zero => cases h; exact hr _
  | succ n ih =>
    obtain ⟨_, u, h1, h2⟩ := Res.bind_eq_ok h
    exact ht (hf h1) (ih h2)

/-! ### The outcome of an operation run alone -/

/-- The outcome is a next state where the operation ended with a value, or raised an error, which is then
taken (R236). -/
theorem Res.outcome_eq_next {r : Res Unit} {t : State} (h : r.outcome = .next t) :
    r = .ok () t ∨ ∃ e s, r = .raised e s ∧ t = raise e s := by
  cases r with
  | ok a s => left; simpa [Res.outcome] using h
  | raised e s => right; exact ⟨e, s, rfl, by simpa [Res.outcome] using h.symm⟩
  | stop => cases h

@[simp] theorem Res.outcome_ok (s : State) : (Res.ok () s).outcome = .next s := rfl

@[simp] theorem Res.returning_ok (ws : List Word) (s : State) :
    (Res.ok ws s).returning = .next { s with ret := ws } := rfl

@[simp] theorem Res.returningNat_ok (n : Nat) (s : State) :
    (Res.ok n s).returningNat = .next { s with ret := [BitVec.ofNat 32 n] } := rfl

/-! ### Stores and output -/

theorem putWord_ok {a : Nat} {s : State} (h : a + 4 ≤ 2 ^ s.cfg.addrW) (v : Word) :
    putWord a v s = .ok () { s with mem := Memory.writeWord s.mem a v } := by
  simp [putWord, Nat.not_lt.2 h]

/-- All a store can do (R50, R52). -/
theorem putWord_cases {a : Nat} {v : Word} {s t : State} (h : putWord a v s = .ok () t) :
    a + 4 ≤ 2 ^ s.cfg.addrW ∧ t = { s with mem := Memory.writeWord s.mem a v } := by
  unfold putWord at h
  split at h
  · cases h
  · simp only [Res.ok.injEq, true_and] at h
    exact ⟨by omega, h.symm⟩

theorem putWord_not_raised {a : Nat} {v : Word} {s t : State} {e : Error} : putWord a v s ≠ .raised e t := by
  unfold putWord
  split <;> simp

theorem Memory.writeWords_append (m : List Host.Cell) (a : Nat) (xs ys : List Word) :
    Memory.writeWords m a (xs ++ ys) = Memory.writeWords (Memory.writeWords m a xs) (a + 4 * xs.length) ys := by
  induction xs generalizing m a with
  | nil => rfl
  | cons x xs ih =>
    simp only [List.cons_append, Memory.writeWords, ih, List.length_cons]
    congr 1
    omega

/-- `Emit` of words that fit: they are stored, the cursor moves, nothing else changes (R57). -/
theorem emitAll_ok {ws : List Word} {s : State} (h : Room s ws.length) :
    emitAll ws s = .ok () { s with
      mem := Memory.writeWords s.mem (dstAddr s s.oc) ws, oc := s.oc + ws.length } := by
  induction ws generalizing s with
  | nil => rfl
  | cons w ws ih =>
    obtain ⟨h1, h2⟩ := h
    simp only [List.length_cons] at h1
    have hp : dstAddr s s.oc + 4 ≤ 2 ^ s.cfg.addrW := by unfold dstAddr; omega
    simp only [emitAll, emit, if_neg (show ¬ s.dstCap.toNat ≤ s.oc by omega), putWord_ok hp, Res.bind_ok]
    rw [ih (by constructor <;> simp only <;> omega)]
    simp only [dstAddr, Memory.writeWords, List.length_cons, Nat.mul_add, Nat.mul_one, ← Nat.add_assoc,
      Nat.add_right_comm _ 1]

/-- `Emit` of words of which not all fit: those that fit are stored, and `BufferOverrun` is raised before
the first that does not (R57, R234). -/
theorem emitAll_overrun {ws : List Word} {s : State} (hc : s.oc ≤ s.dstCap.toNat)
    (hb : s.dstBase + 4 * s.dstCap.toNat ≤ 2 ^ s.cfg.addrW) (h : s.dstCap.toNat < s.oc + ws.length) :
    emitAll ws s = .raised .bufferOverrun { s with
      mem := Memory.writeWords s.mem (dstAddr s s.oc) (ws.take (s.dstCap.toNat - s.oc)), oc := s.dstCap.toNat } := by
  induction ws generalizing s with
  | nil => simp at h; omega
  | cons w ws ih =>
    simp only [List.length_cons] at h
    by_cases hfull : s.dstCap.toNat ≤ s.oc
    · have : s.dstCap.toNat = s.oc := by omega
      simp only [emitAll, emit, if_pos hfull, Res.bind_raised]
      simp [this, Memory.writeWords]
    · have hp : dstAddr s s.oc + 4 ≤ 2 ^ s.cfg.addrW := by unfold dstAddr; omega
      simp only [emitAll, emit, if_neg hfull, putWord_ok hp, Res.bind_ok]
      rw [ih (by simp only; omega) (by simpa using hb) (by simp only; omega)]
      obtain ⟨n, hn⟩ : ∃ n, s.dstCap.toNat - s.oc = n + 1 := ⟨s.dstCap.toNat - s.oc - 1, by omega⟩
      have hn' : s.dstCap.toNat - (s.oc + 1) = n := by omega
      simp only [dstAddr, hn, hn', List.take_succ_cons, Memory.writeWords, Nat.mul_add, Nat.mul_one,
        ← Nat.add_assoc]

theorem emitAll_append (xs ys : List Word) (s : State) :
    emitAll (xs ++ ys) s = (emitAll xs s).bind fun _ s => emitAll ys s := by
  induction xs generalizing s with
  | nil => rfl
  | cons x xs ih => simp only [List.cons_append, emitAll, Res.bind_assoc, ih]

/-- All `Emit` of words can do where it ends with a value: they were within `DST_CAP` and the address
space, and were stored. -/
theorem emitAll_cases {ws : List Word} {s t : State} (h : emitAll ws s = .ok () t) :
    t = { s with mem := Memory.writeWords s.mem (dstAddr s s.oc) ws, oc := s.oc + ws.length } ∧
      (ws ≠ [] → s.oc + ws.length ≤ s.dstCap.toNat ∧ dstAddr s s.oc + 4 * ws.length ≤ 2 ^ s.cfg.addrW) := by
  induction ws generalizing s with
  | nil => cases h; exact ⟨rfl, by simp⟩
  | cons w ws ih =>
    obtain ⟨_, u, h1, h2⟩ := Res.bind_eq_ok h
    unfold emit at h1
    split at h1
    · cases h1
    · obtain ⟨_, u', h3, h4⟩ := Res.bind_eq_ok h1
      obtain ⟨hb, rfl⟩ := putWord_cases h3
      simp only [Res.ok.injEq, true_and] at h4
      subst h4
      obtain ⟨rfl, hr⟩ := ih h2
      simp only [dstAddr] at hb hr ⊢
      refine ⟨?_, fun _ => ?_⟩
      · simp only [Memory.writeWords, List.length_cons, Nat.mul_add, Nat.mul_one, ← Nat.add_assoc,
          Nat.add_right_comm _ 1]
      · simp only [List.length_cons]
        by_cases hw : ws = []
        · subst hw; simp; omega
        · have := hr hw; omega

/-- The one error `Emit` raises is `BufferOverrun`, and it has stored no word beyond `DST_CAP` and
changed nothing but memory and the cursor (R57). -/
theorem emitAll_raised {ws : List Word} {s t : State} {e : Error} (h : emitAll ws s = .raised e t) :
    e = .bufferOverrun ∧ ∃ n, t = { s with mem := Memory.writeWords s.mem (dstAddr s s.oc) (ws.take n), oc := s.oc + n } ∧
      n < ws.length ∧ (s.oc ≤ s.dstCap.toNat → s.oc + n = s.dstCap.toNat) := by
  induction ws generalizing s with
  | nil => cases h
  | cons w ws ih =>
    rcases Res.bind_eq_raised h with h1 | ⟨_, u, h1, h2⟩
    · unfold emit at h1
      split at h1
      · rename_i hc
        simp only [Res.raised.injEq] at h1
        obtain ⟨rfl, rfl⟩ := h1
        exact ⟨rfl, 0, by simp [Memory.writeWords], by simp, by omega⟩
      · rcases Res.bind_eq_raised h1 with h3 | ⟨_, u', _, h4⟩
        · exact absurd h3 putWord_not_raised
        · cases h4
    · unfold emit at h1
      split at h1
      · cases h1
      · obtain ⟨_, u', h3, h4⟩ := Res.bind_eq_ok h1
        obtain ⟨hb, rfl⟩ := putWord_cases h3
        simp only [Res.ok.injEq, true_and] at h4
        subst h4
        obtain ⟨rfl, n, rfl, hn, hc⟩ := ih h2
        refine ⟨rfl, n + 1, ?_, by simpa using hn, fun hle => ?_⟩
        · simp only [dstAddr, List.take_succ_cons, Memory.writeWords, Nat.mul_add, Nat.mul_one,
            ← Nat.add_assoc, Nat.add_right_comm _ 1]
        · have := hc (show s.oc + 1 ≤ s.dstCap.toNat by omega)
          simp only at this; omega

/-- What a store of words left of memory, in the terms of the claims. -/
theorem stored_writeWords {s : State} (h : Memory.wf s.mem) (j : Nat) (ws : List Word) :
    Stored s j ws (Memory.writeWords s.mem (dstAddr s j) ws) :=
  ⟨Memory.writeWords_wf h _ _, Memory.readWords_writeWords h _ _,
    fun _ ha => Memory.read_writeWords_of_outside h ha⟩

/-! ### Input -/

theorem srcWord_ok {s : State} {i : Nat} (h : Readable s i 1) :
    srcWord s i = .ok (Memory.readWord s.mem (srcAddr s i)) := by
  obtain ⟨h1, h2⟩ := h
  have ha : srcAddr s i + 4 ≤ 2 ^ s.cfg.addrW := by unfold srcAddr; omega
  simp only [srcWord, if_neg (show ¬ s.srcLen.toNat ≤ i by omega), if_neg (Nat.not_lt.2 ha)]

/-- Words that are lent are read as they stand (R58). -/
theorem srcWords_ok {s : State} {i n : Nat} (h : Readable s i n) : srcWords s i n = .ok (srcView s i n) := by
  induction n generalizing i with
  | zero => rfl
  | succ n ih =>
    obtain ⟨h1, h2⟩ := h
    have e : srcView s i (n + 1) = Memory.readWord s.mem (srcAddr s i) :: srcView s (i + 1) n := by
      simp only [srcView, Memory.readWords, List.range_succ_eq_map, List.map_cons, List.map_map]
      congr 1
      refine List.map_congr_left fun j _ => ?_
      simp only [Function.comp, srcAddr, Nat.succ_eq_add_one]
      congr 1
      omega
    have hw : srcWord s i = .ok (Memory.readWord s.mem (srcAddr s i)) := srcWord_ok ⟨by omega, h2⟩
    have hr : srcWords s (i + 1) n = .ok (srcView s (i + 1) n) := ih ⟨by omega, h2⟩
    simp only [srcWords, hw, hr, e]

/-- A read that answered was of a lent word (R58). -/
theorem srcWord_cases {s : State} {i : Nat} {w : Word} (h : srcWord s i = .ok w) :
    i < s.srcLen.toNat ∧ srcAddr s i + 4 ≤ 2 ^ s.cfg.addrW ∧ w = Memory.readWord s.mem (srcAddr s i) := by
  unfold srcWord at h
  split at h
  · cases h
  · split at h
    · cases h
    · simp only [Except.ok.injEq] at h
      exact ⟨by omega, by omega, h.symm⟩

theorem srcWords_length {s : State} {i n : Nat} {ws : List Word} (h : srcWords s i n = .ok ws) : ws.length = n := by
  induction n generalizing i ws with
  | zero => cases h; rfl
  | succ n ih =>
    simp only [srcWords] at h
    split at h
    · cases h
    · split at h
      · cases h
      · rename_i hws
        simp only [Except.ok.injEq] at h
        subst h
        simp [ih hws]

/-! ### The container and the buckets -/

theorem bcPutAll_ok {xs : List Byte} {s : State} (h : s.bcMem.length + xs.length ≤ bcCap s.cfg) :
    bcPutAll xs s = .ok () { s with bcMem := s.bcMem ++ xs } := by
  induction xs generalizing s with
  | nil => simp [bcPutAll]
  | cons x xs ih =>
    simp only [List.length_cons] at h
    simp only [bcPutAll, bcPut, if_neg (show ¬ bcCap s.cfg ≤ s.bcMem.length by omega), Res.bind_ok]
    rw [ih (by simp; omega)]
    simp [List.append_assoc]

/-- All a `BC.PUT` can do (R196): no error, and the container within its capacity (R35). -/
theorem bcPut_cases {x : Byte} {s t : State} (h : bcPut x s = .ok () t) :
    s.bcMem.length < bcCap s.cfg ∧ t = { s with bcMem := s.bcMem ++ [x] } := by
  unfold bcPut at h
  split at h
  · cases h
  · simp only [Res.ok.injEq, true_and] at h
    exact ⟨by omega, h.symm⟩

/-- All a `BC.GET` can do (R197). -/
theorem bcGet_cases {x : Byte} {s t : State} (h : bcGet s = .ok x t) :
    s.bcMem[s.bcRd]? = some x ∧ t = { s with bcRd := s.bcRd + 1 } := by
  unfold bcGet at h
  split at h
  · cases h
  · rename_i hx
    simp only [Res.ok.injEq] at h
    obtain ⟨rfl, rfl⟩ := h
    exact ⟨hx, rfl⟩

theorem bcGet_ok {s : State} {x : Byte} {bs : List Byte} (h : s.bcMem.drop s.bcRd = x :: bs) :
    bcGet s = .ok x { s with bcRd := s.bcRd + 1 } := by
  have hx : s.bcMem[s.bcRd]? = some x := by
    rw [← Nat.add_zero s.bcRd, ← List.getElem?_drop, h]; rfl
  simp [bcGet, hx]

/-- All an `ES.GET` can do (R149). -/
theorem esGet_cases {k : Fin 32} {x : Word} {s t : State} (h : esGet k s = .ok x t) :
    s.es[k.val].val[s.es[k.val].rd]? = some x ∧
      t = setBucket k { s.es[k.val] with rd := s.es[k.val].rd + 1 } s := by
  unfold esGet at h
  split at h
  · cases h
  · rename_i hx
    simp only [Res.ok.injEq] at h
    obtain ⟨rfl, rfl⟩ := h
    exact ⟨hx, rfl⟩

/-- A bucket after another, or the same, was replaced. -/
theorem setBucket_bucket (k j : Fin 32) (b : Bucket) (s : State) :
    (setBucket k b s).es[j.val] = if k = j then b else s.es[j.val] := by
  simp only [setBucket, Vector.getElem_set]
  congr 1
  exact propext ⟨fun h => Fin.ext h, fun h => congrArg Fin.val h⟩

@[simp] theorem setBucket_setBucket (k : Fin 32) (b c : Bucket) (s : State) :
    setBucket k c (setBucket k b s) = setBucket k c s := by simp [setBucket]

/-! ### The delta processor -/

/-- All `BLK.DELTA` can do: nothing while the plain variant runs, else its work (R34, R161). -/
theorem deltaIfEnabled_cases (s : State) :
    (s.deltaEn = false ∧ deltaIfEnabled s = s) ∨ (s.deltaEn = true ∧ deltaIfEnabled s = blkDelta s) := by
  cases h : s.deltaEn <;> simp [deltaIfEnabled, h]

/-- All `BLK.PREFIX` can do: nothing while the plain variant runs, else its work (R34, R171). -/
theorem prefixIfEnabled_cases (s : State) :
    (s.deltaEn = false ∧ prefixIfEnabled s = s) ∨ (s.deltaEn = true ∧ prefixIfEnabled s = blkPrefix s) := by
  cases h : s.deltaEn <;> simp [prefixIfEnabled, h]

/-! ### The memory after reset -/

/-- The memory of the machine after reset is in canonical form. -/
theorem reset_memory_wf : Memory.wf State.reset.mem := Memory.wf_nil

end Sys2Proof.Machine
end

