-- ==== Sys2Proof/Laws/Step.lean ====
section
/-! SUPPORT. What the sequencer, a command and a record can do, said once each. -/

namespace Sys2Proof.Machine

/-- A fetched operation is what the issued bytes decode to. -/
theorem fetch_operation {s : State} {i : Instr} (h : fetch s = .operation i) :
    ∃ c bs rest, s.issue = some (c, bs) ∧ decode c bs = .ok (i, rest) := by
  unfold fetch at h
  split at h
  · cases h
  · rename_i c bs hs
    split at h
    · rename_i rest hd
      simp only [Fetched.operation.injEq] at h
      subst h
      exact ⟨c, bs, rest, hs, hd⟩
    · split at h <;> cases h

theorem fetch_of_decode {s : State} {c : Ctx} {bs rest : List Byte} {i : Instr} (h : s.issue = some (c, bs))
    (hd : decode c bs = .ok (i, rest)) : fetch s = .operation i := by simp [fetch, h, hd]

/-- Where the instance goes on, it does nothing, or runs the operation it fetched. -/
theorem advance_cases {s t : State} (h : advance s = .next t) :
    t = s ∨ ∃ i, fetch s = .operation i ∧ exec i (issued s) = .next t := by
  unfold advance at h
  split at h
  · left; simpa using h.symm
  · exact .inr ⟨_, by assumption, h⟩
  all_goals cases h

/-- All a step can do: the instance goes on, or the host acts. The instance's part is said by
`advance_cases`; the host's actions are named one by one. -/
theorem step_cases {s t : State} (h : step s = .next t) :
    (∃ hs, advance { s with host := hs } = .next t) ∨
    (∃ r v, t = hostWriteArg r v { s with host := s.host.tail }) ∨
    (∃ w, t = hostWriteCmd w { s with host := s.host.tail }) ∨
    (∃ vs, t = logValues vs { s with host := s.host.tail }) ∨
    (∃ a v, hostWriteMem a v { s with host := s.host.tail } = .next t) ∨
    hardReset { s with host := s.host.tail } = .next t := by
  unfold step at h
  split at h
  · exact .inl ⟨s.host, h⟩
  · rename_i a rest hs
    have ht : rest = s.host.tail := by simp [hs]
    subst ht
    unfold hostStep at h
    split at h
    · exact .inr (.inl ⟨_, _, by simpa using h.symm⟩)
    · exact .inr (.inr (.inl ⟨_, by simpa using h.symm⟩))
    · exact .inr (.inr (.inr (.inl ⟨_, by simpa using h.symm⟩)))
    · exact .inr (.inr (.inr (.inr (.inl ⟨_, _, h⟩))))
    · rename_i addr
      refine .inr (.inr (.inr (.inl ⟨[(Memory.read s.mem addr).toNat], ?_⟩)))
      unfold hostReadMem at h
      split_ifs at h
      simpa using h.symm
    · exact .inr (.inr (.inr (.inr (.inr h))))
    · split at h
      · exact .inr (.inr (.inr (.inl ⟨_, by simpa [hostWaited] using h.symm⟩)))
      · exact .inl ⟨_, h⟩
    · exact .inl ⟨_, h⟩

theorem launchRefusal_none {s : State} : launchRefusal s = none ↔ Lendable s := by
  unfold launchRefusal Lendable
  by_cases hw : Wraps s
  · rw [if_pos hw]
    exact ⟨nofun, fun h => absurd hw h.1⟩
  · by_cases ho : Overlaps s
    · rw [if_neg hw, if_pos ho]
      exact ⟨nofun, fun h => absurd ho h.2⟩
    · rw [if_neg hw, if_neg ho]
      exact ⟨fun _ => ⟨hw, ho⟩, fun _ => rfl⟩

/-- All ENC and DEC can do (R211, R213 to R216, R240): an argument error, an error of the work, or the
work, the second `INST.RESET` and completion. -/
theorem codecCommand_cases {err : Option Error} {delta : Bool} {work : State → Res Nat} {s t : State}
    (h : codecCommand err delta work s = .next t) :
    Lendable s ∧
      ((∃ e, err = some e ∧ t = raise e s) ∨
       (err = none ∧ ∃ e u, work { instReset s with deltaEn := delta } = .raised e u ∧ t = raise e u) ∨
       (err = none ∧ ∃ n u, work { instReset s with deltaEn := delta } = .ok n u ∧
          t = complete (BitVec.ofNat 32 n) (instReset u))) := by
  unfold codecCommand at h
  split at h
  · cases h
  · refine ⟨launchRefusal_none.1 (by assumption), ?_⟩
    split at h
    · exact .inl ⟨_, rfl, by simpa using h.symm⟩
    · refine .inr ?_
      unfold finishCommand at h
      split at h
      · exact .inr ⟨rfl, _, _, by assumption, by simpa using h.symm⟩
      · exact .inl ⟨rfl, _, _, by assumption, by simpa using h.symm⟩
      · cases h

/-- All a record can do: what its direction says, or nothing (log 13). -/
theorem recordOp_cases {p q : State → Res Unit} {s t : State} (h : recordOp p q s = .next t) :
    (codingOf s.cmd = .produce ∧ (p s).outcome = .next t) ∨ (codingOf s.cmd = .parse ∧ (q s).outcome = .next t) := by
  unfold recordOp at h
  split at h
  · exact .inl ⟨by assumption, h⟩
  · exact .inr ⟨by assumption, h⟩
  · cases h

/-- The errors found before any memory access, each with its condition (R231, R232, R240). -/
theorem encError_none {s : State} : encError s = none ↔ Aligned s ∧ s.srcLen.toNat % 128 = 0 := by
  unfold encError
  split_ifs <;> simp_all <;> omega

theorem decError_none {s : State} : decError s = none ↔ Aligned s := by
  unfold decError
  split_ifs <;> simp_all <;> omega

end Sys2Proof.Machine
end

