-- ==== Sys2Proof/Laws/Frame.lean ====
section
/-! SUPPORT. What no data path operation touches: the registers the host sees, the flags, the parameters
and the model's own lists (R25, R38). Said once for every operation, by a rule for sequences. -/

namespace Sys2Proof.Machine

/-- What an operation ends in stands in the relation `R` to the state before. -/
def Res.Keeps {α : Type} (R : State → State → Prop) (s : State) (r : Res α) : Prop :=
  match r with
  | .ok _ t => R s t
  | .raised _ t => R s t
  | .stop _ => True

theorem Res.keeps_bind {α β : Type} {R : State → State → Prop} (ht : ∀ a b c, R a b → R b c → R a c)
    {s : State} {r : Res α} {k : α → State → Res β} (h : r.Keeps R s) (hk : ∀ a t, (k a t).Keeps R t) :
    (r.bind k).Keeps R s := by
  cases r with
  | ok a t =>
    show (k a t).Keeps R s
    have h2 := hk a t
    revert h2
    cases k a t <;> simp only [Res.Keeps]
    · exact ht _ _ _ h
    · exact ht _ _ _ h
    · exact id
  | raised e t => exact h
  | stop => trivial

theorem Res.keeps_need {α β : Type} {R : State → State → Prop} {s : State} {r : Except Fault α} {k : α → Res β}
    (hk : ∀ a, (k a).Keeps R s) : (Res.need r k).Keeps R s := by
  cases r with
  | ok a => exact hk a
  | error => trivial

theorem Res.keeps_times {R : State → State → Prop} (hr : ∀ s, R s s) (ht : ∀ a b c, R a b → R b c → R a c)
    {f : State → Res Unit} (hf : ∀ s, (f s).Keeps R s) (n : Nat) (s : State) : (Res.times f n s).Keeps R s := by
  induction n generalizing s with
  | zero => exact hr s
  | succ n ih => exact Res.keeps_bind ht (hf s) fun _ t => ih t

/-- Everything outside the data path is as it was. -/
structure HostKept (s t : State) : Prop where
  cmd : t.cmd = s.cmd
  srcBase : t.srcBase = s.srcBase
  srcLen : t.srcLen = s.srcLen
  dstBase : t.dstBase = s.dstBase
  dstCap : t.dstCap = s.dstCap
  status : t.status = s.status
  result : t.result = s.result
  required : t.required = s.required
  phase : t.phase = s.phase
  deltaEn : t.deltaEn = s.deltaEn
  cfg : t.cfg = s.cfg
  issue : t.issue = s.issue
  host : t.host = s.host
  hostLog : t.hostLog = s.hostLog
  ret : t.ret = s.ret

theorem HostKept.refl (s : State) : HostKept s s := by constructor <;> rfl

theorem HostKept.trans {s t u : State} (h : HostKept s t) (g : HostKept t u) : HostKept s u := by
  constructor
  · rw [g.cmd, h.cmd]
  · rw [g.srcBase, h.srcBase]
  · rw [g.srcLen, h.srcLen]
  · rw [g.dstBase, h.dstBase]
  · rw [g.dstCap, h.dstCap]
  · rw [g.status, h.status]
  · rw [g.result, h.result]
  · rw [g.required, h.required]
  · rw [g.phase, h.phase]
  · rw [g.deltaEn, h.deltaEn]
  · rw [g.cfg, h.cfg]
  · rw [g.issue, h.issue]
  · rw [g.host, h.host]
  · rw [g.hostLog, h.hostLog]
  · rw [g.ret, h.ret]

/-- A sequence of operations that keep everything outside the data path does. -/
theorem kept_bind {α β : Type} {s : State} {r : Res α} {k : α → State → Res β} (h : r.Keeps HostKept s)
    (hk : ∀ a t, (k a t).Keeps HostKept t) : (r.bind k).Keeps HostKept s :=
  Res.keeps_bind (R := HostKept) (fun _ _ _ h g => h.trans g) h hk

theorem kept_times {f : State → Res Unit} (hf : ∀ s, (f s).Keeps HostKept s) (n : Nat) (s : State) :
    (Res.times f n s).Keeps HostKept s :=
  Res.keeps_times (R := HostKept) HostKept.refl (fun _ _ _ h g => h.trans g) hf n s

/-- After an update that keeps everything outside the data path, what follows keeps it too. -/
theorem keeps_after {α : Type} {s u : State} {r : Res α} (h : HostKept s u) (hr : r.Keeps HostKept u) :
    r.Keeps HostKept s := by
  revert hr
  cases r <;> simp only [Res.Keeps]
  · exact h.trans
  · exact h.trans
  · exact id

/-! ### Updates -/

theorem instReset_kept (s : State) : HostKept s (instReset s) := by constructor <;> simp
theorem setBucket_kept (k : Fin 32) (b : Bucket) (s : State) : HostKept s (setBucket k b s) := by constructor <;> simp
theorem esClear_kept (s : State) : HostKept s (esClear s) := by constructor <;> simp
theorem esReset_kept (s : State) : HostKept s (esReset s) := by constructor <;> simp
theorem esEnsure_kept (k : Fin 32) (n : Nat) (s : State) : HostKept s (esEnsure k n s) := by constructor <;> simp
theorem esAppend_kept (k : Fin 32) (x : Word) (s : State) : HostKept s (esAppend k x s) := by constructor <;> simp
theorem openBucket_kept (k : Fin 32) (s : State) : HostKept s (openBucket k s) := by constructor <;> simp
theorem takeEsG128_kept (k : Fin 32) (ws : List Word) (s : State) : HostKept s (takeEsG128 k ws s) := by
  constructor <;> simp
theorem takeEsG32_kept (k : Fin 32) (n : Nat) (ws : List Word) (s : State) : HostKept s (takeEsG32 k n ws s) := by
  constructor <;> simp
theorem takeBcBytes_kept (bs : List Byte) (s : State) : HostKept s (takeBcBytes bs s) := by constructor <;> simp
theorem takePacked_kept (b : Nat) (ws : List Word) (s : State) : HostKept s (takePacked b ws s) := by
  constructor <;> simp
theorem passWords_kept (n : Nat) (s : State) : HostKept s (passWords n s) := by constructor <;> simp
theorem blkDelta_kept (s : State) : HostKept s (blkDelta s) := by constructor <;> simp
theorem blkPrefix_kept (s : State) : HostKept s (blkPrefix s) := by constructor <;> simp
theorem blkHist_kept (s : State) : HostKept s (blkHist s) := by constructor <;> simp
theorem blkSelect_kept (s : State) : HostKept s (blkSelect s) := by constructor <;> simp
theorem setSel_kept (b c m : Nat) (s : State) : HostKept s (setSel b c m s) := by constructor <;> simp
theorem deltaIfEnabled_kept (s : State) : HostKept s (deltaIfEnabled s) := by constructor <;> simp
theorem prefixIfEnabled_kept (s : State) : HostKept s (prefixIfEnabled s) := by constructor <;> simp

/-! ### Operations -/

theorem putWord_keeps (a : Nat) (v : Word) (s : State) : (putWord a v s).Keeps HostKept s := by
  unfold putWord
  split
  · trivial
  · exact ⟨rfl, rfl, rfl, rfl, rfl, rfl, rfl, rfl, rfl, rfl, rfl, rfl, rfl, rfl, rfl⟩

theorem emit_keeps (v : Word) (s : State) : (emit v s).Keeps HostKept s := by
  unfold emit
  split
  · exact HostKept.refl s
  · exact kept_bind (putWord_keeps _ _ _) fun _ t =>
      show HostKept t _ from ⟨rfl, rfl, rfl, rfl, rfl, rfl, rfl, rfl, rfl, rfl, rfl, rfl, rfl, rfl, rfl⟩

theorem emitAll_keeps (ws : List Word) (s : State) : (emitAll ws s).Keeps HostKept s := by
  induction ws generalizing s with
  | nil => exact HostKept.refl s
  | cons w ws ih => exact kept_bind (emit_keeps w s) fun _ t => ih t

theorem emitRecords_keeps (rs : List Instr) (s : State) : (emitRecords rs s).Keeps HostKept s := emitAll_keeps _ s

theorem bcPut_keeps (x : Byte) (s : State) : (bcPut x s).Keeps HostKept s := by
  unfold bcPut
  split
  · trivial
  · exact ⟨rfl, rfl, rfl, rfl, rfl, rfl, rfl, rfl, rfl, rfl, rfl, rfl, rfl, rfl, rfl⟩

theorem bcPutAll_keeps (xs : List Byte) (s : State) : (bcPutAll xs s).Keeps HostKept s := by
  induction xs generalizing s with
  | nil => exact HostKept.refl s
  | cons x xs ih => exact kept_bind (bcPut_keeps x s) fun _ t => ih t

theorem bcGet_keeps (s : State) : (bcGet s).Keeps HostKept s := by
  unfold bcGet
  split
  · trivial
  · exact ⟨rfl, rfl, rfl, rfl, rfl, rfl, rfl, rfl, rfl, rfl, rfl, rfl, rfl, rfl, rfl⟩

theorem bcWrite_keeps (s : State) : (bcWrite s).Keeps HostKept s := emitRecords_keeps _ s

theorem takeBcSize_keeps (bs : Word) (s : State) : (takeBcSize bs s).Keeps HostKept s := by
  unfold takeBcSize
  split
  · trivial
  · exact HostKept.refl s

theorem bcRead_keeps (q : Nat) (s : State) : (bcRead q s).Keeps HostKept s :=
  Res.keeps_need fun _ => kept_bind (takeBcSize_keeps _ s) fun _ _ =>
    Res.keeps_need fun _ => takeBcBytes_kept _ _

theorem esGet_keeps (k : Fin 32) (s : State) : (esGet k s).Keeps HostKept s := by
  unfold esGet
  split
  · trivial
  · exact setBucket_kept _ _ _

theorem esWrite_keeps (s : State) : (esWrite s).Keeps HostKept s :=
  kept_bind (emitRecords_keeps _ s) fun _ t => HostKept.refl t

theorem takeEsCount_keeps (k : Fin 32) (c : Word) (s : State) : (takeEsCount k c s).Keeps HostKept s := by
  unfold takeEsCount
  split
  · trivial
  · exact (openBucket_kept k s).trans (esEnsure_kept k _ _)

theorem readG128s_keeps (k : Fin 32) (g q : Nat) (s : State) : (readG128s k g q s).Keeps HostKept s := by
  induction g generalizing q s with
  | zero => exact HostKept.refl s
  | succ g ih => exact Res.keeps_need fun ws => keeps_after (takeEsG128_kept k ws s) (ih _ _)

theorem readG32s_keeps (k : Fin 32) (t r q : Nat) (s : State) : (readG32s k t r q s).Keeps HostKept s := by
  induction t generalizing r q s with
  | zero => exact HostKept.refl s
  | succ t ih => exact Res.keeps_need fun ws => keeps_after (takeEsG32_kept k _ ws s) (ih _ _ _)

theorem esReadBucket_keeps (m : Word) (k : Fin 32) (q : Nat) (s : State) :
    (esReadBucket m k q s).Keeps HostKept s := by
  unfold esReadBucket
  split
  · exact Res.keeps_need fun c => kept_bind (takeEsCount_keeps k c s) fun _ t =>
      kept_bind (readG128s_keeps k _ _ t) fun _ u => readG32s_keeps k _ _ _ u
  · exact openBucket_kept k s

theorem esReadBuckets_keeps (m : Word) (ks : List (Fin 32)) (q : Nat) (s : State) :
    (esReadBuckets m ks q s).Keeps HostKept s := by
  induction ks generalizing q s with
  | nil => exact HostKept.refl s
  | cons k ks ih => exact kept_bind (esReadBucket_keeps m k q s) fun _ t => ih _ t

theorem esRead_keeps (p : Nat) (s : State) : (esRead p s).Keeps HostKept s :=
  Res.keeps_need fun m => kept_bind (esReadBuckets_keeps m _ _ s) fun _ t => HostKept.refl t

theorem putExceptions_keeps (k : Fin 32) (es : List (Nat × Word)) (s : State) :
    (putExceptions k es s).Keeps HostKept s := by
  induction es generalizing s with
  | nil => exact HostKept.refl s
  | cons e es ih =>
    exact kept_bind (bcPut_keeps _ s) fun _ t => keeps_after (esAppend_kept k _ t) (ih _)

theorem blkEmit_keeps (s : State) : (blkEmit s).Keeps HostKept s := by
  refine kept_bind (bcPut_keeps _ s) fun _ t => ?_
  refine kept_bind (bcPut_keeps _ t) fun _ u => ?_
  split
  · exact HostKept.refl u
  · refine kept_bind (bcPut_keeps _ u) fun _ v => ?_
    split
    · trivial
    · exact keeps_after (esEnsure_kept _ _ v) (putExceptions_keeps _ _ _)

theorem Res.keeps_check {R : State → State → Prop} {s : State} {c : Option Malformed} {r : Res Unit}
    (h : r.Keeps R s) : (Res.check c r).Keeps R s := by
  cases c with
  | none => exact h
  | some => trivial

theorem blkMeta_keeps (s : State) : (blkMeta s).Keeps HostKept s := by
  unfold blkMeta
  split
  · trivial
  · refine kept_bind (bcGet_keeps s) fun b t => ?_
    refine kept_bind (bcGet_keeps t) fun c u => Res.keeps_check ?_
    split
    · exact setSel_kept _ _ _ u
    · split
      · trivial
      · exact kept_bind (bcGet_keeps u) fun m v => Res.keeps_check (setSel_kept _ _ _ v)

theorem patchLoop_keeps (k : Fin 32) (n lo : Nat) (s : State) : (patchLoop k n lo s).Keeps HostKept s := by
  induction n generalizing lo s with
  | zero => exact HostKept.refl s
  | succ n ih =>
    refine kept_bind (bcGet_keeps s) fun i t => ?_
    split
    · refine kept_bind (esGet_keeps k t) fun x u => keeps_after ?_ (ih _ _)
      exact ⟨rfl, rfl, rfl, rfl, rfl, rfl, rfl, rfl, rfl, rfl, rfl, rfl, rfl, rfl, rfl⟩
    · trivial

theorem blkPatch_keeps (s : State) : (blkPatch s).Keeps HostKept s := by
  unfold blkPatch
  split
  · exact HostKept.refl s
  · split
    · trivial
    · exact patchLoop_keeps _ _ _ s

theorem blkLoad_keeps (s : State) : (blkLoad s).Keeps HostKept s := by
  unfold blkLoad
  split
  · trivial
  · exact ⟨rfl, rfl, rfl, rfl, rfl, rfl, rfl, rfl, rfl, rfl, rfl, rfl, rfl, rfl, rfl⟩

theorem blkStore_keeps (s : State) : (blkStore s).Keeps HostKept s := by
  unfold blkStore
  split
  · trivial
  · exact ⟨rfl, rfl, rfl, rfl, rfl, rfl, rfl, rfl, rfl, rfl, rfl, rfl, rfl, rfl, rfl⟩

theorem blkEnc_keeps (s : State) : (blkEnc s).Keeps HostKept s :=
  kept_bind (blkLoad_keeps s) fun _ t =>
    kept_bind
      (keeps_after ((deltaIfEnabled_kept t).trans ((blkHist_kept _).trans (blkSelect_kept _))) (blkEmit_keeps _))
      fun _ u => emitAll_keeps _ u

theorem blkDec_keeps (s : State) : (blkDec s).Keeps HostKept s :=
  kept_bind (blkMeta_keeps s) fun _ t => Res.keeps_need fun ws =>
    kept_bind (keeps_after (takePacked_kept _ ws t) (blkPatch_keeps _)) fun _ u =>
      keeps_after (prefixIfEnabled_kept u) (blkStore_keeps _)

theorem pageEnc_keeps (n : Nat) (s : State) : (pageEnc n s).Keeps HostKept s := by
  refine kept_bind (keeps_after ?_ (emitRecords_keeps _ { s with hdr := s.oc })) fun _ t => ?_
  · exact ⟨rfl, rfl, rfl, rfl, rfl, rfl, rfl, rfl, rfl, rfl, rfl, rfl, rfl, rfl, rfl⟩
  refine kept_bind (keeps_after (u := { esClear t with bcMem := [] }) ?_ (emitRecords_keeps _ _))
    fun _ u => ?_
  · constructor <;> simp
  exact kept_bind (kept_times blkEnc_keeps _ u) fun _ v =>
    kept_bind (putWord_keeps _ _ v) fun _ w =>
      kept_bind (bcWrite_keeps w) fun _ x =>
        kept_bind (esWrite_keeps x) fun _ y => HostKept.refl y

theorem pagesEnc_keeps (k : Nat) (s : State) : (pagesEnc k s).Keeps HostKept s := by
  induction k generalizing s with
  | zero => exact HostKept.refl s
  | succ k ih =>
    unfold pagesEnc
    split
    · exact HostKept.refl s
    · refine kept_bind (pageEnc_keeps _ s) fun _ t => keeps_after ?_ (ih _)
      exact ⟨rfl, rfl, rfl, rfl, rfl, rfl, rfl, rfl, rfl, rfl, rfl, rfl, rfl, rfl, rfl⟩

theorem arrEnc_keeps (s : State) : (arrEnc s).Keeps HostKept s := by
  refine kept_bind
    (keeps_after ?_ (emitRecords_keeps _ { s with ic := 0, oc := 0, rem := s.srcLen })) fun _ t => ?_
  · exact ⟨rfl, rfl, rfl, rfl, rfl, rfl, rfl, rfl, rfl, rfl, rfl, rfl, rfl, rfl, rfl⟩
  · exact kept_bind (pagesEnc_keeps _ t) fun _ u => HostKept.refl u

theorem takeArrayHdr_keeps (l : Word) (s : State) : (takeArrayHdr l s).Keeps HostKept s := by
  unfold takeArrayHdr
  split
  · exact HostKept.refl s
  · split
    · trivial
    · exact ⟨rfl, rfl, rfl, rfl, rfl, rfl, rfl, rfl, rfl, rfl, rfl, rfl, rfl, rfl, rfl⟩

theorem takePageHdr_keeps (h : Nat) (w : Word) (s : State) : (takePageHdr h w s).Keeps HostKept s := by
  unfold takePageHdr
  split
  · trivial
  · exact ⟨rfl, rfl, rfl, rfl, rfl, rfl, rfl, rfl, rfl, rfl, rfl, rfl, rfl, rfl, rfl⟩

theorem pageDec_keeps (n h : Nat) (s : State) : (pageDec n h s).Keeps HostKept s := by
  refine Res.keeps_need fun w => kept_bind (takePageHdr_keeps h w s) fun _ t => ?_
  refine kept_bind (bcRead_keeps _ t) fun cb u => ?_
  refine kept_bind (esRead_keeps _ u) fun ce v => ?_
  refine kept_bind (keeps_after (u := { v with ic := h + 1 + padTo4 (h + 1) }) ?_
    (kept_times blkDec_keeps _ _)) fun _ x => ?_
  · exact ⟨rfl, rfl, rfl, rfl, rfl, rfl, rfl, rfl, rfl, rfl, rfl, rfl, rfl, rfl, rfl⟩
  · split
    · trivial
    · exact HostKept.refl x

theorem pagesDec_keeps (k h : Nat) (s : State) : (pagesDec k h s).Keeps HostKept s := by
  induction k generalizing h s with
  | zero => exact HostKept.refl s
  | succ k ih =>
    unfold pagesDec
    split
    · exact HostKept.refl s
    · refine kept_bind (pageDec_keeps _ h s) fun m t => keeps_after ?_ (ih _ _)
      exact ⟨rfl, rfl, rfl, rfl, rfl, rfl, rfl, rfl, rfl, rfl, rfl, rfl, rfl, rfl, rfl⟩

theorem arrDec_keeps (s : State) : (arrDec s).Keeps HostKept s := by
  refine Res.keeps_need fun l => kept_bind
    (keeps_after (u := { s with oc := 0 }) ?_ (takeArrayHdr_keeps l _)) fun _ t => ?_
  · exact ⟨rfl, rfl, rfl, rfl, rfl, rfl, rfl, rfl, rfl, rfl, rfl, rfl, rfl, rfl, rfl⟩
  · exact kept_bind (pagesDec_keeps _ _ t) fun _ u => HostKept.refl u

theorem arrDecValues_keeps (s : State) : (arrDecValues s).Keeps HostKept s :=
  kept_bind (arrDec_keeps s) fun _ t => HostKept.refl t

/-- What `ARR.DEC` answers, from what its loop ended with. -/
theorem arrDecValues_of {s t : State} {d : Decoded} (h : arrDec s = .ok d t) : arrDecValues s = .ok d.values t := by
  rw [arrDecValues, h]
  rfl

end Sys2Proof.Machine
end

