-- ==== Sys2Proof/Laws/PerInstr.lean ====
section
/-! SUPPORT. The per-instruction family `EncodedSize`: how many bytes the encoding of each operation has. -/

namespace Sys2Proof

/-- The bytes of an operation: 4 for a command word (R80), the number and its operands for an internal
operation (log 9), the words of a record (R84 to R97), the bytes of a `META` record (R91). -/
def encodedSize (i : Instr) : Nat :=
  match i with
  | .reset | .encP | .encD | .decP | .decD | .illegal _ => 4
  | .vpack128 _ _ => 2 + 4 * 128
  | .vunpack128 b _ => 2 + 4 * (4 * b.val)
  | .spack32 _ _ => 2 + 4 * 32
  | .sunpack32 b _ => 2 + 4 * b.val
  | .esClear | .esReset | .esWrite => 1
  | .esEnsure _ _ | .esAppend _ _ => 6
  | .esRead _ => 5
  | .esGet _ => 2
  | .blkDelta | .blkHist | .blkSelect | .blkEmit | .blkLoad | .blkStore | .blkEnc => 1
  | .blkMeta | .blkPatch | .blkPrefix | .blkDec => 1
  | .arrEnc | .bcWrite | .arrDec | .bcGet => 1
  | .pageEnc _ | .bcRead _ => 5
  | .pageDec _ _ => 9
  | .bcPut _ => 2
  | .arrayHdr _ | .pageHdr _ | .pagePad | .bcSize _ | .esBitmap _ | .esCount _ _ | .esPad => 4
  | .packed128 b _ => 4 * (4 * b.val)
  | .bcBytes bytes => 4 * Machine.ceilDiv bytes.length 4
  | .metaRec _ c _ _ => if c = 0#8 then 2 else 3 + c.toNat
  | .esG128 k _ => 4 * (4 * (k.val + 1))
  | .esG32 k _ _ => 4 * (k.val + 1)

end Sys2Proof

namespace Sys2Proof.Laws

open Sys2Proof Sys2Proof.Machine

/-- A well-formed operation is encoded in as many bytes as its fields say. -/
def EncodedSize.Statement (i : Instr) : Prop := i.wf = true → (encode i).length = encodedSize i

theorem EncodedSize.reset : EncodedSize.Statement .reset := by
  intro _
  rfl

theorem EncodedSize.encP : EncodedSize.Statement .encP := by
  intro _
  rfl

theorem EncodedSize.encD : EncodedSize.Statement .encD := by
  intro _
  rfl

theorem EncodedSize.decP : EncodedSize.Statement .decP := by
  intro _
  rfl

theorem EncodedSize.decD : EncodedSize.Statement .decD := by
  intro _
  rfl

theorem EncodedSize.illegal (w : Word) : EncodedSize.Statement (.illegal w) := by
  intro _
  rfl

theorem EncodedSize.vpack128 (b : Fin 33) (v : List Word) : EncodedSize.Statement (.vpack128 b v) := by
  intro h
  simp [Instr.wf] at h
  simp [encode, encodedSize, h]

theorem EncodedSize.vunpack128 (b : Fin 33) (w : List Word) : EncodedSize.Statement (.vunpack128 b w) := by
  intro h
  simp [Instr.wf] at h
  simp [encode, encodedSize, h]
  omega

theorem EncodedSize.spack32 (b : Fin 33) (v : List Word) : EncodedSize.Statement (.spack32 b v) := by
  intro h
  simp [Instr.wf] at h
  simp [encode, encodedSize, h]

theorem EncodedSize.sunpack32 (b : Fin 33) (w : List Word) : EncodedSize.Statement (.sunpack32 b w) := by
  intro h
  simp [Instr.wf] at h
  simp [encode, encodedSize, h]
  omega

theorem EncodedSize.esClear : EncodedSize.Statement .esClear := by
  intro _
  rfl

theorem EncodedSize.esReset : EncodedSize.Statement .esReset := by
  intro _
  rfl

theorem EncodedSize.esEnsure (k : Fin 32) (n : Word) : EncodedSize.Statement (.esEnsure k n) := by
  intro _
  rfl

theorem EncodedSize.esAppend (k : Fin 32) (x : Word) : EncodedSize.Statement (.esAppend k x) := by
  intro _
  rfl

theorem EncodedSize.esWrite : EncodedSize.Statement .esWrite := by
  intro _
  rfl

theorem EncodedSize.esRead (p : Word) : EncodedSize.Statement (.esRead p) := by
  intro _
  rfl

theorem EncodedSize.esGet (k : Fin 32) : EncodedSize.Statement (.esGet k) := by
  intro _
  rfl

theorem EncodedSize.blkDelta : EncodedSize.Statement .blkDelta := by
  intro _
  rfl

theorem EncodedSize.blkHist : EncodedSize.Statement .blkHist := by
  intro _
  rfl

theorem EncodedSize.blkSelect : EncodedSize.Statement .blkSelect := by
  intro _
  rfl

theorem EncodedSize.blkEmit : EncodedSize.Statement .blkEmit := by
  intro _
  rfl

theorem EncodedSize.blkLoad : EncodedSize.Statement .blkLoad := by
  intro _
  rfl

theorem EncodedSize.blkStore : EncodedSize.Statement .blkStore := by
  intro _
  rfl

theorem EncodedSize.blkEnc : EncodedSize.Statement .blkEnc := by
  intro _
  rfl

theorem EncodedSize.blkMeta : EncodedSize.Statement .blkMeta := by
  intro _
  rfl

theorem EncodedSize.blkPatch : EncodedSize.Statement .blkPatch := by
  intro _
  rfl

theorem EncodedSize.blkPrefix : EncodedSize.Statement .blkPrefix := by
  intro _
  rfl

theorem EncodedSize.blkDec : EncodedSize.Statement .blkDec := by
  intro _
  rfl

theorem EncodedSize.arrEnc : EncodedSize.Statement .arrEnc := by
  intro _
  rfl

theorem EncodedSize.pageEnc (n : Word) : EncodedSize.Statement (.pageEnc n) := by
  intro _
  rfl

theorem EncodedSize.bcWrite : EncodedSize.Statement .bcWrite := by
  intro _
  rfl

theorem EncodedSize.arrDec : EncodedSize.Statement .arrDec := by
  intro _
  rfl

theorem EncodedSize.pageDec (n h : Word) : EncodedSize.Statement (.pageDec n h) := by
  intro _
  rfl

theorem EncodedSize.bcRead (q : Word) : EncodedSize.Statement (.bcRead q) := by
  intro _
  rfl

theorem EncodedSize.bcPut (x : Byte) : EncodedSize.Statement (.bcPut x) := by
  intro _
  rfl

theorem EncodedSize.bcGet : EncodedSize.Statement .bcGet := by
  intro _
  rfl

theorem EncodedSize.arrayHdr (l : Word) : EncodedSize.Statement (.arrayHdr l) := by
  intro _
  rfl

theorem EncodedSize.pageHdr (w : Word) : EncodedSize.Statement (.pageHdr w) := by
  intro _
  rfl

theorem EncodedSize.pagePad : EncodedSize.Statement .pagePad := by
  intro _
  rfl

theorem EncodedSize.packed128 (b : Fin 33) (ws : List Word) : EncodedSize.Statement (.packed128 b ws) := by
  intro h
  simp [Instr.wf] at h
  simp [encode, encodedSize, recWords, h]

theorem EncodedSize.bcSize (bs : Word) : EncodedSize.Statement (.bcSize bs) := by
  intro _
  rfl

theorem EncodedSize.bcBytes (bytes : List Byte) : EncodedSize.Statement (.bcBytes bytes) := by
  intro _
  simp [encode, encodedSize, recWords, packBytes_length]

theorem EncodedSize.metaRec (b c m : Byte) (pos : List Byte) : EncodedSize.Statement (.metaRec b c m pos) := by
  intro h
  simp only [Instr.wf, decide_eq_true_eq] at h
  obtain ⟨_, _, h, _⟩ := h
  simp only [encode, encodedSize, metaBytes]
  split <;> simp [h]
  omega

theorem EncodedSize.esBitmap (m : Word) : EncodedSize.Statement (.esBitmap m) := by
  intro _
  rfl

theorem EncodedSize.esCount (k : Fin 32) (c : Word) : EncodedSize.Statement (.esCount k c) := by
  intro _
  rfl

theorem EncodedSize.esPad : EncodedSize.Statement .esPad := by
  intro _
  rfl

theorem EncodedSize.esG128 (k : Fin 32) (ws : List Word) : EncodedSize.Statement (.esG128 k ws) := by
  intro h
  simp [Instr.wf] at h
  simp [encode, encodedSize, recWords, h]

theorem EncodedSize.esG32 (k : Fin 32) (n : Fin 33) (ws : List Word) : EncodedSize.Statement (.esG32 k n ws) := by
  intro h
  simp [Instr.wf] at h
  simp [encode, encodedSize, recWords, h]

end Sys2Proof.Laws
end

