-- ==== Sys2Proof/Tests/Slice0.lean ====
section
/-! SUPPORT. Tests: what `WellFormed` refuses, words written out from the encodings, one or two small
steps for each operation (expected values from `spec/95_test_vectors.md`, cited by their names there, or
worked from the rule cited), and a witness for the hypotheses of each statement that has any. -/

set_option Elab.async false

namespace Sys2Proof.Tests

open Sys2Proof Sys2Proof.Machine

/-! ### Helpers -/

/-- A field of the next state. -/
def after {α : Type} (o : Host.Outcome State Fault Refusal) (f : State → α) : Option α :=
  match o with
  | .next t => some (f t)
  | .fault _ => none
  | .refused _ => none

/-- The fault an operation stops with. -/
def faulted (o : Host.Outcome State Fault Refusal) : Option Fault :=
  match o with
  | .next _ => none
  | .fault f => some f
  | .refused _ => none

/-- The refusal an operation stops with. -/
def refusal (o : Host.Outcome State Fault Refusal) : Option Refusal :=
  match o with
  | .next _ => none
  | .fault _ => none
  | .refused r => some r

/-- A small machine: `SRC` at 0x1000, `DST` at 0x2000. -/
def small : State := { State.reset with srcBase := 0x1000, srcLen := 128#32, dstBase := 0x2000, dstCap := 64#32 }

/-- The same while ENC.P runs, and while DEC.P runs. -/
def encoding : State := { small with cmd := 0x00000001#32 }

def decoding : State := { small with cmd := 0x00000002#32 }

/-- A block of `x` but for one value. -/
def blockBut (x : Word) (i : Fin 128) (y : Word) : Vector Word 128 := (Vector.replicate 128 x).set i.val y

/-- A histogram from its nonzero counters. -/
def counters (cs : List (Nat × Nat)) : Vector (BitVec 8) 33 :=
  Vector.ofFn fun w : Fin 33 => BitVec.ofNat 8 ((cs.lookup w.val).getD 0)

/-- What the decoder answers. -/
def decoded (c : Ctx) (bs : List Byte) : Option Instr :=
  match decode c bs with
  | .ok (i, _) => some i
  | .error _ => none

/-- Why the decoder answers nothing. -/
def undecoded (c : Ctx) (bs : List Byte) : Option DecodeError :=
  match decode c bs with
  | .ok _ => none
  | .error e => some e

/-! ### What is not well formed -/

theorem test_wf_illegal : (Instr.illegal 0x00000101#32).wf = false := by decide
theorem test_wf_vpack128 : (Instr.vpack128 3 (List.replicate 127 0#32)).wf = false := by decide +kernel
theorem test_wf_vunpack128 : (Instr.vunpack128 2 (List.replicate 7 0#32)).wf = false := by decide
theorem test_wf_spack32 : (Instr.spack32 3 (List.replicate 31 0#32)).wf = false := by decide
theorem test_wf_sunpack32 : (Instr.sunpack32 3 [1#32, 2#32]).wf = false := by decide
theorem test_wf_packed128 : (Instr.packed128 1 [0#32]).wf = false := by decide
theorem test_wf_meta_width : (Instr.metaRec 33 0 33 []).wf = false := by decide
theorem test_wf_meta_count : (Instr.metaRec 0 2 5 [7]).wf = false := by decide
theorem test_wf_meta_maxb : (Instr.metaRec 5 1 5 [7]).wf = false ∧ (Instr.metaRec 5 1 33 [7]).wf = false := by decide
theorem test_wf_meta_absent_maxb : (Instr.metaRec 5 0 6 []).wf = false := by decide
theorem test_wf_meta_position : (Instr.metaRec 0 1 5 [128]).wf = false := by decide
theorem test_wf_meta_order : (Instr.metaRec 0 2 5 [7, 7]).wf = false := by decide
theorem test_wf_esG128 : (Instr.esG128 1 (List.replicate 4 0#32)).wf = false := by decide
theorem test_wf_esG32 : (Instr.esG32 2 5 [0#32]).wf = false ∧ (Instr.esG32 0 0 [0#32]).wf = false := by decide

/-! ### What does not decode -/

theorem test_no_width_33 : undecoded .internal (0x11#8 :: 33#8 :: []) = some (.widthRange 33#8) := by decide
theorem test_no_bucket_32 : undecoded .internal [0x26#8, 32#8] = some (.bucketRange 32#8) := by decide
theorem test_no_code_14 : undecoded .internal [0x14#8] = some (.noSuchCode 0x14#8) := by decide
theorem test_no_short_word : undecoded .command [1#8, 1#8, 0#8] = some .truncated := by decide
theorem test_no_meta_maxb : undecoded (.stream .metaRec) [5#8, 1#8, 5#8, 0#8] = some .fieldRange := by decide

/-! ### Words written out (R80, R81, R84 to R97; operand bytes by log 9) -/

theorem test_decode_commands :
    decoded .command [0x00, 0x00, 0x00, 0x00] = some .reset ∧ decoded .command [0x01, 0x00, 0x00, 0x00] = some .encP ∧
    decoded .command [0x01, 0x01, 0x00, 0x00] = some .encD ∧ decoded .command [0x02, 0x00, 0x00, 0x00] = some .decP ∧
    decoded .command [0x02, 0x01, 0x00, 0x00] = some .decD := by decide

/-- K11, K12, and a reserved bit. -/
theorem test_decode_illegal :
    decoded .command [0x03, 0x00, 0x00, 0x00] = some (.illegal 0x00000003#32) ∧
    decoded .command [0x00, 0x01, 0x00, 0x00] = some (.illegal 0x00000100#32) ∧
    decoded .command [0x01, 0x02, 0x00, 0x80] = some (.illegal 0x80000201#32) := by decide

theorem test_decode_vector :
    decoded .internal (0x10 :: 0x02 :: 0x04 :: List.replicate 511 0x00) =
      some (.vpack128 2 (4#32 :: List.replicate 127 0#32)) ∧
    decoded .internal (0x11 :: 0x01 :: List.replicate 15 0x00 ++ [0x80]) =
      some (.vunpack128 1 [0#32, 0#32, 0#32, 0x80000000#32]) := by decide +kernel

theorem test_decode_scalar :
    decoded .internal (0x12 :: 0x20 :: List.replicate 127 0x00 ++ [0x01]) =
      some (.spack32 32 (List.replicate 31 0#32 ++ [0x01000000#32])) ∧
    decoded .internal [0x13, 0x01, 0xAA, 0xBB, 0xCC, 0xDD] = some (.sunpack32 1 [0xDDCCBBAA#32]) := by decide +kernel

theorem test_decode_store :
    decoded .internal [0x20] = some .esClear ∧ decoded .internal [0x21] = some .esReset ∧
    decoded .internal [0x22, 0x1F, 0x46, 0x00, 0x00, 0x00] = some (.esEnsure 31 70#32) ∧
    decoded .internal [0x23, 0x1E, 0x00, 0x00, 0x00, 0x40] = some (.esAppend 30 0x40000000#32) ∧
    decoded .internal [0x24] = some .esWrite ∧ decoded .internal [0x25, 0x0D, 0x01, 0x00, 0x00] = some (.esRead 0x10D#32) ∧
    decoded .internal [0x26, 0x07] = some (.esGet 7) := by decide

theorem test_decode_block :
    decoded .internal [0x30] = some .blkDelta ∧ decoded .internal [0x31] = some .blkHist ∧
    decoded .internal [0x32] = some .blkSelect ∧ decoded .internal [0x33] = some .blkEmit ∧
    decoded .internal [0x34] = some .blkLoad ∧ decoded .internal [0x35] = some .blkStore ∧
    decoded .internal [0x36] = some .blkEnc ∧ decoded .internal [0x37] = some .blkMeta ∧
    decoded .internal [0x38] = some .blkPatch ∧ decoded .internal [0x39] = some .blkPrefix ∧
    decoded .internal [0x3A] = some .blkDec := by decide

theorem test_decode_framer :
    decoded .internal [0x40] = some .arrEnc ∧ decoded .internal [0x41, 0x80, 0x00, 0x00, 0x00] = some (.pageEnc 128#32) ∧
    decoded .internal [0x42] = some .bcWrite ∧ decoded .internal [0x43] = some .arrDec ∧
    decoded .internal [0x44, 0x80, 0x00, 0x00, 0x00, 0x01, 0x00, 0x00, 0x00] = some (.pageDec 128#32 1#32) ∧
    decoded .internal [0x45, 0x0C, 0x00, 0x00, 0x00] = some (.bcRead 12#32) ∧
    decoded .internal [0x46, 0x02] = some (.bcPut 0x02) ∧ decoded .internal [0x47] = some .bcGet := by decide

/-- The examples of R84, R86, R89, R91, R93, R147; padding words and pad bytes are not examined. -/
theorem test_decode_records :
    decoded (.stream .arrayHdr) [0x80, 0x00, 0x00, 0x00] = some (.arrayHdr 128#32) ∧
    decoded (.stream .pageHdr) [0x0B, 0x00, 0x00, 0x00] = some (.pageHdr 11#32) ∧
    decoded (.stream .pagePad) [0x00, 0x00, 0x00, 0x55] = some .pagePad ∧
    decoded (.stream .bcSize) [0x04, 0x00, 0x00, 0x00] = some (.bcSize 4#32) ∧
    decoded (.stream (.bcBytes 6)) [0x01, 0x00, 0x02, 0x01, 0x0A, 0x00, 0x77, 0x77] = some (.bcBytes [1, 0, 2, 1, 10, 0]) ∧
    decoded (.stream .metaRec) [0x00, 0x01, 0x1F, 0x05] = some (.metaRec 0 1 31 [5]) ∧
    decoded (.stream .metaRec) [0x02, 0x00] = some (.metaRec 2 0 2 []) ∧
    decoded (.stream .esBitmap) [0x00, 0x00, 0x00, 0x40] = some (.esBitmap 0x40000000#32) ∧
    decoded (.stream (.esCount 7)) [0x01, 0x00, 0x00, 0x00] = some (.esCount 7 1#32) ∧
    decoded (.stream .esPad) [0x00, 0x00, 0x00, 0x00] = some .esPad := by decide

theorem test_decode_groups :
    decoded (.stream (.packed128 1)) (List.replicate 15 0xFF ++ [0x7F]) =
      some (.packed128 1 [0xFFFFFFFF#32, 0xFFFFFFFF#32, 0xFFFFFFFF#32, 0x7FFFFFFF#32]) ∧
    decoded (.stream (.esG128 0)) (0x01 :: List.replicate 15 0x00) = some (.esG128 0 [1#32, 0#32, 0#32, 0#32]) ∧
    decoded (.stream (.esG32 0 3)) [0x07, 0x00, 0x00, 0x00] = some (.esG32 0 3 [7#32]) := by decide

/-! ### The engine -/

/-- E5: a value that straddles two words of its lane. -/
theorem test_vpack128_straddle :
    after (exec (.vpack128 3 (blockBut 0 40 7).toList) small) State.ret =
      some [0xC0000000#32, 0, 0, 0, 1, 0, 0, 0, 0, 0, 0, 0] := by decide +kernel

/-- E10: a value wider than `b` is masked. -/
theorem test_vpack128_masks :
    after (exec (.vpack128 4 (List.replicate 128 0x1F#32)) small) State.ret =
      some (List.replicate 16 0xFFFFFFFF#32) := by decide +kernel

/-- E6, read back. -/
theorem test_vunpack128_lane :
    after (exec (.vunpack128 3 [0, 0x40000000#32, 0, 0, 0, 1, 0, 0, 0, 0, 0, 0]) small) State.ret =
      some (blockBut 0 41 5).toList := by decide +kernel

/-- E12: no words, 128 zeros. -/
theorem test_vunpack128_zero :
    after (exec (.vunpack128 0 []) small) State.ret = some (List.replicate 128 0#32) := by decide +kernel

/-- S1. -/
theorem test_spack32_ramp :
    after (exec (.spack32 3 ((List.range 32).map fun j => BitVec.ofNat 32 (j % 8))) small) State.ret =
      some [0x88FAC688#32, 0xC688FAC6#32, 0xFAC688FA#32] := by decide +kernel

/-- S2. -/
theorem test_spack32_straddle :
    after (exec (.spack32 3 (List.replicate 10 0#32 ++ 7#32 :: List.replicate 21 0#32)) small) State.ret =
      some [0xC0000000#32, 1#32, 0#32] := by decide +kernel

/-- S7. -/
theorem test_sunpack32_ramp :
    after (exec (.sunpack32 5 [0x8A418820#32, 0xC5A92839#32, 0xCA307B9A#32, 0x38BDAB49#32, 0xFFBBCDEB#32]) small)
      State.ret = some ((List.range 32).map (BitVec.ofNat 32)) := by decide +kernel

/-! ### The exception store -/

/-- A store with the residuals `xs` in bucket `k`. -/
def storing (k : Fin 32) (xs : List Word) (s : State) : State :=
  { s with es := s.es.set k.val { val := xs, cap := 256, rd := 0 } }

/-- R143: the capacity stays. -/
theorem test_esClear : after (exec .esClear (storing 7 [0xDA#32] small)) (fun t => t.es[7]) =
    some { val := [], cap := 256, rd := 0 } := by decide +kernel

/-- R144: the capacity goes. -/
theorem test_esReset : after (exec .esReset (storing 7 [0xDA#32] small)) (fun t => t.es[7]) =
    some { val := [], cap := 128, rd := 0 } := by decide +kernel

/-- R145: 120 residuals, capacity 128, 70 more. -/
theorem test_esEnsure_grows :
    after (exec (.esEnsure 3 70#32) { small with es := small.es.set 3 ⟨List.replicate 120 1#32, 128, 0⟩ })
      (fun t => t.es[3].cap) = some 256 := by decide +kernel

theorem test_esEnsure_fits : after (exec (.esEnsure 3 128#32) small) (fun t => t.es[3].cap) = some 128 := by
  decide +kernel

/-- R146. -/
theorem test_esAppend : after (exec (.esAppend 30 0x40000000#32) small) (fun t => (t.es[30].val, t.es[29].val)) =
    some ([0x40000000#32], []) := by decide +kernel

/-- The 140 values of X5, and its vector group. -/
def x5Values : List Word := (List.range 140).map fun i => BitVec.ofNat 32 (i % 15 + 1)

def x5Group : List Word :=
  [0xEA62D951#32, 0xFB73EA62#32, 0x1C84FB73#32, 0x2D951C84#32, 0x1C84FB73#32, 0x2D951C84#32, 0x3EA62D95#32,
    0x4FB73EA6#32, 0x3EA62D95#32, 0x4FB73EA6#32, 0x51C84FB7#32, 0x62D951C8#32, 0x51C84FB7#32, 0x62D951C8#32,
    0x73EA62D9#32, 0x84FB73EA#32]

/-- The words of X5 at word index 1. -/
def x5Words : List Word :=
  [8#32, 0x8C#32, 0#32] ++ x5Group ++ [0x1FEDCBA9#32, 0x00005432#32, 0#32, 0#32]

/-- X5: a bucket of 140 residuals at word index 1. Then a bucket of one residual before one of 128, at word
index 1: the second count stands at 4, so three words of padding (R94 to R97, and X1 and X6 for the groups). -/
theorem test_esWrite :
    after (exec .esWrite (storing 3 x5Values { small with oc := 1 })) (fun t => (t.ret, dstView t 1 23)) =
      some ([23#32], x5Words) ∧
    after (exec .esWrite (storing 0 [1#32] (storing 3 (x5Values.take 128) { small with oc := 1 })))
        (fun t => (t.ret, dstView t 1 23)) =
      some ([23#32], [9#32, 1#32, 1#32, 128#32, 0#32, 0#32, 0#32] ++ x5Group) := by decide +kernel

/-- X6 at word index 2: no padding; with one word of capacity too few, `BufferOverrun`. -/
theorem test_esWrite_overrun :
    after (exec .esWrite (storing 7 [0xDA#32] { small with dstCap := 9#32 })) (fun t => (t.status.err, t.result)) =
      some (.bufferOverrun, 0#32) := by decide +kernel

/-- X5 read back: bitmap, count, a word of padding, a vector group and a tail group. -/
theorem test_esRead :
    after (exec (.esRead 1#32) { small with mem := Memory.writeWords [] 0x1004 x5Words })
      (fun t => (t.ret, t.es[3].val, t.es[3].rd, t.es[2].val)) = some ([23#32], x5Values, 0, []) := by decide +kernel

/-- R148, R104 item 4: a count of 0 under a set bit. -/
theorem test_esRead_count_zero :
    faulted (exec (.esRead 2#32) { small with mem := [(0x1008, 1)] }) = some (.malformed .bucketCount) := by decide +kernel

/-- R149. -/
theorem test_esGet : after (exec (.esGet 7) (storing 7 [0xDA#32] small)) (fun t => (t.ret, t.es[7].rd)) =
    some ([0xDA#32], 1) := by decide +kernel

theorem test_esGet_exhausted : faulted (exec (.esGet 7) small) = some (.malformed .bucketEnd) := by decide +kernel

/-! ### The block codec -/

/-- D3: unsorted values wrap. -/
theorem test_blkDelta :
    after (exec .blkDelta { small with
        deltaEn := true, dprev := #v[0, 0, 0, 7], blk := ((blockBut 0 0 10).set 1 5).set 2 0xFFFFFFFF#32 })
      (fun t => (t.blk.toList.take 5, t.dprev)) =
    some ([3#32, 0xFFFFFFFB#32, 0xFFFFFFFA#32, 1#32, 0#32], #v[0, 0, 0, 0]) := by decide +kernel

/-- D5. -/
theorem test_blkPrefix :
    after (exec .blkPrefix { small with deltaEn := true, dprev := #v[0, 0, 0, 127], blk := blockBut 2 0 873 })
      (fun t => (t.blk[0], t.blk[127], t.dprev)) =
    some (1000#32, 1254#32, #v[1248, 1250, 1252, 1254]) := by decide +kernel

/-- R34: with `DELTA_EN = 0` neither writes anything. -/
theorem test_plain_variant_keeps_dprev :
    after (exec .blkDelta { small with dprev := #v[1, 2, 3, 4], blk := blockBut 1 0 5 })
      (fun t => (t.blk == blockBut 1 0 5, t.dprev)) = some (true, #v[1, 2, 3, 4]) ∧
    after (exec .blkPrefix { small with dprev := #v[1, 2, 3, 4], blk := blockBut 1 0 5 })
      (fun t => (t.blk == blockBut 1 0 5, t.dprev)) = some (true, #v[1, 2, 3, 4]) := by decide +kernel

/-- T15's block. -/
theorem test_blkHist : after (exec .blkHist { small with blk := blockBut 3 0 0 }) State.freq =
    some (counters [(0, 1), (2, 127)]) := by decide +kernel

/-- T7: the tie keeps the larger `b`. -/
theorem test_blkSelect_tie :
    after (exec .blkSelect { small with freq := counters [(0, 108), (1, 12), (2, 8)] })
      (fun t => (t.selB, t.selC, t.selM)) = some (1#6, 8#8, 2#6) := by decide +kernel

/-- T8: the most exceptions possible. -/
theorem test_blkSelect_most :
    after (exec .blkSelect { small with freq := counters [(0, 26), (32, 102)] })
      (fun t => (t.selB, t.selC, t.selM)) = some (0#6, 102#8, 32#6) := by decide +kernel

/-- B1. -/
theorem test_blkEmit :
    after (exec .blkEmit { small with blk := blockBut 0 5 0x40000000#32, selB := 0, selC := 1, selM := 31 })
      (fun t => (t.bcMem, t.es[30].val)) = some ([0x00, 0x01, 0x1F, 0x05], [0x40000000#32]) := by decide +kernel

/-- B2: two bytes and no bucket. -/
theorem test_blkEmit_plain :
    after (exec .blkEmit { small with blk := blockBut 3 0 0, selB := 2, selC := 0, selM := 2 })
      (fun t => (t.bcMem, t.es == small.es)) = some ([0x02, 0x00], true) := by decide +kernel

/-- R166. -/
theorem test_blkLoad :
    after (exec .blkLoad { small with mem := [(0x1004, 0x2A), (0x11FF, 0x80)] })
      (fun t => (t.blk[1], t.blk[127], t.ic)) = some (42#32, 0x80000000#32, 128) := by decide +kernel

/-- R167. -/
theorem test_blkStore :
    after (exec .blkStore { small with blk := blockBut 0 127 0x80000001#32, oc := 2 }) (fun t => (t.mem, t.oc)) =
      some ([(0x2204, 0x01), (0x2207, 0x80)], 130) := by decide +kernel

/-- B5. -/
theorem test_blkMeta :
    after (exec .blkMeta { small with bcMem := [0x02, 0x01, 0x0A, 0x00] }) (fun t => (t.selB, t.selC, t.selM, t.bcRd)) =
      some (2#6, 1#8, 10#6, 3) := by decide +kernel

/-- B6: `maxb` is taken from `b`. -/
theorem test_blkMeta_plain :
    after (exec .blkMeta { small with bcMem := [0x02, 0x00] }) (fun t => (t.selB, t.selC, t.selM, t.bcRd)) =
      some (2#6, 0#8, 2#6, 2) := by decide +kernel

/-- B8. -/
theorem test_blkPatch :
    after (exec .blkPatch { storing 15 [0xFFFF#32] small with
        blk := blockBut 0 77 0xF, selB := 4, selC := 1, selM := 20, bcMem := [0x4D] })
      (fun t => (t.blk[77], t.blk[76], t.bcRd, t.es[15].rd)) = some (0xFFFFF#32, 0#32, 1, 1) := by decide +kernel

/-- R170: a position out of order, and one above 127. -/
theorem test_blkPatch_order :
    faulted (exec .blkPatch { storing 0 [1#32, 1#32] small with selB := 0, selC := 2, selM := 1, bcMem := [9, 9] }) =
      some (.malformed .position) ∧
    faulted (exec .blkPatch { storing 0 [1#32] small with selB := 0, selC := 1, selM := 1, bcMem := [128] }) =
      some (.malformed .position) := by decide +kernel

/-- R168 on T4's kind of block: one value of width 31, `b = 0`, no packed word. -/
theorem test_blkEnc :
    after (exec .blkEnc { small with mem := [(0x1017, 0x40)] }) (fun t => (t.bcMem, t.es[30].val, t.oc, t.ic)) =
      some ([0x00, 0x01, 0x1F, 0x05], [0x40000000#32], 0, 128) := by decide +kernel

/-- R172's example. -/
theorem test_blkDec :
    after (exec .blkDec { storing 30 [0x40000000#32] small with bcMem := [0x00, 0x01, 0x1F, 0x05] })
      (fun t => (t.mem, t.oc, t.ic)) = some ([(0x2017, 0x40)], 128, 0) := by decide +kernel

/-! ### The framer -/

/-- R196, R197. -/
theorem test_bcPut : after (exec (.bcPut 0x02) { small with bcMem := [0x07] }) State.bcMem = some [0x07, 0x02] := by
  decide +kernel

theorem test_bcGet : after (exec .bcGet { small with bcMem := [0x07, 0xF2], bcRd := 1 }) (fun t => (t.ret, t.bcRd)) =
    some ([0xF2#32], 2) := by decide +kernel

theorem test_bcGet_end : faulted (exec .bcGet { small with bcMem := [0x07], bcRd := 1 }) = some (.malformed .containerEnd) := by
  decide +kernel

/-- R89's six bytes. -/
theorem test_bcWrite :
    after (exec .bcWrite { small with bcMem := [1, 0, 2, 1, 10, 0] }) (fun t => (dstView t 0 3, t.oc)) =
      some ([6#32, 0x01020001#32, 0x0000000A#32], 3) := by decide +kernel

/-- R195's example. -/
theorem test_bcRead :
    after (exec (.bcRead 1#32) { small with mem := [(0x1004, 4), (0x1009, 0x01), (0x100A, 0x1F), (0x100B, 0x05)] })
      (fun t => (t.bcMem, t.bcRd, t.ret)) = some ([0x00, 0x01, 0x1F, 0x05], 0, [2#32]) := by decide +kernel

/-- R191 on one block of zeros at word index 1: `W = 3`, two pads, `BS = 2`, the bytes `00 00`, bitmap 0. -/
theorem test_pageEnc :
    after (exec (.pageEnc 128#32) { small with oc := 1 }) (fun t => (dstView t 1 6, t.oc, t.hdr, t.ic)) =
      some ([3#32, 0#32, 0#32, 2#32, 0#32, 0#32], 7, 1, 128) := by decide +kernel

/-- R190 on 128 zeros. -/
theorem test_arrEnc :
    after (exec .arrEnc small) (fun t => (dstView t 0 2, t.ret, t.rem)) = some ([128#32, 3#32], [7#32], 0#32) := by
  decide +kernel

/-- The stream of 128 zeros in memory at 0x1000. -/
def zerosStream : State := { small with mem := [(0x1000, 0x80), (0x1004, 3), (0x1010, 2)], dstCap := 128#32 }

theorem test_pageDec :
    after (exec (.pageDec 128#32 1#32) zerosStream) (fun t => (t.ret, t.mp, t.ic, t.oc)) =
      some ([6#32], 4, 4, 128) := by decide +kernel

/-- M3 in small, and M8's item 8: `W` counts one word more than the blocks account for. -/
theorem test_pageDec_malformed :
    faulted (exec (.pageDec 128#32 1#32) { zerosStream with mem := [(0x1000, 0x80), (0x1004, 2), (0x1010, 2)] }) =
      some (.malformed .pageWords) ∧
    faulted (exec (.pageDec 128#32 1#32) { zerosStream with mem := [(0x1000, 0x80), (0x1004, 4), (0x1014, 2)] }) =
      some (.malformed .areaEnd) := by decide +kernel

theorem test_arrDec : after (exec .arrDec zerosStream) (fun t => (t.ret, t.oc, t.rem)) = some ([128#32], 128, 0#32) := by
  decide +kernel

/-! ### The commands -/

/-- K13, after a command of the delta variant (R262). -/
theorem test_reset :
    after (exec .reset { storing 7 [0xDA#32] small with bcMem := [1], dprev := #v[1, 2, 3, 4], deltaEn := true })
      (fun t => ((t.status, t.es[7]), t.bcMem, t.dprev, t.deltaEn, t.srcBase)) =
    some ((⟨false, true, .ok⟩, ⟨[], 128, 0⟩), [], #v[0, 0, 0, 0], false, 0x1000) := by decide +kernel

/-- K14. -/
theorem test_encP_empty :
    after (exec .encP { small with srcLen := 0#32, dstCap := 1#32 }) (fun t => (t.status, t.result, t.oc)) =
      some (⟨false, true, .ok⟩, 1#32, 1) := by decide +kernel

/-- R240: `SRC_LEN = 128`, `DST_CAP = 0`. -/
theorem test_encP_overrun :
    after (exec .encP { small with dstCap := 0#32 }) (fun t => (t.status, t.result, t.required)) =
      some (⟨false, true, .bufferOverrun⟩, 0#32, 0#32) := by decide +kernel

/-- K4: the misaligned buffer is found first. -/
theorem test_encD_alignment :
    after (exec .encD { small with srcBase := 0x1004, srcLen := 100#32, dstCap := 0#32 }) (fun t => (t.status, t.mem)) =
      some (⟨false, true, .alignment⟩, []) := by decide +kernel

/-- K3. -/
theorem test_encD_length :
    after (exec .encD { small with srcLen := 100#32 }) (fun t => (t.status, t.mem)) =
      some (⟨false, true, .invalidLength⟩, []) := by decide +kernel

/-- K15. -/
theorem test_decP_empty :
    after (exec .decP { small with srcLen := 1#32, dstCap := 0#32 }) (fun t => (t.status, t.result, t.mem)) =
      some (⟨false, true, .ok⟩, 0#32, []) := by decide +kernel

/-- R61 (b), U6: overlapping buffers. -/
theorem test_decP_overlap : refusal (exec .decP { small with dstBase := 0x11F0 }) = some .buffersOverlap := by decide +kernel

/-- K7. -/
theorem test_decD_storage :
    after (exec .decD { zerosStream with dstCap := 127#32 }) (fun t => (t.status, t.required, t.mem == zerosStream.mem)) =
      some (⟨false, true, .insufficientStorage⟩, 128#32, true) := by decide +kernel

/-- R104 item 2. -/
theorem test_decD_length :
    faulted (exec .decD { small with mem := [(0x1000, 0x40)] }) = some (.malformed .arrayLength) := by decide +kernel

/-- K11: the instance state is unchanged. -/
theorem test_illegal :
    after (exec (.illegal 0x00000003#32) (storing 7 [0xDA#32] small)) (fun t => (t.status, t.result, t.es[7].val)) =
      some (⟨false, true, .illegalCommand⟩, 0#32, [0xDA#32]) := by decide +kernel

/-! ### The records -/

theorem test_arrayHdr : after (exec (.arrayHdr 128#32) encoding) (fun t => (t.mem, t.oc)) = some ([(0x2000, 0x80)], 1) := by
  decide +kernel

theorem test_arrayHdr_capacity :
    after (exec (.arrayHdr 128#32) decoding) (fun t => (t.status.err, t.required)) =
      some (.insufficientStorage, 128#32) := by decide +kernel

theorem test_pageHdr : after (exec (.pageHdr 0#32) { encoding with oc := 1 }) (fun t => (t.hdr, t.oc)) = some (1, 2) := by
  decide +kernel

theorem test_pageHdr_parse :
    after (exec (.pageHdr 11#32) { decoding with ic := 1 }) (fun t => (t.hdr, t.mp, t.ic)) = some (1, 12, 2) := by
  decide +kernel

theorem test_pagePad : after (exec .pagePad { encoding with oc := 2 }) State.oc = some 3 := by decide +kernel

theorem test_packed128 :
    after (exec (.packed128 1 [1, 0, 0, 0x80000000#32]) decoding) (fun t => (t.blk[0], t.blk[1], t.blk[127], t.ic)) =
      some (1#32, 0#32, 1#32, 4) := by decide +kernel

theorem test_bcSize : faulted (exec (.bcSize 67073#32) decoding) = some (.malformed .containerSize) := by decide +kernel

theorem test_bcBytes :
    after (exec (.bcBytes [2, 0, 1]) { encoding with oc := 1 }) (fun t => (t.mem, t.oc)) =
      some ([(0x2004, 2), (0x2006, 1)], 2) := by decide +kernel

theorem test_metaRec : after (exec (.metaRec 0 1 31 [5]) encoding) State.bcMem = some [0x00, 0x01, 0x1F, 0x05] := by
  decide +kernel

theorem test_metaRec_parse :
    after (exec (.metaRec 0 1 31 [5]) decoding) (fun t => (t.selB, t.selC, t.selM, t.bcRd)) =
      some (0#6, 1#8, 31#6, 3) := by decide +kernel

theorem test_esBitmap :
    after (exec (.esBitmap 0x80#32) (storing 7 [0xDA#32] decoding)) (fun t => (t.es[7].val, t.ic)) = some ([], 1) := by
  decide +kernel

theorem test_esCount :
    after (exec (.esCount 7 130#32) decoding) (fun t => (t.es[7].cap, t.ic)) = some (256, 1) := by decide +kernel

theorem test_esPad : after (exec .esPad { decoding with ic := 3 }) State.ic = some 4 := by decide +kernel

theorem test_esG128 :
    after (exec (.esG128 0 [1, 0, 0, 0]) decoding) (fun t => (t.es[0].val.length, t.es[0].val.head?, t.ic)) =
      some (128, some 1#32, 4) := by decide +kernel

/-- X1's group: one residual, 31 fill values. -/
theorem test_esG32 : after (exec (.esG32 0 1 [1]) decoding) (fun t => (t.es[0].val, t.ic)) = some ([1#32], 1) := by
  decide +kernel

/-! ### The step and the host -/

/-- P5's shape in small: the host's five writes and a wait run ENC.P on no values. -/
theorem test_step_line :
    after (step { State.reset with host := commandLine 0x00000003#32 0x1000 0 0x2000 4 })
      (fun t => (t.srcBase, t.host.length)) = some (0x1000, 4) := by decide +kernel

theorem test_step_command :
    after (step { accept 0x00000003#32 small with host := [.wait] }) (fun t => (t.status.err, t.host)) =
      some (.illegalCommand, [.wait]) := by decide +kernel

/-- R24: `DELTA_EN` is latched from `CMD.V`. -/
theorem test_accept_variant :
    (accept 0x00000101#32 small).deltaEn = true ∧ (accept 0#32 { small with deltaEn := true }).deltaEn = false := by
  decide

/-- R26: reading `CMD` returns the last value written; R31: bit 0 of `STATUS` is `BUSY`. -/
theorem test_step_reads :
    after (step { accept 0x00000103#32 small with host := [.readReg .cmd] }) State.hostLog = some [0x103] ∧
    after (step { accept 0x00000103#32 small with host := [.readReg .status] }) State.hostLog = some [1] ∧
    after (step { small with host := [.readReg (.arg .dstBase)] }) State.hostLog = some [0x2000] := by decide +kernel

theorem test_step_busy :
    after (step { accept 0x00000000#32 small with host := [.writeArg .srcLen 5] }) (fun t => (t.srcLen, t.host)) =
      some (128#32, []) := by decide +kernel

theorem test_step_no_operation :
    refusal (step { small with issue := some (.internal, [0x48#8]) }) = some .noOperation := by decide +kernel

theorem test_withFetchWord :
    faulted (step (State.reset.withFetchWord 8 0x47)) = some (.malformed .containerEnd) ∧
    after (step (State.reset.withFetchWord 32 0x00000100)) (fun t => t.status.err) = some .illegalCommand := by
  decide +kernel

/-! ### Witnesses: states and operands that meet the hypotheses of the statements

Named after the statement; where it has several clauses, a witness for each, at a boundary where there is
one. A statement that is absent has no hypothesis. -/

theorem witness_DecodeInvertsEncode :
    (Instr.metaRec 31 2 32 [0, 127]).wf = true ∧ (Instr.esG32 31 32 (List.replicate 32 0xFFFFFFFF#32)).wf = true ∧
    (Instr.packed128 0 []).wf = true := by decide

theorem witness_DecodedIsWellFormed : decoded .internal [0x26#8, 31#8] = some (.esGet 31) := by decide

theorem witness_StepRunsIssuedOperation :
    (accept 0#32 small).issue = some (.command, leBytes 0#32) ∧ decoded .command (leBytes 0#32) = some .reset ∧
    (accept 0#32 small).host = [] ∧ (accept 0#32 { small with host := [.idle] }).host = [.idle] ∧
    (accept 0#32 { small with host := [.wait] }).host = [.wait] ∧ (accept 0#32 small).status.done = false := by
  decide +kernel

theorem witness_IdleInstanceRests :
    small.issue = none ∧ small.host = [] ∧ ({ small with host := [.wait] } : State).status.done = false := by
  decide +kernel

theorem witness_WrittenCommandRuns :
    small.status.busy = false ∧ ({ small with host := [.writeCmd 0x101#32, .wait] } : State).host =
      .writeCmd 0x101#32 :: .wait :: [] ∧ decoded .command (leBytes 0x101#32) = some .encD := by decide +kernel

/-- A machine that runs a command meets the invariant. -/
theorem busy_meets_invariant : Inv (accept 1#32 small) where
  mem_wf := by decide +kernel
  mem_below := by decide +kernel
  srcBase_lt := by decide +kernel
  dstBase_lt := by decide +kernel
  not_busy_done := by decide +kernel
  phase_busy := by decide +kernel
  busy_clear := by decide +kernel
  command_busy := fun _ _ => rfl
  failed_result := by decide +kernel
  required_zero := by decide +kernel
  container_fits := by decide +kernel
  capacities := by decide +kernel
  selB_le := by decide +kernel
  selM_le := by decide +kernel

theorem witness_BusyHostAccess : Inv (accept 1#32 small) ∧ (accept 1#32 small).status.busy = true :=
  ⟨busy_meets_invariant, rfl⟩

theorem witness_StepKeepsInvariant :
    Inv (accept 1#32 small) ∧
      after (step { accept 1#32 small with host := [.readReg .status] }) (fun t => t.hostLog) = some [1] :=
  ⟨busy_meets_invariant, by decide +kernel⟩

theorem witness_ArgumentRegisterWrites : small.status.busy = false ∧ 2 ^ 64 - 1 < 2 ^ small.cfg.addrW := by
  decide +kernel

/-- The last byte of memory, free, and the address after it; the last byte of `DST` and the first of `SRC`,
lent. -/
theorem witness_HostMemoryAccess :
    Memory.wf small.mem ∧ 2 ^ 64 - 1 < 2 ^ small.cfg.addrW ∧ 2 ^ small.cfg.addrW ≤ 2 ^ 64 ∧
    (¬InSrc (accept 1#32 small) (2 ^ 64 - 1) ∧ ¬InDst (accept 1#32 small) (2 ^ 64 - 1)) ∧
    ¬InDst (accept 1#32 small) 0x2100 ∧ InDst (accept 1#32 small) 0x20FF ∧ InSrc (accept 1#32 small) 0x1000 := by
  decide +kernel

theorem witness_WaitYieldsOutcome : (complete 7#32 { small with host := [.wait] }).status.done = true ∧
    (complete 7#32 { small with host := [.wait] }).host = [.wait] := by decide +kernel

/-- Cut short while ENC.P runs, and at rest. -/
theorem witness_HardwareReset :
    Memory.wf small.mem ∧ ¬Coded small ∧ Coded (accept 1#32 small) ∧ Lendable (accept 1#32 small) ∧
    (accept 1#32 { small with host := [.hardReset] }).host = [.hardReset] := by decide +kernel

theorem witness_AlignmentErrorTaken :
    Lendable { small with dstBase := 0x2008 } ∧ ¬Aligned { small with dstBase := 0x2008 } := by decide +kernel

theorem witness_InvalidInputLengthTaken :
    Lendable { small with srcLen := 127#32 } ∧ Aligned small ∧ ({ small with srcLen := 127#32 } : State).srcLen.toNat % 128 ≠ 0 := by
  decide +kernel

theorem witness_InsufficientStorageTaken :
    Lendable { zerosStream with dstCap := 127#32 } ∧ Aligned zerosStream ∧ zerosStream.srcLen ≠ 0#32 ∧
    Memory.readWord zerosStream.mem zerosStream.srcBase = 128#32 ∧ (127#32 : Word).toNat < (128#32 : Word).toNat := by
  decide +kernel

theorem witness_IllegalCommandTaken : 0x00000100#32 ∉ legalCommandWords ∧ 0x80000001#32 ∉ legalCommandWords := by decide

/-- One word too many at the top of memory; one byte in common. -/
theorem witness_LaunchRefused :
    Wraps { small with dstBase := 2 ^ 64 - 4, dstCap := 2#32 } ∧ ¬Wraps { small with dstBase := 2 ^ 64 - 4, dstCap := 1#32 } ∧
    ¬Wraps { small with dstBase := 0x11FF } ∧ Overlaps { small with dstBase := 0x11FF } ∧
    ¬Overlaps { small with dstBase := 0x1200 } := by decide +kernel

theorem witness_MalformedHeadFaults :
    Lendable { small with srcLen := 0#32 } ∧ Aligned small ∧
    Lendable { small with mem := [(0x1000, 0x3F)] } ∧ Memory.readWord [(0x1000, 0x3F)] 0x1000 = 63#32 ∧
    63 ≤ small.dstCap.toNat ∧ small.srcLen ≠ 0#32 := by decide +kernel

theorem witness_RecordsAndGroupsRefused :
    (Instr.esPad).wf = true ∧ (Instr.esPad).ctx = .stream .esPad ∧ codingOf small.cmd = .none ∧
    ([] : List Word).length ≠ 4 * (1 : Fin 33).val := by decide +kernel

theorem witness_ResetCommand : small.status.busy = false ∧
    ({ small with host := [.writeCmd 0#32, .idle] } : State).host = .writeCmd 0#32 :: .idle :: [] := by decide +kernel

/-- The stream of 128 zeros has 7 words: room for it exactly. -/
theorem witness_EncWritesStream :
    Memory.wf small.mem ∧ Lendable { small with dstCap := 7#32 } ∧ Aligned small ∧ small.srcLen.toNat % 128 = 0 ∧
    (streamOf small.cfg.pageSize true (inputValues small)).length ≤ (7#32 : Word).toNat := by decide +kernel

/-- Room for one word less; and the empty array with no room at all. -/
theorem witness_EncOverruns :
    Memory.wf small.mem ∧ Lendable { small with dstCap := 6#32 } ∧ Aligned small ∧
    (6#32 : Word).toNat < (streamOf small.cfg.pageSize true (inputValues small)).length ∧
    (0#32 : Word).toNat < (streamOf small.cfg.pageSize true []).length := by decide +kernel

theorem witness_DecRestoresValues :
    Memory.wf zerosStream.mem ∧ Lendable { zerosStream with srcLen := 7#32 } ∧ Aligned zerosStream ∧
    128 ≤ zerosStream.dstCap.toNat ∧
    srcView zerosStream 0 7 = streamOf zerosStream.cfg.pageSize true (List.replicate 128 0#32) := by decide +kernel

theorem witness_PlainDecodeYieldsDeltas :
    Memory.wf zerosStream.mem ∧ Lendable zerosStream ∧ Aligned zerosStream ∧ 128 ≤ zerosStream.dstCap.toNat ∧
    srcView zerosStream 0 7 = streamOf zerosStream.cfg.pageSize true (List.replicate 128 0#32) ∧
    srcView zerosStream 0 7 = streamOf zerosStream.cfg.pageSize false (List.replicate 128 0#32) := by decide +kernel

/-- The empty array, encoded and then decoded to 0x3000. -/
theorem witness_CommandRoundTrip :
    after (exec .encD { small with srcLen := 0#32 }) (fun t =>
      (t.status.err, decide (Lendable { t with srcBase := t.dstBase, srcLen := t.result, dstBase := 0x3000, dstCap := 0#32 }))) =
    some (.ok, true) := by decide +kernel

theorem witness_SufficientCapacity :
    worstCase small.cfg (small.srcLen.toNat / 128) = 793 ∧ Lendable { small with dstCap := 793#32 } := by decide +kernel

theorem witness_HistoryIndependence :
    Memory.wf small.mem ∧ Memory.wf ([(0x9000, 1)] : List Host.Cell) ∧ small.required = 0#32 ∧
    after (exec .decP { small with srcLen := 1#32 }) (fun t => t.status.err) = some .ok ∧
    after (exec .decP { storing 3 [9#32] small with srcLen := 1#32, mem := [(0x9000, 1)] }) (fun t => t.status.err) =
      some .ok := by decide +kernel

theorem witness_CommandsWriteOnlyDst :
    (Instr.encP).ctx = .command ∧ after (exec .encP { small with srcLen := 0#32 }) (fun t => t.result) = some 1#32 := by
  decide +kernel

theorem witness_VectorResults :
    (List.replicate 128 1#32).length = 128 ∧ ([] : List Word).length = 4 * (0 : Fin 33).val ∧
    (List.replicate 128 1#32).length = 4 * (32 : Fin 33).val := by decide +kernel

theorem witness_ScalarResults :
    (List.replicate 32 1#32).length = 32 ∧ (List.replicate 32 1#32).length = (32 : Fin 33).val ∧
    ([] : List Word).length = (0 : Fin 33).val := by decide

/-- A value with bits above `b`, and one without, agree in the low bits. -/
theorem witness_EngineLaws : 32 ≤ 32 ∧
    ([5#32].map fun x => x.toNat % 2 ^ 2) = ([1#32].map fun x => x.toNat % 2 ^ 2) := by decide

/-- The last free byte of the container; the last byte in it, and its end. -/
theorem witness_ContainerPutGet :
    small.bcMem.length < bcCap small.cfg ∧ bcCap small.cfg = 67072 ∧
    ({ small with bcMem := [9] } : State).bcRd < ({ small with bcMem := [9] } : State).bcMem.length ∧
    ({ small with bcMem := [9], bcRd := 1 } : State).bcMem.length ≤ 1 := by decide +kernel

theorem witness_ContainerWritten :
    2 = ceilDiv ({ small with bcMem := [1, 2, 3, 4, 5] } : State).bcMem.length 4 ∧ Memory.wf small.mem ∧
    Room { small with dstCap := 3#32 } (1 + 2) ∧ Room { small with dstCap := 1#32 } (1 + 0) := by decide +kernel

/-- A size at the capacity, and one above it. -/
theorem witness_ContainerRead :
    Readable { small with srcLen := 0x5000#32, dstBase := 0x100000 } 0 1 ∧
    Memory.readWord [(0x1001, 0x06), (0x1002, 0x01)] 0x1000 = 67072#32 ∧
    Readable { small with srcLen := 0x5000#32 } 0 (1 + ceilDiv 67072 4) ∧
    ({ small with srcLen := 0x4180#32 } : State).srcLen.toNat < 0 + (1 + ceilDiv 67072 4) ∧
    Memory.readWord [(0x1000, 0x01), (0x1001, 0x06), (0x1002, 0x01)] 0x1000 = 67073#32 := by decide +kernel

/-- As many more as fit, and one more. -/
theorem witness_StoreClearedAndGrown :
    small.es[3].val.length + (128#32 : Word).toNat ≤ small.es[3].cap ∧
    small.es[3].cap < small.es[3].val.length + (129#32 : Word).toNat := by decide +kernel

theorem witness_StoreAppendsAndReads :
    (storing 31 [9#32] small).es[31].rd < (storing 31 [9#32] small).es[31].val.length ∧
    small.es[31].val.length ≤ small.es[31].rd := by decide +kernel

/-- The store of X2, 10 words, and the empty store, one word. -/
theorem witness_StoreWritten :
    Memory.wf small.mem ∧ (wordsOf (esRecords 0 (storing 7 [0xDA#32] small).es)).length = 10 ∧
    Room { storing 7 [0xDA#32] small with dstCap := 10#32 } 10 ∧ Room { small with dstCap := 1#32 } 1 ∧
    wordsOf (esRecords 0 small.es) = [0#32] := by decide +kernel

/-- X1, read at word index 2; its last word cut; a padding word and one that is none; and X1's store under a
bitmap that names bucket 1 too, with a count of 0, or one above the bound. -/
theorem witness_StoreRoundTrip :
    (∀ k : Fin 32, (storing 0 [1#32] small).es[k.val].val.length ≤ bucketBound small.cfg ∧
      (storing 0 [1#32] small).es[k.val].val.all (fun x => x.toNat < 2 ^ (k.val + 1)) = true) ∧
    Readable { small with srcLen := 5#32 } 2 3 ∧
    srcView { small with mem := [(0x1008, 1), (0x100C, 1), (0x1010, 1)] } 2 3 =
      wordsOf (esRecords 6 (storing 0 [1#32] small).es) ∧
    (4#32 : Word).toNat < (2#32 : Word).toNat + 3 ∧
    bucketStart 1 (countsOf (storing 3 x5Values small).es) 3 = 2 ∧
    bucketPad 2 (countsOf (storing 3 x5Values small).es 3) = 1 ∧
    (∀ j : Fin 32, j < 1 → ((3#32 : Word).getLsbD j.val = true ↔ (storing 0 [1#32] small).es[j.val].val ≠ [])) ∧
    (∀ j : Fin 32, 1 ≤ j → (storing 0 [1#32] small).es[j.val].val = []) ∧
    srcView { small with mem := [(0x1008, 3), (0x100C, 1), (0x1010, 1)] } 2 4 =
      3#32 :: ((wordsOf (esRecords 2 (storing 0 [1#32] small).es)).drop 1 ++ [0#32]) ∧
    bucketBound small.cfg < (52225#32 : Word).toNat := by decide +kernel

theorem witness_BlockDelta : ({ small with deltaEn := true } : State).deltaEn = true ∧ small.deltaEn = false := by
  decide

theorem witness_BlockPrefix :
    ({ small with deltaEn := true } : State).deltaEn = true ∧ small.deltaEn = false ∧
    after (exec .blkDelta { small with deltaEn := true, blk := blockBut 1 0 5 }) (fun t => (t.blk[0], t.blk[1])) =
      some (5#32, 0xFFFFFFFC#32) := by decide +kernel

/-- The histogram T8, with its count of values above each width. -/
theorem witness_WidthSelection :
    (∑ w : Fin 33, ((counters [(0, 26), (32, 102)])[w.val]).toNat = 128) ∧
    ∃ cx : Nat → Nat, ∀ b, cx b = ∑ w : Fin 33, if b < w.val then ((counters [(0, 26), (32, 102)])[w.val]).toNat else 0 :=
  ⟨by decide +kernel, _, fun _ => rfl⟩

theorem witness_SelectionGuarantees : ∑ w : Fin 33, ((counters [(0, 25), (32, 103)])[w.val]).toNat = 128 := by
  decide +kernel

theorem witness_EmptyHistogramSelects : ∀ w : Fin 33, small.freq[w.val] = 0#8 := by decide +kernel

/-- B1 in a container with exactly the room it needs, and a record without exceptions likewise. -/
theorem witness_BlockEmit :
    let full : State := { small with
      blk := blockBut 0 5 0x40000000#32, selC := 1, selM := 31, bcMem := List.replicate 67068 0#8 }
    ((List.finRange 128).filter fun i => 2 ^ full.selB.toNat ≤ (full.blk[i.val]).toNat) = [5] ∧
    full.selM.toNat = full.selB.toNat + (30 : Fin 32).val + 1 ∧
    full.bcMem.length + 3 + 1 ≤ bcCap full.cfg ∧ small.selC = 0#8 ∧ small.bcMem.length + 2 ≤ bcCap small.cfg := by
  decide +kernel

/-- A block that ends at the top of memory. -/
theorem witness_BlockLoadStore :
    srcAddr { small with srcBase := 2 ^ 64 - 512 } (0 + 128) ≤ 2 ^ small.cfg.addrW ∧ Memory.wf small.mem ∧
    dstAddr { small with dstBase := 2 ^ 64 - 512 } (0 + 128) ≤ 2 ^ small.cfg.addrW := by decide +kernel

/-- `b = 32` without exceptions; one exception with exactly its bytes left; one byte; `b = 33`; an exception
without its position; `maxb = b`. -/
theorem witness_BlockMeta :
    ([32, 0] : List Byte).drop 0 = 32 :: 0 :: [] ∧ (32 : Byte).toNat ≤ 32 ∧
    ([31, 1, 32, 5] : List Byte).drop 0 = 31 :: 1 :: 32 :: [5] ∧ (1 : Byte).toNat ≤ [(5 : Byte)].length ∧
    (31 : Byte).toNat < (32 : Byte).toNat ∧ ({ small with bcMem := [9] } : State).bcMem.length < 0 + 2 ∧
    32 < (33 : Byte).toNat ∧ 128 < (129 : Byte).toNat ∧ [(32 : Byte)].length < 1 + (1 : Byte).toNat ∧
    ¬((31 : Byte).toNat < (31 : Byte).toNat ∧ (31 : Byte).toNat ≤ 32) := by decide +kernel

/-- Two exceptions, at the first and the last position. -/
theorem witness_BlockPatch :
    let s : State := { storing 31 [7#32, 8#32, 9#32] small with selC := 2, selM := 32, bcMem := [0, 127, 4] }
    s.selC ≠ 0#8 ∧ s.selM.toNat = s.selB.toNat + (31 : Fin 32).val + 1 ∧ ([0, 127] : List (Fin 128)).length = s.selC.toNat ∧
    ([0, 127] : List (Fin 128)).Pairwise (· < ·) ∧
    s.bcMem.drop s.bcRd = ([0, 127] : List (Fin 128)).map (fun i => BitVec.ofNat 8 i.val) ++ [4] ∧
    s.es[31].val.drop s.es[31].rd = [7#32, 8#32] ++ [9#32] ∧ small.selC = 0#8 ∧
    ([0] : List (Fin 128)).length < s.selC.toNat ∧ (∃ i ∈ ([0] : List (Fin 128)), (0 : Byte).toNat ≤ i.val) ∧
    128 ≤ (128 : Byte).toNat ∧ (∀ i ∈ ([0] : List (Fin 128)), i.val < (127 : Byte).toNat) := by decide +kernel

/-- The block of R172's example, before and after. -/
theorem witness_BlockEncode :
    let raw := blockBut 0 5 0x40000000#32
    let s : State := { small with mem := [(0x1017, 0x40)] }
    Memory.wf s.mem ∧ srcAddr s (s.ic + 128) ≤ 2 ^ s.cfg.addrW ∧ raw.toList = srcView s s.ic 128 ∧
    blockMeta raw = [0x00, 0x01, 0x1F, 0x05] ∧ s.bcMem.length + 4 ≤ bcCap s.cfg ∧ blockPacked raw = [] ∧ Room s 0 := by
  decide +kernel

theorem witness_BlockDecode :
    let raw := blockBut 0 5 0x40000000#32
    let s : State := { storing 30 [0x40000000#32] small with bcMem := [0x00, 0x01, 0x1F, 0x05, 0xFF] }
    s.bcMem.drop s.bcRd = blockMeta raw ++ [0xFF] ∧
    (∀ k : Fin 32, blockResiduals k raw <+: s.es[k.val].val.drop s.es[k.val].rd) ∧ Readable s s.ic 0 ∧
    dstAddr s (s.oc + 128) ≤ 2 ^ s.cfg.addrW := by decide +kernel

/-- A width no encoder would choose, and an exception whose residual is 0. -/
theorem witness_BlockDecodeAnyRecord :
    let s : State := { storing 0 [0#32] small with bcMem := [31, 1, 32, 127] }
    (31 : Byte).toNat < (32 : Byte).toNat ∧ ([127] : List (Fin 128)).Pairwise (· < ·) ∧
    s.bcMem.drop s.bcRd = metaBytes 31 (BitVec.ofNat 8 1) 32 ([127].map fun i : Fin 128 => BitVec.ofNat 8 i.val) ++ [] ∧
    (∀ k : Fin 32, (32 : Byte).toNat = (31 : Byte).toNat + k.val + 1 →
      [0#32] <+: s.es[k.val].val.drop s.es[k.val].rd) ∧
    Readable s s.ic (4 * 31) ∧ dstAddr s (s.oc + 128) ≤ 2 ^ s.cfg.addrW ∧
    ({ small with bcMem := [32, 0] } : State).bcMem.drop 0 = metaBytes 32 (BitVec.ofNat 8 0) 32 [] ++ [] ∧
    Readable small 0 (4 * 32) ∧ ({ small with srcLen := 127#32 } : State).srcLen.toNat < 0 + 4 * 32 ∧
    0 < (32 : Byte).toNat := by
  decide +kernel

/-- A record with `b = 0` in a state whose input cursor is beyond `SRC_LEN`: no word is read, and it decodes. -/
theorem witness_BlockDecodeAnyRecord_no_words :
    let s : State := { small with bcMem := [0, 0], ic := 129 }
    s.bcMem.drop s.bcRd = metaBytes 0 (BitVec.ofNat 8 0) 0 [] ++ [] ∧ ¬(0 < (0 : Byte).toNat) ∧
    s.srcLen.toNat < s.ic + 4 * (0 : Byte).toNat ∧ dstAddr s (s.oc + 128) ≤ 2 ^ s.cfg.addrW ∧
    after (exec .blkDec s) (fun t => (t.mem, t.ic, t.oc)) = some ([], 129, 128) := by decide +kernel

/-- The page of 128 zeros at word index 1, 6 words. -/
theorem witness_PageEncode :
    let s : State := { small with oc := 1, dstCap := 7#32 }
    let raw := blocksOf (srcView s s.ic 128)
    128 ≤ s.cfg.pageSize ∧ srcAddr s (s.ic + 128) ≤ 2 ^ s.cfg.addrW ∧
    (pageStream s.oc (codedBlocks s.deltaEn s.dprev[3] raw)).length = 6 ∧ Room s 6 ∧
    srcAddr s (s.ic + 128) ≤ dstAddr s s.oc := by decide +kernel

theorem witness_ArrayEncode :
    Memory.wf small.mem ∧ Lendable { small with dstCap := 7#32 } ∧ small.dprev[3] = 0#32 ∧
    (streamOf small.cfg.pageSize small.deltaEn (inputValues small)).length = 7 := by decide +kernel

theorem witness_PageDecode :
    let raw : List (Vector Word 128) := [Vector.replicate 128 0#32]
    (128#32 : Word).toNat = 128 * raw.length ∧ Readable { zerosStream with srcLen := 7#32 } 1 6 ∧
    srcView zerosStream 1 6 = pageStream 1 (codedBlocks zerosStream.deltaEn zerosStream.dprev[3] raw) ∧
    dstAddr zerosStream (zerosStream.oc + 128) ≤ 2 ^ zerosStream.cfg.addrW ∧
    srcAddr zerosStream (1 + 6) ≤ dstAddr zerosStream zerosStream.oc ∧
    (128#32 : Word).toNat ≤ zerosStream.cfg.pageSize := by decide +kernel

/-- The faults: a header just beyond `SRC_LEN`; `W = 1 + p - 1`; and a page of 128 zeros whose `W` is one more
than its blocks account for. -/
theorem witness_PageDecode_faults :
    let s : State := { zerosStream with mem := [(0x1000, 0x80), (0x1004, 4), (0x1014, 2)] }
    let coded := codedBlocks s.deltaEn s.dprev[3] [Vector.replicate 128 0#32]
    s.srcLen.toNat ≤ (128#32 : Word).toNat ∧ (2#32 : Word).toNat < 1 + padTo4 (1 + 1) ∧
    Memory.readWord s.mem (srcAddr s 1) = 4#32 ∧ 1 + padTo4 (1 + 1) ≤ (4#32 : Word).toNat ∧
    coded.flatMap blockPacked = [] ∧ srcView s (1 + 4) 3 = wordsOf (pageBack (1 + 4) coded) ∧ Readable s 5 3 ∧
    1 + 1 + padTo4 (1 + 1) + 0 ≠ 1 + 4 := by decide +kernel

theorem witness_ArrayDecode :
    Memory.wf zerosStream.mem ∧ Lendable zerosStream ∧ zerosStream.dprev[3] = 0#32 ∧
    srcView zerosStream 0 7 = streamOf zerosStream.cfg.pageSize zerosStream.deltaEn (List.replicate 128 0#32) := by
  decide +kernel

theorem witness_RecordsProduced :
    codingOf encoding.cmd = .produce ∧ Memory.wf encoding.mem ∧ Room { encoding with oc := 63 } 1 ∧
    Room { encoding with dstCap := 128#32 } 128 ∧ MetaOk 31 2 32 [0, 127] ∧ MetaOk 32 0 32 [] ∧
    encoding.bcMem.length + 5 ≤ bcCap encoding.cfg := by decide +kernel

theorem witness_RecordsParsed :
    codingOf decoding.cmd = .parse ∧ (64#32 : Word).toNat ≤ decoding.dstCap.toNat ∧
    (0#32 : Word).toNat % 128 = 0 ∧ 1 + padTo4 (decoding.ic + 1) ≤ (4#32 : Word).toNat ∧
    (67072#32 : Word).toNat ≤ bcCap decoding.cfg ∧ MetaOk 31 2 32 [0, 127] ∧
    (52224#32 : Word).toNat ≤ bucketBound decoding.cfg := by decide +kernel

end Sys2Proof.Tests
end

/-! SUPPORT. What an operation writes: the relation `Quiet` of operations that leave memory and the output
cursor alone, the relation `Writes` that bounds the addresses an operation writes, and rules to carry
either through a sequence of operations. Both say too that the container, the buckets and the selector
stay in their ranges, so that the invariant and the frame of the commands come from one walk over the
operations. -/

namespace Sys2Proof.Machine

/-! ### Sequences of operations -/

/-- What is kept from `u` is kept from `s`, where the relation from `s` allows it. -/
theorem Res.keeps_mono {α : Type} {R R' : State → State → Prop} {s u : State} {r : Res α} (h : r.Keeps R u)
    (hr : ∀ t, R u t → R' s t) : r.Keeps R' s := by
  cases r with
  | ok a t => exact hr t h
  | raised e t => exact hr t h
  | stop f => trivial

theorem Res.keeps_and {α : Type} {R R' : State → State → Prop} {s : State} {r : Res α} (h : r.Keeps R s)
    (h' : r.Keeps R' s) : r.Keeps (fun s t => R s t ∧ R' s t) s := by
  cases r with
  | ok a t => exact ⟨h, h'⟩
  | raised e t => exact ⟨h, h'⟩
  | stop f => trivial

/-- A sequence whose parts keep different relations: `R` where the first part ends the sequence, and their
composition where the second does. The second part may use how the first one ended. -/
theorem Res.keeps_seq {α β : Type} {R₁ R₂ R : State → State → Prop} {s : State} {r : Res α}
    {k : α → State → Res β} (h : r.Keeps R₁ s) (hr : ∀ t, R₁ s t → R s t)
    (ht : ∀ t u, R₁ s t → R₂ t u → R s u) (hk : ∀ a t, r = .ok a t → R₁ s t → (k a t).Keeps R₂ t) :
    (r.bind k).Keeps R s := by
  cases r with
  | ok a t => exact Res.keeps_mono (hk a t rfl h) fun u g => ht t u h g
  | raised e t => exact hr t h
  | stop f => trivial

/-! ### Quiet operations -/

/-- The container, the capacities and the selector's widths are in their ranges (R23, R35, R36): the part of
`Inv` that speaks of the data path's registers. -/
structure InRange (s : State) : Prop where
  container : s.bcMem.length ≤ bcCap s.cfg
  capacities : ∀ k : Fin 32, s.es[k.val].cap % 128 = 0
  selB : s.selB.toNat ≤ 32
  selM : s.selM.toNat ≤ 32

/-- Memory, the output cursor, the header index, `REM` and `DST` are as they were, and the registers stay in
their ranges. -/
structure Quiet (s t : State) : Prop where
  dstBase : t.dstBase = s.dstBase
  dstCap : t.dstCap = s.dstCap
  cfg : t.cfg = s.cfg
  mem : t.mem = s.mem
  oc : t.oc = s.oc
  hdr : t.hdr = s.hdr
  rem : t.rem = s.rem
  inRange : InRange s → InRange t

theorem Quiet.refl (s : State) : Quiet s s := ⟨rfl, rfl, rfl, rfl, rfl, rfl, rfl, id⟩

theorem Quiet.trans {s t u : State} (h : Quiet s t) (g : Quiet t u) : Quiet s u where
  dstBase := g.dstBase.trans h.dstBase
  dstCap := g.dstCap.trans h.dstCap
  cfg := g.cfg.trans h.cfg
  mem := g.mem.trans h.mem
  oc := g.oc.trans h.oc
  hdr := g.hdr.trans h.hdr
  rem := g.rem.trans h.rem
  inRange := g.inRange ∘ h.inRange

/-- An update of none of the fields `InRange` speaks of keeps the ranges. -/
theorem InRange.of_same {s t : State} (cfg : t.cfg = s.cfg) (bcMem : t.bcMem = s.bcMem) (es : t.es = s.es)
    (selB : t.selB = s.selB) (selM : t.selM = s.selM) (h : InRange s) : InRange t where
  container := by rw [bcMem, cfg]; exact h.container
  capacities := by rw [es]; exact h.capacities
  selB := by rw [selB]; exact h.selB
  selM := by rw [selM]; exact h.selM

theorem Quiet.of_same {s t : State} (dstBase : t.dstBase = s.dstBase) (dstCap : t.dstCap = s.dstCap)
    (cfg : t.cfg = s.cfg) (mem : t.mem = s.mem) (oc : t.oc = s.oc) (hdr : t.hdr = s.hdr) (rem : t.rem = s.rem)
    (bcMem : t.bcMem = s.bcMem) (es : t.es = s.es) (selB : t.selB = s.selB) (selM : t.selM = s.selM) : Quiet s t :=
  ⟨dstBase, dstCap, cfg, mem, oc, hdr, rem, InRange.of_same cfg bcMem es selB selM⟩

theorem quiet_bind {α β : Type} {s : State} {r : Res α} {k : α → State → Res β} (h : r.Keeps Quiet s)
    (hk : ∀ a t, (k a t).Keeps Quiet t) : (r.bind k).Keeps Quiet s :=
  Res.keeps_bind (fun _ _ _ h g => h.trans g) h hk

theorem quiet_after {α : Type} {s u : State} {r : Res α} (h : Quiet s u) (hr : r.Keeps Quiet u) : r.Keeps Quiet s :=
  Res.keeps_mono hr fun _ g => h.trans g

/-! ### Quiet updates -/

theorem setBucket_quiet {k : Fin 32} {b : Bucket} {s : State} (h : s.es[k.val].cap % 128 = 0 → b.cap % 128 = 0) :
    Quiet s (setBucket k b s) := by
  constructor
  case inRange =>
    refine fun g => ⟨by simpa using g.container, fun j => ?_, by simpa using g.selB, by simpa using g.selM⟩
    rw [setBucket_bucket]
    split
    · exact h (g.capacities k)
    · exact g.capacities j
  all_goals simp

theorem esEnsure_quiet (k : Fin 32) (n : Nat) (s : State) : Quiet s (esEnsure k n s) :=
  setBucket_quiet (grownCap_blocks _ _)

theorem esAppendAll_quiet (k : Fin 32) (xs : List Word) (s : State) : Quiet s (esAppendAll k xs s) :=
  setBucket_quiet id

theorem openBucket_quiet (k : Fin 32) (s : State) : Quiet s (openBucket k s) := setBucket_quiet id

theorem esClear_quiet (s : State) : Quiet s (esClear s) := by
  constructor
  case inRange =>
    refine fun g => ⟨by simpa using g.container, fun j => ?_, by simpa using g.selB, by simpa using g.selM⟩
    simpa [esClear] using g.capacities j
  all_goals simp

theorem Bucket.empty_cap (p : Params) : (Bucket.empty p).cap % 128 = 0 := p.esDefaultCap_blocks

theorem instReset_quiet (s : State) : Quiet s (instReset s) := by
  constructor
  case inRange =>
    exact fun g => ⟨by simp, fun j => by simp [Bucket.empty_cap], by simpa using g.selB, by simpa using g.selM⟩
  all_goals simp

theorem esReset_quiet (s : State) : Quiet s (esReset s) := by
  constructor
  case inRange =>
    exact fun g => ⟨by simpa using g.container, fun j => by simp [Bucket.empty_cap], by simpa using g.selB,
      by simpa using g.selM⟩
  all_goals simp

/-- The container may be emptied. -/
theorem emptyContainer_quiet (s : State) : Quiet s { s with bcMem := [] } :=
  ⟨rfl, rfl, rfl, rfl, rfl, rfl, rfl, fun g => ⟨Nat.zero_le _, g.capacities, g.selB, g.selM⟩⟩

theorem takeBcBytes_quiet {bytes : List Byte} {s : State} (h : bytes.length ≤ bcCap s.cfg) :
    Quiet s (takeBcBytes bytes s) :=
  ⟨rfl, rfl, rfl, rfl, rfl, rfl, rfl, fun g => ⟨h, g.capacities, g.selB, g.selM⟩⟩

theorem setSel_quiet {b c m : Nat} {s : State} (hb : b ≤ 32) (hm : m ≤ 32) : Quiet s (setSel b c m s) := by
  constructor
  case inRange =>
    exact fun g => ⟨by simpa using g.container, by simpa using g.capacities,
      by simp; omega, by simp; omega⟩
  all_goals simp

/-- The width scan never leaves `0 .. m` (R163). -/
theorem scanWidths_b_le (f : Nat → Nat) (m n c : Nat) (best : Candidate) (hn : n ≤ m) (hb : best.b ≤ m) :
    (scanWidths f m n c best).b ≤ m := by
  induction n generalizing c best with
  | zero => exact hb
  | succ n ih =>
    refine ih _ _ (by omega) ?_
    split
    · show n ≤ m
      omega
    · exact hb

theorem chooseWidth_b_le (f : Nat → Nat) (m : Nat) : (chooseWidth f m).b ≤ m :=
  scanWidths_b_le f m m 0 _ (Nat.le_refl m) (Nat.le_refl m)

theorem selectAt_quiet {m : Nat} {s : State} (hm : m ≤ 32) : Quiet s (selectAt m s) :=
  setSel_quiet (Nat.le_trans (chooseWidth_b_le _ m) hm) hm

theorem blkSelect_quiet (s : State) : Quiet s (blkSelect s) := by
  unfold blkSelect
  split
  · exact selectAt_quiet (by omega)
  · exact (selectAt_quiet (s := s) (m := (Config.freeWidth s.freeCtr).val) (by omega)).trans
      (by apply Quiet.of_same <;> rfl)

theorem blkHist_quiet (s : State) : Quiet s (blkHist s) := by apply Quiet.of_same <;> simp
theorem takePacked_quiet (b : Nat) (ws : List Word) (s : State) : Quiet s (takePacked b ws s) := by
  apply Quiet.of_same <;> simp
theorem passWords_quiet (n : Nat) (s : State) : Quiet s (passWords n s) := by apply Quiet.of_same <;> simp
theorem deltaIfEnabled_quiet (s : State) : Quiet s (deltaIfEnabled s) := by apply Quiet.of_same <;> simp
theorem prefixIfEnabled_quiet (s : State) : Quiet s (prefixIfEnabled s) := by apply Quiet.of_same <;> simp

/-! ### Quiet operations of the container and the store -/

theorem bcPut_quiet (x : Byte) (s : State) : (bcPut x s).Keeps Quiet s := by
  unfold bcPut
  split
  · trivial
  · rename_i h
    refine ⟨rfl, rfl, rfl, rfl, rfl, rfl, rfl, fun g => ⟨?_, g.capacities, g.selB, g.selM⟩⟩
    simp only [List.length_append, List.length_singleton]
    omega

theorem bcPutAll_quiet (xs : List Byte) (s : State) : (bcPutAll xs s).Keeps Quiet s := by
  induction xs generalizing s with
  | nil => exact Quiet.refl s
  | cons x xs ih => exact quiet_bind (bcPut_quiet x s) fun _ t => ih t

theorem bcGet_quiet (s : State) : (bcGet s).Keeps Quiet s := by
  unfold bcGet
  split
  · trivial
  · show Quiet s _
    apply Quiet.of_same <;> rfl

/-- A `BC_SIZE` that was taken is within the capacity, and nothing has changed (R195). -/
theorem takeBcSize_cases {bs : Word} {s t : State} (h : takeBcSize bs s = .ok () t) :
    bs.toNat ≤ bcCap s.cfg ∧ t = s := by
  unfold takeBcSize at h
  split at h
  · cases h
  · simp only [Res.ok.injEq, true_and] at h
    exact ⟨by omega, h.symm⟩

theorem takeBcSize_quiet (bs : Word) (s : State) : (takeBcSize bs s).Keeps Quiet s := by
  unfold takeBcSize
  split
  · trivial
  · exact Quiet.refl s

theorem bcRead_quiet (q : Nat) (s : State) : (bcRead q s).Keeps Quiet s := by
  refine Res.keeps_need fun bs => Res.keeps_seq (takeBcSize_quiet bs s) (fun _ h => h) (fun _ _ h g => h.trans g)
    fun _ t ht _ => Res.keeps_need fun ws => takeBcBytes_quiet ?_
  obtain ⟨hb, rfl⟩ := takeBcSize_cases ht
  exact Nat.le_trans (List.length_take_le _ _) hb

theorem esGet_quiet (k : Fin 32) (s : State) : (esGet k s).Keeps Quiet s := by
  unfold esGet
  split
  · trivial
  · exact setBucket_quiet id

theorem takeEsCount_quiet (k : Fin 32) (c : Word) (s : State) : (takeEsCount k c s).Keeps Quiet s := by
  unfold takeEsCount
  split
  · trivial
  · exact (openBucket_quiet k s).trans (esEnsure_quiet k _ _)

theorem readG128s_quiet (k : Fin 32) (g q : Nat) (s : State) : (readG128s k g q s).Keeps Quiet s := by
  induction g generalizing q s with
  | zero => exact Quiet.refl s
  | succ g ih => exact Res.keeps_need fun ws => quiet_after (esAppendAll_quiet k _ s) (ih _ _)

theorem readG32s_quiet (k : Fin 32) (t r q : Nat) (s : State) : (readG32s k t r q s).Keeps Quiet s := by
  induction t generalizing r q s with
  | zero => exact Quiet.refl s
  | succ t ih => exact Res.keeps_need fun ws => quiet_after (esAppendAll_quiet k _ s) (ih _ _ _)

theorem esReadBucket_quiet (m : Word) (k : Fin 32) (q : Nat) (s : State) : (esReadBucket m k q s).Keeps Quiet s := by
  unfold esReadBucket
  split
  · exact Res.keeps_need fun c => quiet_bind (takeEsCount_quiet k c s) fun _ t =>
      quiet_bind (readG128s_quiet k _ _ t) fun _ u => readG32s_quiet k _ _ _ u
  · exact openBucket_quiet k s

theorem esReadBuckets_quiet (m : Word) (ks : List (Fin 32)) (q : Nat) (s : State) :
    (esReadBuckets m ks q s).Keeps Quiet s := by
  induction ks generalizing q s with
  | nil => exact Quiet.refl s
  | cons k ks ih => exact quiet_bind (esReadBucket_quiet m k q s) fun _ t => ih _ t

theorem esRead_quiet (p : Nat) (s : State) : (esRead p s).Keeps Quiet s :=
  Res.keeps_need fun m => quiet_bind (esReadBuckets_quiet m _ _ s) fun _ t => Quiet.refl t

/-! ### Quiet operations of the block codec -/

theorem putExceptions_quiet (k : Fin 32) (es : List (Nat × Word)) (s : State) :
    (putExceptions k es s).Keeps Quiet s := by
  induction es generalizing s with
  | nil => exact Quiet.refl s
  | cons e es ih => exact quiet_bind (bcPut_quiet _ s) fun _ t => quiet_after (esAppendAll_quiet k _ t) (ih _)

theorem emitExceptions_quiet (s : State) : (emitExceptions s).Keeps Quiet s := by
  refine quiet_bind (bcPut_quiet _ s) fun _ t => ?_
  split
  · trivial
  · exact quiet_after (esEnsure_quiet _ _ t) (putExceptions_quiet _ _ _)

theorem blkEmit_quiet (s : State) : (blkEmit s).Keeps Quiet s := by
  refine quiet_bind (bcPut_quiet _ s) fun _ t => quiet_bind (bcPut_quiet _ t) fun _ u => ?_
  split
  · exact Quiet.refl u
  · exact emitExceptions_quiet u

/-- A head that passed the check has its width in `0 .. 32` (R104 item 5). -/
theorem checkMetaHead_none {b c : Byte} (h : checkMetaHead b c = none) : b.toNat ≤ 32 ∧ c.toNat ≤ 128 := by
  unfold checkMetaHead at h
  split at h
  · cases h
  · omega

/-- A `maxb` that passed the check is above the width and in `1 .. 32` (R104 item 6). -/
theorem checkMetaMaxb_none {b m : Byte} (h : checkMetaMaxb b m = none) : b.toNat < m.toNat ∧ m.toNat ≤ 32 := by
  unfold checkMetaMaxb at h
  split at h
  · assumption
  · cases h

/-- What follows a check may use that it passed. -/
theorem Res.keeps_checked {R : State → State → Prop} {s : State} {c : Option Malformed} {r : Res Unit}
    (h : c = none → r.Keeps R s) : (Res.check c r).Keeps R s := by
  cases c with
  | none => exact h rfl
  | some => trivial

theorem blkMeta_quiet (s : State) : (blkMeta s).Keeps Quiet s := by
  unfold blkMeta
  split
  · trivial
  refine quiet_bind (bcGet_quiet s) fun b t => quiet_bind (bcGet_quiet t) fun c u => Res.keeps_checked fun hh => ?_
  have hb := (checkMetaHead_none hh).1
  split
  · exact setSel_quiet hb hb
  split
  · trivial
  · exact quiet_bind (bcGet_quiet u) fun m v =>
      Res.keeps_checked fun hm => setSel_quiet hb (checkMetaMaxb_none hm).2

theorem patchLoop_quiet (k : Fin 32) (n lo : Nat) (s : State) : (patchLoop k n lo s).Keeps Quiet s := by
  induction n generalizing lo s with
  | zero => exact Quiet.refl s
  | succ n ih =>
    refine quiet_bind (bcGet_quiet s) fun i t => ?_
    split
    · exact quiet_bind (esGet_quiet k t) fun x u => quiet_after (by apply Quiet.of_same <;> rfl) (ih _ _)
    · trivial

theorem blkPatch_quiet (s : State) : (blkPatch s).Keeps Quiet s := by
  unfold blkPatch
  split
  · exact Quiet.refl s
  split
  · trivial
  · exact patchLoop_quiet _ _ _ s

theorem blkLoad_quiet (s : State) : (blkLoad s).Keeps Quiet s := by
  unfold blkLoad
  split
  · trivial
  · show Quiet s _
    apply Quiet.of_same <;> rfl

end Sys2Proof.Machine

/-! SUPPORT. Where the operations that do write memory write it: ENC only through `Emit` and the patch of a
header it has emitted, DEC only through `BLK.STORE`, at most as many words as its array header announced. -/

namespace Sys2Proof.Machine

/-! ### The relation -/

/-- Only bytes whose address is in `A` are written, none at or beyond `2^ADDR_W`, in canonical form; `DST`
and the parameters are as they were, and the registers stay in their ranges. -/
structure Writes (A : Nat → Prop) (s t : State) : Prop where
  dstBase : t.dstBase = s.dstBase
  dstCap : t.dstCap = s.dstCap
  cfg : t.cfg = s.cfg
  inRange : InRange s → InRange t
  wf : Memory.wf s.mem → Memory.wf t.mem
  below : (∀ c ∈ s.mem, c.1 < 2 ^ s.cfg.addrW) → ∀ c ∈ t.mem, c.1 < 2 ^ t.cfg.addrW
  outside : Memory.wf s.mem → ∀ a, ¬A a → Memory.read t.mem a = Memory.read s.mem a

theorem Writes.mono {A B : Nat → Prop} {s t : State} (h : Writes A s t) (hAB : ∀ a, A a → B a) : Writes B s t :=
  { h with outside := fun w a ha => h.outside w a fun g => ha (hAB a g) }

theorem Writes.trans {A : Nat → Prop} {s t u : State} (h : Writes A s t) (g : Writes A t u) : Writes A s u where
  dstBase := g.dstBase.trans h.dstBase
  dstCap := g.dstCap.trans h.dstCap
  cfg := g.cfg.trans h.cfg
  inRange := g.inRange ∘ h.inRange
  wf := g.wf ∘ h.wf
  below := g.below ∘ h.below
  outside := fun w a ha => (g.outside (h.wf w) a ha).trans (h.outside w a ha)

/-- An update that leaves memory and `DST` alone writes nowhere. -/
theorem Writes.of_same {A : Nat → Prop} {s t : State} (dstBase : t.dstBase = s.dstBase)
    (dstCap : t.dstCap = s.dstCap) (cfg : t.cfg = s.cfg) (mem : t.mem = s.mem)
    (inRange : InRange s → InRange t) : Writes A s t where
  dstBase := dstBase
  dstCap := dstCap
  cfg := cfg
  inRange := inRange
  wf := by rw [mem]; exact id
  below := by rw [mem, cfg]; exact id
  outside := by simp [mem]

theorem Quiet.writes {A : Nat → Prop} {s t : State} (h : Quiet s t) : Writes A s t :=
  .of_same h.dstBase h.dstCap h.cfg h.mem h.inRange

/-- An update of cursors, which neither memory, `DST` nor the ranges depend on, writes nowhere. -/
theorem Writes.of_cursors {A : Nat → Prop} {s t : State} (dstBase : t.dstBase = s.dstBase)
    (dstCap : t.dstCap = s.dstCap) (cfg : t.cfg = s.cfg) (mem : t.mem = s.mem) (bcMem : t.bcMem = s.bcMem)
    (es : t.es = s.es) (selB : t.selB = s.selB) (selM : t.selM = s.selM) : Writes A s t :=
  .of_same dstBase dstCap cfg mem (InRange.of_same cfg bcMem es selB selM)

/-- Only bytes of `DST` are written. -/
abbrev Confined (s t : State) : Prop := Writes (InDst s) s t

theorem Confined.refl (s : State) : Confined s s := (Quiet.refl s).writes

theorem Confined.trans {s t u : State} (h : Confined s t) (g : Confined t u) : Confined s u :=
  Writes.trans h (g.mono fun a ha => by rwa [InDst, h.dstBase, h.dstCap] at ha)

theorem confined_bind {α β : Type} {s : State} {r : Res α} {k : α → State → Res β} (h : r.Keeps Confined s)
    (hk : ∀ a t, r = .ok a t → Confined s t → (k a t).Keeps Confined t) : (r.bind k).Keeps Confined s :=
  Res.keeps_seq h (fun _ h => h) (fun _ _ h g => h.trans g) hk

theorem confined_after {α : Type} {s u : State} {r : Res α} (h : Confined s u) (hr : r.Keeps Confined u) :
    r.Keeps Confined s :=
  Res.keeps_mono hr fun _ g => h.trans g

/-! ### Output of ENC -/

/-- Only bytes of `DST` are written, and the place of the page header is as it was. -/
structure Emits (s t : State) : Prop where
  confined : Confined s t
  hdr : t.hdr = s.hdr

theorem Quiet.emits {s t : State} (h : Quiet s t) : Emits s t := ⟨h.writes, h.hdr⟩

theorem Emits.refl (s : State) : Emits s s := (Quiet.refl s).emits

theorem Emits.trans {s t u : State} (h : Emits s t) (g : Emits t u) : Emits s u :=
  ⟨h.confined.trans g.confined, g.hdr.trans h.hdr⟩

theorem emits_bind {α β : Type} {s : State} {r : Res α} {k : α → State → Res β} (h : r.Keeps Emits s)
    (hk : ∀ a t, (k a t).Keeps Emits t) : (r.bind k).Keeps Emits s :=
  Res.keeps_bind (fun _ _ _ h g => h.trans g) h hk

/-- A store of the word `j` of `DST` where it has one (R57, R59). -/
theorem putWord_emits {s : State} {j : Nat} (hj : j < s.dstCap.toNat) (v : Word) :
    (putWord (dstAddr s j) v s).Keeps Emits s := by
  unfold putWord
  split
  · trivial
  · rename_i hb
    refine ⟨⟨rfl, rfl, rfl, InRange.of_same rfl rfl rfl rfl rfl, fun w => Memory.writeWord_wf w _ _,
      fun w => Memory.writeWord_below w (by omega) _, fun w a ha => ?_⟩, rfl⟩
    rw [Memory.read_writeWord w, if_neg]
    simp only [InDst, dstAddr] at *
    omega

theorem emit_emits (v : Word) (s : State) : (emit v s).Keeps Emits s := by
  unfold emit
  split
  · exact Emits.refl s
  · exact emits_bind (putWord_emits (by omega) v) fun _ t =>
      ⟨by apply Writes.of_cursors <;> rfl, rfl⟩

theorem emitAll_emits (ws : List Word) (s : State) : (emitAll ws s).Keeps Emits s := by
  induction ws generalizing s with
  | nil => exact Emits.refl s
  | cons w ws ih => exact emits_bind (emit_emits w s) fun _ t => ih t

theorem emitRecords_emits (rs : List Instr) (s : State) : (emitRecords rs s).Keeps Emits s := emitAll_emits _ s

theorem bcWrite_emits (s : State) : (bcWrite s).Keeps Emits s := emitRecords_emits _ s

theorem esWrite_emits (s : State) : (esWrite s).Keeps Emits s :=
  emits_bind (emitRecords_emits _ s) fun _ t => Emits.refl t

theorem blkEnc_emits (s : State) : (blkEnc s).Keeps Emits s := by
  refine emits_bind (Res.keeps_mono (blkLoad_quiet s) fun _ h => h.emits) fun _ t => ?_
  have hq : Quiet t (blkSelect (blkHist (deltaIfEnabled t))) :=
    (deltaIfEnabled_quiet t).trans ((blkHist_quiet _).trans (blkSelect_quiet _))
  exact emits_bind (Res.keeps_mono (quiet_after hq (blkEmit_quiet _)) fun _ h => h.emits) fun _ u =>
    emitAll_emits _ u

/-- `Emits`, given that the page header is a word of `DST`: what the patch of the header (R57, R191) needs. -/
def EmitsPage (s t : State) : Prop := s.hdr < s.dstCap.toNat → Emits s t

theorem Emits.emitsPage {s t : State} (h : Emits s t) : EmitsPage s t := fun _ => h

theorem emitsPage_bind {α β : Type} {s : State} {r : Res α} {k : α → State → Res β} (h : r.Keeps EmitsPage s)
    (hk : ∀ a t, (k a t).Keeps EmitsPage t) : (r.bind k).Keeps EmitsPage s := by
  refine Res.keeps_bind (fun a b c hab hbc hin => ?_) h hk
  have hab := hab hin
  exact hab.trans (hbc (by rw [hab.hdr, hab.confined.dstCap]; exact hin))

theorem patchHeader_emitsPage (s : State) : (patchHeader s).Keeps EmitsPage s := by
  by_cases h : s.hdr < s.dstCap.toNat
  · exact Res.keeps_mono (putWord_emits h _) fun _ h => h.emitsPage
  · unfold patchHeader putWord
    split
    · trivial
    · exact fun hin => absurd hin h

/-- What `PAGE.ENC` does after its header word (R191). -/
theorem pageTail_emitsPage (n : Nat) (s : State) :
    ((emitRecords (List.replicate (padTo4 s.oc) .pagePad) { esClear s with bcMem := [] }).bind fun _ s =>
      (Res.times blkEnc (n / 128) s).bind fun _ s =>
        (patchHeader s).bind fun _ s =>
          (bcWrite s).bind fun _ s => (esWrite s).bind fun _ s => Res.ok () s).Keeps EmitsPage s := by
  have hq : Quiet s { esClear s with bcMem := [] } := (esClear_quiet s).trans (emptyContainer_quiet _)
  have head := Res.keeps_mono (emitRecords_emits (List.replicate (padTo4 s.oc) .pagePad) { esClear s with bcMem := [] })
    fun _ g => (hq.emits.trans g).emitsPage
  have blocks (t : State) := Res.keeps_times Emits.refl (fun _ _ _ h g => h.trans g) blkEnc_emits (n / 128) t
  have back (t : State) : ((bcWrite t).bind fun _ s => (esWrite s).bind fun _ s => Res.ok () s).Keeps Emits t :=
    emits_bind (bcWrite_emits t) fun _ u => emits_bind (esWrite_emits u) fun _ v => Emits.refl v
  exact emitsPage_bind head fun _ t =>
    emitsPage_bind (Res.keeps_mono (blocks t) fun _ h => h.emitsPage) fun _ u =>
      emitsPage_bind (patchHeader_emitsPage u) fun _ v => Res.keeps_mono (back v) fun _ h => h.emitsPage

theorem pageEnc_confined (n : Nat) (s : State) : (pageEnc n s).Keeps Confined s := by
  refine confined_after (u := { s with hdr := s.oc }) (by apply Writes.of_cursors <;> rfl) ?_
  refine Res.keeps_seq (emitRecords_emits [.pageHdr 0#32] _) (fun _ h => h.confined)
    (fun _ _ h g => h.confined.trans g) fun _ t ht h => ?_
  have room : s.oc + 1 ≤ s.dstCap.toNat := ((emitAll_cases ht).2 (by simp [recWords])).1
  have hin : t.hdr < t.dstCap.toNat := by rw [h.hdr, h.confined.dstCap]; exact room
  exact Res.keeps_mono (pageTail_emitsPage n t) fun _ g => (g hin).confined

theorem pagesEnc_confined (k : Nat) (s : State) : (pagesEnc k s).Keeps Confined s := by
  induction k generalizing s with
  | zero => exact Confined.refl s
  | succ k ih =>
    unfold pagesEnc
    split
    · exact Confined.refl s
    · exact confined_bind (pageEnc_confined _ s) fun _ t _ _ =>
        confined_after (by apply Writes.of_cursors <;> rfl) (ih _)

theorem arrEnc_confined (s : State) : (arrEnc s).Keeps Confined s := by
  refine confined_after (u := { s with ic := 0, oc := 0, rem := s.srcLen })
    (by apply Writes.of_cursors <;> rfl) ?_
  exact confined_bind (Res.keeps_mono (emitRecords_emits _ _) fun _ h => h.confined) fun _ t _ _ =>
    confined_bind (pagesEnc_confined _ t) fun _ u _ _ => Confined.refl u

/-! ### Output of DEC -/

/-- Only the `n` words of `DST` from the output cursor on are written, the cursor moves by at most `n`, and
`REM` is as it was. -/
structure Stores (n : Nat) (s t : State) : Prop where
  writes : Writes (fun a => dstAddr s s.oc ≤ a ∧ a < dstAddr s (s.oc + n)) s t
  oc_ge : s.oc ≤ t.oc
  oc_le : t.oc ≤ s.oc + n
  rem : t.rem = s.rem

theorem Quiet.stores {s t : State} (n : Nat) (h : Quiet s t) : Stores n s t :=
  ⟨h.writes, h.oc.ge, by rw [h.oc]; omega, h.rem⟩

theorem Stores.mono {m n : Nat} {s t : State} (h : Stores m s t) (hmn : m ≤ n) : Stores n s t :=
  ⟨h.writes.mono fun a ha => by unfold dstAddr at *; omega, h.oc_ge, by have := h.oc_le; omega, h.rem⟩

theorem Stores.trans {m n : Nat} {s t u : State} (h : Stores m s t) (g : Stores n t u) : Stores (m + n) s u where
  writes := by
    have hle := h.oc_le
    have hge := h.oc_ge
    refine (h.writes.mono fun a ha => ?_).trans (g.writes.mono fun a ha => ?_)
    · unfold dstAddr at *
      omega
    · simp only [dstAddr, h.writes.dstBase] at *
      omega
  oc_ge := h.oc_ge.trans g.oc_ge
  oc_le := by have := h.oc_le; have := g.oc_le; omega
  rem := g.rem.trans h.rem

/-- Words that fit `DST_CAP` are stored in `DST`. -/
theorem Stores.confined {n : Nat} {s t : State} (h : Stores n s t) (hn : s.oc + n ≤ s.dstCap.toNat) :
    Confined s t :=
  h.writes.mono fun a ha => by unfold dstAddr at ha; exact ⟨by omega, by omega⟩

theorem stores_bind {m n : Nat} {α β : Type} {s : State} {r : Res α} {k : α → State → Res β}
    (h : r.Keeps (Stores m) s) (hk : ∀ a t, (k a t).Keeps (Stores n) t) : (r.bind k).Keeps (Stores (m + n)) s :=
  Res.keeps_seq h (fun _ h => h.mono (by omega)) (fun _ _ h g => h.trans g) fun a t _ _ => hk a t

/-- A quiet operation before stores. -/
theorem quiet_stores_bind {n : Nat} {α β : Type} {s : State} {r : Res α} {k : α → State → Res β}
    (h : r.Keeps Quiet s) (hk : ∀ a t, (k a t).Keeps (Stores n) t) : (r.bind k).Keeps (Stores n) s :=
  Nat.zero_add n ▸ stores_bind (Res.keeps_mono h fun _ g => g.stores 0) hk

theorem quiet_stores_after {n : Nat} {α : Type} {s u : State} {r : Res α} (h : Quiet s u)
    (hr : r.Keeps (Stores n) u) : r.Keeps (Stores n) s :=
  Res.keeps_mono hr fun _ g => Nat.zero_add n ▸ (h.stores 0).trans g

theorem blkStore_stores (s : State) : (blkStore s).Keeps (Stores 128) s := by
  unfold blkStore
  split
  · trivial
  · rename_i hb
    have hl : s.blk.toList.length = 128 := s.blk.length_toList
    refine ⟨⟨rfl, rfl, rfl, InRange.of_same rfl rfl rfl rfl rfl, fun w => Memory.writeWords_wf w _ _,
      fun w => Memory.writeWords_below w ?_, fun w a ha => Memory.read_writeWords_of_outside w ?_⟩,
      Nat.le_add_right _ _, Nat.le_refl _, rfl⟩
    · show _ ≤ 2 ^ s.cfg.addrW
      unfold dstAddr at *
      omega
    · unfold dstAddr at *
      omega

theorem blkDec_stores (s : State) : (blkDec s).Keeps (Stores 128) s :=
  quiet_stores_bind (blkMeta_quiet s) fun _ t => Res.keeps_need fun ws =>
    quiet_stores_bind (quiet_after (takePacked_quiet _ ws t) (blkPatch_quiet _)) fun _ u =>
      quiet_stores_after (prefixIfEnabled_quiet u) (blkStore_stores _)

theorem blocksDec_stores (n : Nat) (s : State) : (Res.times blkDec n s).Keeps (Stores (128 * n)) s := by
  induction n generalizing s with
  | zero => exact (Quiet.refl s).stores _
  | succ n ih =>
    rw [show 128 * (n + 1) = 128 + 128 * n by omega]
    exact stores_bind (blkDec_stores s) fun _ t => ih t

theorem takePageHdr_stores (h : Nat) (w : Word) (s : State) : (takePageHdr h w s).Keeps (Stores 0) s := by
  unfold takePageHdr
  split
  · trivial
  · exact ⟨by apply Writes.of_cursors <;> rfl, Nat.le_refl _, Nat.le_refl _, rfl⟩

/-- A page of `n` values stores at most `n` words (R194). -/
theorem pageDec_stores (n h : Nat) (s : State) : (pageDec n h s).Keeps (Stores n) s := by
  have blocks (t : State) : ((Res.times blkDec (n / 128) { t with ic := h + 1 + padTo4 (h + 1) }).Keeps
      (Stores (128 * (n / 128))) t) :=
    quiet_stores_after (by apply Quiet.of_same <;> rfl) (blocksDec_stores _ _)
  refine Res.keeps_need fun w => Res.keeps_mono (stores_bind (takePageHdr_stores h w s) fun _ t =>
    quiet_stores_bind (bcRead_quiet _ t) fun cb u => quiet_stores_bind (esRead_quiet _ u) fun ce v =>
      stores_bind (n := 0) (blocks v) fun _ x => ?_) fun _ g => g.mono (by omega)
  split
  · trivial
  · exact (Quiet.refl x).stores 0

/-- The page loop of a DEC whose remaining values fit `DST_CAP` stores only in `DST` (R59, R193). -/
theorem pagesDec_confined (k h : Nat) (s : State) (fits : s.oc + s.rem.toNat ≤ s.dstCap.toNat) :
    (pagesDec k h s).Keeps Confined s := by
  induction k generalizing h s with
  | zero => exact Confined.refl s
  | succ k ih =>
    unfold pagesDec
    split
    · exact Confined.refl s
    have hn : min s.cfg.pageSize s.rem.toNat ≤ s.rem.toNat := Nat.min_le_right _ _
    refine Res.keeps_seq (pageDec_stores _ h s) (fun _ g => g.confined (by omega))
      (fun _ _ g g' => (g.confined (by omega)).trans g') fun m t _ g => ?_
    refine confined_after (by apply Writes.of_cursors <;> rfl) (ih _ _ ?_)
    have hlt := s.rem.isLt
    have hoc := g.oc_le
    simp only [g.rem, g.writes.dstCap, g.writes.cfg, BitVec.toNat_sub, BitVec.toNat_ofNat]
    omega

/-- All the capacity and length checks of DEC can let pass (R193, R104 item 2). -/
theorem takeArrayHdr_cases {l : Word} {s t : State} (h : takeArrayHdr l s = .ok () t) :
    l.toNat ≤ s.dstCap.toNat ∧ l.toNat % 128 = 0 ∧ t = { s with rem := l } := by
  unfold takeArrayHdr at h
  split_ifs at h
  simp only [Res.ok.injEq, true_and] at h
  exact ⟨by omega, by omega, h.symm⟩

theorem takeArrayHdr_confined (l : Word) (s : State) : (takeArrayHdr l s).Keeps Confined s := by
  unfold takeArrayHdr
  split
  · exact Confined.refl s
  split
  · trivial
  · show Confined s _
    apply Writes.of_cursors <;> rfl

theorem arrDec_confined (s : State) : (arrDec s).Keeps Confined s := by
  refine Res.keeps_need fun l => confined_after (u := { s with oc := 0 }) (by apply Writes.of_cursors <;> rfl) ?_
  refine confined_bind (takeArrayHdr_confined l _) fun _ t ht _ => ?_
  obtain ⟨hl, -, rfl⟩ := takeArrayHdr_cases ht
  exact confined_bind (pagesDec_confined _ _ _ (by simpa using hl)) fun _ u _ _ => Confined.refl u

theorem arrDecValues_confined (s : State) : (arrDecValues s).Keeps Confined s :=
  confined_bind (arrDec_confined s) fun _ t _ _ => Confined.refl t

end Sys2Proof.Machine

/-! SUPPORT. The invariant along a step: what an operation that keeps the host's registers and stays in its
ranges leaves of it, what an error and completion leave of it, and the frame of the commands. -/

namespace Sys2Proof.Machine

/-! ### Errors -/

theorem forgetDst_confined (s : State) : Confined s (forgetDst s) where
  dstBase := rfl
  dstCap := rfl
  cfg := rfl
  inRange := InRange.of_same rfl rfl rfl rfl rfl
  wf := fun w => Memory.fillFree_wf w _ _ _
  below := fun w => by
    by_cases hle : s.dstBase ≤ 2 ^ s.cfg.addrW
    · exact Memory.fillFree_below w (show s.dstBase + (_ - s.dstBase) ≤ 2 ^ s.cfg.addrW by omega)
    · have none : min (s.dstBase + 4 * s.dstCap.toNat) (2 ^ s.cfg.addrW) - s.dstBase = 0 := by omega
      simpa only [forgetDst, none, Memory.fillFree] using w
  outside := fun w a ha => by
    simp only [forgetDst, Memory.read_fillFree w]
    rw [if_neg (by simp only [InDst] at ha; omega)]

/-- An error writes no byte outside `DST` (R236, R238). -/
theorem raise_confined (e : Error) (s : State) : Confined s (raise e s) := by
  have flags (t : State) (q r : Word) (f : Status) (p : Phase) :
      Confined t { t with result := r, required := q, status := f, phase := p } := by
    apply Writes.of_cursors <;> rfl
  have reset : Confined s (instReset s) := (instReset_quiet s).writes
  cases e with
  | illegalCommand => exact flags s _ _ _ _
  | bufferOverrun => exact (reset.trans (forgetDst_confined _)).trans (flags _ _ _ _ _)
  | alignment => exact reset.trans (flags _ _ _ _ _)
  | invalidLength => exact reset.trans (flags _ _ _ _ _)
  | insufficientStorage l => exact reset.trans (flags _ _ _ _ _)

/-! ### The invariant after a part of a step -/

theorem Inv.inRange {s : State} (h : Inv s) : InRange s := ⟨h.container_fits, h.capacities, h.selB_le, h.selM_le⟩

/-- The invariant's part about memory and the data path's registers, over an operation that keeps it. -/
theorem Inv.of_kept {A : Nat → Prop} {s t : State} (h : Inv s) (k : HostKept s t) (w : Writes A s t) : Inv t where
  mem_wf := w.wf h.mem_wf
  mem_below := w.below h.mem_below
  srcBase_lt := by rw [k.srcBase, k.cfg]; exact h.srcBase_lt
  dstBase_lt := by rw [k.dstBase, k.cfg]; exact h.dstBase_lt
  not_busy_done := by rw [k.status]; exact h.not_busy_done
  phase_busy := by rw [k.phase, k.status]; exact h.phase_busy
  busy_clear := by rw [k.status, k.result, k.required]; exact h.busy_clear
  command_busy := by rw [k.issue, k.status]; exact h.command_busy
  failed_result := by rw [k.status, k.result]; exact h.failed_result
  required_zero := by rw [k.status, k.required]; exact h.required_zero
  container_fits := (w.inRange h.inRange).container
  capacities := (w.inRange h.inRange).capacities
  selB_le := (w.inRange h.inRange).selB
  selM_le := (w.inRange h.inRange).selM

/-- The invariant where a command has ended with the result code `c` (R31 to R33, R210, R236). -/
theorem Inv.of_ended {A : Nat → Prop} {s t : State} {c : ErrCode} (h : Inv s) (w : Writes A s t)
    (srcBase : t.srcBase = s.srcBase) (status : t.status = Status.ended c) (phase : t.phase = .idle)
    (issue : t.issue = none) (result : c ≠ .ok → t.result = 0#32)
    (required : c ≠ .insufficientStorage → t.required = 0#32) : Inv t where
  mem_wf := w.wf h.mem_wf
  mem_below := w.below h.mem_below
  srcBase_lt := by rw [srcBase, w.cfg]; exact h.srcBase_lt
  dstBase_lt := by rw [w.dstBase, w.cfg]; exact h.dstBase_lt
  not_busy_done := by simp [status, Status.ended]
  phase_busy := by simp [status, phase, Status.ended]
  busy_clear := by simp [status, Status.ended]
  command_busy := by simp [issue]
  failed_result := by rw [status]; exact result
  required_zero := by rw [status]; exact required
  container_fits := (w.inRange h.inRange).container
  capacities := (w.inRange h.inRange).capacities
  selB_le := (w.inRange h.inRange).selB
  selM_le := (w.inRange h.inRange).selM

theorem Inv.raise {s : State} (h : Inv s) (hi : s.issue = none) (e : Error) : Inv (raise e s) := by
  refine h.of_ended (raise_confined e s) (by simp) rfl rfl (by simpa using hi) (fun _ => rfl) fun hc => ?_
  cases e with
  | insufficientStorage l => exact absurd rfl hc
  | alignment => rfl
  | invalidLength => rfl
  | bufferOverrun => rfl
  | illegalCommand => rfl

theorem complete_confined (r : Word) (s : State) : Confined s (complete r s) := by apply Writes.of_cursors <;> rfl

/-- Where the work of ENC and DEC begins (R213 to R216). -/
theorem started_confined (delta : Bool) (s : State) : Confined s { instReset s with deltaEn := delta } :=
  Confined.trans (instReset_quiet s).writes (by apply Writes.of_cursors <;> rfl)

theorem Inv.started {s : State} (h : Inv s) (delta : Bool) : Inv { instReset s with deltaEn := delta } :=
  { h.of_kept (instReset_kept s) (instReset_quiet s).writes (A := InDst s) with }

theorem Inv.complete {s : State} (h : Inv s) (hi : s.issue = none) (hq : s.required = 0#32) (r : Word) :
    Inv (complete r s) :=
  h.of_ended (complete_confined r s) rfl rfl rfl hi (fun hc => absurd rfl hc) fun _ => hq

/-! ### Operations of the data path -/

/-- What every internal operation and every record keeps: the host's registers, and the ranges. -/
def DataPath (s t : State) : Prop := HostKept s t ∧ Writes (fun _ => True) s t

theorem DataPath.refl (s : State) : DataPath s s := ⟨HostKept.refl s, (Quiet.refl s).writes⟩

theorem DataPath.trans {s t u : State} (h : DataPath s t) (g : DataPath t u) : DataPath s u :=
  ⟨h.1.trans g.1, h.2.trans g.2⟩

theorem dataPath_ok {α : Type} (a : α) (s : State) : (Res.ok a s).Keeps DataPath s := DataPath.refl s

theorem dataPath_bind {α β : Type} {s : State} {r : Res α} {k : α → State → Res β} (h : r.Keeps DataPath s)
    (hk : ∀ a t, (k a t).Keeps DataPath t) : (r.bind k).Keeps DataPath s :=
  Res.keeps_bind (fun _ _ _ h g => h.trans g) h hk

theorem dataPath_of_writes {α : Type} {s : State} {r : Res α} {A : State → Nat → Prop} (h : r.Keeps HostKept s)
    (w : r.Keeps (fun s t => Writes (A s) s t) s) : r.Keeps DataPath s :=
  Res.keeps_and h (Res.keeps_mono w fun _ g => g.mono fun _ _ => trivial)

theorem dataPath_of_quiet {α : Type} {s : State} {r : Res α} (h : r.Keeps HostKept s) (q : r.Keeps Quiet s) :
    r.Keeps DataPath s :=
  Res.keeps_and h (Res.keeps_mono q fun _ g => g.writes)

theorem dataPath_of_emits {α : Type} {s : State} {r : Res α} (h : r.Keeps HostKept s) (q : r.Keeps Emits s) :
    r.Keeps DataPath s :=
  dataPath_of_writes (A := InDst) h (Res.keeps_mono q fun _ g => g.confined)

theorem dataPath_of_stores {α : Type} {n : Nat} {s : State} {r : Res α} (h : r.Keeps HostKept s)
    (q : r.Keeps (Stores n) s) : r.Keeps DataPath s :=
  dataPath_of_writes (A := fun s a => dstAddr s s.oc ≤ a ∧ a < dstAddr s (s.oc + n)) h
    (Res.keeps_mono q fun _ g => g.writes)

theorem passWords_dataPath (n : Nat) (s : State) : DataPath s (passWords n s) :=
  ⟨passWords_kept n s, (passWords_quiet n s).writes⟩

theorem emitRecords_dataPath (rs : List Instr) (s : State) : (emitRecords rs s).Keeps DataPath s :=
  dataPath_of_emits (emitRecords_keeps rs s) (emitRecords_emits rs s)

theorem Inv.of_dataPath {s t : State} (h : Inv s) (hi : s.issue = none) (d : DataPath s t) :
    Inv t ∧ t.issue = none :=
  ⟨h.of_kept d.1 d.2, d.1.issue.trans hi⟩

/-- The outcome of an operation of the data path run alone: it ended with a value, or took an error. -/
theorem Inv.outcome {s t : State} {r : Res Unit} (h : Inv s) (hi : s.issue = none) (hr : r.Keeps DataPath s)
    (ho : r.outcome = .next t) : Inv t := by
  rcases Res.outcome_eq_next ho with rfl | ⟨e, u, rfl, rfl⟩
  · exact (h.of_dataPath hi hr).1
  · obtain ⟨hu, hui⟩ := h.of_dataPath hi hr
    exact hu.raise hui e

theorem Inv.returning {s t : State} {r : Res (List Word)} (h : Inv s) (hi : s.issue = none)
    (hr : r.Keeps DataPath s) (ho : r.returning = .next t) : Inv t := by
  rcases Res.outcome_eq_next ho with hok | ⟨e, u, herr, rfl⟩
  · obtain ⟨ws, u, rfl, hu⟩ := Res.bind_eq_ok hok
    simp only [Res.ok.injEq, true_and] at hu
    subst hu
    exact { (h.of_dataPath hi hr).1 with }
  · rcases Res.bind_eq_raised herr with hu | ⟨_, _, _, hu⟩
    · subst hu
      obtain ⟨hu, hui⟩ := h.of_dataPath hi hr
      exact hu.raise hui e
    · cases hu

theorem Inv.returningNat {s t : State} {r : Res Nat} (h : Inv s) (hi : s.issue = none) (hr : r.Keeps DataPath s)
    (ho : r.returningNat = .next t) : Inv t :=
  h.returning hi (dataPath_bind hr fun _ u => dataPath_ok _ u) ho

theorem Inv.engineOp {s t : State} {fits : Bool} {out : List Word} (h : Inv s) (hi : s.issue = none)
    (ho : engineOp fits out s = .next t) : Inv t := by
  unfold Machine.engineOp at ho
  split at ho
  · exact h.returning hi (dataPath_ok out s) ho
  · cases ho

theorem Inv.recordOp {p q : State → Res Unit} {s t : State} (h : Inv s) (hi : s.issue = none)
    (ho : recordOp p q s = .next t) (hp : (p s).Keeps DataPath s) (hq : (q s).Keeps DataPath s) : Inv t := by
  rcases recordOp_cases ho with ⟨_, ho⟩ | ⟨_, ho⟩
  · exact h.outcome hi hp ho
  · exact h.outcome hi hq ho

theorem Inv.groupOp {p q : State → Res Unit} {fits : Bool} {s t : State} (h : Inv s) (hi : s.issue = none)
    (ho : groupOp fits p q s = .next t) (hp : (p s).Keeps DataPath s) (hq : (q s).Keeps DataPath s) : Inv t := by
  unfold Machine.groupOp at ho
  split at ho
  · exact h.recordOp hi ho hp hq
  · cases ho

/-! ### The internal operations -/

/-- Every internal operation keeps the invariant. -/
theorem exec_internal_inv {i : Instr} {s t : State} (h : Inv s) (hi : s.issue = none) (hc : i.ctx = .internal)
    (ho : exec i s = .next t) : Inv t := by
  have next {u : State} (hk : HostKept s u) (hq : Quiet s u)
      (hu : (.next u : Host.Outcome State Fault Refusal) = .next t) : Inv t := by
    cases hu
    exact h.of_kept hk (hq.writes (A := InDst s))
  have quiet {r : Res Unit} (hk : r.Keeps HostKept s) (hq : r.Keeps Quiet s) (hr : r.outcome = .next t) : Inv t :=
    h.outcome hi (dataPath_of_quiet hk hq) hr
  cases i with
  | vpack128 b v => exact h.engineOp hi ho
  | vunpack128 b w => exact h.engineOp hi ho
  | spack32 b v => exact h.engineOp hi ho
  | sunpack32 b w => exact h.engineOp hi ho
  | esClear => exact next (esClear_kept s) (esClear_quiet s) ho
  | esReset => exact next (esReset_kept s) (esReset_quiet s) ho
  | esEnsure k n => exact next (esEnsure_kept k _ s) (esEnsure_quiet k _ s) ho
  | esAppend k x => exact next (esAppend_kept k x s) (esAppendAll_quiet k _ s) ho
  | esWrite => exact h.returningNat hi (dataPath_of_emits (esWrite_keeps s) (esWrite_emits s)) ho
  | esRead p => exact h.returningNat hi (dataPath_of_quiet (esRead_keeps _ s) (esRead_quiet _ s)) ho
  | esGet k =>
    exact h.returning hi (dataPath_bind (dataPath_of_quiet (esGet_keeps k s) (esGet_quiet k s)) fun _ u =>
      dataPath_ok _ u) ho
  | blkDelta => exact next (deltaIfEnabled_kept s) (deltaIfEnabled_quiet s) ho
  | blkHist => exact next (blkHist_kept s) (blkHist_quiet s) ho
  | blkSelect => exact next (blkSelect_kept s) (blkSelect_quiet s) ho
  | blkEmit => exact quiet (blkEmit_keeps s) (blkEmit_quiet s) ho
  | blkLoad => exact quiet (blkLoad_keeps s) (blkLoad_quiet s) ho
  | blkStore => exact h.outcome hi (dataPath_of_stores (blkStore_keeps s) (blkStore_stores s)) ho
  | blkEnc => exact h.outcome hi (dataPath_of_emits (blkEnc_keeps s) (blkEnc_emits s)) ho
  | blkMeta => exact quiet (blkMeta_keeps s) (blkMeta_quiet s) ho
  | blkPatch => exact quiet (blkPatch_keeps s) (blkPatch_quiet s) ho
  | blkPrefix => exact next (prefixIfEnabled_kept s) (prefixIfEnabled_quiet s) ho
  | blkDec => exact h.outcome hi (dataPath_of_stores (blkDec_keeps s) (blkDec_stores s)) ho
  | arrEnc => exact h.returningNat hi (dataPath_of_writes (arrEnc_keeps s) (arrEnc_confined s)) ho
  | pageEnc n => exact h.outcome hi (dataPath_of_writes (pageEnc_keeps _ s) (pageEnc_confined _ s)) ho
  | bcWrite => exact h.outcome hi (dataPath_of_emits (bcWrite_keeps s) (bcWrite_emits s)) ho
  | arrDec => exact h.returningNat hi (dataPath_of_writes (arrDecValues_keeps s) (arrDecValues_confined s)) ho
  | pageDec n q => exact h.returningNat hi (dataPath_of_stores (pageDec_keeps _ _ s) (pageDec_stores _ _ s)) ho
  | bcRead q => exact h.returningNat hi (dataPath_of_quiet (bcRead_keeps _ s) (bcRead_quiet _ s)) ho
  | bcPut x => exact quiet (bcPut_keeps x s) (bcPut_quiet x s) ho
  | bcGet =>
    exact h.returning hi (dataPath_bind (dataPath_of_quiet (bcGet_keeps s) (bcGet_quiet s)) fun _ u =>
      dataPath_ok _ u) ho
  | _ => cases hc

/-! ### The records -/

/-- The parse of a record that passes `n` words after a quiet operation. -/
theorem passed_dataPath {s : State} {r : Res Unit} (n : Nat) (h : r.Keeps DataPath s) :
    (r.bind fun _ s => .ok () (passWords n s)).Keeps DataPath s :=
  dataPath_bind h fun _ t => passWords_dataPath n t

theorem updated_dataPath {s u : State} (hk : HostKept s u) (hq : Quiet s u) : (Res.ok () u).Keeps DataPath s :=
  ⟨hk, hq.writes⟩

theorem passed_after_update {s u : State} (n : Nat) (hk : HostKept s u) (hq : Quiet s u) :
    (Res.ok () (passWords n u)).Keeps DataPath s :=
  passed_dataPath n (updated_dataPath hk hq)

theorem takeMeta_dataPath (b c m : Byte) (s : State) : (takeMeta b c m s).Keeps DataPath s := by
  have passed (n : Nat) : DataPath s { s with bcRd := s.bcRd + n } :=
    ⟨by constructor <;> rfl, by apply Writes.of_cursors <;> rfl⟩
  have sel (n x y z : Nat) (hx : x ≤ 32) (hz : z ≤ 32) : DataPath s (setSel x y z { s with bcRd := s.bcRd + n }) :=
    ⟨(passed n).1.trans (setSel_kept _ _ _ _), (passed n).2.trans (setSel_quiet hx hz).writes⟩
  refine Res.keeps_checked fun hh => ?_
  have hb := (checkMetaHead_none hh).1
  split
  · exact sel 2 _ _ _ hb hb
  · exact Res.keeps_checked fun hm => sel 3 _ _ _ hb (checkMetaMaxb_none hm).2

theorem takeArrayHdr_dataPath (l : Word) (s : State) :
    ((takeArrayHdr l { s with oc := 0 }).bind fun _ s => Res.ok () { s with ic := 1 }).Keeps DataPath s := by
  have cursor : DataPath s { s with oc := 0 } := ⟨by constructor <;> rfl, by apply Writes.of_cursors <;> rfl⟩
  have taken := dataPath_of_writes (takeArrayHdr_keeps l { s with oc := 0 }) (takeArrayHdr_confined l _)
  exact dataPath_bind (Res.keeps_mono taken fun _ g => cursor.trans g) fun _ t =>
    ⟨by constructor <;> rfl, by apply Writes.of_cursors <;> rfl⟩

theorem emitPageHdr_dataPath (w : Word) (s : State) :
    (emitRecords [.pageHdr w] { s with hdr := s.oc }).Keeps DataPath s := by
  have cursor : DataPath s { s with hdr := s.oc } := ⟨by constructor <;> rfl, by apply Writes.of_cursors <;> rfl⟩
  exact Res.keeps_mono (emitRecords_dataPath _ _) fun _ g => cursor.trans g

theorem takeBcBytes_dataPath (bytes : List Byte) (s : State) :
    (if bcCap s.cfg < bytes.length then .stop (.malformed .containerSize)
      else Res.ok () (passWords (ceilDiv bytes.length 4) (takeBcBytes bytes s))).Keeps DataPath s := by
  split
  · trivial
  · exact passed_after_update _ (takeBcBytes_kept bytes s) (takeBcBytes_quiet (by omega))

/-- Every record, produced or parsed, keeps the invariant. -/
theorem exec_record_inv {i : Instr} {e : Expect} {s t : State} (h : Inv s) (hi : s.issue = none)
    (hc : i.ctx = .stream e) (ho : exec i s = .next t) : Inv t := by
  have emitted (i : Instr) := emitRecords_dataPath [i] s
  have padding := passed_after_update 1 (HostKept.refl s) (Quiet.refl s)
  cases i with
  | arrayHdr l =>
    change execArrayHdr l s = _ at ho
    exact h.recordOp hi ho (emitted _) (takeArrayHdr_dataPath l s)
  | pageHdr w =>
    change execPageHdr w s = _ at ho
    exact h.recordOp hi ho (emitPageHdr_dataPath w s)
      (passed_dataPath 1 (dataPath_of_stores (takePageHdr_keeps _ w s) (takePageHdr_stores _ w s)))
  | pagePad =>
    change execPagePad s = _ at ho
    exact h.recordOp hi ho (emitted _) padding
  | packed128 b ws =>
    change execPacked128 b ws s = _ at ho
    exact h.groupOp hi ho (emitted _) (updated_dataPath (takePacked_kept _ ws s) (takePacked_quiet _ ws s))
  | bcSize bs =>
    change execBcSize bs s = _ at ho
    exact h.recordOp hi ho (emitted _)
      (passed_dataPath 1 (dataPath_of_quiet (takeBcSize_keeps bs s) (takeBcSize_quiet bs s)))
  | bcBytes bytes =>
    change execBcBytes bytes s = _ at ho
    exact h.recordOp hi ho (emitted _) (takeBcBytes_dataPath bytes s)
  | metaRec b c m pos =>
    change execMetaRec b c m pos s = _ at ho
    exact h.recordOp hi ho (dataPath_of_quiet (bcPutAll_keeps _ s) (bcPutAll_quiet _ s)) (takeMeta_dataPath b c m s)
  | esBitmap m =>
    change execEsBitmap m s = _ at ho
    exact h.recordOp hi ho (emitted _)
      (passed_after_update 1 (esClear_kept s) (esClear_quiet s))
  | esCount k c =>
    change execEsCount k c s = _ at ho
    exact h.recordOp hi ho (emitted _)
      (passed_dataPath 1 (dataPath_of_quiet (takeEsCount_keeps k c s) (takeEsCount_quiet k c s)))
  | esPad =>
    change execEsPad s = _ at ho
    exact h.recordOp hi ho (emitted _) padding
  | esG128 k ws =>
    change execEsG128 k ws s = _ at ho
    exact h.groupOp hi ho (emitted _)
      (passed_after_update _ (takeEsG128_kept k ws s) (esAppendAll_quiet k _ s))
  | esG32 k n ws =>
    change execEsG32 k n ws s = _ at ho
    exact h.groupOp hi ho (emitted _)
      (passed_after_update _ (takeEsG32_kept k n.val ws s) (esAppendAll_quiet k _ s))
  | _ => cases hc

/-! ### The commands -/

/-- ENC and DEC keep the invariant, where `REQUIRED` is 0 as while a command runs (R268). -/
theorem Inv.codecCommand {err : Option Error} {delta : Bool} {work : State → Res Nat} {s t : State} (h : Inv s)
    (hi : s.issue = none) (hq : s.required = 0#32) (hw : ∀ u, (work u).Keeps DataPath u)
    (ho : codecCommand err delta work s = .next t) : Inv t := by
  have start := h.started delta
  have kept := hw { instReset s with deltaEn := delta }
  rcases (codecCommand_cases ho).2 with ⟨e, -, rfl⟩ | ⟨-, e, u, hr, rfl⟩ | ⟨-, n, u, hr, rfl⟩
  · exact h.raise hi e
  · rw [hr] at kept
    obtain ⟨hu, hui⟩ := start.of_dataPath hi kept
    exact hu.raise hui e
  · rw [hr] at kept
    obtain ⟨hu, hui⟩ := start.of_dataPath hi kept
    exact (hu.of_kept (instReset_kept u) (instReset_quiet u).writes (A := InDst u)).complete hui
      (kept.1.required.trans hq) _

theorem arrEnc_dataPath (s : State) : (arrEnc s).Keeps DataPath s :=
  dataPath_of_writes (arrEnc_keeps s) (arrEnc_confined s)

theorem arrDecValues_dataPath (s : State) : (arrDecValues s).Keeps DataPath s :=
  dataPath_of_writes (arrDecValues_keeps s) (arrDecValues_confined s)

theorem exec_command_inv {i : Instr} {s t : State} (h : Inv s) (hi : s.issue = none) (hq : s.required = 0#32)
    (hc : i.ctx = .command) (ho : exec i s = .next t) : Inv t := by
  cases i with
  | reset =>
    cases ho
    exact (h.started false).complete hi hq _
  | encP => exact h.codecCommand hi hq arrEnc_dataPath ho
  | encD => exact h.codecCommand hi hq arrEnc_dataPath ho
  | decP => exact h.codecCommand hi hq arrDecValues_dataPath ho
  | decD => exact h.codecCommand hi hq arrDecValues_dataPath ho
  | illegal w =>
    cases ho
    exact h.raise hi _
  | _ => cases hc

/-! ### What is issued -/

/-- What a decoder answers has the property `P`. -/
def Decodes (P : Instr → Prop) (r : Except DecodeError (Instr × List Byte)) : Prop :=
  ∀ i rest, r = .ok (i, rest) → P i

theorem decodes_ok {P : Instr → Prop} {i : Instr} (rest : List Byte) (h : P i) : Decodes P (.ok (i, rest)) := by
  intro j _ hj
  cases hj
  exact h

theorem decodes_error {P : Instr → Prop} (e : DecodeError) : Decodes P (.error e) := nofun

theorem decodes_andThen {P : Instr → Prop} {α : Type} {r : Except DecodeError (α × List Byte)}
    {k : α → List Byte → Except DecodeError (Instr × List Byte)} (h : ∀ a rest, Decodes P (k a rest)) :
    Decodes P (andThen r k) := by
  intro i rest hi
  obtain ⟨a, bs, -, hk⟩ := andThen_eq_ok hi
  exact h a bs i rest hk

/-- An operation number decodes to an internal operation (R81). -/
theorem decodeOperands_internal (code : Nat) (bs : List Byte) :
    Decodes (fun i => i.ctx = .internal) (decodeOperands code bs) := by
  unfold decodeOperands
  split
  all_goals
    repeat refine decodes_andThen fun _ _ => ?_
    first
    | exact decodes_ok _ rfl
    | exact decodes_error _

/-- A place of the stream decodes to a record (R83). -/
theorem decodeRecord_record (e : Expect) (bs : List Byte) :
    Decodes (fun i => ∃ e, i.ctx = .stream e) (decodeRecord e bs) := by
  unfold decodeRecord decodeMeta
  split
  all_goals
    repeat' first
    | refine decodes_andThen fun _ _ => ?_
    | exact decodes_ok _ ⟨_, rfl⟩
    | exact decodes_error _
    | split

/-- Only the command register holds commands (R81). -/
theorem decode_command_ctx {c : Ctx} {bs rest : List Byte} {i : Instr} (h : decode c bs = .ok (i, rest))
    (hi : i.ctx = .command) : c = .command := by
  cases c with
  | command => rfl
  | internal =>
    obtain ⟨code, r, -, hr⟩ := andThen_eq_ok h
    have := decodeOperands_internal code.toNat r i rest hr
    simp [hi] at this
  | stream e =>
    obtain ⟨e, he⟩ := decodeRecord_record e bs i rest h
    simp [hi] at he

/-- Every operation keeps the invariant from a state with nothing issued, a command where `REQUIRED` is 0. -/
theorem exec_inv {i : Instr} {s t : State} (h : Inv s) (hi : s.issue = none)
    (hq : i.ctx = .command → s.required = 0#32) (ho : exec i s = .next t) : Inv t := by
  cases hc : i.ctx with
  | command => exact exec_command_inv h hi (hq hc) hc ho
  | internal => exact exec_internal_inv h hi hc ho
  | stream e => exact exec_record_inv h hi hc ho

/-- The machine's own part of a step keeps the invariant. -/
theorem advance_inv {s t : State} (h : Inv s) (ha : advance s = .next t) : Inv t := by
  rcases advance_cases ha with rfl | ⟨i, hf, he⟩
  · exact h
  · obtain ⟨c, bs, rest, hs, hd⟩ := fetch_operation hf
    have hissued : Inv (issued s) := { h with command_busy := nofun }
    refine exec_inv hissued rfl (fun hc => ?_) he
    obtain rfl := decode_command_ctx hd hc
    exact (h.busy_clear (h.command_busy bs hs)).2.1

/-! ### The host's part of a step -/

theorem setArg_inv {s : State} (h : Inv s) (r : ArgReg) (v : Nat) : Inv (setArg r v s) := by
  cases r with
  | srcBase => exact { h with srcBase_lt := Nat.mod_lt _ (Nat.two_pow_pos _) }
  | dstBase => exact { h with dstBase_lt := Nat.mod_lt _ (Nat.two_pow_pos _) }
  | srcLen => exact { h with }
  | dstCap => exact { h with }

theorem accept_inv {s : State} (h : Inv s) (w : Word) : Inv (accept w s) :=
  { h with
    not_busy_done := by simp [Status.running]
    phase_busy := by simp [Status.running]
    busy_clear := by simp [Status.running]
    command_busy := fun _ _ => rfl
    failed_result := fun _ => rfl
    required_zero := fun _ => rfl }

theorem hostWriteMem_inv {s t : State} (h : Inv s) {a : Nat} {v : Byte} (ho : hostWriteMem a v s = .next t) :
    Inv t := by
  unfold hostWriteMem at ho
  split_ifs at ho with ha
  cases ho
  exact { h with
    mem_wf := Memory.write_wf h.mem_wf a v
    mem_below := Memory.write_below h.mem_below (by omega) v }

theorem fresh_inv {p : Params} {m : List Host.Cell} (wf : Memory.wf m) (below : ∀ c ∈ m, c.1 < 2 ^ p.addrW)
    (hs : List HostAction) (log : List Nat) (free : Nat) : Inv (State.fresh p m hs log free) where
  mem_wf := wf
  mem_below := below
  srcBase_lt := Nat.two_pow_pos _
  dstBase_lt := Nat.two_pow_pos _
  not_busy_done := by simp [State.fresh]
  phase_busy := by simp [State.fresh]
  busy_clear := by simp [State.fresh]
  command_busy := nofun
  failed_result := fun _ => rfl
  required_zero := fun _ => rfl
  container_fits := Nat.zero_le _
  capacities := fun k => by simp [State.fresh, Bucket.empty_cap]
  selB_le := Nat.zero_le _
  selM_le := Nat.zero_le _

theorem hardReset_inv {s t : State} (h : Inv s) (ho : hardReset s = .next t) : Inv t := by
  unfold hardReset at ho
  split at ho
  · split at ho
    · cases ho
    · cases ho
      exact fresh_inv ((forgetDst_confined s).wf h.mem_wf) ((forgetDst_confined s).below h.mem_below) _ _ _
  · cases ho
    exact fresh_inv h.mem_wf h.mem_below _ _ _

/-! ### The headline statements -/

/-- Settles O15: each kind of step keeps the invariant, the machine's own by `advance_inv`. -/
theorem stepKeepsInvariant : Obligations.StepKeepsInvariant := by
  intro s t h hs
  have listed (hs : List HostAction) : Inv { s with host := hs } := { h with }
  rcases step_cases hs with ⟨hs, ha⟩ | ⟨r, v, rfl⟩ | ⟨w, rfl⟩ | ⟨vs, rfl⟩ | ⟨a, v, ha⟩ | hr
  · exact advance_inv (listed hs) ha
  · unfold hostWriteArg
    split
    · exact listed _
    · exact setArg_inv (listed _) r v
  · unfold hostWriteCmd
    split
    · exact listed _
    · exact accept_inv (listed _) w
  · exact { h with }
  · exact hostWriteMem_inv (listed _) ha
  · exact hardReset_inv (listed _) hr

/-- What a command leaves of the host's registers and of memory outside `DST`. -/
structure CommandFrame (s t : State) : Prop where
  cmd : t.cmd = s.cmd
  srcBase : t.srcBase = s.srcBase
  srcLen : t.srcLen = s.srcLen
  confined : Confined s t

theorem CommandFrame.trans {s t u : State} (h : CommandFrame s t) (g : CommandFrame t u) : CommandFrame s u :=
  ⟨g.cmd.trans h.cmd, g.srcBase.trans h.srcBase, g.srcLen.trans h.srcLen, h.confined.trans g.confined⟩

theorem raise_commandFrame (e : Error) (s : State) : CommandFrame s (raise e s) :=
  ⟨by simp, by simp, by simp, raise_confined e s⟩

/-- ENC and DEC write only `DST`, where their work does (R62, R238). -/
theorem codecCommand_frame {err : Option Error} {delta : Bool} {work : State → Res Nat} {s t : State}
    (hk : ∀ u, (work u).Keeps HostKept u) (hw : ∀ u, (work u).Keeps Confined u)
    (ho : codecCommand err delta work s = .next t) : CommandFrame s t := by
  have start : CommandFrame s { instReset s with deltaEn := delta } := ⟨rfl, rfl, rfl, started_confined delta s⟩
  have run : (work { instReset s with deltaEn := delta }).Keeps CommandFrame s :=
    Res.keeps_mono (Res.keeps_and (hk _) (hw _)) fun _ g => start.trans ⟨g.1.cmd, g.1.srcBase, g.1.srcLen, g.2⟩
  rcases (codecCommand_cases ho).2 with ⟨e, -, rfl⟩ | ⟨-, e, u, hr, rfl⟩ | ⟨-, n, u, hr, rfl⟩
  · exact raise_commandFrame e s
  · rw [hr] at run
    exact CommandFrame.trans run (raise_commandFrame e u)
  · rw [hr] at run
    exact CommandFrame.trans run ⟨rfl, rfl, rfl, Confined.trans (instReset_quiet u).writes (complete_confined _ _)⟩

theorem exec_command_frame {i : Instr} {s t : State} (hc : i.ctx = .command) (ho : exec i s = .next t) :
    CommandFrame s t := by
  cases i with
  | reset =>
    cases ho
    exact ⟨rfl, rfl, rfl, (started_confined false s).trans (complete_confined _ _)⟩
  | encP => exact codecCommand_frame arrEnc_keeps arrEnc_confined ho
  | encD => exact codecCommand_frame arrEnc_keeps arrEnc_confined ho
  | decP => exact codecCommand_frame arrDecValues_keeps arrDecValues_confined ho
  | decD => exact codecCommand_frame arrDecValues_keeps arrDecValues_confined ho
  | illegal w =>
    cases ho
    exact raise_commandFrame _ s
  | _ => cases hc

/-- Settles O31: the frame of every command, `exec_command_frame`, read off. -/
theorem commandsWriteOnlyDst : Obligations.CommandsWriteOnlyDst := by
  intro i s t hc wf ho
  obtain ⟨hcmd, hsb, hsl, hconf⟩ := exec_command_frame hc ho
  exact ⟨hcmd, hsb, hsl, hconf.dstBase, hconf.dstCap, hconf.outside wf⟩

end Sys2Proof.Machine

/-! SUPPORT. What the host's actions do to the registers, how a written command comes to run, and how the
commands end before they touch memory. -/

namespace Sys2Proof.Machine

/-! ### One action of the host -/

theorem step_host {s : State} {a : HostAction} {h : List HostAction} (hs : s.host = a :: h) :
    step s = hostStep a { s with host := h } := by
  simp only [step, hs]

/-- A read of a register logs its value and does nothing else (R25). -/
theorem step_readReg (s : State) (r : HostReg) (h : List HostAction) :
    step { s with host := .readReg r :: h } =
      .next { s with host := h, hostLog := regValue s r :: s.hostLog } := rfl

/-- A write of an argument register sets it while `BUSY = 0` (R25). -/
theorem step_writeArg {s : State} (hb : s.status.busy = false) (r : ArgReg) (v : Nat) (h : List HostAction) :
    step { s with host := .writeArg r v :: h } = .next (setArg r v { s with host := h }) := by
  simp [step, hostStep, hostWriteArg, hb]

/-- A write of `CMD` is accepted while `BUSY = 0` (R210). -/
theorem step_writeCmd {s : State} {w : Word} {h : List HostAction} (hb : s.status.busy = false)
    (hs : s.host = .writeCmd w :: h) : step s = .next (accept w { s with host := h }) := by
  simp [step_host hs, hostStep, hostWriteCmd, hb]

/-- While busy, the host's register writes are ignored (R268). -/
theorem step_write_busy {s : State} (hb : s.status.busy = true) (h : List HostAction) :
    (∀ w, step { s with host := .writeCmd w :: h } = .next { s with host := h }) ∧
      ∀ r v, step { s with host := .writeArg r v :: h } = .next { s with host := h } := by
  constructor <;> intros <;> simp [step, hostStep, hostWriteCmd, hostWriteArg, hb]

/-- What is issued runs where the machine goes on. -/
theorem advance_of_decode {s : State} {c : Ctx} {bs rest : List Byte} {i : Instr} (h : s.issue = some (c, bs))
    (hd : decode c bs = .ok (i, rest)) : advance s = exec i (issued s) := by
  simp only [advance, fetch_of_decode h hd]

/-- The three flags while a command runs (R268). -/
theorem Inv.status_busy {s : State} (h : Inv s) (hb : s.status.busy = true) : s.status = Status.running := by
  obtain ⟨_, _, herr⟩ := h.busy_clear hb
  have hdone : s.status.done = false := by
    simpa using fun hd => h.not_busy_done ⟨hb, hd⟩
  cases hs : s.status with
  | mk busy done err => simp_all [Status.running]

/-- Each bit of `STATUS` lies in one of the four parts the word is made of (R31). -/
theorem Status.word_getLsbD (t : Status) (n : Nat) :
    t.word.getLsbD n =
      if n = 0 then t.busy else if n = 1 then t.done else if n < 5 then t.err.number.getLsbD (n - 2) else false := by
  change BitVec.getLsbD (w := 27 + 3 + 1 + 1)
    (0#27 ++ t.err.number ++ BitVec.ofBool t.done ++ BitVec.ofBool t.busy) n = _
  simp only [BitVec.getLsbD_append]
  rcases n with _ | _ | n
  · simp
  · simp
  · by_cases h : n < 3
    · simp [h, show n + 1 + 1 < 5 by omega]
    · simp [h, show ¬ n + 1 + 1 < 5 by omega]

/-! ### How ENC and DEC begin -/

theorem exec_encOf (delta : Bool) (s : State) :
    exec (encOf delta) s = codecCommand (encError s) delta arrEnc s := by
  cases delta <;> rfl

theorem exec_decOf (delta : Bool) (s : State) :
    exec (decOf delta) s = codecCommand (decError s) delta arrDecValues s := by
  cases delta <;> rfl

/-- A launched command that fails a check takes the error (R236, R240). -/
theorem codecCommand_error {s : State} (hl : Lendable s) (e : Error) (delta : Bool) (work : State → Res Nat) :
    codecCommand (some e) delta work s = .next (raise e s) := by
  simp only [codecCommand, launchRefusal_none.2 hl]

/-- A launched command that passes its checks does its work from `INST.RESET` (R213 to R216). -/
theorem codecCommand_work {s : State} (hl : Lendable s) (delta : Bool) (work : State → Res Nat) :
    codecCommand none delta work s = finishCommand (work { instReset s with deltaEn := delta }) := by
  simp only [codecCommand, launchRefusal_none.2 hl]

theorem encError_invalidLength {s : State} (ha : Aligned s) (hl : s.srcLen.toNat % 128 ≠ 0) :
    encError s = some .invalidLength := by
  rw [encError, if_neg (by simpa [Misaligned] using ha), if_pos hl]

/-- The capacity check of DEC comes before anything is stored (R193, R233). -/
theorem arrDec_insufficient {s : State} {l : Word} (hr : Readable s 0 1)
    (hw : Memory.readWord s.mem (srcAddr s 0) = l) (hl : s.dstCap.toNat < l.toNat) :
    arrDec s = .raised (.insufficientStorage l) { s with oc := 0 } := by
  simp only [arrDec, srcWord_ok hr, hw, Res.need_ok, takeArrayHdr, if_pos hl, Res.bind_raised]

/-- The store `INST.RESET` leaves is the empty store. -/
theorem emptyStore_replicate (p : Params) : EmptyStore p (Vector.replicate 32 (Bucket.empty p)) := by
  intro k
  simp [Bucket.empty]

theorem noCarry_replicate : NoCarry (Vector.replicate 4 0#32) := by
  intro l
  simp

/-! ### The statements -/

/-- Settles O7: the write is accepted, and the next wait runs what was issued. -/
theorem writtenCommandRuns : Obligations.WrittenCommandRuns := by
  intro s w i h hb hs hd
  refine ⟨_, step_writeCmd hb hs, rfl, ?_⟩
  rw [step_host rfl]
  exact advance_of_decode (s := { accept w s with host := .wait :: h }) rfl hd

/-- Settles O18: the check of word 0 raises the error, which leaves memory as it is. -/
theorem insufficientStorageTaken : Obligations.InsufficientStorageTaken := by
  intro delta s l hl ha hlen hw hcap
  have hpos : s.srcLen.toNat ≠ 0 := fun h0 => hlen (BitVec.eq_of_toNat_eq h0)
  have hwraps := hl.1
  have hread : Readable s 0 1 := by
    simp only [Wraps] at hwraps
    omega
  have hraised := arrDec_insufficient (s := { instReset s with deltaEn := delta }) hread hw hcap
  rw [exec_decOf, decError_none.2 ha, codecCommand_work hl, arrDecValues, hraised]
  exact ⟨_, _, rfl, emptyStore_replicate s.cfg, noCarry_replicate⟩

/-- Settles O8: reads by `step_readReg`, and while busy the invariant gives the values read. -/
theorem busyHostAccess : Obligations.BusyHostAccess := by
  intro s h
  have read {p : HostReg × Nat} (hp : p.2 = regValue s p.1) :
      step { s with host := .readReg p.1 :: h } = .next { s with host := h, hostLog := p.2 :: s.hostLog } := by
    rw [step_readReg, hp]
  refine ⟨fun p hp => read ?_, fun hinv hb => ?_⟩
  · simp only [List.mem_cons, List.not_mem_nil, or_false] at hp
    rcases hp with rfl | rfl | rfl | rfl | rfl | rfl | rfl | rfl <;> rfl
  · obtain ⟨hcmd, harg⟩ := step_write_busy hb h
    obtain ⟨hres, hreq, _⟩ := hinv.busy_clear hb
    have hst := hinv.status_busy hb
    refine ⟨hcmd, harg, hst, fun p hp => read ?_⟩
    simp only [List.mem_cons, List.not_mem_nil, or_false] at hp
    rcases hp with rfl | rfl | rfl
    · simp only [regValue, hst]
      rfl
    · simp [regValue, hres]
    · simp [regValue, hreq]

/-- Settles O9: `Status.word_getLsbD` at the bits of each field. -/
theorem statusLayout : Obligations.StatusLayout := by
  intro t
  refine ⟨Status.word_getLsbD t 0, Status.word_getLsbD t 1, ?_, fun n hn => ?_, rfl⟩
  · apply BitVec.eq_of_getLsbD_eq
    intro i hi
    rw [BitVec.getLsbD_extractLsb', Status.word_getLsbD, if_neg (by omega), if_neg (by omega), if_pos (by omega)]
    simp [hi]
  · rw [Status.word_getLsbD, if_neg (by omega), if_neg (by omega), if_neg (by omega)]

/-- Settles O10: a value that fits its register is taken as it is. -/
theorem argumentRegisterWrites : Obligations.ArgumentRegisterWrites := by
  intro s v x h hb
  refine ⟨fun hv => ⟨?_, ?_⟩, ?_, ?_⟩
  · simp [step_writeArg hb, setArg, Nat.mod_eq_of_lt hv]
  · simp [step_writeArg hb, setArg, Nat.mod_eq_of_lt hv]
  · simp [step_writeArg hb, setArg]
  · simp [step_writeArg hb, setArg]

/-- Settles O17: the length check fails, and its error leaves memory as it is. -/
theorem invalidInputLengthTaken : Obligations.InvalidInputLengthTaken := by
  intro delta s hl ha hlen
  rw [exec_encOf, encError_invalidLength ha hlen, codecCommand_error hl]
  exact ⟨_, _, rfl, emptyStore_replicate s.cfg, noCarry_replicate⟩

/-- Settles O23: `RESET` on any state, and from the host's write through acceptance. -/
theorem resetCommand : Obligations.ResetCommand := by
  refine ⟨fun s => ⟨_, _, rfl, emptyStore_replicate s.cfg, noCarry_replicate⟩, fun s h hb hs => ?_⟩
  refine ⟨_, _, _, step_writeCmd hb hs, ?_, emptyStore_replicate s.cfg, noCarry_replicate⟩
  rw [step_host rfl]
  exact advance_of_decode (s := { accept 0#32 s with host := h }) (i := .reset) (rest := []) rfl rfl

/-- Settles O35: the byte put is the last, the byte got is at the cursor. -/
theorem containerPutGet : Obligations.ContainerPutGet := by
  refine fun s => ⟨fun x hx => ?_, fun hr => ?_, fun hend => ?_⟩
  · change (bcPut x s).outcome = _
    rw [bcPut, if_neg (by omega), Res.outcome_ok]
  · change ((bcGet s).bind fun x s => .ok [x.setWidth 32] s).returning = _
    rw [bcGet_ok (List.drop_eq_getElem_cons hr), Res.bind_ok, Res.returning_ok, BitVec.ofNat_toNat]
  · change ((bcGet s).bind fun x s => .ok [x.setWidth 32] s).returning = _
    simp only [bcGet, List.getElem?_eq_none hend]
    rfl

end Sys2Proof.Machine

/-! SUPPORT. The delta processor: running sums and differences element by element, and that each undoes the
other (R161, R171). -/

namespace Sys2Proof.Machine

theorem deltas_zero (p : Word) (raw : Vector Word 128) : (deltas p raw)[0] = raw[0] - p := by
  simp [deltas]

theorem deltas_succ (p : Word) (raw : Vector Word 128) {i : Nat} (hi : i + 1 < 128) :
    (deltas p raw)[i + 1] = raw[i + 1] - raw[i] := by
  simp [deltas]

theorem blockTail_getElem (v : Vector Word 128) (l : Fin 4) : (blockTail v)[l.val] = v[124 + l.val] := by
  simp [blockTail]

@[simp] theorem runningSums_length (acc : Word) (xs : List Word) : (runningSums acc xs).length = xs.length := by
  induction xs generalizing acc with
  | nil => rfl
  | cons x xs ih => simp [runningSums, ih]

/-- Each running sum after the first adds one element to the sum before it. -/
theorem runningSums_succ (acc : Word) (xs : List Word) {i : Nat} (hi : i + 1 < xs.length) :
    (runningSums acc xs)[i + 1]'(by simpa using hi) =
      (runningSums acc xs)[i]'(by simp; omega) + xs[i + 1] := by
  induction xs generalizing acc i with
  | nil => simp at hi
  | cons x xs ih =>
    cases i with
    | zero =>
      cases xs with
      | nil => simp at hi
      | cons y ys => simp [runningSums]
    | succ i => simpa [runningSums] using ih (acc + x) (i := i) (by simpa using hi)

theorem prefixSums_zero (p : Word) (d : Vector Word 128) : (prefixSums p d)[0] = p + d[0] := by
  obtain ⟨x, xs, hx⟩ : ∃ x xs, d.toList = x :: xs := List.exists_cons_of_length_pos (by simp)
  have h0 : d[0] = x := by
    rw [← Vector.getElem_toList (by simp)]
    simp [hx]
  simp [prefixSums, hx, runningSums, h0]

theorem prefixSums_succ (p : Word) (d : Vector Word 128) {i : Nat} (hi : i + 1 < 128) :
    (prefixSums p d)[i + 1] = (prefixSums p d)[i] + d[i + 1] := by
  have := runningSums_succ p d.toList (i := i) (by simpa using hi)
  simpa [prefixSums, List.getD_eq_getElem?_getD, hi, show i < 128 by omega] using this

/-- Value `i` of the running sums is the carried value and the elements up to `i`, modulo `2^32` (R171). -/
theorem prefixSums_toNat (p : Word) (d : Vector Word 128) {i : Nat} (hi : i < 128) :
    (prefixSums p d)[i].toNat = (p.toNat + ∑ j : Fin (i + 1), d[j.val].toNat) % 2 ^ 32 := by
  induction i with
  | zero => simp [prefixSums_zero]
  | succ i ih =>
    rw [prefixSums_succ p d hi, BitVec.toNat_add, ih (by omega), Fin.sum_univ_castSucc (n := i + 1)]
    simp only [Fin.val_castSucc, Fin.val_last]
    omega

/-- The running sums undo the differences, for every block and carried value (R171). -/
theorem prefixSums_deltas (p : Word) (raw : Vector Word 128) : prefixSums p (deltas p raw) = raw := by
  apply Vector.ext
  intro i hi
  induction i with
  | zero => rw [prefixSums_zero, deltas_zero, BitVec.add_comm, BitVec.sub_add_cancel]
  | succ i ih =>
    rw [prefixSums_succ p _ hi, ih (by omega), deltas_succ p raw hi, BitVec.add_comm, BitVec.sub_add_cancel]

/-! ### The statements -/

/-- Settles O42: `deltas` and `blockTail`, element by element. -/
theorem blockDelta : Obligations.BlockDelta := by
  refine fun s => ⟨fun hd => ?_, fun hd => ?_⟩
  · refine ⟨deltas s.dprev[3] s.blk, blockTail s.blk, ?_, deltas_zero _ _, fun i => deltas_succ _ _ (by omega),
      blockTail_getElem _⟩
    change Host.Outcome.next (deltaIfEnabled s) = _
    rw [deltaIfEnabled, if_pos hd, blkDelta]
  · change Host.Outcome.next (deltaIfEnabled s) = _
    rw [deltaIfEnabled, if_neg (by simp [hd])]

/-- Settles O43: `prefixSums` element by element, and that it undoes `deltas`. -/
theorem blockPrefix : Obligations.BlockPrefix := by
  have run (s : State) : exec .blkPrefix s = .next (prefixIfEnabled s) := rfl
  refine ⟨fun s => ⟨fun hd => ?_, fun hd => ?_⟩, fun s t ht => ?_⟩
  · refine ⟨prefixSums s.dprev[3] s.blk, blockTail (prefixSums s.dprev[3] s.blk), ?_,
      fun i => prefixSums_toNat _ _ i.isLt, blockTail_getElem _⟩
    rw [run, prefixIfEnabled, if_pos hd, blkPrefix]
  · rw [run, prefixIfEnabled, if_neg (by simp [hd])]
  · change Host.Outcome.next (deltaIfEnabled s) = _ at ht
    simp only [Host.Outcome.next.injEq] at ht
    rcases deltaIfEnabled_cases s with ⟨hd, he⟩ | ⟨hd, he⟩
    · rw [he] at ht
      subst ht
      rw [run, prefixIfEnabled, if_neg (by simp [hd])]
    · rw [he] at ht
      subst ht
      rw [run, prefixIfEnabled, if_pos (by simpa using hd)]
      simp only [blkPrefix, blkDelta, prefixSums_deltas]

end Sys2Proof.Machine

/-! SUPPORT. Bytes and words of the two buffers, and the accesses that move them whole: the host's, `BC.WRITE`,
`BC.READ`, `BLK.LOAD` and `BLK.STORE`; and how a launch ends that is refused or meets no stream. -/

namespace Sys2Proof.Machine

/-! ### Bytes and words of memory -/

theorem leBytes_readWord (m : List Host.Cell) (a : Nat) :
    leBytes (Memory.readWord m a) =
      [Memory.read m a, Memory.read m (a + 1), Memory.read m (a + 2), Memory.read m (a + 3)] := by
  obtain ⟨h0, h1, h2, h3⟩ :=
    byteOf_ofLe (Memory.read m a) (Memory.read m (a + 1)) (Memory.read m (a + 2)) (Memory.read m (a + 3))
  simp only [leBytes, Memory.readWord, h0, h1, h2, h3]

@[simp] theorem Memory.readWords_zero (m : List Host.Cell) (a : Nat) : Memory.readWords m a 0 = [] := rfl

theorem Memory.readWords_succ (m : List Host.Cell) (a n : Nat) :
    Memory.readWords m a (n + 1) = Memory.readWord m a :: Memory.readWords m (a + 4) n := by
  simp only [Memory.readWords, List.range_succ_eq_map, List.map_cons, List.map_map]
  congr 1
  refine List.map_congr_left fun j _ => ?_
  simp only [Function.comp, Nat.succ_eq_add_one]
  congr 1
  omega

theorem Memory.getElem_readWords (m : List Host.Cell) (a n i : Nat) (hi : i < (Memory.readWords m a n).length) :
    (Memory.readWords m a n)[i] = Memory.readWord m (a + 4 * i) := by
  simp [Memory.readWords]

/-- The bytes of consecutive words of memory are its bytes in order (R52). -/
theorem bytesOfWords_readWords (m : List Host.Cell) (a n : Nat) :
    bytesOfWords (Memory.readWords m a n) = (List.range (4 * n)).map fun i => Memory.read m (a + i) := by
  induction n generalizing a with
  | zero => rfl
  | succ n ih =>
    have split4 : List.range (4 * (n + 1)) = [0, 1, 2, 3] ++ (List.range (4 * n)).map (4 + ·) := by
      rw [show 4 * (n + 1) = 4 + 4 * n by omega, List.range_add]
      rfl
    rw [Memory.readWords_succ, bytesOfWords_cons, leBytes_readWord, ih, split4, List.map_append, List.map_map]
    simp [Function.comp_def, Nat.add_assoc]

/-- Elements appended that are the default change no reading by default. -/
theorem getD_append_replicate {α : Type} (xs : List α) (n i : Nat) (d : α) :
    (xs ++ List.replicate n d).getD i d = xs.getD i d := by
  by_cases h : i < xs.length
  · rw [List.getD_append _ _ _ _ h]
  · rw [List.getD_append_right _ _ _ _ (by omega), List.getD_eq_default _ _ (Nat.le_of_not_lt h)]
    simp only [List.getD_eq_getElem?_getD, List.getElem?_replicate]
    split <;> rfl

/-- Byte `i` of words that were stored. -/
theorem Stored.byte {s : State} {j i : Nat} {ws : List Word} {m : List Host.Cell} (h : Stored s j ws m)
    (hi : i < 4 * ws.length) : Memory.read m (dstAddr s j + i) = (bytesOfWords ws).getD i 0#8 := by
  conv_rhs => rw [← h.words, bytesOfWords_readWords]
  simp [List.getD_eq_getElem?_getD, hi]

/-- Word `i` of words that were stored. -/
theorem Stored.word {s : State} {j i : Nat} {ws : List Word} {m : List Host.Cell} (h : Stored s j ws m)
    (hi : i < ws.length) : Memory.readWord m (dstAddr s (j + i)) = ws[i] := by
  have h1 := Memory.getElem_readWords m (dstAddr s j) ws.length i (by simpa using hi)
  simp only [h.words] at h1
  rw [h1]
  simp only [dstAddr]
  congr 1
  omega

/-- What is not among the words stored reads as before. -/
theorem SameOutside.readWord {m m' : List Host.Cell} {b n a : Nat} (h : SameOutside m m' b n)
    (ha : a + 4 ≤ b ∨ b + n ≤ a) : Memory.readWord m' a = Memory.readWord m a := by
  simp only [Memory.readWord]
  rw [h a (by omega), h (a + 1) (by omega), h (a + 2) (by omega), h (a + 3) (by omega)]

/-- Where every word read is as before, so is the sequence. -/
theorem Memory.readWords_congr {m m' : List Host.Cell} {a n : Nat}
    (h : ∀ i, i < n → Memory.readWord m' (a + 4 * i) = Memory.readWord m (a + 4 * i)) :
    Memory.readWords m' a n = Memory.readWords m a n :=
  List.map_congr_left fun i hi => h i (List.mem_range.1 hi)

/-! ### Words of `SRC` -/

@[simp] theorem srcView_length (s : State) (i n : Nat) : (srcView s i n).length = n := Memory.readWords_length _ _ _

/-- The guard of R58: a word at or beyond `SRC_LEN` is not read. -/
theorem srcWord_end {s : State} {i : Nat} (h : s.srcLen.toNat ≤ i) : srcWord s i = .error (.malformed .streamEnd) := by
  simp only [srcWord, if_pos h]

/-- Words of which `SRC_LEN` cuts off the last are not read (R58). -/
theorem srcWords_cut {s : State} {i n : Nat} (hb : s.srcBase + 4 * s.srcLen.toNat ≤ 2 ^ s.cfg.addrW)
    (hn : 0 < n) (h : s.srcLen.toNat < i + n) : srcWords s i n = .error (.malformed .streamEnd) := by
  induction n generalizing i with
  | zero => omega
  | succ n ih =>
    by_cases hi : s.srcLen.toNat ≤ i
    · simp only [srcWords, srcWord_end hi]
    · have hr : Readable s i 1 := ⟨by omega, hb⟩
      simp only [srcWords, srcWord_ok hr, ih (i := i + 1) (by omega) (by omega)]

/-! ### Whole containers and blocks -/

/-- `BC.WRITE` as an output of words (R192). -/
theorem bcWrite_eq (s : State) :
    bcWrite s = emitAll (BitVec.ofNat 32 s.bcMem.length :: packBytes s.bcMem) s := by
  simp [bcWrite, emitRecords, bcRecords, recWords]

/-- `BC.READ` of a size that fits, with its bytes within `SRC_LEN` (R195). -/
theorem bcRead_ok {s : State} {q : Nat} {bs : Word} (hw : Memory.readWord s.mem (srcAddr s q) = bs)
    (hc : bs.toNat ≤ bcCap s.cfg) (hr : Readable s q (1 + ceilDiv bs.toNat 4)) :
    bcRead q s = .ok (1 + ceilDiv bs.toNat 4)
      (takeBcBytes ((List.range bs.toNat).map fun i => Memory.read s.mem (srcAddr s (q + 1) + i)) s) := by
  obtain ⟨hlen, hbase⟩ := hr
  have hsize : srcWord s q = .ok bs := by rw [srcWord_ok ⟨by omega, hbase⟩, hw]
  have hbytes : (bytesOfWords (srcView s (q + 1) (ceilDiv bs.toNat 4))).take bs.toNat =
      (List.range bs.toNat).map fun i => Memory.read s.mem (srcAddr s (q + 1) + i) := by
    rw [srcView, bytesOfWords_readWords, ← List.map_take, List.take_range,
      Nat.min_eq_left (ceilDiv_four bs.toNat).1]
  simp only [bcRead, hsize, Res.need_ok, takeBcSize, if_neg (Nat.not_lt.2 hc), Res.bind_ok,
    srcWords_ok (show Readable s (q + 1) (ceilDiv bs.toNat 4) from ⟨by omega, hbase⟩), hbytes]

theorem blkLoad_ok {s : State} (h : srcAddr s (s.ic + 128) ≤ 2 ^ s.cfg.addrW) :
    blkLoad s = .ok () { s with
      blk := Vector.ofFn fun i : Fin 128 => Memory.readWord s.mem (srcAddr s (s.ic + i.val)), ic := s.ic + 128 } := by
  rw [blkLoad, if_neg (Nat.not_lt.2 h)]

theorem blkStore_ok {s : State} (h : dstAddr s (s.oc + 128) ≤ 2 ^ s.cfg.addrW) :
    blkStore s = .ok () { s with
      mem := Memory.writeWords s.mem (dstAddr s s.oc) s.blk.toList, oc := s.oc + 128 } := by
  rw [blkStore, if_neg (Nat.not_lt.2 h)]

/-! ### How ENC and DEC are launched -/

/-- The four codec commands, each with the argument check it makes first (R213 to R216). -/
theorem exec_codec {i : Instr} (hi : i ∈ [Instr.encP, .encD, .decP, .decD]) (s : State) :
    ∃ err delta work, exec i s = codecCommand err delta work s ∧ (Misaligned s → err = some .alignment) := by
  have henc : Misaligned s → encError s = some .alignment := fun h => if_pos h
  have hdec : Misaligned s → decError s = some .alignment := fun h => if_pos h
  simp only [List.mem_cons, List.not_mem_nil, or_false] at hi
  rcases hi with rfl | rfl | rfl | rfl
  · exact ⟨_, _, _, rfl, henc⟩
  · exact ⟨_, _, _, rfl, henc⟩
  · exact ⟨_, _, _, rfl, hdec⟩
  · exact ⟨_, _, _, rfl, hdec⟩

theorem codecCommand_refused {r : Refusal} {s : State} (h : launchRefusal s = some r) (err : Option Error)
    (delta : Bool) (work : State → Res Nat) : codecCommand err delta work s = .refused r := by
  simp only [codecCommand, h]

/-! ### The statements -/

/-- Settles O11: a byte that is not lent is written and read as `Memory.write` and `Memory.read` say. -/
theorem hostMemoryAccess : Obligations.HostMemoryAccess := by
  intro s a v h wf
  have write : step { s with host := .writeMem a v :: h } = hostWriteMem a v { s with host := h } := rfl
  have read : step { s with host := .readMem a :: h } = hostReadMem a { s with host := h } := rfl
  rw [write, read]
  refine ⟨fun ha => ⟨fun hfree => ?_, fun hfree => ?_, fun hbusy => ⟨fun hin => ?_, fun hin => ?_⟩⟩, fun ha => ⟨?_, ?_⟩⟩
  · refine ⟨Memory.write s.mem a v, ?_, Memory.write_wf wf a v, by simp [Memory.read_write wf], fun b hb => ?_⟩
    · rw [hostWriteMem, if_neg (Nat.not_le.2 ha), if_neg fun hl => hl.2.elim (hfree hl.1).1 (hfree hl.1).2]
    · rw [Memory.read_write wf, if_neg (by omega)]
  · rw [hostReadMem, if_neg (Nat.not_le.2 ha), if_neg fun hl => hfree hl.1 hl.2]
    rfl
  · rw [hostWriteMem, if_neg (Nat.not_le.2 ha), if_pos ⟨hbusy, hin⟩]
  · rw [hostReadMem, if_neg (Nat.not_le.2 ha), if_pos ⟨hbusy, hin⟩]
  · rw [hostWriteMem, if_pos ha]
  · rw [hostReadMem, if_pos ha]

/-- Settles O16: the alignment check fails before anything is read, and its error leaves memory as it is. -/
theorem alignmentErrorTaken : Obligations.AlignmentErrorTaken := by
  intro i hi s hl ha
  obtain ⟨err, delta, work, hexec, herr⟩ := exec_codec hi s
  have hmis : Misaligned s := by
    by_contra h
    simp only [Misaligned, not_or, not_not] at h
    exact ha h
  rw [hexec, herr hmis, codecCommand_error hl]
  exact ⟨_, _, rfl, emptyStore_replicate s.cfg, noCarry_replicate⟩

/-- Settles O20: the launch conditions are looked at first. -/
theorem launchRefused : Obligations.LaunchRefused := by
  intro i hi s
  obtain ⟨err, delta, work, hexec, -⟩ := exec_codec hi s
  rw [hexec]
  refine ⟨fun hw => codecCommand_refused ?_ _ _ _, fun hw ho => codecCommand_refused ?_ _ _ _⟩
  · rw [launchRefusal, if_pos hw]
  · rw [launchRefusal, if_neg hw, if_pos ho]

/-- Settles O21: word 0 is not there, or fails the length check. -/
theorem malformedHeadFaults : Obligations.MalformedHeadFaults := by
  intro delta s hl ha
  rw [exec_decOf, decError_none.2 ha, codecCommand_work hl, arrDecValues]
  refine ⟨fun h0 => ?_, fun l h0 hw hcap hmod => ?_⟩
  · have hend : srcWord { instReset s with deltaEn := delta } 0 = .error (.malformed .streamEnd) :=
      srcWord_end (by simp [h0])
    simp only [arrDec, hend, Res.need_error, Res.bind_stop, finishCommand]
  · have hpos : s.srcLen.toNat ≠ 0 := fun h => h0 (BitVec.eq_of_toNat_eq h)
    have hwraps := hl.1
    simp only [Wraps] at hwraps
    have hword : srcWord { instReset s with deltaEn := delta } 0 = .ok l := by
      rw [srcWord_ok]
      · exact congrArg Except.ok hw
      · simp only [Readable, instReset_fields]
        omega
    have hfit : ¬(instReset s).dstCap.toNat < l.toNat := Nat.not_lt.2 hcap
    simp only [arrDec, hword, Res.need_ok, takeArrayHdr, if_neg hfit, if_pos hmod, Res.bind_stop, finishCommand]

/-- Settles O36: the container is emitted as words, whose bytes are those packed. -/
theorem containerWritten : Obligations.ContainerWritten := by
  rintro s n rfl wf hlen room
  have hpack : (packBytes s.bcMem).length = ceilDiv s.bcMem.length 4 := packBytes_length _
  have fits : Room s (BitVec.ofNat 32 s.bcMem.length :: packBytes s.bcMem).length := by
    simpa only [List.length_cons, hpack, Nat.add_comm 1] using room
  have stored := stored_writeWords wf s.oc (BitVec.ofNat 32 s.bcMem.length :: packBytes s.bcMem)
  refine ⟨_, ?_, stored.wf, ?_, fun i hi => ?_, ?_⟩
  · change (bcWrite s).outcome = _
    rw [bcWrite_eq, emitAll_ok fits, Res.outcome_ok, List.length_cons, hpack, Nat.add_comm 1]
  · have hword := stored.word (i := 0) (by simp)
    rw [Nat.add_zero] at hword
    rw [hword]
    simpa using Nat.mod_eq_of_lt hlen
  · have hbyte := stored.byte (i := 4 + i) (by simp only [List.length_cons, hpack]; omega)
    rw [show dstAddr s (s.oc + 1) + i = dstAddr s s.oc + (4 + i) by unfold dstAddr; omega, hbyte, bytesOfWords_cons,
      List.getD_append_right _ _ _ _ (by simp), bytesOfWords_packBytes, leBytes_length, Nat.add_sub_cancel_left,
      getD_append_replicate]
  · simpa only [List.length_cons, hpack, Nat.add_comm 1] using stored.frame

/-- Settles O37: `bcRead_ok`, the check of the size, and the guard of R58. -/
theorem containerRead : Obligations.ContainerRead := by
  rintro s q bs ⟨hq, hb⟩ hw
  have hsize : srcWord s q.toNat = .ok bs := by rw [srcWord_ok ⟨hq, hb⟩, hw]
  refine ⟨fun hcap hr => ?_, fun hcap => ?_, fun hcap hcut => ?_⟩
  · change (bcRead q.toNat s).returningNat = _
    rw [bcRead_ok hw hcap hr]
    rfl
  · change (bcRead q.toNat s).returningNat = _
    simp only [bcRead, hsize, Res.need_ok, takeBcSize, if_pos hcap, Res.bind_stop]
    rfl
  · change (bcRead q.toNat s).returningNat = _
    simp only [bcRead, hsize, Res.need_ok, takeBcSize, if_neg (Nat.not_lt.2 hcap), Res.bind_ok,
      srcWords_cut (i := q.toNat + 1) (n := ceilDiv bs.toNat 4) hb (by omega) (by omega), Res.need_error]
    rfl

/-- Settles O49: `blkLoad_ok` and `blkStore_ok`. -/
theorem blockLoadStore : Obligations.BlockLoadStore := by
  refine fun s => ⟨fun h => ⟨Vector.ofFn fun i : Fin 128 => Memory.readWord s.mem (srcAddr s (s.ic + i.val)), ?_,
    fun i => by simp⟩, fun wf h => ⟨_, ?_, stored_writeWords wf _ _⟩⟩
  · change (blkLoad s).outcome = _
    rw [blkLoad_ok h, Res.outcome_ok]
  · change (blkStore s).outcome = _
    rw [blkStore_ok h, Res.outcome_ok]

end Sys2Proof.Machine

/-! SUPPORT. The laws of the pack engine a decoder needs: unpacking what was packed gives the low bits of every
value (R126). -/

namespace Sys2Proof.Machine

/-- The low `b` bits of a word. -/
def lowBits (b : Nat) (x : Word) : Word := BitVec.ofNat 32 (x.toNat % 2 ^ b)

theorem lowBits_of_lt {b : Nat} {x : Word} (h : x.toNat < 2 ^ b) : lowBits b x = x := by
  rw [lowBits, Nat.mod_eq_of_lt h, BitVec.ofNat_toNat, BitVec.setWidth_eq]

theorem map_lowBits_of_lt {b : Nat} {xs : List Word} (h : ∀ x ∈ xs, x.toNat < 2 ^ b) : xs.map (lowBits b) = xs :=
  (List.map_congr_left fun x hx => lowBits_of_lt (h x hx)).trans (List.map_id' xs)

/-- The digits of a number of `b` words are its words (R121). -/
theorem joinBits_digits (b S : Nat) : joinBits 32 ((List.range b).map (digit 32 S)) = S % 2 ^ (32 * b) := by
  induction b generalizing S with
  | zero => simp [joinBits, Nat.mod_one]
  | succ b ih =>
    have shift (t : Nat) : digit 32 S (t + 1) = digit 32 (S / 2 ^ 32) t := by
      rw [digit, digit, Nat.div_div_eq_div_mul, ← Nat.pow_add, Nat.add_mul, Nat.one_mul, Nat.add_comm 32]
    have first : (digit 32 S 0).toNat % 2 ^ 32 = S % 2 ^ 32 := by
      rw [digit_toNat (by omega), Nat.zero_mul, Nat.pow_zero, Nat.div_one, Nat.mod_mod]
    rw [List.range_succ_eq_map, List.map_cons, List.map_map, joinBits, first]
    simp only [Function.comp_def, Nat.succ_eq_add_one, shift]
    rw [ih, show 32 * (b + 1) = 32 + 32 * b by omega, Nat.pow_add, Nat.mod_mul]

/-- A positional number of 32 digits survives the cut into words. -/
theorem joinBits_words {b : Nat} {xs : List Word} (h : xs.length = 32) :
    joinBits 32 ((List.range b).map (digit 32 (joinBits b xs))) = joinBits b xs := by
  rw [joinBits_digits]
  refine Nat.mod_eq_of_lt ?_
  have hlt := joinBits_lt b xs
  rwa [h, Nat.mul_comm] at hlt

theorem digit_joinBits (b : Nat) {xs : List Word} {j : Nat} (hj : j < xs.length) :
    digit b (joinBits b xs) j = lowBits b xs[j] := by
  rw [digit, joinBits_digit b xs hj, lowBits]

/-- The words of a lane are the digits of its number (R122, R123). -/
theorem laneWords_vpack (b : Nat) (v : List Word) {l : Nat} (hl : l < 4) :
    laneWords b (vpack b v) l = (List.range b).map (digit 32 (joinBits b (laneOf v l))) := by
  refine List.map_congr_left fun t ht => ?_
  have htb := List.mem_range.1 ht
  have hlen : 4 * t + l < (vpack b v).length := by simp; omega
  rw [List.getD_eq_getElem _ _ hlen]
  simp only [vpack, List.getElem_map, List.getElem_range]
  rw [show (4 * t + l) % 4 = l by omega, show (4 * t + l) / 4 = t by omega]

theorem vunpack_vpack {b : Nat} {v : List Word} (hv : v.length = 128) :
    vunpack b (vpack b v) = v.map (lowBits b) := by
  apply List.ext_getElem (by simp [hv])
  intro i h1 h2
  have hi : i < 128 := by simpa using h1
  simp only [vunpack, List.getElem_map, List.getElem_range]
  rw [laneWords_vpack b v (by omega), joinBits_words (laneOf_length v _), digit_joinBits b (by simp; omega)]
  simp only [laneOf, List.getElem_map, List.getElem_range]
  rw [show 4 * (i / 4) + i % 4 = i by omega, List.getD_eq_getElem _ _ (by omega)]

theorem sunpack_spack {b : Nat} {v : List Word} (hv : v.length = 32) :
    sunpack b (spack b v) = v.map (lowBits b) := by
  apply List.ext_getElem (by simp [hv])
  intro i h1 h2
  have hi : i < 32 := by simpa using h1
  simp only [sunpack, spack, List.getElem_map, List.getElem_range]
  rw [joinBits_words hv, digit_joinBits b (by omega)]

end Sys2Proof.Machine

/-! SUPPORT. Reading a store back: a rule for reads that end where their words are within `SRC_LEN` and find the
stream malformed where they are cut short (R58), and with it each part of `ES.READ` on what `ES.WRITE` lays out
(R93 to R97, R148, R150). -/

namespace Sys2Proof.Machine

/-! ### Reads of a stream that may be cut short -/

/-- `SRC` does not wrap (R61): what R58 lets pass exists. -/
abbrev SrcExists (s : State) : Prop := s.srcBase + 4 * s.srcLen.toNat ≤ 2 ^ s.cfg.addrW

/-- The words of `SRC` from index `q` on are `ws`, as far as `SRC_LEN` reaches. -/
def HoldsWords (s : State) (q : Nat) (ws : List Word) : Prop :=
  ∀ j, j < ws.length → q + j < s.srcLen.toNat → Memory.readWord s.mem (srcAddr s (q + j)) = ws.getD j 0#32

theorem HoldsWords.append {s : State} {q : Nat} {xs ys : List Word} (h : HoldsWords s q (xs ++ ys)) :
    HoldsWords s q xs ∧ HoldsWords s (q + xs.length) ys := by
  refine ⟨fun j hj hlen => ?_, fun j hj hlen => ?_⟩
  · rw [h j (by rw [List.length_append]; omega) hlen, List.getD_append _ _ _ _ hj]
  · have hget := h (xs.length + j) (by rw [List.length_append]; omega) (by omega)
    rwa [← Nat.add_assoc, List.getD_append_right _ _ _ _ (by omega), Nat.add_sub_cancel_left] at hget

theorem HoldsWords.view {s : State} {q : Nat} {ws : List Word} (h : HoldsWords s q ws)
    (hlen : q + ws.length ≤ s.srcLen.toNat) : srcView s q ws.length = ws := by
  apply List.ext_getElem (by simp)
  intro j h1 h2
  have hget := h j h2 (by omega)
  rw [List.getD_eq_getElem _ _ h2] at hget
  rw [← hget]
  simp only [srcView, Memory.getElem_readWords, srcAddr]
  congr 1
  omega

theorem HoldsWords.srcWord {s : State} {q : Nat} {w : Word} (hs : SrcExists s) (h : HoldsWords s q [w])
    (hlen : q < s.srcLen.toNat) : srcWord s q = .ok w := by
  rw [srcWord_ok ⟨hlen, hs⟩]
  exact congrArg _ (h 0 (by simp) hlen)

theorem holdsWords_of_view {s : State} {q : Nat} {ws : List Word} (h : srcView s q ws.length = ws) :
    HoldsWords s q ws := by
  intro j hj _
  have hget := Memory.getElem_readWords s.mem (srcAddr s q) ws.length j (by simpa using hj)
  change (srcView s q ws.length)[j]'(by simpa using hj) = _ at hget
  simp only [h] at hget
  rw [List.getD_eq_getElem _ _ hj, hget]
  simp only [srcAddr]
  congr 1
  omega

/-- Another exception store, and nothing else changed. -/
def withStore (es : Vector Bucket 32) (s : State) : State := { s with es := es }

@[simp] theorem withStore_fields (es : Vector Bucket 32) (s : State) :
    (withStore es s).es = es ∧ (withStore es s).cfg = s.cfg ∧ (withStore es s).srcLen = s.srcLen := ⟨rfl, rfl, rfl⟩

theorem withStore_self (s : State) : withStore s.es s = s := rfl

theorem setBucket_withStore (k : Fin 32) (b : Bucket) (es : Vector Bucket 32) (s : State) :
    setBucket k b (withStore es s) = withStore (es.set k.val b) s := rfl

theorem srcWord_withStore (es : Vector Bucket 32) (s : State) (q : Nat) : srcWord (withStore es s) q = srcWord s q :=
  rfl

theorem srcWords_withStore (es : Vector Bucket 32) (s : State) (q n : Nat) :
    srcWords (withStore es s) q n = srcWords s q n := by
  induction n generalizing q with
  | zero => rfl
  | succ n ih => simp only [srcWords, srcWord_withStore, ih]

/-- `r` reads words of the stream up to word index `e`, in a state that differs from `s` in the store alone: where
`SRC_LEN` is at least `e` it ends with a value and a store that meet `post`; where it is less, the stream is
malformed (R58). -/
structure Reads {α : Type} (e : Nat) (s : State) (r : Res α) (post : α → Vector Bucket 32 → Prop) : Prop where
  ends : e ≤ s.srcLen.toNat → ∃ a es, r = .ok a (withStore es s) ∧ post a es
  cut : s.srcLen.toNat < e → r = .stop (.malformed .streamEnd)

section Rules

variable {α β : Type} {e e' : Nat} {s : State} {post : α → Vector Bucket 32 → Prop}

theorem Reads.mono {post' : α → Vector Bucket 32 → Prop} {r : Res α} (h : Reads e s r post)
    (hp : ∀ a es, post a es → post' a es) : Reads e s r post' := by
  refine ⟨fun hle => ?_, h.cut⟩
  obtain ⟨a, es, hr, ha⟩ := h.ends hle
  exact ⟨a, es, hr, hp a es ha⟩

/-- A read of nothing further: what comes before reached `e`. -/
theorem reads_ok {a : α} {es : Vector Bucket 32} (he : e ≤ s.srcLen.toNat) (h : post a es) :
    Reads e s (.ok a (withStore es s)) post :=
  ⟨fun _ => ⟨a, es, rfl, h⟩, fun hlt => absurd he (by omega)⟩

theorem Reads.bind {post' : β → Vector Bucket 32 → Prop} {r : Res α} {k : α → State → Res β} (h : Reads e s r post)
    (hle : e ≤ e')
    (hk : ∀ a es, e ≤ s.srcLen.toNat → post a es → Reads e' s (k a (withStore es s)) post') :
    Reads e' s (r.bind k) post' := by
  by_cases hend : e ≤ s.srcLen.toNat
  · obtain ⟨a, es, rfl, ha⟩ := h.ends hend
    exact ⟨(hk a es hend ha).ends, (hk a es hend ha).cut⟩
  · rw [h.cut (by omega), Res.bind_stop]
    exact ⟨fun _ => by omega, fun _ => rfl⟩

theorem reads_word {q : Nat} {es : Vector Bucket 32} {w : Word} {k : Word → Res α} (hs : SrcExists s)
    (hw : HoldsWords s q [w])
    (hle : q + 1 ≤ e) (hk : q + 1 ≤ s.srcLen.toNat → Reads e s (k w) post) :
    Reads e s (Res.need (srcWord (withStore es s) q) k) post := by
  rw [srcWord_withStore]
  by_cases hend : q + 1 ≤ s.srcLen.toNat
  · rw [hw.srcWord hs hend]
    exact hk hend
  · rw [srcWord_end (by omega)]
    exact ⟨fun _ => by omega, fun _ => rfl⟩

theorem reads_words {q n : Nat} {es : Vector Bucket 32} {ws : List Word} {k : List Word → Res α} (hs : SrcExists s)
    (hw : HoldsWords s q ws) (hn : ws.length = n) (hpos : 0 < n) (hle : q + n ≤ e)
    (hk : q + n ≤ s.srcLen.toNat → Reads e s (k ws) post) :
    Reads e s (Res.need (srcWords (withStore es s) q n) k) post := by
  rw [srcWords_withStore]
  subst hn
  by_cases hend : q + ws.length ≤ s.srcLen.toNat
  · rw [srcWords_ok ⟨hend, hs⟩, hw.view hend]
    exact hk hend
  · rw [srcWords_cut hs hpos (by omega)]
    exact ⟨fun _ => by omega, fun _ => rfl⟩

end Rules

/-! ### The groups of a bucket -/

/-- The words of the vector groups of bucket `k` (R95). -/
def vectorGroups (k : Fin 32) (g : Nat) (val : List Word) : List Word :=
  (List.range g).flatMap fun j => vpack (k.val + 1) ((val.drop (128 * j)).take 128)

/-- The words of the tail groups of bucket `k`, which hold `tail` (R97). -/
def tailGroupWords (k : Fin 32) (t : Nat) (tail : List Word) : List Word :=
  (List.range t).flatMap fun j => spack (k.val + 1) ((tail.drop (32 * j)).take 32)

theorem vectorGroups_succ (k : Fin 32) (g : Nat) (val : List Word) :
    vectorGroups k (g + 1) val = vpack (k.val + 1) (val.take 128) ++ vectorGroups k g (val.drop 128) := by
  simp [vectorGroups, List.range_succ_eq_map, List.flatMap_cons, List.flatMap_map, List.drop_drop, Nat.mul_add,
    Nat.add_comm]

theorem tailGroupWords_succ (k : Fin 32) (t : Nat) (tail : List Word) :
    tailGroupWords k (t + 1) tail = spack (k.val + 1) (tail.take 32) ++ tailGroupWords k t (tail.drop 32) := by
  simp [tailGroupWords, List.range_succ_eq_map, List.flatMap_cons, List.flatMap_map, List.drop_drop, Nat.mul_add,
    Nat.add_comm]

@[simp] theorem vectorGroups_length (k : Fin 32) (g : Nat) (val : List Word) :
    (vectorGroups k g val).length = 4 * (k.val + 1) * g := by
  simp [vectorGroups, List.length_flatMap, Nat.mul_comm]

@[simp] theorem tailGroupWords_length (k : Fin 32) (t : Nat) (tail : List Word) :
    (tailGroupWords k t tail).length = (k.val + 1) * t := by
  simp [tailGroupWords, List.length_flatMap, Nat.mul_comm]

/-- Bucket `k` of `es` with residuals appended. -/
def appended (es : Vector Bucket 32) (k : Fin 32) (xs : List Word) : Vector Bucket 32 :=
  es.set k.val { es[k.val] with val := es[k.val].val ++ xs }

theorem appended_nil (es : Vector Bucket 32) (k : Fin 32) : appended es k [] = es := by
  simp only [appended, List.append_nil]
  exact Vector.set_getElem_self k.isLt

theorem appended_appended (es : Vector Bucket 32) (k : Fin 32) (xs ys : List Word) :
    appended (appended es k xs) k ys = appended es k (xs ++ ys) := by
  simp [appended]

/-- What is taken from a packed vector group (R148). -/
theorem takeEsG128_vpack {k : Fin 32} {xs : List Word} (h : xs.length = 128) (es : Vector Bucket 32) (s : State) :
    takeEsG128 k (vpack (k.val + 1) xs) (withStore es s) =
      withStore (appended es k (xs.map (lowBits (k.val + 1)))) s := by
  rw [takeEsG128, vunpack_vpack h]
  rfl

/-- What is taken from a packed tail group of which `n` values are residuals (R148). -/
theorem takeEsG32_spack {k : Fin 32} {xs : List Word} (h : xs.length = 32) (n : Nat) (es : Vector Bucket 32)
    (s : State) :
    takeEsG32 k n (spack (k.val + 1) xs) (withStore es s) =
      withStore (appended es k ((xs.take n).map (lowBits (k.val + 1)))) s := by
  rw [takeEsG32, sunpack_spack h, ← List.map_take]
  rfl

/-- The vector groups are read back, every residual cut to the bucket's width (R148). -/
theorem readG128s_reads {k : Fin 32} {g q : Nat} {s : State} {es : Vector Bucket 32} {val : List Word}
    (hs : SrcExists s) (hw : HoldsWords s q (vectorGroups k g val)) (hlen : 128 * g ≤ val.length) (hq : g = 0 → q ≤ s.srcLen.toNat) :
    Reads (q + 4 * (k.val + 1) * g) s (readG128s k g q (withStore es s)) fun q' es' =>
      q' = q + 4 * (k.val + 1) * g ∧ es' = appended es k ((val.take (128 * g)).map (lowBits (k.val + 1))) := by
  induction g generalizing q es val with
  | zero => exact reads_ok (hq rfl) ⟨rfl, by simp [appended_nil]⟩
  | succ g ih =>
    rw [vectorGroups_succ] at hw
    obtain ⟨hfirst, hrest⟩ := hw.append
    rw [vpack_length] at hrest
    have hend : q + 4 * (k.val + 1) * (g + 1) = q + 4 * (k.val + 1) + 4 * (k.val + 1) * g := by ring
    rw [hend]
    refine reads_words hs hfirst (vpack_length _ _) (by omega) (by omega) fun hle => ?_
    rw [takeEsG128_vpack (by simp; omega)]
    refine (ih hrest (by simp; omega) fun _ => hle).mono ?_
    rintro _ _ ⟨rfl, rfl⟩
    refine ⟨rfl, ?_⟩
    rw [appended_appended, ← List.map_append, Nat.mul_add, Nat.mul_one, Nat.add_comm _ 128, List.take_add]

/-- The tail groups are read back; what fills the last one up is discarded (R148). -/
theorem readG32s_reads {k : Fin 32} {t r q : Nat} {s : State} {es : Vector Bucket 32} {tail : List Word}
    (hs : SrcExists s) (hw : HoldsWords s q (tailGroupWords k t tail)) (hlen : tail.length = 32 * t) (hq : q ≤ s.srcLen.toNat) :
    Reads (q + (k.val + 1) * t) s (readG32s k t r q (withStore es s)) fun q' es' =>
      q' = q + (k.val + 1) * t ∧ es' = appended es k ((tail.take r).map (lowBits (k.val + 1))) := by
  induction t generalizing q es r tail with
  | zero =>
    have : tail = [] := List.eq_nil_of_length_eq_zero hlen
    subst this
    exact reads_ok hq ⟨rfl, by simp [appended_nil]⟩
  | succ t ih =>
    rw [tailGroupWords_succ] at hw
    obtain ⟨hfirst, hrest⟩ := hw.append
    rw [spack_length] at hrest
    have hend : q + (k.val + 1) * (t + 1) = q + (k.val + 1) + (k.val + 1) * t := by ring
    rw [hend]
    refine reads_words hs hfirst (spack_length _ _) (by omega) (by omega) fun hle => ?_
    rw [takeEsG32_spack (by simp; omega)]
    refine (ih hrest (by simp; omega) hle).mono ?_
    rintro _ _ ⟨rfl, rfl⟩
    refine ⟨rfl, ?_⟩
    rw [appended_appended, ← List.map_append, List.take_take]
    congr 2
    by_cases hr : r ≤ 32
    · simp [hr]
    · rw [Nat.min_eq_left (by omega), Nat.min_eq_left (by omega), ← List.take_add, Nat.add_sub_cancel' (by omega)]

/-! ### One bucket -/

/-- The words of the groups of bucket `k` holding `val` (R95, R97). -/
def groupWords (k : Fin 32) (val : List Word) : List Word :=
  vectorGroups k (val.length / 128) val ++
    tailGroupWords k (tailGroups val.length)
      (val.drop (128 * (val.length / 128)) ++
        List.replicate (32 * tailGroups val.length - tailCount val.length) 0#32)

theorem bucketPad_eq (i c : Nat) : bucketPad i c = if 1 ≤ c / 128 then padTo4 (i + 1) else 0 := by
  unfold bucketPad
  have hdiv : c < 128 ↔ ¬1 ≤ c / 128 := by omega
  rw [roundup_eq_add_padTo4, Nat.add_sub_cancel_left]
  split_ifs <;> first | rfl | omega

/-- The words of a bucket: its count, zeros, its groups (R94 to R97). -/
theorem wordsOf_bucketRecords (i : Nat) (k : Fin 32) (val : List Word) :
    wordsOf (bucketRecords i k val) =
      [BitVec.ofNat 32 val.length] ++ (List.replicate (bucketPad i val.length) 0#32 ++ groupWords k val) := by
  have pads (n : Nat) : (List.replicate n Instr.esPad).flatMap recWords = List.replicate n 0#32 := by
    induction n with
    | zero => rfl
    | succ n ih => simp only [List.replicate_succ, List.flatMap_cons, ih]; rfl
  simp only [wordsOf, bucketRecords, groupWords, vectorGroups, tailGroupWords, List.flatMap_cons, List.flatMap_append,
    List.flatMap_map, recWords, bucketPad_eq, pads, List.append_assoc]

theorem groupWords_length (k : Fin 32) (val : List Word) :
    (groupWords k val).length =
      4 * (k.val + 1) * (val.length / 128) + (k.val + 1) * tailGroups val.length := by
  simp [groupWords]

theorem wordsOf_bucketRecords_length (i : Nat) (k : Fin 32) {val : List Word} (h : val ≠ []) :
    (wordsOf (bucketRecords i k val)).length = bucketLength i k.val val.length := by
  have hpos : val.length ≠ 0 := fun h0 => h (List.eq_nil_of_length_eq_zero h0)
  rw [wordsOf_bucketRecords, bucketLength, if_neg hpos]
  simp only [List.length_append, List.length_singleton, List.length_replicate, groupWords_length, tailGroups, tailCount]
  omega

/-- The words of `SRC` from index `q` on are those of bucket `k` holding `val`, its padding words holding
anything, as far as `SRC_LEN` reaches (R94 to R97). -/
def HoldsBucket (s : State) (q : Nat) (k : Fin 32) (val : List Word) : Prop :=
  HoldsWords s q [BitVec.ofNat 32 val.length] ∧ HoldsWords s (q + (1 + bucketPad q val.length)) (groupWords k val)

/-- What a bucket holds once it has been read: its residuals, each cut to the width of the bucket. -/
def ReadBack (es : Vector Bucket 32) (k : Fin 32) (val : List Word) : Prop :=
  es[k.val].val = val.map (lowBits (k.val + 1)) ∧ es[k.val].rd = 0

/-- The store in which bucket `k` has been emptied for `n` residuals (R148). -/
def opened (es : Vector Bucket 32) (k : Fin 32) (n : Nat) : Vector Bucket 32 :=
  es.set k.val { val := [], rd := 0, cap := grownCap 0 es[k.val].cap n }

theorem esEnsure_openBucket (k : Fin 32) (n : Nat) (es : Vector Bucket 32) (s : State) :
    esEnsure k n (openBucket k (withStore es s)) = withStore (opened es k n) s := by
  simp only [esEnsure, openBucket, setBucket_withStore, withStore_fields, Vector.getElem_set_self, Vector.set_set]
  rfl

theorem takeEsCount_withStore (k : Fin 32) (c : Word) (es : Vector Bucket 32) (s : State) :
    takeEsCount k c (withStore es s) =
      if c = 0#32 ∨ bucketBound s.cfg < c.toNat then .stop (.malformed .bucketCount)
      else .ok () (withStore (opened es k c.toNat) s) := by
  rw [takeEsCount, esEnsure_openBucket, (withStore_fields es s).2.1]

/-- The groups of a bucket are read back to what it held. -/
theorem groups_append {val : List Word} (n : Nat) :
    val.take (128 * (val.length / 128)) ++
        (val.drop (128 * (val.length / 128)) ++ List.replicate n 0#32).take (tailCount val.length) = val := by
  have hlen : tailCount val.length = (val.drop (128 * (val.length / 128))).length := by
    rw [List.length_drop, tailCount]
    omega
  rw [hlen, List.take_left, List.take_append_drop]

/-- A bucket within its bound is read back (R148, R150). -/
theorem esReadBucket_reads {m : Word} {k : Fin 32} {q : Nat} {s : State} {es : Vector Bucket 32} {val : List Word}
    (hs : SrcExists s) (hm : m.getLsbD k.val = true) (hval : val ≠ []) (hbound : val.length ≤ bucketBound s.cfg)
    (hw : HoldsBucket s q k val) :
    Reads (q + bucketLength q k.val val.length) s (esReadBucket m k q (withStore es s)) fun q' es' =>
      q' = q + bucketLength q k.val val.length ∧ ReadBack es' k val ∧ ∀ j : Fin 32, j ≠ k → es'[j.val] = es[j.val] := by
  have hpos : val.length ≠ 0 := fun h0 => hval (List.eq_nil_of_length_eq_zero h0)
  have hcount : (BitVec.ofNat 32 val.length).toNat = val.length := by
    have := s.cfg.pageSize_max
    unfold bucketBound at hbound
    rw [BitVec.toNat_ofNat]
    exact Nat.mod_eq_of_lt (by omega)
  have htake : takeEsCount k (BitVec.ofNat 32 val.length) (withStore es s) =
      .ok () (withStore (opened es k val.length) s) := by
    rw [takeEsCount_withStore, hcount, if_neg]
    rintro (h0 | h0)
    · rw [h0] at hcount
      exact hpos hcount.symm
    · omega
  have hstart : (if 1 ≤ val.length / 128 then roundup (q + 1) 4 else q + 1) = q + (1 + bucketPad q val.length) := by
    rw [bucketPad_eq, roundup_eq_add_padTo4]
    split_ifs <;> omega
  obtain ⟨hhead, hgroups⟩ := hw
  obtain ⟨hvec, htail⟩ := hgroups.append
  rw [vectorGroups_length] at htail
  have hlen : q + bucketLength q k.val val.length =
      q + (1 + bucketPad q val.length) + 4 * (k.val + 1) * (val.length / 128) + (k.val + 1) * tailGroups val.length := by
    rw [bucketLength, if_neg hpos, tailGroups, tailCount]
    omega
  rw [esReadBucket, if_pos hm, hlen]
  refine reads_word hs hhead (by omega) fun hle => ?_
  rw [htake, Res.bind_ok, hcount, hstart]
  refine Reads.bind (readG128s_reads hs hvec (Nat.mul_div_le _ _) fun h0 => ?_) (by omega) ?_
  · simp only [bucketPad_eq, h0]
    simpa using hle
  rintro _ _ hle' ⟨rfl, rfl⟩
  refine (readG32s_reads hs htail ?_ hle').mono ?_
  · have := ceilDiv_four (tailCount val.length)
    simp only [List.length_append, List.length_drop, List.length_replicate, tailGroups, tailCount, ceilDiv] at *
    omega
  · rintro _ _ ⟨rfl, rfl⟩
    rw [appended_appended, ← List.map_append, groups_append]
    refine ⟨rfl, ⟨by simp [appended, opened], by simp [appended, opened]⟩, fun j hj => ?_⟩
    have hne : k.val ≠ j.val := fun h => hj (Fin.ext h.symm)
    simp [appended, opened, Vector.getElem_set_ne _ _ hne]

/-! ### The store -/

/-- The words of `SRC` from index `q` on are those of the nonempty buckets among `ks`, their padding words
holding anything, as far as `SRC_LEN` reaches (R94). -/
def HoldsBuckets (s : State) (es : Vector Bucket 32) : List (Fin 32) → Nat → Prop
  | [], _ => True
  | k :: ks, q =>
    if es[k.val].val = [] then HoldsBuckets s es ks q
    else HoldsBucket s q k es[k.val].val ∧ HoldsBuckets s es ks (q + bucketLength q k.val es[k.val].val.length)

theorem HoldsWords.bucket {s : State} {q : Nat} {k : Fin 32} {val : List Word}
    (h : HoldsWords s q (wordsOf (bucketRecords q k val))) : HoldsBucket s q k val := by
  rw [wordsOf_bucketRecords] at h
  obtain ⟨hcount, hrest⟩ := h.append
  have hgroups := hrest.append.2
  rw [List.length_singleton, List.length_replicate, Nat.add_assoc] at hgroups
  exact ⟨hcount, hgroups⟩

theorem wordsOf_bucketsRecords_cons (es : Vector Bucket 32) (k : Fin 32) (ks : List (Fin 32)) (q : Nat) :
    wordsOf (bucketsRecords es (k :: ks) q) =
      if es[k.val].val = [] then wordsOf (bucketsRecords es ks q)
      else wordsOf (bucketRecords q k es[k.val].val) ++
        wordsOf (bucketsRecords es ks (q + bucketLength q k.val es[k.val].val.length)) := by
  rw [bucketsRecords]
  split
  · rfl
  · rename_i h
    rw [wordsOf_bucketRecords_length _ _ h, wordsOf, List.flatMap_append]

/-- Words that are those of the records, padding included. -/
theorem HoldsWords.buckets {s : State} {es : Vector Bucket 32} {ks : List (Fin 32)} {q : Nat}
    (h : HoldsWords s q (wordsOf (bucketsRecords es ks q))) : HoldsBuckets s es ks q := by
  induction ks generalizing q with
  | nil => trivial
  | cons k ks ih =>
    rw [wordsOf_bucketsRecords_cons] at h
    rw [HoldsBuckets]
    split_ifs at h ⊢ with hk
    · exact ih h
    · obtain ⟨hbucket, hrest⟩ := h.append
      rw [wordsOf_bucketRecords_length _ _ hk] at hrest
      exact ⟨hbucket.bucket, ih hrest⟩

/-- The bitmap `m` names, among the buckets `ks`, those that hold residuals, and these are within their bound
(R37, R93). -/
def Names (m : Word) (p : Params) (es : Vector Bucket 32) (ks : List (Fin 32)) : Prop :=
  ∀ k ∈ ks, es[k.val].val.length ≤ bucketBound p ∧ (m.getLsbD k.val = true ↔ es[k.val].val ≠ [])

/-- From the store `st` to `st'` the buckets `ks` have been read back to what they hold in `es`, and no other
bucket has changed. -/
def StoreRead (es : Vector Bucket 32) (ks : List (Fin 32)) (st st' : Vector Bucket 32) : Prop :=
  ∀ k : Fin 32, if k ∈ ks then ReadBack st' k es[k.val].val else st'[k.val] = st[k.val]

/-- One bucket read back, and then others, of which it may be one. -/
theorem StoreRead.cons {es st st' st'' : Vector Bucket 32} {k : Fin 32} {ks : List (Fin 32)}
    (hk : ReadBack st' k es[k.val].val) (hsame : ∀ j : Fin 32, j ≠ k → st'[j.val] = st[j.val])
    (hks : StoreRead es ks st' st'') : StoreRead es (k :: ks) st st'' := by
  intro j
  have hj := hks j
  by_cases hmem : j ∈ ks
  · rw [if_pos hmem] at hj
    rwa [if_pos (List.mem_cons_of_mem _ hmem)]
  · rw [if_neg hmem] at hj
    by_cases hjk : j = k
    · subst hjk
      rw [if_pos (List.mem_cons_self ..), ReadBack, hj]
      exact hk
    · rw [if_neg (by simp [hmem, hjk]), hj, hsame j hjk]

/-- Buckets within their bounds are read back, and no other bucket is touched (R148, R150). -/
theorem esReadBuckets_reads {m : Word} {s : State} {es : Vector Bucket 32} {ks : List (Fin 32)} {q : Nat}
    {st : Vector Bucket 32} (hs : SrcExists s) (hm : Names m s.cfg es ks) (hw : HoldsBuckets s es ks q)
    (hq : q ≤ s.srcLen.toNat) :
    Reads (q + (wordsOf (bucketsRecords es ks q)).length) s (esReadBuckets m ks q (withStore st s)) fun q' st' =>
      q' = q + (wordsOf (bucketsRecords es ks q)).length ∧
        StoreRead es ks st st' := by
  induction ks generalizing q st with
  | nil => exact reads_ok hq ⟨rfl, fun k => by simp⟩
  | cons k ks ih =>
    obtain ⟨hbound, hbit⟩ := hm k (List.mem_cons_self ..)
    have hrest : Names m s.cfg es ks := fun j hj => hm j (List.mem_cons_of_mem _ hj)
    rw [HoldsBuckets] at hw
    rw [wordsOf_bucketsRecords_cons, esReadBuckets]
    split_ifs at hw ⊢ with hk
    · have hskip : esReadBucket m k q (withStore st s) = .ok q (openBucket k (withStore st s)) := by
        rw [esReadBucket, if_neg fun h => hbit.1 h hk]
      rw [hskip, Res.bind_ok, openBucket, setBucket_withStore]
      refine (ih hrest hw hq).mono ?_
      rintro q' st' ⟨rfl, hst⟩
      refine ⟨rfl, StoreRead.cons ⟨by simp [hk], by simp⟩ (fun j hj => ?_) hst⟩
      have hne : k.val ≠ j.val := fun h => hj (Fin.ext h.symm)
      simp [Vector.getElem_set_ne _ _ hne]
    · obtain ⟨hbucket, hafter⟩ := hw
      rw [List.length_append, wordsOf_bucketRecords_length _ _ hk, ← Nat.add_assoc]
      refine (esReadBucket_reads hs (hbit.2 hk) hk hbound hbucket).bind (by omega) ?_
      rintro _ st' hle ⟨rfl, hread, hsame⟩
      refine (ih hrest hafter hle).mono ?_
      rintro q' st'' ⟨rfl, hst⟩
      exact ⟨rfl, hst.cons hread hsame⟩

theorem esReadBuckets_append (m : Word) (xs ys : List (Fin 32)) (q : Nat) (s : State) :
    esReadBuckets m (xs ++ ys) q s = (esReadBuckets m xs q s).bind fun q s => esReadBuckets m ys q s := by
  induction xs generalizing q s with
  | nil => rfl
  | cons x xs ih => simp only [List.cons_append, esReadBuckets, Res.bind_assoc, ih]

/-- The bit of a bucket in the bitmap, as a number (R93). -/
def bucketFlag (es : Vector Bucket 32) (k : Fin 32) : Word := if es[k.val].val = [] then 0#32 else 1#32

theorem esBitmapOf_eq (es : Vector Bucket 32) :
    esBitmapOf es = BitVec.ofNat 32 (joinBits 1 (bucketNumbers.map (bucketFlag es))) := rfl

theorem bucketFlags_digit (es : Vector Bucket 32) (k : Fin 32) :
    joinBits 1 (bucketNumbers.map (bucketFlag es)) / 2 ^ k.val % 2 = (bucketFlag es k).toNat % 2 := by
  have hlen : k.val < (bucketNumbers.map (bucketFlag es)).length := by simp [bucketNumbers]
  have hflag : (bucketNumbers.map (bucketFlag es))[k.val] = bucketFlag es k := by
    rw [List.getElem_map]
    exact congrArg (bucketFlag es) (by simp [bucketNumbers])
  have hdigit := joinBits_digit 1 _ hlen
  rwa [hflag, Nat.mul_one, Nat.pow_one] at hdigit

/-- Bit `k` of the bitmap says that bucket `k` holds a residual (R93). -/
theorem esBitmapOf_getLsbD (es : Vector Bucket 32) (k : Fin 32) :
    (esBitmapOf es).getLsbD k.val = true ↔ es[k.val].val ≠ [] := by
  rw [esBitmapOf_eq, BitVec.getLsbD_ofNat, Nat.testBit_eq_decide_div_mod_eq, bucketFlags_digit, bucketFlag]
  by_cases h : es[k.val].val = [] <;> simp [h]

/-- `ES.READ` of a store within its bounds (R148, R150). -/
theorem esRead_reads {s : State} {es : Vector Bucket 32} {p : Nat} (hs : SrcExists s)
    (hbound : ∀ k : Fin 32, es[k.val].val.length ≤ bucketBound s.cfg) (hbitmap : HoldsWords s p [esBitmapOf es])
    (hw : HoldsBuckets s es bucketNumbers (p + 1)) :
    Reads (p + (wordsOf (esRecords p es)).length) s (esRead p s) fun n st =>
      n = (wordsOf (esRecords p es)).length ∧ ∀ k : Fin 32, ReadBack st k es[k.val].val := by
  have hlen : (wordsOf (esRecords p es)).length = 1 + (wordsOf (bucketsRecords es bucketNumbers (p + 1))).length := by
    simp [esRecords, wordsOf, recWords, Nat.add_comm]
  rw [esRead, ← withStore_self s, hlen]
  refine reads_word hs hbitmap (by omega) fun hle => ?_
  refine (esReadBuckets_reads hs (fun k _ => ⟨hbound k, esBitmapOf_getLsbD es k⟩) hw hle).bind (by omega) ?_
  rintro _ st hle' ⟨rfl, hst⟩
  refine reads_ok (by omega) ⟨by omega, fun k => ?_⟩
  simpa [bucketNumbers] using hst k

end Sys2Proof.Machine

/-! SUPPORT. Where the padding words of a store lie (R96), so that reading it back asks nothing of them; and what
`ES.READ` does with a count that is out of range (R104 item 4). -/

namespace Sys2Proof.Machine

/-! ### The store depends on its place modulo 4 alone -/

theorem bucketPad_mod {i j : Nat} (h : i % 4 = j % 4) (c : Nat) : bucketPad i c = bucketPad j c := by
  rw [bucketPad_eq, bucketPad_eq, padTo4_mod (i + 1), padTo4_mod (j + 1), show (i + 1) % 4 = (j + 1) % 4 by omega]

theorem bucketLength_mod {i j : Nat} (h : i % 4 = j % 4) (k c : Nat) : bucketLength i k c = bucketLength j k c := by
  rw [bucketLength, bucketLength, bucketPad_mod h]

theorem bucketRecords_mod {i j : Nat} (h : i % 4 = j % 4) (k : Fin 32) (val : List Word) :
    bucketRecords i k val = bucketRecords j k val := by
  rw [bucketRecords, bucketRecords, padTo4_mod (i + 1), padTo4_mod (j + 1), show (i + 1) % 4 = (j + 1) % 4 by omega]

theorem bucketsRecords_mod {i j : Nat} (h : i % 4 = j % 4) (es : Vector Bucket 32) (ks : List (Fin 32)) :
    bucketsRecords es ks i = bucketsRecords es ks j := by
  induction ks generalizing i j with
  | nil => rfl
  | cons k ks ih =>
    have hnext (n : Nat) : (i + n) % 4 = (j + n) % 4 := by omega
    rw [bucketsRecords, bucketsRecords, bucketRecords_mod h, ih h, ih (hnext _)]

theorem esRecords_mod {i j : Nat} (h : i % 4 = j % 4) (es : Vector Bucket 32) : esRecords i es = esRecords j es := by
  rw [esRecords, esRecords, bucketsRecords_mod (show (i + 1) % 4 = (j + 1) % 4 by omega)]

theorem bucketStart_shift {o p : Nat} (h : o % 4 = p % 4) (cnt : Nat → Nat) (n : Nat) :
    bucketStart p cnt n + o = bucketStart o cnt n + p := by
  induction n with
  | zero => simp only [bucketStart]; omega
  | succ n ih =>
    simp only [bucketStart]
    rw [bucketLength_mod (show bucketStart p cnt n % 4 = bucketStart o cnt n % 4 by omega)]
    omega

theorem storePadding_shift {o p : Nat} (h : o % 4 = p % 4) (cnt : Nat → Nat) (i : Nat) :
    StorePadding p cnt i → StorePadding o cnt i := by
  rintro ⟨k, hk, hcnt, hlow, hhigh⟩
  have hshift := bucketStart_shift h cnt k
  rw [bucketPad_mod (show bucketStart p cnt k % 4 = bucketStart o cnt k % 4 by omega)] at hhigh
  exact ⟨k, hk, hcnt, by omega, by omega⟩

/-! ### Where the buckets of a store lie -/

theorem countsOf_eq (es : Vector Bucket 32) {n : Nat} (hn : n < 32) : countsOf es n = es[n].val.length := by
  simp [countsOf, List.getD_eq_getElem?_getD, hn]

theorem bucketStart_gt (o : Nat) (cnt : Nat → Nat) (n : Nat) : o < bucketStart o cnt n := by
  induction n with
  | zero => exact Nat.lt_succ_self o
  | succ n ih => exact Nat.lt_of_lt_of_le ih (Nat.le_add_right _ _)

theorem bucketStart_le {o m n : Nat} (cnt : Nat → Nat) (h : m ≤ n) : bucketStart o cnt m ≤ bucketStart o cnt n := by
  induction h with
  | refl => exact Nat.le_refl _
  | step _ ih => exact Nat.le_trans ih (Nat.le_add_right _ _)

theorem bucketPad_lt_bucketLength {i k c : Nat} (h : c ≠ 0) : bucketPad i c < bucketLength i k c := by
  rw [bucketLength, if_neg h]
  omega

/-- In a bucket, the padding is what follows the count, as far as `bucketPad` says. -/
theorem not_storePadding {o n j : Nat} {cnt : Nat → Nat} (hj : j < bucketLength (bucketStart o cnt n) n (cnt n))
    (hfixed : j = 0 ∨ bucketPad (bucketStart o cnt n) (cnt n) < j) :
    ¬StorePadding o cnt (bucketStart o cnt n - o + j) := by
  rintro ⟨k, -, hcnt, hlow, hhigh⟩
  have hgt := bucketStart_gt o cnt n
  have hpad := bucketPad_lt_bucketLength (i := bucketStart o cnt k) (k := k) hcnt
  rcases Nat.lt_trichotomy k n with hkn | rfl | hkn
  · have hle : bucketStart o cnt (k + 1) ≤ bucketStart o cnt n := bucketStart_le cnt hkn
    rw [bucketStart] at hle
    omega
  · omega
  · have hle : bucketStart o cnt (n + 1) ≤ bucketStart o cnt k := bucketStart_le cnt hkn
    rw [bucketStart] at hle
    omega

theorem bucketNumbers_drop {n : Nat} (hn : n < 32) :
    bucketNumbers.drop n = ⟨n, hn⟩ :: bucketNumbers.drop (n + 1) := by
  rw [List.drop_eq_getElem_cons (by simpa [bucketNumbers] using hn)]
  simp [bucketNumbers]

theorem mem_bucketNumbers_take {n : Nat} {j : Fin 32} (h : j ∈ bucketNumbers.take n) : j.val < n := by
  obtain ⟨i, hi, rfl⟩ := List.mem_take_iff_getElem.1 h
  simp [bucketNumbers]
  omega

theorem mem_bucketNumbers_drop {n : Nat} {j : Fin 32} (h : j ∈ bucketNumbers.drop n) : n ≤ j.val := by
  obtain ⟨i, hi, rfl⟩ := List.mem_drop_iff_getElem.1 h
  simp [bucketNumbers]

/-- The words of a store from where bucket `n` begins are those of the buckets from `n` on. -/
theorem storeWords_drop (es : Vector Bucket 32) (o : Nat) {n : Nat} (hn : n ≤ 32) :
    (wordsOf (esRecords o es)).drop (bucketStart o (countsOf es) n - o) =
      wordsOf (bucketsRecords es (bucketNumbers.drop n) (bucketStart o (countsOf es) n)) := by
  induction n with
  | zero =>
    simp only [bucketStart, Nat.add_sub_cancel_left]
    rfl
  | succ n ih =>
    have hgt := bucketStart_gt o (countsOf es) n
    have hcnt := countsOf_eq es (n := n) hn
    have hstep := ih (by omega)
    rw [bucketNumbers_drop hn, wordsOf_bucketsRecords_cons] at hstep
    have hsplit : bucketStart o (countsOf es) (n + 1) - o = bucketStart o (countsOf es) n - o +
        bucketLength (bucketStart o (countsOf es) n) n (countsOf es n) := by
      rw [bucketStart]
      omega
    rw [hsplit, ← List.drop_drop, hstep, bucketStart]
    split
    · rename_i h
      simp only at h
      simp [hcnt, h, bucketLength]
    · rename_i h
      rw [hcnt]
      exact List.drop_left' (wordsOf_bucketRecords_length _ _ h)

/-- A bucket whose words stand as they are, but for the padding. -/
theorem holdsBucket_of_unpadded {s : State} {q : Nat} {k : Fin 32} {val : List Word} (hval : val ≠ [])
    (h : ∀ j, j < bucketLength q k.val val.length → q + j < s.srcLen.toNat →
      j = 0 ∨ bucketPad q val.length < j →
      Memory.readWord s.mem (srcAddr s (q + j)) = (wordsOf (bucketRecords q k val)).getD j 0#32) :
    HoldsBucket s q k val := by
  have hlen := wordsOf_bucketRecords_length q k hval
  rw [wordsOf_bucketRecords] at h hlen
  simp only [List.length_append, List.length_singleton, List.length_replicate] at hlen
  refine ⟨fun j hj hend => ?_, fun j hj hend => ?_⟩
  · rw [h j (by rw [List.length_singleton] at hj; omega) hend (.inl (by simpa using hj)),
      List.getD_append _ _ _ _ hj]
  · rw [Nat.add_assoc] at hend ⊢
    rw [h _ (by omega) hend (.inr (by omega)), List.getD_append_right _ _ _ _ (by simp; omega),
      List.getD_append_right _ _ _ _ (by simp; omega)]
    congr 1
    simp
    omega

/-- A store whose words stand as they are, but for the padding: its buckets from `n` on. -/
theorem holdsBuckets_of_unpadded {s : State} {es : Vector Bucket 32} {p : Nat}
    (h : ∀ i, i < (wordsOf (esRecords p es)).length → p + i < s.srcLen.toNat → ¬StorePadding p (countsOf es) i →
      Memory.readWord s.mem (srcAddr s (p + i)) = (wordsOf (esRecords p es)).getD i 0#32)
    {n : Nat} (hn : n ≤ 32) : HoldsBuckets s es (bucketNumbers.drop n) (bucketStart p (countsOf es) n) := by
  induction hd : 32 - n generalizing n with
  | zero =>
    have : bucketNumbers.drop n = [] := List.drop_eq_nil_of_le (by simp [bucketNumbers]; omega)
    rw [this]
    trivial
  | succ d ih =>
    have hlt : n < 32 := by omega
    have hcnt := countsOf_eq es hlt
    have hrest := ih (n := n + 1) hlt (by omega)
    rw [bucketStart, hcnt] at hrest
    rw [bucketNumbers_drop hlt, HoldsBuckets]
    split
    · rename_i hempty
      simpa [show es[n].val = [] from hempty, bucketLength] using hrest
    · rename_i hval
      refine ⟨holdsBucket_of_unpadded hval fun j hj hend hfixed => ?_, hrest⟩
      have hgt := bucketStart_gt p (countsOf es) n
      have hwords := storeWords_drop es p hn
      rw [bucketNumbers_drop hlt, wordsOf_bucketsRecords_cons, if_neg hval] at hwords
      have hlen := wordsOf_bucketRecords_length (bucketStart p (countsOf es) n) ⟨n, hlt⟩ hval
      have hin : bucketStart p (countsOf es) n - p + j < (wordsOf (esRecords p es)).length := by
        have hl := congrArg List.length hwords
        rw [List.length_drop, List.length_append, hlen] at hl
        omega
      have hget := h _ hin (by omega) (not_storePadding (by rwa [hcnt]) (by rwa [hcnt]))
      rw [show p + (bucketStart p (countsOf es) n - p + j) = bucketStart p (countsOf es) n + j by omega] at hget
      rw [hget, ← List.getD_append (wordsOf (bucketRecords _ _ _)) _ _ _ (by rwa [hlen]), ← hwords]
      simp [List.getD_eq_getElem?_getD]

/-! ### A count out of range -/

/-- Empty buckets have no words. -/
theorem bucketsRecords_empty {es : Vector Bucket 32} {ks : List (Fin 32)} (h : ∀ k ∈ ks, es[k.val].val = []) (q : Nat) :
    bucketsRecords es ks q = [] := by
  induction ks generalizing q with
  | nil => rfl
  | cons k ks ih =>
    rw [bucketsRecords, if_pos (h k (List.mem_cons_self ..)), ih fun j hj => h j (List.mem_cons_of_mem _ hj)]

theorem wordsOf_bucketsRecords_append (es : Vector Bucket 32) (xs ys : List (Fin 32)) (q : Nat)
    (h : ∀ k ∈ ys, es[k.val].val = []) :
    wordsOf (bucketsRecords es (xs ++ ys) q) = wordsOf (bucketsRecords es xs q) := by
  induction xs generalizing q with
  | nil => rw [List.nil_append, bucketsRecords_empty h]; rfl
  | cons x xs ih => simp only [List.cons_append, wordsOf_bucketsRecords_cons, ih]

/-- A count of 0, or above the bound of R37, is a stream that is not well formed (R104 item 4). -/
theorem esReadBucket_count {m c : Word} {k : Fin 32} {q : Nat} {s : State} {es : Vector Bucket 32}
    (hm : m.getLsbD k.val = true) (hc : srcWord s q = .ok c) (hbad : c = 0#32 ∨ bucketBound s.cfg < c.toNat) :
    esReadBucket m k q (withStore es s) = .stop (.malformed .bucketCount) := by
  rw [esReadBucket, if_pos hm, srcWord_withStore, hc, Res.need_ok, takeEsCount_withStore, if_pos hbad, Res.bind_stop]

/-- `ES.READ` of a bitmap `m` that names bucket `k`, where good buckets before it are followed by a bad count. -/
theorem esRead_count {s : State} {es : Vector Bucket 32} {k : Fin 32} {p : Nat} {m c : Word} (hs : SrcExists s)
    (hm : Names m s.cfg es (bucketNumbers.take k.val)) (hk : m.getLsbD k.val = true)
    (hbitmap : srcWord s p = .ok m)
    (hw : HoldsBuckets s es (bucketNumbers.take k.val) (p + 1))
    (hend : p + 1 + (wordsOf (bucketsRecords es (bucketNumbers.take k.val) (p + 1))).length < s.srcLen.toNat)
    (hc : srcWord s (p + 1 + (wordsOf (bucketsRecords es (bucketNumbers.take k.val) (p + 1))).length) = .ok c)
    (hbad : c = 0#32 ∨ bucketBound s.cfg < c.toNat) : esRead p s = .stop (.malformed .bucketCount) := by
  have hsplit : bucketNumbers = bucketNumbers.take k.val ++ k :: bucketNumbers.drop (k.val + 1) := by
    rw [← bucketNumbers_drop k.isLt, List.take_append_drop]
  have hgood := esReadBuckets_reads (st := s.es) hs hm hw (by omega)
  obtain ⟨q, st, hread, rfl, -⟩ := hgood.ends (by omega)
  rw [withStore_self] at hread
  rw [esRead, hbitmap, Res.need_ok, hsplit, esReadBuckets_append, hread, Res.bind_ok, esReadBuckets,
    esReadBucket_count hk hc hbad]
  rfl

/-! ### The statement -/

/-- Settles O41: `esRead_reads` where the buckets are good, read at the same place modulo 4, and `esRead_count`. -/
theorem storeRoundTrip : Obligations.StoreRoundTrip := by
  constructor
  · rintro s es o p ws hbound hmod rfl hs hwords
    rw [esRecords_mod hmod] at hwords ⊢
    have hunpadded : ∀ i, i < (wordsOf (esRecords p.toNat es)).length → p.toNat + i < s.srcLen.toNat →
        ¬StorePadding p.toNat (countsOf es) i →
        Memory.readWord s.mem (srcAddr s (p.toNat + i)) = (wordsOf (esRecords p.toNat es)).getD i 0#32 :=
      fun i hi hend hpad => hwords i hi hend fun h => hpad (storePadding_shift hmod.symm _ _ h)
    have hbitmap : HoldsWords s p.toNat [esBitmapOf es] := by
      intro i hi hend
      obtain rfl : i = 0 := by simpa using hi
      refine hunpadded 0 (by simp [esRecords, wordsOf, recWords]) hend ?_
      rintro ⟨k, -, -, hlow, -⟩
      have := bucketStart_gt p.toNat (countsOf es) k
      omega
    have hreads := esRead_reads hs (fun k => (hbound k).1) hbitmap
      (holdsBuckets_of_unpadded hunpadded (Nat.zero_le 32))
    refine ⟨fun hle => ?_, fun hlt => ?_⟩
    · obtain ⟨n, st, hread, rfl, hst⟩ := hreads.ends hle
      refine ⟨st, ?_, fun k => ⟨?_, (hst k).2⟩⟩
      · change (esRead p.toNat s).returningNat = _
        rw [hread]
        rfl
      · rw [(hst k).1, map_lowBits_of_lt (hbound k).2]
    · change (esRead p.toNat s).returningNat = _
      rw [hreads.cut hlt]
      rfl
  · rintro s es k p m c ws hgood hempty hk rfl ⟨hlen, hs⟩ hview hbad
    have hafter : ∀ j ∈ bucketNumbers.drop k.val, es[j.val].val = [] :=
      fun j hj => hempty j (mem_bucketNumbers_drop hj)
    have htail : (wordsOf (esRecords p.toNat es)).drop 1 =
        wordsOf (bucketsRecords es (bucketNumbers.take k.val) (p.toNat + 1)) := by
      rw [← wordsOf_bucketsRecords_append es _ (bucketNumbers.drop k.val) _ hafter, List.take_append_drop]
      rfl
    have hcount : (wordsOf (esRecords p.toNat es)).length =
        (wordsOf (bucketsRecords es (bucketNumbers.take k.val) (p.toNat + 1))).length + 1 := by
      rw [← htail, List.length_drop, Nat.sub_add_cancel]
      simp [esRecords, wordsOf, recWords]
    rw [htail] at hview
    have hholds : HoldsWords s p.toNat
        ([m] ++ (wordsOf (bucketsRecords es (bucketNumbers.take k.val) (p.toNat + 1)) ++ [c])) :=
      holdsWords_of_view (by simpa [hcount] using hview)
    obtain ⟨hbitmap, hrest⟩ := hholds.append
    obtain ⟨hbuckets, hc⟩ := hrest.append
    have hread : esRead p.toNat s = .stop (.malformed .bucketCount) :=
      esRead_count hs (fun j hj => hgood j (mem_bucketNumbers_take hj)) hk (hbitmap.srcWord hs (by omega))
        hbuckets.buckets (by omega) (hc.srcWord hs (by omega)) hbad
    change (esRead p.toNat s).returningNat = _
    rw [hread]
    rfl

end Sys2Proof.Machine

/-! SUPPORT. `BLK.DEC` of one record, whoever made it: the head into `SEL`, the packed words, the exceptions ORed
in at their positions, the store (R169 to R172). -/

namespace Sys2Proof.Machine

/-! ### The head of a record -/

theorem drop_succ_of_cons {α : Type} {xs ys : List α} {n : Nat} {x : α} (h : xs.drop n = x :: ys) :
    xs.drop (n + 1) = ys := by
  rw [← List.drop_drop, h]
  rfl

theorem length_of_drop {α : Type} {xs ys : List α} {n : Nat} (h : xs.drop n = ys) : xs.length - n = ys.length := by
  rw [← h, List.length_drop]

/-- A record without exceptions (R169). -/
theorem blkMeta_plain {s : State} {b : Byte} {bs : List Byte} (h : s.bcMem.drop s.bcRd = b :: 0#8 :: bs)
    (hb : b.toNat ≤ 32) : blkMeta s = .ok () (setSel b.toNat 0 b.toNat { s with bcRd := s.bcRd + 2 }) := by
  have hlen := length_of_drop h
  simp only [List.length_cons] at hlen
  have hcheck : checkMetaHead b 0#8 = none := if_neg (by simp; omega)
  rw [blkMeta, if_neg (by omega), bcGet_ok h, Res.bind_ok,
    bcGet_ok (s := { s with bcRd := s.bcRd + 1 }) (drop_succ_of_cons h), Res.bind_ok, hcheck]
  rfl

/-- A record with exceptions (R169). -/
theorem blkMeta_exceptions {s : State} {b c m : Byte} {bs : List Byte}
    (h : s.bcMem.drop s.bcRd = b :: c :: m :: bs) (hb : b.toNat ≤ 32) (hc : c ≠ 0#8) (hc' : c.toNat ≤ 128)
    (hbs : c.toNat ≤ bs.length) (hbm : b.toNat < m.toNat) (hm : m.toNat ≤ 32) :
    blkMeta s = .ok () (setSel b.toNat c.toNat m.toNat { s with bcRd := s.bcRd + 3 }) := by
  have hlen := length_of_drop h
  simp only [List.length_cons] at hlen
  have hhead : checkMetaHead b c = none := if_neg (by omega)
  have hmaxb : checkMetaMaxb b m = none := if_pos ⟨hbm, hm⟩
  have hsecond := drop_succ_of_cons h
  rw [blkMeta, if_neg (by omega), bcGet_ok h, Res.bind_ok, bcGet_ok (s := { s with bcRd := s.bcRd + 1 }) hsecond,
    Res.bind_ok, hhead, Res.check, if_neg hc, if_neg (show ¬s.bcMem.length < s.bcRd + 1 + 1 + 1 + c.toNat by omega),
    bcGet_ok (s := { s with bcRd := s.bcRd + 1 + 1 }) (drop_succ_of_cons hsecond), Res.bind_ok, hmaxb]
  rfl

/-- What a decoder accepts as the record of width `b`, highest width `m` and positions `pos` (R104 items 5, 6). -/
structure RecordOk (b m : Nat) (pos : List (Fin 128)) : Prop where
  width : b ≤ 32
  plain : pos = [] → m = b
  exceptional : pos ≠ [] → b < m ∧ m ≤ 32
  ascending : pos.Pairwise (· < ·)

/-- The bytes of that record (R90). -/
def recordBytes (b m : Nat) (pos : List (Fin 128)) : List Byte :=
  metaBytes (BitVec.ofNat 8 b) (BitVec.ofNat 8 pos.length) (BitVec.ofNat 8 m)
    (pos.map fun i : Fin 128 => BitVec.ofNat 8 i.val)

theorem RecordOk.nodup {b m : Nat} {pos : List (Fin 128)} (h : RecordOk b m pos) : pos.Nodup :=
  h.ascending.imp fun h => ne_of_lt h

theorem RecordOk.length_le {b m : Nat} {pos : List (Fin 128)} (h : RecordOk b m pos) : pos.length ≤ 128 := by
  simpa using h.nodup.length_le_card

theorem RecordOk.maxb_le {b m : Nat} {pos : List (Fin 128)} (h : RecordOk b m pos) : m ≤ 32 := by
  by_cases hpos : pos = []
  · rw [h.plain hpos]
    exact h.width
  · exact (h.exceptional hpos).2

theorem recordBytes_nil (b m : Nat) : recordBytes b m [] = [BitVec.ofNat 8 b, 0#8] := rfl

theorem recordBytes_exceptions {b m : Nat} {pos : List (Fin 128)} (h : RecordOk b m pos) (hpos : pos ≠ []) :
    recordBytes b m pos = BitVec.ofNat 8 b :: BitVec.ofNat 8 pos.length :: BitVec.ofNat 8 m ::
      pos.map fun i : Fin 128 => BitVec.ofNat 8 i.val := by
  have hle := h.length_le
  have hne : BitVec.ofNat 8 pos.length ≠ 0#8 := fun h0 => by
    have h0 := congrArg BitVec.toNat h0
    simp only [BitVec.toNat_ofNat] at h0
    exact hpos (List.eq_nil_of_length_eq_zero (by omega))
  rw [recordBytes, metaBytes, if_neg hne]

theorem recordBytes_length {b m : Nat} {pos : List (Fin 128)} (h : RecordOk b m pos) :
    (recordBytes b m pos).length = if pos = [] then 2 else 3 + pos.length := by
  split
  · rename_i hpos
    rw [hpos, recordBytes_nil]
    rfl
  · rename_i hpos
    rw [recordBytes_exceptions h hpos]
    simp only [List.length_cons, List.length_map]
    omega

/-- How many bytes of a record are its head. -/
def headBytes (pos : List (Fin 128)) : Nat := if pos = [] then 2 else 3

/-- The head of an accepted record is taken into `SEL` (R169). -/
theorem blkMeta_record {s : State} {b m : Nat} {pos : List (Fin 128)} {bs : List Byte} (h : RecordOk b m pos)
    (hrec : s.bcMem.drop s.bcRd = recordBytes b m pos ++ bs) :
    blkMeta s = .ok () (setSel b pos.length m { s with bcRd := s.bcRd + headBytes pos }) := by
  have byte {n : Nat} (hn : n ≤ 128) : (BitVec.ofNat 8 n).toNat = n := by
    rw [BitVec.toNat_ofNat]
    omega
  have hb := byte (Nat.le_trans h.width (by decide))
  have hm := byte (Nat.le_trans h.maxb_le (by decide))
  have hc := byte h.length_le
  by_cases hpos : pos = []
  · obtain rfl := h.plain hpos
    subst hpos
    rw [recordBytes_nil] at hrec
    rw [blkMeta_plain hrec (by rw [hb]; exact h.width), hb]
    rfl
  · obtain ⟨hbm, hm32⟩ := h.exceptional hpos
    rw [recordBytes_exceptions h hpos] at hrec
    have hc0 : BitVec.ofNat 8 pos.length ≠ 0#8 := fun h0 => by
      rw [h0] at hc
      exact hpos (List.eq_nil_of_length_eq_zero hc.symm)
    rw [blkMeta_exceptions hrec (by rw [hb]; exact h.width) hc0 (by rw [hc]; exact h.length_le)
      (by rw [hc]; simp) (by rwa [hb, hm]) (by rwa [hm]), hb, hc, hm, headBytes, if_neg hpos]

/-! ### The exceptions -/

/-- Each residual, shifted by `b`, ORed into the value at its position (R170). -/
def orAt (b : Nat) (v : Vector Word 128) : List (Fin 128 × Word) → Vector Word 128
  | [] => v
  | (i, x) :: ps => orAt b (v.set i.val (v[i.val] ||| (x <<< b))) ps

theorem orAt_of_not_mem {b : Nat} {v : Vector Word 128} {ps : List (Fin 128 × Word)} {i : Fin 128}
    (h : i ∉ ps.map (·.1)) : (orAt b v ps)[i.val] = v[i.val] := by
  induction ps generalizing v with
  | nil => rfl
  | cons p ps ih =>
    simp only [List.map_cons, List.mem_cons, not_or] at h
    have hne : p.1.val ≠ i.val := fun he => h.1 (Fin.ext he.symm)
    rw [orAt, ih h.2, Vector.getElem_set_ne _ _ hne]

theorem orAt_of_mem {b : Nat} {v : Vector Word 128} {ps : List (Fin 128 × Word)} {p : Fin 128 × Word}
    (hd : (ps.map (·.1)).Nodup) (h : p ∈ ps) : (orAt b v ps)[p.1.val] = v[p.1.val] ||| (p.2 <<< b) := by
  induction ps generalizing v with
  | nil => cases h
  | cons q ps ih =>
    simp only [List.map_cons, List.nodup_cons] at hd
    rw [orAt]
    rcases List.mem_cons.1 h with rfl | h
    · rw [orAt_of_not_mem hd.1, Vector.getElem_set_self]
    · have hne : q.1.val ≠ p.1.val := fun he => hd.1 (Fin.ext he ▸ List.mem_map_of_mem h)
      rw [ih hd.2 h, Vector.getElem_set_ne _ _ hne]

theorem esGet_ok {s : State} {k : Fin 32} {x : Word} {xs : List Word}
    (h : s.es[k.val].val.drop s.es[k.val].rd = x :: xs) :
    esGet k s = .ok x (setBucket k { s.es[k.val] with rd := s.es[k.val].rd + 1 } s) := by
  have hx : s.es[k.val].val[s.es[k.val].rd]? = some x := by
    rw [← Nat.add_zero s.es[k.val].rd, ← List.getElem?_drop, h]
    rfl
  simp [esGet, hx]

/-- Positions in order, with a residual for each, are patched (R170). -/
theorem patchLoop_ok {k : Fin 32} {pos : List (Fin 128)} {xs rs : List Word} {bs : List Byte} {lo : Nat} {s : State}
    (hpos : s.bcMem.drop s.bcRd = (pos.map fun i : Fin 128 => BitVec.ofNat 8 i.val) ++ bs)
    (hxs : s.es[k.val].val.drop s.es[k.val].rd = xs ++ rs) (hlen : xs.length = pos.length)
    (hsorted : pos.Pairwise (· < ·)) (hlo : ∀ i ∈ pos, lo ≤ i.val) :
    patchLoop k pos.length lo s = .ok () { s with
      blk := orAt s.selB.toNat s.blk (pos.zip xs)
      bcRd := s.bcRd + pos.length
      es := s.es.set k.val { s.es[k.val] with rd := s.es[k.val].rd + pos.length } } := by
  induction pos generalizing xs lo s with
  | nil =>
    have hsame : s.es.set k.val { s.es[k.val] with rd := s.es[k.val].rd + 0 } = s.es :=
      Vector.set_getElem_self k.isLt
    rw [List.length_nil, hsame]
    rfl
  | cons i pos ih =>
    obtain ⟨x, xs, rfl⟩ : ∃ x ys, xs = x :: ys := List.exists_cons_of_length_pos (by simp [hlen])
    obtain ⟨hi, hsorted⟩ := List.pairwise_cons.1 hsorted
    have hbyte : (BitVec.ofNat 8 i.val).toNat = i.val := by
      rw [BitVec.toNat_ofNat]
      omega
    have hin : (BitVec.ofNat 8 i.val).toNat < 128 ∧ lo ≤ (BitVec.ofNat 8 i.val).toNat := by
      rw [hbyte]
      exact ⟨i.isLt, hlo i (List.mem_cons_self ..)⟩
    have hxs' : s.es[k.val].val.drop s.es[k.val].rd = x :: (xs ++ rs) := hxs
    rw [List.length_cons, patchLoop, bcGet_ok hpos, Res.bind_ok, dif_pos hin,
      esGet_ok (s := { s with bcRd := s.bcRd + 1 }) hxs', Res.bind_ok, ih (xs := xs)]
    · simp [setBucket, orAt, hbyte, Nat.add_assoc, Nat.add_comm 1]
    · simpa [setBucket] using drop_succ_of_cons hpos
    · simpa [setBucket] using drop_succ_of_cons hxs'
    · simpa using hlen
    · exact hsorted
    · intro j hj
      rw [hbyte]
      exact hi j hj

/-- What the exceptions of a record leave of the store: the bucket they are taken from is read on (R170). -/
def readOn (es : Vector Bucket 32) (b m : Nat) (pos : List (Fin 128)) : Vector Bucket 32 :=
  Vector.ofFn fun k : Fin 32 =>
    { es[k.val] with rd := es[k.val].rd + if pos ≠ [] ∧ m = b + k.val + 1 then pos.length else 0 }

theorem readOn_nil (es : Vector Bucket 32) (b m : Nat) : readOn es b m [] = es := by
  apply Vector.ext
  intro k hk
  simp [readOn]

theorem readOn_exceptions (es : Vector Bucket 32) {b m : Nat} {pos : List (Fin 128)} (hpos : pos ≠ []) (k : Fin 32)
    (hm : m = b + k.val + 1) :
    readOn es b m pos = es.set k.val { es[k.val] with rd := es[k.val].rd + pos.length } := by
  apply Vector.ext
  intro j hj
  simp only [readOn, Vector.getElem_ofFn, Vector.getElem_set]
  by_cases hk : k.val = j
  · subst hk
    simp [hpos, hm]
  · have hmj : ¬m = b + j + 1 := by omega
    simp [hk, hmj]

/-- The residuals `xs` of a record are the next ones of its bucket (R92). -/
def ResidualsAt (es : Vector Bucket 32) (b m : Nat) (xs : List Word) : Prop :=
  ∀ k : Fin 32, m = b + k.val + 1 → xs <+: es[k.val].val.drop es[k.val].rd

/-- The exceptions of an accepted record are patched (R170). -/
theorem blkPatch_record {s : State} {b m : Nat} {pos : List (Fin 128)} {xs : List Word} {bs : List Byte}
    (h : RecordOk b m pos) (hlen : xs.length = pos.length) (hB : s.selB.toNat = b)
    (hC : s.selC = BitVec.ofNat 8 pos.length) (hM : s.selM.toNat = m)
    (hbytes : pos ≠ [] → s.bcMem.drop s.bcRd = (pos.map fun i : Fin 128 => BitVec.ofNat 8 i.val) ++ bs)
    (hxs : ResidualsAt s.es b m xs) :
    blkPatch s = .ok () { s with
      blk := orAt b s.blk (pos.zip xs), bcRd := s.bcRd + pos.length, es := readOn s.es b m pos } := by
  by_cases hpos : pos = []
  · have hC0 : s.selC = 0#8 := by rw [hC, hpos]; rfl
    rw [blkPatch, if_pos hC0, hpos, readOn_nil]
    rfl
  · obtain ⟨hbm, hm⟩ := h.exceptional hpos
    have hcount : s.selC.toNat = pos.length := by
      have := h.length_le
      rw [hC, BitVec.toNat_ofNat]
      omega
    have hC0 : s.selC ≠ 0#8 := fun h0 => by
      rw [h0] at hcount
      exact hpos (List.eq_nil_of_length_eq_zero hcount.symm)
    obtain ⟨k, hk⟩ : ∃ k : Fin 32, m = b + k.val + 1 := ⟨⟨m - b - 1, by omega⟩, by simp only; omega⟩
    have hbucket : bucketIndex b m = some k := by
      rw [bucketIndex, dif_pos (by omega)]
      exact congrArg some (Fin.ext (by simp only; omega))
    obtain ⟨rs, hrs⟩ := hxs k hk
    rw [blkPatch, if_neg hC0, hB, hM, hbucket, readOn_exceptions _ hpos k hk, ← hB, hcount]
    exact patchLoop_ok (hbytes hpos) hrs.symm hlen h.ascending fun _ _ => Nat.zero_le _

/-! ### The whole record -/

/-- What the packed words `ws` and the exceptions `ps` of a record of width `b` make of the block (R170, R172). -/
def decodedBlock (b : Nat) (ws : List Word) (ps : List (Fin 128 × Word)) : Vector Word 128 :=
  orAt b (blockOf (vunpack b ws)) ps

/-- The running sums of a block where the delta variant runs (R171, R172). -/
def undelta (s : State) (v : Vector Word 128) : Vector Word 128 :=
  if s.deltaEn then prefixSums s.dprev[3] v else v

/-- The words of an accepted record are read under the guard of R58; with `b = 0` there is none to read. -/
theorem srcWords_packed {s : State} {b : Nat} (h : 0 < b → Readable s s.ic (4 * b)) :
    srcWords s s.ic (4 * b) = .ok (srcView s s.ic (4 * b)) := by
  by_cases hb : b = 0
  · subst hb
    rfl
  · exact srcWords_ok (h (by omega))

theorem prefixIfEnabled_eq (s : State) :
    prefixIfEnabled s = { s with
      blk := undelta s s.blk, dprev := if s.deltaEn then blockTail (undelta s s.blk) else s.dprev } := by
  by_cases hd : s.deltaEn
  · simp only [prefixIfEnabled, undelta, if_pos hd, blkPrefix]
  · simp only [prefixIfEnabled, undelta, if_neg hd]

theorem carriedOver_singleton (s : State) (v : Vector Word 128) :
    carriedOver s [v] = if s.deltaEn then blockTail v else s.dprev := by
  cases hd : s.deltaEn <;> simp [carriedOver, hd]

/-- `BLK.DEC` of an accepted record (R172). -/
theorem blkDec_record {s : State} {b m : Nat} {pos : List (Fin 128)} {xs : List Word} {bs : List Byte}
    {v : Vector Word 128} (h : RecordOk b m pos) (hlen : xs.length = pos.length)
    (hrec : s.bcMem.drop s.bcRd = recordBytes b m pos ++ bs) (hxs : ResidualsAt s.es b m xs)
    (hread : 0 < b → Readable s s.ic (4 * b)) (hstore : dstAddr s (s.oc + 128) ≤ 2 ^ s.cfg.addrW)
    (hv : v = decodedBlock b (srcView s s.ic (4 * b)) (pos.zip xs)) :
    blkDec s = .ok () { s with
      mem := Memory.writeWords s.mem (dstAddr s s.oc) (undelta s v).toList
      blk := undelta s v
      selB := BitVec.ofNat 6 b
      selC := BitVec.ofNat 8 pos.length
      selM := BitVec.ofNat 6 m
      ic := s.ic + 4 * b
      oc := s.oc + 128
      dprev := carriedOver s [undelta s v]
      bcRd := s.bcRd + (recordBytes b m pos).length
      es := readOn s.es b m pos } := by
  have hB : (BitVec.ofNat 6 b).toNat = b := by
    have := h.width
    rw [BitVec.toNat_ofNat]
    omega
  have hM : (BitVec.ofNat 6 m).toNat = m := by
    have := h.maxb_le
    rw [BitVec.toNat_ofNat]
    omega
  have hwords : srcWords (setSel b pos.length m { s with bcRd := s.bcRd + headBytes pos }) s.ic (4 * b) =
      .ok (srcView s s.ic (4 * b)) := srcWords_packed (s := setSel b pos.length m { s with bcRd := _ }) hread
  have hbytes : pos ≠ [] → s.bcMem.drop (s.bcRd + headBytes pos) =
      (pos.map fun i : Fin 128 => BitVec.ofNat 8 i.val) ++ bs := by
    intro hpos
    rw [headBytes, if_neg hpos, ← List.drop_drop, hrec, recordBytes_exceptions h hpos]
    rfl
  have htotal : s.bcRd + headBytes pos + pos.length = s.bcRd + (recordBytes b m pos).length := by
    rw [recordBytes_length h, headBytes]
    split
    · rename_i hpos
      rw [hpos]
      rfl
    · omega
  rw [blkDec, blkMeta_record h hrec, Res.bind_ok]
  simp only [setSel_fields, hB, hwords, Res.need_ok]
  simp only [takePacked, setSel]
  rw [blkPatch_record (bs := bs) h hlen (by exact hB) (by rfl) (by exact hM) (by exact hbytes) (by exact hxs),
    Res.bind_ok, prefixIfEnabled_eq]
  dsimp only
  rw [blkStore_ok (by exact hstore)]
  simp only [carriedOver_singleton, hv, decodedBlock, htotal]
  rfl

/-- `BLK.DEC` of an accepted record whose packed words are cut short (R58). -/
theorem blkDec_cut {s : State} {b m : Nat} {pos : List (Fin 128)} {bs : List Byte} (h : RecordOk b m pos)
    (hrec : s.bcMem.drop s.bcRd = recordBytes b m pos ++ bs) (hs : SrcExists s) (hb : 0 < b)
    (hcut : s.srcLen.toNat < s.ic + 4 * b) : blkDec s = .stop (.malformed .streamEnd) := by
  have hB : (BitVec.ofNat 6 b).toNat = b := by
    have := h.width
    rw [BitVec.toNat_ofNat]
    omega
  rw [blkDec, blkMeta_record h hrec, Res.bind_ok]
  simp only [setSel_fields, hB]
  rw [srcWords_cut (s := setSel b pos.length m { s with bcRd := s.bcRd + headBytes pos }) hs (by omega) hcut]
  rfl

theorem recordBytes_toNat (b m : Byte) (pos : List (Fin 128)) :
    recordBytes b.toNat m.toNat pos =
      metaBytes b (BitVec.ofNat 8 pos.length) m (pos.map fun i : Fin 128 => BitVec.ofNat 8 i.val) := by
  simp only [recordBytes, BitVec.ofNat_toNat, BitVec.setWidth_eq]

theorem blockOf_getElem (w : List Word) {i : Nat} (hi : i < 128) : (blockOf w)[i] = w.getD i 0#32 := by
  simp [blockOf]

/-! ### The statement -/

/-- Settles O54: `blkDec_record` and `blkDec_cut`, value by value. -/
theorem blockDecodeAnyRecord : Obligations.BlockDecodeAnyRecord := by
  intro s b mb pos xs bs wf hb hplain hexc hsorted hlen hrec
  have hok : RecordOk b.toNat mb.toNat pos :=
    ⟨hb, fun h => congrArg BitVec.toNat (hplain h), hexc, hsorted⟩
  rw [← recordBytes_toNat] at hrec
  refine ⟨fun hpos hs hcut => ?_, fun hxs hread hstore => ?_⟩
  · change (blkDec s).outcome = _
    rw [blkDec_cut hok hrec hs hpos hcut]
    rfl
  have hfst : (pos.zip xs).map (·.1) = pos := List.map_fst_zip (by omega)
  refine ⟨decodedBlock b.toNat (srcView s s.ic (4 * b.toNat)) (pos.zip xs), undelta s _, _,
    readOn s.es b.toNat mb.toNat pos, ?_, rfl, stored_writeWords wf _ _, fun i hi => ?_, fun p hp => ?_, fun k => ?_⟩
  · change (blkDec s).outcome = _
    rw [blkDec_record hok hlen hrec hxs hread hstore rfl, Res.outcome_ok, recordBytes_length hok]
    simp only [BitVec.ofNat_toNat]
  · rw [decodedBlock, orAt_of_not_mem (by rwa [hfst]), blockOf_getElem]
  · rw [decodedBlock, orAt_of_mem (by rw [hfst]; exact hok.nodup) hp, blockOf_getElem]
  · simp [readOn]

end Sys2Proof.Machine

/-! SUPPORT. What the selector guarantees of a block's choice of width (R163, R164), and the block's exceptions as
positions with their residuals (R165). -/

namespace Sys2Proof.Machine

/-! ### The histogram of a block -/

/-- No counter of a block overflows its eight bits. -/
theorem histogram_toNat (v : Vector Word 128) (w : Fin 33) :
    (histogram v)[w.val].toNat = widthCount v.toList w.val := by
  have hle : widthCount v.toList w.val ≤ v.toList.length := List.countP_le_length
  rw [Vector.length_toList] at hle
  simp only [histogram, Vector.getElem_ofFn, BitVec.toNat_ofNat]
  generalize widthCount v.toList w.val = c at *
  omega

theorem freqAt_histogram (v : Vector Word 128) {w : Nat} (hw : w ≤ 32) :
    freqAt (histogram v) w = widthCount v.toList w := by
  have hlt : w < (histogram v).toList.length := by rw [Vector.length_toList]; omega
  rw [freqAt, List.getD_eq_getElem _ _ hlt, Vector.getElem_toList]
  exact histogram_toNat v ⟨w, by omega⟩

/-- A highest width is one that is counted, and none above it is. -/
theorem highestWidth_some {f : Vector (BitVec 8) 33} {n : Nat} {m : Fin 33} (hn : n ≤ 33)
    (h : highestWidth f n = some m) : m.val < n ∧ freqAt f m.val ≠ 0 ∧ ∀ w, m.val < w → w < n → freqAt f w = 0 := by
  induction n with
  | zero => cases h
  | succ n ih =>
    rw [highestWidth, dif_pos (by omega)] at h
    split at h
    · rename_i hf
      obtain rfl : (⟨n, by omega⟩ : Fin 33) = m := by simpa using h
      refine ⟨Nat.lt_succ_self n, hf, fun w hw hwn => ?_⟩
      have : n < w := hw
      omega
    · rename_i hf
      obtain ⟨hlt, hm, habove⟩ := ih (by omega) h
      refine ⟨by omega, hm, fun w hw hwn => ?_⟩
      by_cases hwn' : w = n
      · rw [hwn']
        simpa using hf
      · exact habove w hw (by omega)

theorem highestWidth_none {f : Vector (BitVec 8) 33} {n w : Nat} (hn : n ≤ 33) (h : highestWidth f n = none)
    (hw : w < n) : freqAt f w = 0 := by
  induction n with
  | zero => omega
  | succ n ih =>
    rw [highestWidth, dif_pos (by omega)] at h
    split at h
    · cases h
    · rename_i hf
      by_cases hwn : w = n
      · rw [hwn]
        simpa using hf
      · exact ih (by omega) h (by omega)

theorem widthCount_pos {xs : List Word} {x : Word} (h : x ∈ xs) : widthCount xs (bitWidth x) ≠ 0 :=
  (List.countP_pos_iff.2 ⟨x, h, by simp⟩).ne'

/-- A block has a highest width: `blockMaxb`, which bounds every value (R163). -/
theorem blockMaxb_spec (v : Vector Word 128) :
    ∃ h : blockMaxb v < 33, highestWidth (histogram v) 33 = some ⟨blockMaxb v, h⟩ ∧
      ∀ x ∈ v.toList, bitWidth x ≤ blockMaxb v := by
  cases hm : highestWidth (histogram v) 33 with
  | none =>
    have hmem : v[0] ∈ v.toList := by simp
    have hzero := highestWidth_none (Nat.le_refl _) hm (w := bitWidth v[0])
      (Nat.lt_succ_of_le (bitWidth_le_32 _))
    rw [freqAt_histogram v (bitWidth_le_32 _)] at hzero
    exact absurd hzero (widthCount_pos hmem)
  | some m =>
    obtain ⟨-, -, habove⟩ := highestWidth_some (Nat.le_refl _) hm
    have hval : blockMaxb v = m.val := by rw [blockMaxb, hm]
    refine ⟨by omega, by simp [hval], fun x hx => ?_⟩
    by_contra hlt
    have hzero := habove (bitWidth x) (by omega) (Nat.lt_succ_of_le (bitWidth_le_32 _))
    rw [freqAt_histogram v (bitWidth_le_32 _)] at hzero
    exact widthCount_pos hx hzero

/-! ### The choice -/

/-- What every candidate of the width scan satisfies: its count is of the values above its width, its cost is its
own, and no larger than the first candidate's (R163). -/
structure CandidateOk (f : Nat → Nat) (m : Nat) (x : Candidate) : Prop where
  b_le : x.b ≤ m
  count : x.c = ∑ w ∈ Finset.Ioc x.b m, f w
  cost : x.cost = costOf m x.b x.c
  cost_le : x.cost ≤ 128 * m

theorem scanWidths_ok {f : Nat → Nat} {m n c : Nat} {best : Candidate} (hn : n ≤ m)
    (hc : c = ∑ w ∈ Finset.Ioc n m, f w) (h : CandidateOk f m best) : CandidateOk f m (scanWidths f m n c best) := by
  induction n generalizing c best with
  | zero => exact h
  | succ n ih =>
    have hnext : c + f (n + 1) = ∑ w ∈ Finset.Ioc n m, f w := by
      rw [hc, ← Finset.sum_Ioc_consecutive f (Nat.le_succ n) hn, Finset.sum_Ioc_succ_top (by omega)]
      simp [Nat.add_comm]
    refine ih (by omega) hnext ?_
    split
    · rename_i hlt
      have := h.cost_le
      exact ⟨by simp only; omega, hnext, rfl, by simp only; omega⟩
    · exact h

theorem chooseWidth_ok (f : Nat → Nat) (m : Nat) : CandidateOk f m (chooseWidth f m) := by
  refine scanWidths_ok (Nat.le_refl m) (by simp) ⟨Nat.le_refl m, by simp, ?_, Nat.le_refl _⟩
  simp [costOf]

theorem blockChoice_ok (v : Vector Word 128) :
    CandidateOk (freqAt (histogram v)) (blockMaxb v) (blockChoice v) := chooseWidth_ok _ _

/-- How many values lie above a width, counted by widths. -/
theorem sum_widthCount (xs : List Word) (b m : Nat) (h : ∀ x ∈ xs, bitWidth x ≤ m) :
    ∑ w ∈ Finset.Ioc b m, widthCount xs w = xs.countP fun x => decide (b < bitWidth x) := by
  induction xs with
  | nil => simp [widthCount]
  | cons x xs ih =>
    have hx := h x (List.mem_cons_self ..)
    have hxs := ih fun y hy => h y (List.mem_cons_of_mem _ hy)
    simp only [widthCount] at hxs
    simp only [widthCount, List.countP_cons, Finset.sum_add_distrib, hxs, beq_iff_eq, Finset.sum_ite_eq,
      Finset.mem_Ioc, decide_eq_true_eq, hx, and_true]

theorem exceptionsFrom_length (b i : Nat) (xs : List Word) :
    (exceptionsFrom b i xs).length = xs.countP fun x => decide (b < bitWidth x) := by
  induction xs generalizing i with
  | nil => rfl
  | cons x xs ih =>
    have hwidth : 2 ^ b ≤ x.toNat ↔ b < bitWidth x := by
      rw [← Nat.not_lt, ← bitWidth_le_iff, Nat.not_le]
    rw [exceptionsFrom, List.countP_cons]
    split
    · rename_i h
      rw [List.length_cons, ih, if_pos (by simpa using hwidth.1 h)]
    · rename_i h
      rw [ih, if_neg (by simpa using fun g => h (hwidth.2 g)), Nat.add_zero]

/-- The chosen count is the number of exceptions (R164). -/
theorem blockChoice_c (v : Vector Word 128) : (blockChoice v).c = (blockExceptions v).length := by
  obtain ⟨hm, -, hwidths⟩ := blockMaxb_spec v
  rw [(blockChoice_ok v).count, blockExceptions, exceptionsFrom_length, ← sum_widthCount _ _ _ hwidths]
  refine Finset.sum_congr rfl fun w hw => freqAt_histogram v ?_
  have := (Finset.mem_Ioc.1 hw).2
  omega

theorem blockMaxb_le (v : Vector Word 128) : blockMaxb v ≤ 32 := by
  obtain ⟨hm, -, -⟩ := blockMaxb_spec v
  omega

theorem blockChoice_b_le (v : Vector Word 128) : (blockChoice v).b ≤ blockMaxb v := (blockChoice_ok v).b_le

/-- A block without room between its widths has no exception. -/
theorem blockChoice_c_eq_zero {v : Vector Word 128} (h : blockMaxb v ≤ (blockChoice v).b) : (blockChoice v).c = 0 := by
  rw [(blockChoice_ok v).count, Finset.Ioc_eq_empty (by omega), Finset.sum_empty]

/-- The cost bounds the number of exceptions (R164 (c)). -/
theorem blockChoice_c_le (v : Vector Word 128) : (blockChoice v).c ≤ 102 := by
  have hok := blockChoice_ok v
  have hm := blockMaxb_le v
  have hb := hok.b_le
  have hcost := hok.cost_le
  rw [hok.cost, costOf] at hcost
  obtain ⟨d, hd⟩ : ∃ d, blockMaxb v = (blockChoice v).b + d := ⟨_, (Nat.add_sub_cancel' hb).symm⟩
  by_contra hc
  have hprod : d * 103 ≤ d * (blockChoice v).c := Nat.mul_le_mul_left d (by omega)
  rw [hd, Nat.add_sub_cancel_left] at hcost
  omega

/-! ### The exceptions by position -/

/-- The positions of the values that are at least `2^b`. -/
def exceptionPositions (b : Nat) (v : Vector Word 128) : List (Fin 128) :=
  (List.finRange 128).filter fun i => decide (2 ^ b ≤ v[i.val].toNat)

theorem exceptionsFrom_drop (b : Nat) (v : Vector Word 128) {n : Nat} (hn : n ≤ 128) :
    exceptionsFrom b n (v.toList.drop n) =
      (((List.finRange 128).drop n).filter fun i : Fin 128 => decide (2 ^ b ≤ v[i.val].toNat)).map
        fun i : Fin 128 => (i.val, v[i.val] >>> b) := by
  induction hd : 128 - n generalizing n with
  | zero =>
    rw [List.drop_eq_nil_of_le (by simp; omega), List.drop_eq_nil_of_le (by simp; omega)]
    rfl
  | succ d ih =>
    have hlt : n < 128 := by omega
    have hfin : (List.finRange 128).drop n = ⟨n, hlt⟩ :: (List.finRange 128).drop (n + 1) := by
      rw [List.drop_eq_getElem_cons (by simpa using hlt)]
      simp
    rw [List.drop_eq_getElem_cons (by simpa using hlt), hfin, exceptionsFrom, ih (by omega) (by omega),
      List.filter_cons, Vector.getElem_toList]
    simp only [decide_eq_true_eq]
    split <;> rfl

/-- The exceptions of a block: each position with its residual (R165). -/
theorem blockExceptions_eq (v : Vector Word 128) :
    blockExceptions v = (exceptionPositions (blockChoice v).b v).map
      fun i : Fin 128 => (i.val, v[i.val] >>> (blockChoice v).b) :=
  exceptionsFrom_drop _ v (Nat.zero_le _)

end Sys2Proof.Machine

/-! SUPPORT. What the encoder writes of a block, taken back by `BLK.DEC`, and the blocks of a page one after the
other (R172, R194). -/

namespace Sys2Proof.Machine

/-! ### A block's record -/

/-- The positions of a block's exceptions at its chosen width (R165). -/
def blockPositions (v : Vector Word 128) : List (Fin 128) := exceptionPositions (blockChoice v).b v

/-- The residuals of those exceptions (R165). -/
def blockRest (v : Vector Word 128) : List Word :=
  (blockPositions v).map fun i : Fin 128 => v[i.val] >>> (blockChoice v).b

theorem exceptionPositions_ascending (b : Nat) (v : Vector Word 128) : (exceptionPositions b v).Pairwise (· < ·) := by
  unfold exceptionPositions
  exact List.Pairwise.filter _ (List.pairwise_lt_finRange 128)

theorem mem_blockPositions {v : Vector Word 128} {i : Fin 128} :
    i ∈ blockPositions v ↔ 2 ^ (blockChoice v).b ≤ v[i.val].toNat := by
  simp [blockPositions, exceptionPositions]

theorem blockExceptions_positions (v : Vector Word 128) :
    (blockExceptions v).map (fun e => BitVec.ofNat 8 e.1) =
      (blockPositions v).map fun i : Fin 128 => BitVec.ofNat 8 i.val := by
  rw [blockExceptions_eq, List.map_map]
  rfl

theorem blockExceptions_residuals (v : Vector Word 128) : (blockExceptions v).map (·.2) = blockRest v := by
  rw [blockExceptions_eq, List.map_map]
  rfl

theorem blockPositions_length (v : Vector Word 128) : (blockPositions v).length = (blockChoice v).c := by
  rw [blockChoice_c, blockExceptions_eq, List.length_map]
  rfl

@[simp] theorem blockRest_length (v : Vector Word 128) : (blockRest v).length = (blockPositions v).length :=
  List.length_map ..

theorem blockMeta_eq (v : Vector Word 128) :
    blockMeta v = recordBytes (blockChoice v).b (blockMaxb v) (blockPositions v) := by
  rw [blockMeta, recordBytes, blockPositions_length, blockExceptions_positions]

theorem highestWidth_attained {v : Vector Word 128} {m : Fin 33} (h : highestWidth (histogram v) 33 = some m) :
    ∃ i : Fin 128, bitWidth v[i.val] = m.val := by
  obtain ⟨-, hfreq, -⟩ := highestWidth_some (Nat.le_refl _) h
  rw [freqAt_histogram v (Nat.le_of_lt_succ m.isLt), widthCount] at hfreq
  obtain ⟨x, hx, hwidth⟩ := List.countP_pos_iff.1 (Nat.pos_of_ne_zero hfreq)
  obtain ⟨i, hi, rfl⟩ := List.getElem_of_mem hx
  exact ⟨⟨i, by simpa using hi⟩, by simpa using hwidth⟩

/-- Some value of the block has the highest width. -/
theorem blockMaxb_attained (v : Vector Word 128) : ∃ i : Fin 128, bitWidth v[i.val] = blockMaxb v := by
  obtain ⟨hlt, hm, -⟩ := blockMaxb_spec v
  generalize blockMaxb v = m at *
  exact highestWidth_attained hm

theorem bitWidth_le_blockMaxb (v : Vector Word 128) (i : Fin 128) : bitWidth v[i.val] ≤ blockMaxb v := by
  have hmem : v[i.val] ∈ v.toList := by simp
  obtain ⟨-, -, hwidths⟩ := blockMaxb_spec v
  exact hwidths _ hmem

/-- Without exceptions the chosen width is the highest one. -/
theorem blockMaxb_of_plain {v : Vector Word 128} (h : blockPositions v = []) : blockMaxb v = (blockChoice v).b := by
  obtain ⟨i, hi⟩ := blockMaxb_attained v
  have hle : bitWidth v[i.val] ≤ (blockChoice v).b := by
    rw [bitWidth_le_iff]
    by_contra hge
    have hmem := mem_blockPositions.2 (Nat.not_lt.1 hge)
    rw [h] at hmem
    cases hmem
  have := blockChoice_b_le v
  omega

/-- With exceptions it is less. -/
theorem blockChoice_lt {v : Vector Word 128} (h : blockPositions v ≠ []) : (blockChoice v).b < blockMaxb v := by
  by_contra hle
  have hc := blockChoice_c_eq_zero (Nat.not_lt.1 hle)
  rw [← blockPositions_length] at hc
  exact h (List.eq_nil_of_length_eq_zero hc)

/-- A block's record is one a decoder accepts. -/
theorem recordOk_block (v : Vector Word 128) : RecordOk (blockChoice v).b (blockMaxb v) (blockPositions v) where
  width := Nat.le_trans (blockChoice_b_le v) (blockMaxb_le v)
  plain := blockMaxb_of_plain
  exceptional h := ⟨blockChoice_lt h, blockMaxb_le v⟩
  ascending := exceptionPositions_ascending _ v

/-- The bucket of a block with exceptions takes their residuals (R141). -/
theorem blockResiduals_of_bucket {k : Fin 32} {v : Vector Word 128}
    (h : blockMaxb v = (blockChoice v).b + k.val + 1) : blockResiduals k v = blockRest v := by
  rw [blockResiduals, if_pos ⟨by omega, by omega⟩, blockExceptions_residuals]

theorem blockResiduals_of_not_bucket {k : Fin 32} {v : Vector Word 128}
    (h : blockMaxb v ≠ (blockChoice v).b + k.val + 1) : blockResiduals k v = [] :=
  if_neg (by omega)

theorem ushiftRight_lt {b n : Nat} {x : Word} (h : bitWidth x ≤ b + n) : (x >>> b).toNat < 2 ^ n := by
  have hlt := (bitWidth_le_iff _ _).1 h
  rw [Nat.pow_add] at hlt
  rw [BitVec.toNat_ushiftRight, Nat.shiftRight_eq_div_pow]
  exact Nat.div_lt_of_lt_mul hlt

/-- A residual fits the width of its bucket (R141). -/
theorem blockResiduals_lt {k : Fin 32} {v : Vector Word 128} : ∀ x ∈ blockResiduals k v, x.toNat < 2 ^ (k.val + 1) := by
  intro x hx
  by_cases hk : blockMaxb v = (blockChoice v).b + k.val + 1
  · rw [blockResiduals_of_bucket hk, blockRest] at hx
    obtain ⟨i, -, rfl⟩ := List.mem_map.1 hx
    have hle := bitWidth_le_blockMaxb v i
    rw [hk, Nat.add_assoc] at hle
    exact ushiftRight_lt hle
  · rw [blockResiduals_of_not_bucket hk] at hx
    cases hx

theorem blockResiduals_length_le (k : Fin 32) (v : Vector Word 128) : (blockResiduals k v).length ≤ 102 := by
  by_cases hk : blockMaxb v = (blockChoice v).b + k.val + 1
  · rw [blockResiduals_of_bucket hk, blockRest_length, blockPositions_length]
    exact blockChoice_c_le v
  · rw [blockResiduals_of_not_bucket hk]
    exact Nat.zero_le _

theorem blockMeta_length_le (v : Vector Word 128) : (blockMeta v).length ≤ 105 := by
  rw [blockMeta_eq, recordBytes_length (recordOk_block v), blockPositions_length]
  have := blockChoice_c_le v
  split <;> omega

@[simp] theorem blockPacked_length (v : Vector Word 128) : (blockPacked v).length = 4 * (blockChoice v).b :=
  vpack_length _ _

/-! ### A block's words taken back -/

/-- The low bits of a value and its residual make it up again. -/
theorem lowBits_or_residual (b : Nat) (x : Word) : lowBits b x ||| ((x >>> b) <<< b) = x := by
  apply BitVec.eq_of_getLsbD_eq
  intro i hi
  have hlow : (lowBits b x).getLsbD i = (decide (i < b) && x.getLsbD i) := by
    rw [lowBits, BitVec.getLsbD_ofNat, Nat.testBit_mod_two_pow, BitVec.testBit_toNat, decide_eq_true hi, Bool.true_and]
  rw [BitVec.getLsbD_or, hlow, BitVec.getLsbD_shiftLeft, BitVec.getLsbD_ushiftRight]
  by_cases hib : i < b
  · simp [hib]
  · simp [hib, hi, Nat.add_sub_cancel' (Nat.not_lt.1 hib)]

/-- The packed words and the exceptions of a block give it back (R164, R172). -/
theorem decodedBlock_block (v : Vector Word 128) :
    decodedBlock (blockChoice v).b (blockPacked v) ((blockPositions v).zip (blockRest v)) = v := by
  have hfst : ((blockPositions v).zip (blockRest v)).map (·.1) = blockPositions v := List.map_fst_zip (by simp)
  have low {i : Nat} (hi : i < 128) :
      (blockOf (vunpack (blockChoice v).b (blockPacked v)))[i] = lowBits (blockChoice v).b v[i] := by
    rw [blockOf_getElem _ hi, blockPacked, vunpack_vpack (by simp)]
    simp [hi]
  apply Vector.ext
  intro i hi
  by_cases hpos : (⟨i, hi⟩ : Fin 128) ∈ blockPositions v
  · have hmem : ((⟨i, hi⟩ : Fin 128), v[i] >>> (blockChoice v).b) ∈ (blockPositions v).zip (blockRest v) := by
      obtain ⟨n, hn, hget⟩ := List.getElem_of_mem hpos
      exact List.mem_iff_getElem.2 ⟨n, by simpa using hn, by simp [blockRest, hget]⟩
    rw [decodedBlock, orAt_of_mem (by rw [hfst]; exact (recordOk_block v).nodup) hmem, low hi]
    exact lowBits_or_residual _ _
  · rw [decodedBlock, orAt_of_not_mem (i := ⟨i, hi⟩) (by rwa [hfst]), low hi]
    exact lowBits_of_lt (Nat.not_le.1 fun h => hpos (mem_blockPositions.2 h))

/-- A coded block, decoded, is the raw block (R161, R171). -/
theorem undelta_coded (s : State) (raw : Vector Word 128) :
    undelta s (if s.deltaEn then deltas s.dprev[3] raw else raw) = raw := by
  by_cases hd : s.deltaEn
  · simp only [undelta, if_pos hd, prefixSums_deltas]
  · simp only [undelta, if_neg hd]

/-- The state after the block `raw`, coded as `v`, has been decoded (R172). -/
def afterBlock (raw v : Vector Word 128) (s : State) : State :=
  { s with
    mem := Memory.writeWords s.mem (dstAddr s s.oc) raw.toList
    blk := raw
    selB := BitVec.ofNat 6 (blockChoice v).b
    selC := BitVec.ofNat 8 (blockPositions v).length
    selM := BitVec.ofNat 6 (blockMaxb v)
    ic := s.ic + (blockPacked v).length
    oc := s.oc + 128
    dprev := carriedOver s [raw]
    bcRd := s.bcRd + (blockMeta v).length
    es := readOn s.es (blockChoice v).b (blockMaxb v) (blockPositions v) }

/-- `BLK.DEC` takes a block's record, packed words and residuals back to the block (R172). -/
theorem blkDec_block {s : State} {raw v : Vector Word 128} {bs : List Byte}
    (hv : v = if s.deltaEn then deltas s.dprev[3] raw else raw) (hrec : s.bcMem.drop s.bcRd = blockMeta v ++ bs)
    (hres : ∀ k : Fin 32, blockResiduals k v <+: s.es[k.val].val.drop s.es[k.val].rd)
    (hread : Readable s s.ic (blockPacked v).length) (hview : srcView s s.ic (blockPacked v).length = blockPacked v)
    (hstore : dstAddr s (s.oc + 128) ≤ 2 ^ s.cfg.addrW) : blkDec s = .ok () (afterBlock raw v s) := by
  have hraw : undelta s v = raw := hv ▸ undelta_coded s raw
  rw [blockMeta_eq] at hrec
  rw [blockPacked_length] at hread hview
  have hxs : ResidualsAt s.es (blockChoice v).b (blockMaxb v) (blockRest v) := fun k hk => by
    rw [← blockResiduals_of_bucket hk]
    exact hres k
  have hdec : v = decodedBlock (blockChoice v).b (srcView s s.ic (4 * (blockChoice v).b))
      ((blockPositions v).zip (blockRest v)) := by rw [hview, decodedBlock_block]
  rw [blkDec_record (recordOk_block v) (blockRest_length v) hrec hxs (fun _ => hread) hstore hdec, hraw, afterBlock,
    blockMeta_eq, blockPacked_length]

end Sys2Proof.Machine

/-! SUPPORT. `PAGE.DEC`: the container and the store read, then the blocks of the page decoded (R194, R195). -/

namespace Sys2Proof.Machine

/-! ### Words stored one after the other -/

theorem Memory.readWords_append (m : List Host.Cell) (a n k : Nat) :
    Memory.readWords m a (n + k) = Memory.readWords m a n ++ Memory.readWords m (a + 4 * n) k := by
  simp only [Memory.readWords, List.range_add, List.map_append, List.map_map]
  congr 1
  refine List.map_congr_left fun j _ => ?_
  simp only [Function.comp]
  congr 1
  omega

/-- Words stored, and then others directly behind them. -/
theorem Stored.append {s t : State} {j : Nat} {xs ys : List Word} {m : List Host.Cell}
    (hx : Stored s j xs t.mem) (hy : Stored t (j + xs.length) ys m) (hbase : t.dstBase = s.dstBase) :
    Stored s j (xs ++ ys) m := by
  obtain ⟨-, hxs, hxframe⟩ := hx
  obtain ⟨wf, hys, hyframe⟩ := hy
  have hnext : dstAddr t (j + xs.length) = dstAddr s j + 4 * xs.length := by
    simp only [dstAddr, hbase]
    omega
  rw [hnext] at hys hyframe
  refine ⟨wf, ?_, fun a ha => ?_⟩
  · have hkept : Memory.readWords m (dstAddr s j) xs.length = Memory.readWords t.mem (dstAddr s j) xs.length :=
      Memory.readWords_congr fun i hi => hyframe.readWord (Or.inl (by omega))
    rw [List.length_append, Memory.readWords_append, hkept, hxs, hys]
  · rw [List.length_append] at ha
    rw [hyframe a (by omega), hxframe a (by omega)]

/-! ### The blocks of a page -/

/-- What a block leaves of the store: its bucket is read on by its residuals. -/
theorem readOn_block (es : Vector Bucket 32) (v : Vector Word 128) (k : Fin 32) :
    (readOn es (blockChoice v).b (blockMaxb v) (blockPositions v))[k.val] =
      { es[k.val] with rd := es[k.val].rd + (blockResiduals k v).length } := by
  simp only [readOn, Vector.getElem_ofFn]
  by_cases hk : blockMaxb v = (blockChoice v).b + k.val + 1
  · rw [blockResiduals_of_bucket hk, blockRest_length]
    have hpos : blockPositions v ≠ [] := fun h => by
      rw [blockMaxb_of_plain h] at hk
      omega
    rw [if_pos ⟨hpos, hk⟩]
  · rw [blockResiduals_of_not_bucket hk, if_neg fun h => hk h.2]
    rfl

theorem codedBlocks_plain (p : Word) (raw : List (Vector Word 128)) : codedBlocks false p raw = raw := by
  induction raw generalizing p with
  | nil => rfl
  | cons v vs ih =>
    rw [codedBlocks, ih]
    rfl

theorem codedBlocks_length (delta : Bool) (p : Word) (raw : List (Vector Word 128)) :
    (codedBlocks delta p raw).length = raw.length := by
  induction raw generalizing p with
  | nil => rfl
  | cons v vs ih => rw [codedBlocks, List.length_cons, ih, List.length_cons]

/-- The value carried into the next block is the one the delta state holds (R34). -/
theorem codedBlocks_cons (s : State) (v : Vector Word 128) (vs : List (Vector Word 128)) :
    codedBlocks s.deltaEn s.dprev[3] (v :: vs) = (if s.deltaEn then deltas s.dprev[3] v else v) ::
      codedBlocks s.deltaEn (carriedOver s [v])[3] vs := by
  rw [carriedOver_singleton, codedBlocks]
  cases s.deltaEn with
  | true => simp [blockTail]
  | false => simp only [codedBlocks_plain]

theorem carriedOver_cons {s t : State} {v : Vector Word 128} (vs : List (Vector Word 128))
    (hd : t.deltaEn = s.deltaEn) (hp : t.dprev = carriedOver s [v]) : carriedOver t vs = carriedOver s (v :: vs) := by
  rw [carriedOver_singleton] at hp
  cases hs : s.deltaEn with
  | false => simp [carriedOver, hd, hp, hs]
  | true =>
    cases vs with
    | nil => simp [carriedOver, hd, hp, hs]
    | cons w ws => simp [carriedOver, hd, hs, List.getLast?_eq_some_getLast]

/-- The decoder has the coded blocks of a page before it: their records and residuals loaded, their packed words at
the input cursor (R86 to R92). -/
structure HoldsBlocks (s : State) (coded : List (Vector Word 128)) : Prop where
  records : s.bcMem.drop s.bcRd = coded.flatMap blockMeta
  residuals : ∀ k : Fin 32, s.es[k.val].val.drop s.es[k.val].rd = coded.flatMap (blockResiduals k)
  readable : Readable s s.ic (coded.flatMap blockPacked).length
  packed : srcView s s.ic (coded.flatMap blockPacked).length = coded.flatMap blockPacked

/-- The first of the blocks is decoded. -/
theorem HoldsBlocks.blkDec {s : State} {raw v : Vector Word 128} {vs : List (Vector Word 128)}
    (h : HoldsBlocks s (v :: vs)) (hv : v = if s.deltaEn then deltas s.dprev[3] raw else raw)
    (hstore : dstAddr s (s.oc + 128) ≤ 2 ^ s.cfg.addrW) : blkDec s = .ok () (afterBlock raw v s) := by
  obtain ⟨hrecords, hresiduals, ⟨hlen, hbase⟩, hpacked⟩ := h
  simp only [List.flatMap_cons, List.length_append] at *
  have hhere := (holdsWords_of_view (ws := blockPacked v ++ vs.flatMap blockPacked)
    (by rw [List.length_append]; exact hpacked)).append.1
  exact blkDec_block hv hrecords (fun k => ⟨_, (hresiduals k).symm⟩) ⟨by omega, hbase⟩ (hhere.view (by omega)) hstore

/-- The others are then before the decoder, where no word of `SRC` still to be read is stored over. -/
theorem HoldsBlocks.next {s : State} {raw v : Vector Word 128} {vs : List (Vector Word 128)}
    (h : HoldsBlocks s (v :: vs)) (wf : Memory.wf s.mem)
    (hdisjoint : srcAddr s (s.ic + ((v :: vs).flatMap blockPacked).length) ≤ dstAddr s s.oc ∨
      dstAddr s (s.oc + 128) ≤ srcAddr s s.ic) : HoldsBlocks (afterBlock raw v s) vs := by
  obtain ⟨hrecords, hresiduals, ⟨hlen, hbase⟩, hpacked⟩ := h
  simp only [List.flatMap_cons, List.length_append] at *
  have hafter := (holdsWords_of_view (ws := blockPacked v ++ vs.flatMap blockPacked)
    (by rw [List.length_append]; exact hpacked)).append.2
  have hkept : srcView (afterBlock raw v s) (s.ic + (blockPacked v).length) (vs.flatMap blockPacked).length =
      srcView s (s.ic + (blockPacked v).length) (vs.flatMap blockPacked).length := by
    refine Memory.readWords_congr fun i hi => ?_
    refine (stored_writeWords wf s.oc raw.toList).frame.readWord ?_
    simp only [srcAddr, dstAddr, afterBlock, Vector.length_toList] at *
    omega
  refine ⟨?_, fun k => ?_, ⟨?_, hbase⟩, hkept.trans (hafter.view (by omega))⟩
  · change s.bcMem.drop (s.bcRd + (blockMeta v).length) = _
    rw [← List.drop_drop, hrecords, List.drop_left]
  · change (readOn s.es _ _ _)[k.val].val.drop (readOn s.es _ _ _)[k.val].rd = _
    rw [readOn_block, ← List.drop_drop, hresiduals k, List.drop_left]
  · change s.ic + (blockPacked v).length + _ ≤ s.srcLen.toNat
    omega

/-- The blocks of a page are decoded one after the other (R194). -/
theorem blocksDec_ok {s : State} {raw coded : List (Vector Word 128)} (wf : Memory.wf s.mem)
    (hcoded : coded = codedBlocks s.deltaEn s.dprev[3] raw) (h : HoldsBlocks s coded)
    (hstore : dstAddr s (s.oc + 128 * raw.length) ≤ 2 ^ s.cfg.addrW)
    (hdisjoint : srcAddr s (s.ic + (coded.flatMap blockPacked).length) ≤ dstAddr s s.oc ∨
      dstAddr s (s.oc + 128 * raw.length) ≤ srcAddr s s.ic) :
    ∃ m e bl sb sc sm, Res.times blkDec raw.length s = .ok () { s with
        mem := m, oc := s.oc + 128 * raw.length, ic := s.ic + (coded.flatMap blockPacked).length,
        dprev := carriedOver s raw, bcRd := s.bcRd + (coded.flatMap blockMeta).length, es := e,
        blk := bl, selB := sb, selC := sc, selM := sm } ∧
      Stored s s.oc (raw.flatMap Vector.toList) m := by
  induction raw generalizing s coded with
  | nil =>
    subst hcoded
    have hdprev : carriedOver s [] = s.dprev := by cases hd : s.deltaEn <;> simp [carriedOver, hd]
    refine ⟨s.mem, s.es, s.blk, s.selB, s.selC, s.selM, ?_, wf, rfl, fun _ _ => rfl⟩
    rw [hdprev]
    rfl
  | cons v vs ih =>
    rw [codedBlocks_cons] at hcoded
    generalize hc : (if s.deltaEn then deltas s.dprev[3] v else v) = c at hcoded
    subst hcoded
    rw [List.length_cons, Nat.mul_succ] at hstore hdisjoint
    have hlater (n : Nat) : dstAddr s (s.oc + (n + 128)) = dstAddr s (s.oc + 128 + n) := by
      rw [Nat.add_right_comm, Nat.add_assoc]
    have hnext : dstAddr s (s.oc + 128) ≤ dstAddr s (s.oc + (128 * vs.length + 128)) := by
      simp only [dstAddr]
      omega
    have hblock := stored_writeWords wf s.oc v.toList
    have hdec := h.blkDec hc.symm (Nat.le_trans hnext hstore)
    have hrest := h.next (raw := v) wf (hdisjoint.imp id (Nat.le_trans hnext))
    obtain ⟨m, e, bl, sb, sc, sm, hok, hstored⟩ := ih (s := afterBlock v c s) hblock.wf rfl hrest
      (by rw [hlater] at hstore; exact hstore)
      (by
        simp only [List.flatMap_cons, List.length_append] at hdisjoint
        simp only [srcAddr, dstAddr, afterBlock] at *
        omega)
    refine ⟨m, e, bl, sb, sc, sm, ?_, ?_⟩
    · rw [List.length_cons, Res.times, hdec, Res.bind_ok, hok,
        carriedOver_cons (s := s) (t := afterBlock v c s) vs rfl rfl, List.flatMap_cons, List.flatMap_cons]
      simp only [afterBlock, List.length_append, Nat.mul_succ, Nat.add_assoc, Nat.add_comm (128 * vs.length) 128]
    · rw [List.flatMap_cons]
      refine Stored.append (t := afterBlock v c s) hblock ?_ rfl
      rwa [Vector.length_toList]


/-! ### The bounds of a page (R35, R37) -/

theorem length_flatMap_le {α β : Type} {f : α → List β} {c : Nat} (xs : List α) (h : ∀ x, (f x).length ≤ c) :
    (xs.flatMap f).length ≤ c * xs.length := by
  induction xs with
  | nil => exact Nat.le_refl _
  | cons x xs ih =>
    have := h x
    rw [List.flatMap_cons, List.length_append, List.length_cons, Nat.mul_succ]
    omega

theorem metadata_length_le {p : Params} {blocks : List (Vector Word 128)} (h : 128 * blocks.length ≤ p.pageSize) :
    (blocks.flatMap blockMeta).length ≤ bcCap p := by
  have := length_flatMap_le blocks blockMeta_length_le
  rw [bcCap]
  omega

theorem pageStore_val (blocks : List (Vector Word 128)) (k : Fin 32) :
    (pageStore blocks)[k.val].val = blocks.flatMap (blockResiduals k) := by
  simp [pageStore]

theorem pageStore_bounded {p : Params} {blocks : List (Vector Word 128)} (h : 128 * blocks.length ≤ p.pageSize)
    (k : Fin 32) : (pageStore blocks)[k.val].val.length ≤ bucketBound p := by
  have := length_flatMap_le blocks (blockResiduals_length_le k)
  rw [pageStore_val, bucketBound]
  omega

/-- The residuals of a page survive the cut to the widths of their buckets. -/
theorem ReadBack.residuals {es : Vector Bucket 32} {blocks : List (Vector Word 128)} {k : Fin 32}
    (h : ReadBack es k (pageStore blocks)[k.val].val) :
    es[k.val].val.drop es[k.val].rd = blocks.flatMap (blockResiduals k) := by
  obtain ⟨hval, hrd⟩ := h
  rw [hval, hrd, List.drop_zero, pageStore_val]
  refine map_lowBits_of_lt fun x hx => ?_
  obtain ⟨v, -, hxv⟩ := List.mem_flatMap.1 hx
  exact blockResiduals_lt x hxv

/-! ### The container and the store of a page -/

theorem wordsOf_bcRecords (bytes : List Byte) :
    wordsOf (bcRecords bytes) = BitVec.ofNat 32 bytes.length :: packBytes bytes := by
  simp [wordsOf, bcRecords, recWords]

theorem wordsOf_bcRecords_length (bytes : List Byte) :
    (wordsOf (bcRecords bytes)).length = 1 + ceilDiv bytes.length 4 := by
  rw [wordsOf_bcRecords, List.length_cons, packBytes_length, Nat.add_comm]

/-- `BC.READ` of what `BC.WRITE` emits of bytes within the capacity (R192, R195). -/
theorem bcRead_records {s : State} {q : Nat} {bytes : List Byte} (hs : SrcExists s)
    (hw : HoldsWords s q (wordsOf (bcRecords bytes))) (hcap : bytes.length ≤ bcCap s.cfg)
    (hlen : q + (1 + ceilDiv bytes.length 4) ≤ s.srcLen.toNat) :
    bcRead q s = .ok (1 + ceilDiv bytes.length 4) (takeBcBytes bytes s) := by
  have hcount : (BitVec.ofNat 32 bytes.length).toNat = bytes.length := by
    have := s.cfg.pageSize_max
    rw [bcCap] at hcap
    rw [BitVec.toNat_ofNat]
    omega
  rw [wordsOf_bcRecords] at hw
  obtain ⟨hsize, hbytes⟩ := HoldsWords.append (xs := [_]) hw
  have hview := hbytes.view (by rw [packBytes_length]; simp only [List.length_singleton]; omega)
  rw [packBytes_length] at hview
  have hread : srcWords s (q + 1) (ceilDiv bytes.length 4) = .ok (packBytes bytes) := by
    rw [srcWords_ok ⟨by omega, hs⟩]
    exact congrArg _ hview
  have htake : (bytesOfWords (packBytes bytes)).take bytes.length = bytes := by
    rw [bytesOfWords_packBytes, List.take_left]
  rw [bcRead, hsize.srcWord hs (by omega), Res.need_ok, takeBcSize, if_neg (by omega), Res.bind_ok, hcount, hread,
    Res.need_ok, htake]

/-- `ES.READ` of what `ES.WRITE` emits of buckets within their bounds (R147, R148). -/
theorem esRead_records {s : State} {p : Nat} {es : Vector Bucket 32} (hs : SrcExists s)
    (hw : HoldsWords s p (wordsOf (esRecords p es))) (hbound : ∀ k : Fin 32, es[k.val].val.length ≤ bucketBound s.cfg)
    (hlen : p + (wordsOf (esRecords p es)).length ≤ s.srcLen.toNat) :
    ∃ st, esRead p s = .ok (wordsOf (esRecords p es)).length (withStore st s) ∧
      ∀ k : Fin 32, ReadBack st k es[k.val].val := by
  obtain ⟨hbitmap, hbuckets⟩ := HoldsWords.append (xs := [esBitmapOf es]) hw
  obtain ⟨n, st, hread, rfl, hst⟩ := (esRead_reads hs hbound hbitmap hbuckets.buckets).ends hlen
  exact ⟨st, hread, hst⟩

theorem wordsOf_pageBack (q : Nat) (blocks : List (Vector Word 128)) :
    wordsOf (pageBack q blocks) = wordsOf (bcRecords (blocks.flatMap blockMeta)) ++
      wordsOf (esRecords (q + (1 + ceilDiv (blocks.flatMap blockMeta).length 4)) (pageStore blocks)) := by
  rw [pageBack, wordsOf_bcRecords_length, wordsOf, List.flatMap_append]

/-- The decoder with the header, the container and the store of a page read (R194). -/
def pageOpened (h q : Nat) (bytes : List Byte) (es : Vector Bucket 32) (s : State) : State :=
  { s with hdr := h, mp := q, bcMem := bytes, bcRd := 0, es := es, ic := h + 1 + padTo4 (h + 1) }

/-- `PAGE.DEC` with the container and the store of `coded` behind `q` comes to the blocks (R194). -/
theorem pageDec_opened {s : State} {n h : Nat} {w : Word} {coded : List (Vector Word 128)} (hs : SrcExists s)
    (hheader : srcWord s h = .ok w) (hw : 1 + padTo4 (h + 1) ≤ w.toNat)
    (hback : HoldsWords s (h + w.toNat) (wordsOf (pageBack (h + w.toNat) coded)))
    (hlen : h + w.toNat + (wordsOf (pageBack (h + w.toNat) coded)).length ≤ s.srcLen.toNat)
    (hn : 128 * coded.length ≤ s.cfg.pageSize) :
    ∃ es, (∀ k : Fin 32, es[k.val].val.drop es[k.val].rd = coded.flatMap (blockResiduals k)) ∧
      pageDec n h s =
        (Res.times blkDec (n / 128) (pageOpened h (h + w.toNat) (coded.flatMap blockMeta) es s)).bind fun _ s =>
          if s.ic ≠ s.mp then .stop (.malformed .areaEnd)
          else .ok (w.toNat + (wordsOf (pageBack (h + w.toNat) coded)).length) s := by
  generalize hq : h + w.toNat = q at *
  rw [wordsOf_pageBack] at hback hlen
  rw [wordsOf_pageBack]
  obtain ⟨hmeta, hstore⟩ := hback.append
  rw [List.length_append, wordsOf_bcRecords_length, ← Nat.add_assoc] at hlen
  rw [wordsOf_bcRecords_length] at hstore
  have hbc := bcRead_records (s := { s with hdr := h, mp := q }) hs hmeta (metadata_length_le hn)
    (Nat.le_trans (Nat.le_add_right _ _) hlen)
  obtain ⟨es, hes, hst⟩ := esRead_records (s := takeBcBytes (coded.flatMap blockMeta) { s with hdr := h, mp := q }) hs
    hstore (pageStore_bounded hn) hlen
  refine ⟨es, fun k => (hst k).residuals, ?_⟩
  rw [pageDec, hheader, Res.need_ok, takePageHdr, if_neg (Nat.not_lt.2 hw), Res.bind_ok, hq]
  dsimp only
  rw [hbc, Res.bind_ok]
  dsimp only [takeBcBytes] at hes ⊢
  rw [hes, Res.bind_ok, List.length_append, wordsOf_bcRecords_length, Nat.add_assoc w.toNat]
  rfl

/-- `PAGE.DEC` of a page whose parts stand at their places: its values, or a fault where its blocks do not end
where `W` says (R86, R194). -/
theorem pageDec_parts {s : State} {n h : Nat} {w : Word} {raw coded : List (Vector Word 128)} (hs : SrcExists s)
    (wf : Memory.wf s.mem) (hn : n = 128 * raw.length) (hpage : n ≤ s.cfg.pageSize)
    (hcoded : coded = codedBlocks s.deltaEn s.dprev[3] raw)
    (hheader : srcWord s h = .ok w) (hw : 1 + padTo4 (h + 1) ≤ w.toNat)
    (hback : HoldsWords s (h + w.toNat) (wordsOf (pageBack (h + w.toNat) coded)))
    (hlen : h + w.toNat + (wordsOf (pageBack (h + w.toNat) coded)).length ≤ s.srcLen.toNat)
    (harea : HoldsWords s (h + 1 + padTo4 (h + 1)) (coded.flatMap blockPacked))
    (hend : h + 1 + padTo4 (h + 1) + (coded.flatMap blockPacked).length ≤ s.srcLen.toNat)
    (hstore : dstAddr s (s.oc + n) ≤ 2 ^ s.cfg.addrW)
    (hdisjoint : srcAddr s (h + 1 + padTo4 (h + 1) + (coded.flatMap blockPacked).length) ≤ dstAddr s s.oc ∨
      dstAddr s (s.oc + n) ≤ srcAddr s (h + 1 + padTo4 (h + 1))) :
    ∃ t m e bl sb sc sm, t = { s with
        mem := m, oc := s.oc + n, ic := h + 1 + padTo4 (h + 1) + (coded.flatMap blockPacked).length, hdr := h,
        mp := h + w.toNat, dprev := carriedOver s raw, bcMem := coded.flatMap blockMeta,
        bcRd := (coded.flatMap blockMeta).length, es := e, blk := bl, selB := sb, selC := sc, selM := sm } ∧
      pageDec n h s =
        (if h + 1 + padTo4 (h + 1) + (coded.flatMap blockPacked).length ≠ h + w.toNat
          then .stop (.malformed .areaEnd)
          else .ok (w.toNat + (wordsOf (pageBack (h + w.toNat) coded)).length) t) ∧
      Stored s s.oc (raw.flatMap Vector.toList) m := by
  subst hn
  have hcount : coded.length = raw.length := hcoded ▸ codedBlocks_length _ _ _
  obtain ⟨es, hes, hopened⟩ := pageDec_opened (n := 128 * raw.length) hs hheader hw hback hlen (hcount ▸ hpage)
  have hblocks : HoldsBlocks (pageOpened h (h + w.toNat) (coded.flatMap blockMeta) es s) coded :=
    ⟨rfl, hes, ⟨hend, hs⟩, harea.view hend⟩
  obtain ⟨m, e, bl, sb, sc, sm, hdec, hstored⟩ := blocksDec_ok (raw := raw) (by exact wf) (by exact hcoded) hblocks
    (by exact hstore) (by exact hdisjoint)
  refine ⟨_, m, e, bl, sb, sc, sm, rfl, ?_, hstored.wf, hstored.words, hstored.frame⟩
  rw [hopened, Nat.mul_div_cancel_left _ (by decide), hdec, Res.bind_ok]
  simp only [pageOpened, Nat.zero_add]
  rfl

/-! ### The words of a page -/

theorem wordsOf_pageHead (h : Nat) (blocks : List (Vector Word 128)) :
    wordsOf (pageHead h blocks) = BitVec.ofNat 32 (1 + (padTo4 (h + 1) + (blocks.flatMap blockPacked).length)) ::
      (List.replicate (padTo4 (h + 1)) 0#32 ++ blocks.flatMap blockPacked) := by
  have pads (n : Nat) : (List.replicate n Instr.pagePad).flatMap recWords = List.replicate n 0#32 := by
    simp [List.flatMap_replicate, recWords]
  have packed : (blocks.map packedRecord).flatMap recWords = blocks.flatMap blockPacked := by
    rw [List.flatMap_map]
    rfl
  simp only [pageHead, wordsOf, List.flatMap_cons, List.flatMap_append, pads, packed, List.length_append,
    List.length_replicate, recWords]
  rfl

theorem headLength_eq (h : Nat) (blocks : List (Vector Word 128)) :
    headLength h blocks = 1 + padTo4 (h + 1) + (blocks.flatMap blockPacked).length := by
  have hsum : (blocks.map fun v => 4 * (blockChoice v).b).sum = (blocks.flatMap blockPacked).length := by
    rw [List.length_flatMap]
    simp only [blockPacked_length]
  rw [headLength, hsum, roundup_eq_add_padTo4, Nat.add_sub_cancel_left]

theorem wordsOf_pageHead_length (h : Nat) (blocks : List (Vector Word 128)) :
    (wordsOf (pageHead h blocks)).length = headLength h blocks := by
  rw [wordsOf_pageHead, headLength_eq]
  simp only [List.length_cons, List.length_append, List.length_replicate]
  omega

/-- A page fits the words a header counts (R31). -/
theorem headLength_lt {p : Params} {h : Nat} {blocks : List (Vector Word 128)} (hn : 128 * blocks.length ≤ p.pageSize) :
    headLength h blocks < 2 ^ 32 := by
  have hpacked : (blocks.flatMap blockPacked).length ≤ 128 * blocks.length :=
    length_flatMap_le blocks fun v => by
      have := blockChoice_b_le v
      have := blockMaxb_le v
      rw [blockPacked_length]
      omega
  have := padTo4_lt (h + 1)
  have := p.pageSize_max
  rw [headLength_eq]
  omega

theorem pageStream_eq (h : Nat) (blocks : List (Vector Word 128)) :
    pageStream h blocks = (BitVec.ofNat 32 (headLength h blocks) :: List.replicate (padTo4 (h + 1)) 0#32) ++
      (blocks.flatMap blockPacked ++ wordsOf (pageBack (h + headLength h blocks) blocks)) := by
  rw [pageStream, pageRecords, wordsOf_pageHead_length, wordsOf, List.flatMap_append]
  change wordsOf (pageHead h blocks) ++ _ = _
  rw [wordsOf_pageHead, headLength_eq, Nat.add_assoc]
  simp

/-- The words of a page, its padding holding anything: the header, and what follows the padding. -/
theorem unpadded_page {s : State} {h pad : Nat} {w : Word} {rest : List Word} (hs : SrcExists s)
    (hlen : h + ((w :: List.replicate pad 0#32) ++ rest).length ≤ s.srcLen.toNat)
    (hwords : ∀ i, i < ((w :: List.replicate pad 0#32) ++ rest).length → i = 0 ∨ pad < i →
      Memory.readWord s.mem (srcAddr s (h + i)) = ((w :: List.replicate pad 0#32) ++ rest).getD i 0#32) :
    srcWord s h = .ok w ∧ HoldsWords s (h + 1 + pad) rest := by
  simp only [List.length_append, List.length_cons, List.length_replicate] at hlen hwords
  refine ⟨?_, fun j hj _ => ?_⟩
  · rw [srcWord_ok ⟨by omega, hs⟩]
    exact congrArg _ (hwords 0 (by omega) (Or.inl rfl))
  · have hword := hwords (1 + pad + j) (by omega) (Or.inr (by omega))
    rw [List.getD_append_right _ _ _ _ (by simp; omega)] at hword
    rw [show h + 1 + pad + j = h + (1 + pad + j) by omega, hword]
    congr 1
    simp only [List.length_cons, List.length_replicate]
    omega

/-- Settles O57: the page's words stand at the places its header names, so `pageDec_parts` applies; the other
clauses are its guards. -/
theorem pageDecode : Obligations.PageDecode := by
  refine ⟨?_, ?_, ?_, ?_⟩
  · intro s n h raw coded ws wf hn hpage hcoded hws hread hwords hstore hdisjoint
    have hcount : coded.length = raw.length := hcoded ▸ codedBlocks_length _ _ _
    have hW : (BitVec.ofNat 32 (headLength h.toNat coded)).toNat = headLength h.toNat coded := by
      rw [BitVec.toNat_ofNat]
      exact Nat.mod_eq_of_lt (headLength_lt (p := s.cfg) (by omega))
    rw [pageStream_eq] at hws
    subst hws
    obtain ⟨hlen, hs⟩ := hread
    obtain ⟨hheader, hrest⟩ := unpadded_page hs hlen hwords
    obtain ⟨harea, hback⟩ := hrest.append
    have hplace : h.toNat + 1 + padTo4 (h.toNat + 1) + (coded.flatMap blockPacked).length =
        h.toNat + headLength h.toNat coded := by
      rw [headLength_eq]
      omega
    have htotal (n : Nat) : padTo4 (h.toNat + 1) + 1 + ((coded.flatMap blockPacked).length + n) =
        headLength h.toNat coded + n := by
      rw [headLength_eq]
      omega
    simp only [List.length_append, List.length_cons, List.length_replicate] at hlen hdisjoint ⊢
    rw [hplace] at hback
    obtain ⟨t, m, e, bl, sb, sc, sm, ht, hdec, hstored⟩ := pageDec_parts (h := h.toNat) hs wf hn hpage hcoded hheader
      (by rw [hW, headLength_eq]; omega) (by rw [hW]; exact hback) (by rw [hW]; omega) harea (by omega) hstore
      (by simp only [srcAddr] at *; omega)
    rw [hW] at ht hdec
    rw [if_neg (not_not.2 hplace)] at hdec
    refine ⟨m, e, bl, sb, sc, sm, ?_, hstored⟩
    change (pageDec n.toNat h.toNat s).returningNat = _
    rw [hdec, ht, hplace, htotal]
    rfl
  · intro s n h hend
    change (pageDec n.toNat h.toNat s).returningNat = _
    rw [pageDec, srcWord_end hend]
    rfl
  · intro s n h w hread hheader hw
    change (pageDec n.toNat h.toNat s).returningNat = _
    rw [pageDec, srcWord_ok hread, hheader, Res.need_ok, takePageHdr, if_pos hw]
    rfl
  · rintro s n h w raw coded area q packed back wf hn hpage hcoded rfl rfl rfl rfl hh hheader hw ⟨harea, -⟩ hpacked
      ⟨hlen, hs⟩ hback hstore hdisjoint hne
    obtain ⟨t, m, e, bl, sb, sc, sm, -, hdec, -⟩ := pageDec_parts hs wf hn hpage hcoded
      (by rw [srcWord_ok hh, hheader]) hw (holdsWords_of_view hback) hlen (holdsWords_of_view hpacked) harea hstore
      hdisjoint
    change (pageDec n.toNat h.toNat s).returningNat = _
    rw [hdec, if_pos hne]
    rfl

end Sys2Proof.Machine

/-! SUPPORT. What the encoder does with one block: the selector, the record and the residuals, the packed words
(R161 to R168). -/

namespace Sys2Proof.Machine

/-! ### The selector and the record -/

/-- The selector, on the histogram of a block, finds the block's choice (R163). -/
theorem blkSelect_block {s : State} {v : Vector Word 128} (h : s.freq = histogram v) :
    blkSelect s = setSel (blockChoice v).b (blockChoice v).c (blockMaxb v) s := by
  obtain ⟨hlt, hm, -⟩ := blockMaxb_spec v
  rw [blkSelect, h, hm]
  simp only [selectAt, h, blockChoice]

theorem blkSelect_blkHist {s : State} {v : Vector Word 128} (h : s.blk = v) :
    blkSelect (blkHist s) = setSel (blockChoice v).b (blockChoice v).c (blockMaxb v) (blkHist s) :=
  blkSelect_block (by rw [blkHist, h])

theorem bcPut_ok {x : Byte} {s : State} (h : s.bcMem.length < bcCap s.cfg) :
    bcPut x s = .ok () { s with bcMem := s.bcMem ++ [x] } := if_neg (Nat.not_le.2 h)

theorem setWidth_ofNat {n : Nat} (h : n < 64) : (BitVec.ofNat 6 n).setWidth 8 = BitVec.ofNat 8 n := by
  apply BitVec.eq_of_toNat_eq
  simp only [BitVec.toNat_setWidth, BitVec.toNat_ofNat]
  omega

/-- The positions and the residuals of exceptions are appended (R165). -/
theorem putExceptions_ok {k : Fin 32} {xs : List (Nat × Word)} {s : State}
    (h : s.bcMem.length + xs.length ≤ bcCap s.cfg) :
    putExceptions k xs s = .ok () { s with
      bcMem := s.bcMem ++ xs.map fun e => BitVec.ofNat 8 e.1, es := appended s.es k (xs.map (·.2)) } := by
  induction xs generalizing s with
  | nil =>
    simp only [putExceptions, List.map_nil, List.append_nil, appended_nil]
  | cons x xs ih =>
    rw [List.length_cons] at h
    rw [putExceptions, bcPut_ok (by omega), Res.bind_ok, ih (by simp [esAppend, esAppendAll, setBucket]; omega)]
    simp [esAppend, esAppendAll, setBucket, appended]

/-- The exceptional part of a record (R165). -/
theorem emitExceptions_ok {s : State} {k : Fin 32} {b m : Nat} {xs : List (Nat × Word)} (hb : s.selB.toNat = b)
    (hm : s.selM = BitVec.ofNat 6 m) (hk : m = b + k.val + 1) (hm' : m ≤ 32)
    (hxs : exceptionsFrom b 0 s.blk.toList = xs) (h : s.bcMem.length + (1 + xs.length) ≤ bcCap s.cfg) :
    ∃ es, emitExceptions s = .ok () { s with
        bcMem := s.bcMem ++ (BitVec.ofNat 8 m :: xs.map fun e => BitVec.ofNat 8 e.1), es := es } ∧
      ∀ j : Fin 32, es[j.val].val = s.es[j.val].val ++ if j = k then xs.map (·.2) else [] := by
  have hmval : (BitVec.ofNat 6 m).toNat = m := by
    rw [BitVec.toNat_ofNat]
    omega
  have hbucket : bucketIndex b m = some k := by
    rw [bucketIndex, dif_pos (by omega)]
    exact congrArg some (Fin.ext (by simp only; omega))
  refine ⟨appended (esEnsure k s.selC.toNat s).es k (xs.map (·.2)), ?_, fun j => ?_⟩
  · rw [emitExceptions, bcPut_ok (by omega), Res.bind_ok]
    dsimp only
    rw [hm, hb, hmval, hbucket, setWidth_ofNat (by omega), hxs]
    dsimp only [esEnsure, setBucket]
    rw [putExceptions_ok (by simp; omega), List.append_assoc]
    rfl
  · by_cases hj : j = k
    · subst hj
      simp [appended, esEnsure, setBucket]
    · have hne : k.val ≠ j.val := fun h => hj (Fin.ext h.symm)
      simp [appended, esEnsure, setBucket, Vector.getElem_set_ne _ _ hne, hj]

/-- The buckets of `es` with the residuals of coded blocks appended (R92, R165). -/
def ResidualsAdded (es es' : Vector Bucket 32) (coded : List (Vector Word 128)) : Prop :=
  ∀ k : Fin 32, es'[k.val].val = es[k.val].val ++ coded.flatMap (blockResiduals k)

theorem residualsAdded_nil (es : Vector Bucket 32) : ResidualsAdded es es [] :=
  fun _ => (List.append_nil _).symm

theorem ResidualsAdded.cons {es es' es'' : Vector Bucket 32} {v : Vector Word 128} {vs : List (Vector Word 128)}
    (h : ResidualsAdded es es' [v]) (g : ResidualsAdded es' es'' vs) : ResidualsAdded es es'' (v :: vs) := by
  intro k
  rw [g k, h k, List.append_assoc, ← List.flatMap_append]
  rfl

/-- A block without exceptions adds no residual. -/
theorem residualsAdded_plain (es : Vector Bucket 32) {v : Vector Word 128} (h : blockPositions v = []) :
    ResidualsAdded es es [v] := by
  intro k
  have hnone : blockResiduals k v = [] :=
    blockResiduals_of_not_bucket fun hk => by
      rw [blockMaxb_of_plain h] at hk
      omega
  simp [hnone]

/-- A block with exceptions adds them to its bucket. -/
theorem residualsAdded_exceptional {es es' : Vector Bucket 32} {v : Vector Word 128} {k : Fin 32}
    (h : ∀ j : Fin 32, es'[j.val].val = es[j.val].val ++ if j = k then blockRest v else [])
    (hk : blockMaxb v = (blockChoice v).b + k.val + 1) : ResidualsAdded es es' [v] := by
  intro j
  rw [h j, List.flatMap_singleton]
  by_cases hj : j = k
  · rw [if_pos hj, hj, blockResiduals_of_bucket hk]
  · have hne : blockMaxb v ≠ (blockChoice v).b + j.val + 1 := fun he =>
      hj (Fin.ext (Nat.add_left_cancel (Nat.succ.inj (he.symm.trans hk))))
    rw [if_neg hj, blockResiduals_of_not_bucket hne]

/-- A record without exceptions (R165). -/
theorem blkEmit_plain {s : State} {b : Nat} (hb : s.selB = BitVec.ofNat 6 b) (hb' : b < 64) (hc : s.selC = 0#8)
    (hroom : s.bcMem.length + 2 ≤ bcCap s.cfg) :
    blkEmit s = .ok () { s with bcMem := s.bcMem ++ [BitVec.ofNat 8 b, 0#8] } := by
  rw [blkEmit, bcPut_ok (by omega), Res.bind_ok, bcPut_ok (by simp; omega), Res.bind_ok]
  dsimp only
  rw [if_pos hc, hb, hc, setWidth_ofNat hb', List.append_assoc]
  rfl

/-- A record with exceptions (R165). -/
theorem blkEmit_exceptions {s : State} {k : Fin 32} {b m : Nat} {xs : List (Nat × Word)}
    (hb : s.selB = BitVec.ofNat 6 b) (hc : s.selC ≠ 0#8) (hm : s.selM = BitVec.ofNat 6 m) (hk : m = b + k.val + 1)
    (hm' : m ≤ 32) (hxs : exceptionsFrom b 0 s.blk.toList = xs)
    (hroom : s.bcMem.length + (3 + xs.length) ≤ bcCap s.cfg) :
    ∃ es, blkEmit s = .ok () { s with
        bcMem := s.bcMem ++ BitVec.ofNat 8 b :: s.selC :: BitVec.ofNat 8 m :: xs.map fun e => BitVec.ofNat 8 e.1,
        es := es } ∧
      ∀ j : Fin 32, es[j.val].val = s.es[j.val].val ++ if j = k then xs.map (·.2) else [] := by
  have hbval : (BitVec.ofNat 6 b).toNat = b := by
    rw [BitVec.toNat_ofNat]
    omega
  obtain ⟨es, hemit, hes⟩ := emitExceptions_ok (s := { s with bcMem := s.bcMem ++ [BitVec.ofNat 8 b] ++ [s.selC] })
    (by exact hb ▸ hbval) hm hk hm' hxs (by simp; omega)
  refine ⟨es, ?_, hes⟩
  rw [blkEmit, bcPut_ok (by omega), Res.bind_ok, bcPut_ok (by simp; omega), Res.bind_ok]
  dsimp only
  rw [if_neg hc, hb, setWidth_ofNat (by omega)]
  rw [hb] at hemit
  rw [hemit, List.append_assoc, List.append_assoc]
  rfl

/-- The record and the residuals of a block are appended (R165). -/
theorem blkEmit_block {s : State} {v : Vector Word 128} (hblk : s.blk = v)
    (hB : s.selB = BitVec.ofNat 6 (blockChoice v).b) (hC : s.selC = BitVec.ofNat 8 (blockChoice v).c)
    (hM : s.selM = BitVec.ofNat 6 (blockMaxb v)) (hroom : s.bcMem.length + (blockMeta v).length ≤ bcCap s.cfg) :
    ∃ es, blkEmit s = .ok () { s with bcMem := s.bcMem ++ blockMeta v, es := es } ∧ ResidualsAdded s.es es [v] := by
  have hok := recordOk_block v
  have hwidth : (blockChoice v).b < 64 := Nat.lt_of_le_of_lt hok.width (by decide)
  have hbytes := recordBytes_length hok
  have hnone : (blockChoice v).c = 0 ↔ blockPositions v = [] := by
    rw [← blockPositions_length, List.length_eq_zero_iff]
  have hzero : BitVec.ofNat 8 (blockChoice v).c = 0#8 ↔ (blockChoice v).c = 0 := by
    have := blockChoice_c_le v
    rw [← BitVec.toNat_inj, BitVec.toNat_ofNat, BitVec.toNat_ofNat]
    omega
  by_cases hpos : blockPositions v = []
  · rw [blockMeta_eq, hpos, recordBytes_nil] at hroom
    refine ⟨s.es, ?_, residualsAdded_plain s.es hpos⟩
    rw [blkEmit_plain hB hwidth (hC.trans (hzero.2 (hnone.2 hpos))) hroom, blockMeta_eq, hpos, recordBytes_nil]
  · have hc : s.selC ≠ 0#8 := fun h0 => hpos (hnone.1 (hzero.1 (hC.symm.trans h0)))
    have hxs : exceptionsFrom (blockChoice v).b 0 s.blk.toList = blockExceptions v := by rw [hblk, blockExceptions]
    rw [blockMeta_eq, hbytes, if_neg hpos, blockPositions_length, blockChoice_c] at hroom
    obtain ⟨hbm, hm⟩ := hok.exceptional hpos
    obtain ⟨d, hd⟩ := Nat.exists_eq_add_of_lt hbm
    have hd' : d < 32 := by omega
    obtain ⟨es, hemit, hes⟩ := blkEmit_exceptions (k := ⟨d, hd'⟩) hB hc hM hd hm hxs hroom
    refine ⟨es, ?_, residualsAdded_exceptional (k := ⟨d, hd'⟩) ?_ hd⟩
    · rw [hemit, hC, blockMeta, metaBytes, if_neg fun h0 => hc (hC.trans h0)]
    · rw [← blockExceptions_residuals]
      exact hes


/-! ### The whole block -/

theorem deltaIfEnabled_eq (s : State) :
    deltaIfEnabled s = { s with
      blk := if s.deltaEn then deltas s.dprev[3] s.blk else s.blk
      dprev := if s.deltaEn then blockTail s.blk else s.dprev } := by
  by_cases hd : s.deltaEn
  · simp only [deltaIfEnabled, if_pos hd, blkDelta]
  · simp only [deltaIfEnabled, if_neg hd]

/-- The state after the block `raw`, coded as `v`, has been taken in, before its words are emitted (R168). -/
def blockTaken (raw v : Vector Word 128) (es : Vector Bucket 32) (s : State) : State :=
  { s with
    blk := v
    freq := histogram v
    selB := BitVec.ofNat 6 (blockChoice v).b
    selC := BitVec.ofNat 8 (blockChoice v).c
    selM := BitVec.ofNat 6 (blockMaxb v)
    ic := s.ic + 128
    dprev := carriedOver s [raw]
    bcMem := s.bcMem ++ blockMeta v
    es := es }

/-- `BLK.ENC` of the block at the input cursor: it is taken in, and its packed words are emitted (R168). -/
theorem blkEnc_block {s : State} {raw v : Vector Word 128} (haddr : srcAddr s (s.ic + 128) ≤ 2 ^ s.cfg.addrW)
    (hload : ∀ i : Fin 128, Memory.readWord s.mem (srcAddr s (s.ic + i.val)) = raw[i.val])
    (hv : v = if s.deltaEn then deltas s.dprev[3] raw else raw)
    (hroom : s.bcMem.length + (blockMeta v).length ≤ bcCap s.cfg) :
    ∃ es, blkEnc s = emitAll (blockPacked v) (blockTaken raw v es s) ∧ ResidualsAdded s.es es [v] := by
  have hblk : (Vector.ofFn fun i : Fin 128 => Memory.readWord s.mem (srcAddr s (s.ic + i.val))) = raw := by
    apply Vector.ext
    intro i hi
    rw [Vector.getElem_ofFn]
    exact hload ⟨i, hi⟩
  have hwidth : (BitVec.ofNat 6 (blockChoice v).b).toNat = (blockChoice v).b := by
    rw [BitVec.toNat_ofNat]
    exact Nat.mod_eq_of_lt (Nat.lt_of_le_of_lt (recordOk_block v).width (by decide))
  obtain ⟨es, hemit, hes⟩ := blkEmit_block (v := v)
    (s := { blockTaken raw v s.es s with bcMem := s.bcMem }) rfl rfl rfl rfl hroom
  refine ⟨es, ?_, hes⟩
  rw [blkEnc, blkLoad_ok haddr, Res.bind_ok, hblk, deltaIfEnabled_eq]
  dsimp only
  rw [← hv, blkSelect_blkHist (by rfl)]
  simp only [blockTaken, carriedOver_singleton] at hemit ⊢
  simp only [blkHist, setSel]
  rw [hemit, Res.bind_ok]
  dsimp only
  rw [hwidth, blockPacked]

end Sys2Proof.Machine

/-! SUPPORT. How many words the encoder produces, and that it raises `BufferOverrun` where they do not fit (R57,
R190, R191). -/

namespace Sys2Proof.Machine

/-! ### Operations that emit a number of words -/

/-- `r` emits `n` words: where `DST` has room for them it ends at the cursor behind them, in a state that meets
`post`; where it has not, with `BufferOverrun` (R57). -/
structure Outputs {α : Type} (n : Nat) (s : State) (r : Res α) (post : State → Prop) : Prop where
  fits : s.oc + n ≤ s.dstCap.toNat →
    ∃ a t, r = .ok a t ∧ t.oc = s.oc + n ∧ HostKept s t ∧ t.mp = s.mp ∧ post t
  overruns : s.dstCap.toNat < s.oc + n → ∃ u, r = .raised .bufferOverrun u ∧ u.mp = s.mp

theorem Outputs.bind {α β : Type} {n m : Nat} {s : State} {r : Res α} {k : α → State → Res β}
    {post post' : State → Prop} (h : Outputs n s r post)
    (hk : ∀ a t, r = .ok a t → s.oc + n ≤ s.dstCap.toNat → t.oc = s.oc + n → HostKept s t → post t →
      Outputs m t (k a t) post') : Outputs (n + m) s (r.bind k) post' := by
  by_cases hroom : s.oc + n ≤ s.dstCap.toNat
  · obtain ⟨a, t, rfl, hoc, kept, hmp, ht⟩ := h.fits hroom
    obtain ⟨hfits, hover⟩ := hk a t rfl hroom hoc kept ht
    rw [kept.dstCap, hoc, Nat.add_assoc] at hfits hover
    refine ⟨fun hle => ?_, fun hlt => ?_⟩
    · obtain ⟨b, u, hr, hu, kept', hmp', hpost⟩ := hfits hle
      exact ⟨b, u, hr, hu, kept.trans kept', hmp'.trans hmp, hpost⟩
    · obtain ⟨u, hr, hmp'⟩ := hover hlt
      exact ⟨u, hr, hmp'.trans hmp⟩
  · obtain ⟨u, rfl, hmp⟩ := h.overruns (by omega)
    exact ⟨fun _ => by omega, fun _ => ⟨u, rfl, hmp⟩⟩

/-- An update that emits nothing may come first. -/
theorem Outputs.after {α : Type} {n : Nat} {s u : State} {r : Res α} {post : State → Prop} (h : Outputs n u r post)
    (kept : HostKept s u) (hoc : u.oc = s.oc) (hmp : u.mp = s.mp) : Outputs n s r post := by
  obtain ⟨hfits, hover⟩ := h
  rw [hoc, hmp, kept.dstCap] at hfits hover
  refine ⟨fun hle => ?_, hover⟩
  obtain ⟨a, t, hr, ht, kept', hrest⟩ := hfits hle
  exact ⟨a, t, hr, ht, kept.trans kept', hrest⟩

theorem Outputs.mono {α : Type} {n : Nat} {s : State} {r : Res α} {post post' : State → Prop}
    (h : Outputs n s r post)
    (hp : ∀ a t, r = .ok a t → s.oc + n ≤ s.dstCap.toNat → HostKept s t → post t → post' t) :
    Outputs n s r post' := by
  refine ⟨fun hle => ?_, h.overruns⟩
  obtain ⟨a, t, hr, hoc, kept, hmp, ht⟩ := h.fits hle
  exact ⟨a, t, hr, hoc, kept, hmp, hp a t hr hle kept ht⟩

theorem outputs_ok {α : Type} {a : α} {s : State} {post : State → Prop} (h : post s) (hoc : s.oc ≤ s.dstCap.toNat) :
    Outputs 0 s (.ok a s) post :=
  ⟨fun _ => ⟨a, s, rfl, rfl, HostKept.refl s, rfl, h⟩, fun hlt => by omega⟩

/-- `DST` stands in the address space, and the output cursor in `DST`. -/
structure DstReady (s : State) : Prop where
  cursor : s.oc ≤ s.dstCap.toNat
  inSpace : s.dstBase + 4 * s.dstCap.toNat ≤ 2 ^ s.cfg.addrW

/-- What the emission of words changes: memory and the cursor. -/
def Emitted (n : Nat) (s t : State) : Prop := ∃ m, t = { s with mem := m, oc := s.oc + n }

theorem outputs_emitAll {s : State} (h : DstReady s) (ws : List Word) :
    Outputs ws.length s (emitAll ws s) (Emitted ws.length s) := by
  refine ⟨fun hle => ⟨(), _, emitAll_ok ⟨hle, h.inSpace⟩, rfl, ?_, rfl, _, rfl⟩, fun hlt =>
    ⟨_, emitAll_overrun h.cursor h.inSpace hlt, rfl⟩⟩
  have keeps := emitAll_keeps ws s
  rwa [emitAll_ok ⟨hle, h.inSpace⟩] at keeps

/-! ### The encoder before its input -/

/-- The encoder may run, and the values still to be encoded stand at its input cursor. -/
structure EncReady (s : State) (vals : List Word) : Prop where
  wf : Memory.wf s.mem
  lendable : Lendable s
  cursor : s.oc ≤ s.dstCap.toNat
  inside : s.ic + vals.length ≤ s.srcLen.toNat
  values : HoldsWords s s.ic vals

theorem EncReady.dst {s : State} {vals : List Word} (h : EncReady s vals) : DstReady s := by
  obtain ⟨hwraps, -⟩ := h.lendable
  exact ⟨h.cursor, by simp only [Wraps] at hwraps; omega⟩

/-- No byte of `SRC` is one of `DST` (R61). -/
theorem not_inDst_of_inSrc {s : State} {a : Nat} (h : Lendable s) (ha : InSrc s a) : ¬InDst s a := by
  intro hd
  obtain ⟨hlow, hhigh⟩ := ha
  obtain ⟨hlow', hhigh'⟩ := hd
  refine h.2 ⟨fun h0 => ?_, fun h0 => ?_, by omega, by omega⟩
  · rw [h0] at hhigh
    simp at hhigh
    omega
  · rw [h0] at hhigh'
    simp at hhigh'
    omega

theorem HostKept.lendable {s t : State} (kept : HostKept s t) (h : Lendable s) : Lendable t := by
  simpa only [Lendable, Wraps, Overlaps, kept.srcBase, kept.srcLen, kept.dstBase, kept.dstCap, kept.cfg] using h

/-- The encoder goes on to the values behind those it has read, whatever it has written in `DST`. -/
theorem EncReady.next {s t : State} {xs ys : List Word} (h : EncReady s (xs ++ ys)) (kept : HostKept s t)
    (confined : Confined s t) (hic : t.ic = s.ic + xs.length) (hoc : t.oc ≤ t.dstCap.toNat) : EncReady t ys := by
  obtain ⟨wf, lendable, -, inside, values⟩ := h
  rw [List.length_append] at inside
  have same {a : Nat} (ha : InSrc s a) : Memory.read t.mem a = Memory.read s.mem a :=
    confined.outside wf a (not_inDst_of_inSrc lendable ha)
  refine ⟨confined.wf wf, ?_, hoc, by rw [hic, kept.srcLen]; omega, fun j hj hend => ?_⟩
  · exact kept.lendable lendable
  · rw [hic, kept.srcLen] at hend
    have hword : Memory.readWord t.mem (srcAddr t (t.ic + j)) =
        Memory.readWord s.mem (srcAddr s (s.ic + xs.length + j)) := by
      simp only [Memory.readWord, srcAddr, kept.srcBase, hic]
      rw [same ⟨by omega, by omega⟩, same ⟨by omega, by omega⟩, same ⟨by omega, by omega⟩, same ⟨by omega, by omega⟩]
    rw [hword]
    exact values.append.2 j hj hend


/-! ### The blocks of a page -/

/-- What the encoding of the blocks `raw`, coded as `coded`, changes beside memory and the output cursor (R168). -/
structure BlocksTaken (raw coded : List (Vector Word 128)) (s t : State) : Prop where
  hdr : t.hdr = s.hdr
  rem : t.rem = s.rem
  ic : t.ic = s.ic + 128 * raw.length
  carried : t.dprev = carriedOver s raw
  metadata : t.bcMem = s.bcMem ++ coded.flatMap blockMeta
  residuals : ResidualsAdded s.es t.es coded

theorem carriedOver_congr {s t : State} (hd : t.deltaEn = s.deltaEn) (hp : t.dprev = s.dprev)
    (raw : List (Vector Word 128)) : carriedOver t raw = carriedOver s raw := by
  simp only [carriedOver, hd, hp]

theorem carriedOver_nil (s : State) : carriedOver s [] = s.dprev := by
  cases hd : s.deltaEn <;> simp [carriedOver, hd]

theorem BlocksTaken.cons {s t u : State} {r v : Vector Word 128} {rs vs : List (Vector Word 128)}
    (h : BlocksTaken [r] [v] s t) (hd : t.deltaEn = s.deltaEn) (g : BlocksTaken rs vs t u) :
    BlocksTaken (r :: rs) (v :: vs) s u where
  hdr := g.hdr.trans h.hdr
  rem := g.rem.trans h.rem
  ic := by
    rw [g.ic, h.ic, List.length_singleton, List.length_cons]
    omega
  carried := by rw [g.carried, carriedOver_cons rs hd h.carried]
  metadata := by
    rw [g.metadata, h.metadata, List.append_assoc, ← List.flatMap_append]
    rfl
  residuals := h.residuals.cons g.residuals

/-- The block at the input cursor can be loaded (R166). -/
theorem EncReady.load {s : State} {raw : Vector Word 128} {rest : List Word} (h : EncReady s (raw.toList ++ rest)) :
    srcAddr s (s.ic + 128) ≤ 2 ^ s.cfg.addrW ∧
      ∀ i : Fin 128, Memory.readWord s.mem (srcAddr s (s.ic + i.val)) = raw[i.val] := by
  obtain ⟨hwraps, -⟩ := h.lendable
  have inside := h.inside
  rw [List.length_append, Vector.length_toList] at inside
  refine ⟨?_, fun i => ?_⟩
  · simp only [Wraps, srcAddr] at *
    omega
  · simpa using h.values.append.1 i.val (by simp) (by omega)

/-- `BLK.ENC` of the first values still to be encoded (R168). -/
theorem blkEnc_outputs {s : State} {raw v : Vector Word 128} {rest : List Word} (h : EncReady s (raw.toList ++ rest))
    (hv : v = if s.deltaEn then deltas s.dprev[3] raw else raw)
    (hroom : s.bcMem.length + (blockMeta v).length ≤ bcCap s.cfg) :
    Outputs (blockPacked v).length s (blkEnc s) (BlocksTaken [raw] [v] s) := by
  obtain ⟨haddr, hload⟩ := h.load
  obtain ⟨es, henc, hes⟩ := blkEnc_block haddr hload hv hroom
  rw [henc]
  refine ((outputs_emitAll (s := blockTaken raw v es s) ⟨h.dst.cursor, h.dst.inSpace⟩ (blockPacked v)).mono ?_).after
    (by constructor <;> rfl) rfl rfl
  rintro - t - - - ⟨m, rfl⟩
  exact ⟨rfl, rfl, rfl, rfl, by simp [blockTaken], hes⟩

theorem outputs_confined_ready {s t : State} {xs ys : List Word} {r : Res Unit} (h : EncReady s (xs ++ ys))
    (hr : r = .ok () t) (kept : HostKept s t) (confined : r.Keeps Confined s) (hic : t.ic = s.ic + xs.length)
    (hoc : t.oc ≤ s.dstCap.toNat) : EncReady t ys := by
  rw [hr] at confined
  exact h.next kept confined hic (by rwa [kept.dstCap])

/-- The blocks of a page are encoded one after the other (R191). -/
theorem blocksEnc_outputs {s : State} {raw coded : List (Vector Word 128)} {rest : List Word}
    (h : EncReady s (raw.flatMap Vector.toList ++ rest)) (hcoded : coded = codedBlocks s.deltaEn s.dprev[3] raw)
    (hroom : s.bcMem.length + (coded.flatMap blockMeta).length ≤ bcCap s.cfg) :
    Outputs (coded.flatMap blockPacked).length s (Res.times blkEnc raw.length s) (BlocksTaken raw coded s) := by
  induction raw generalizing s coded with
  | nil =>
    subst hcoded
    exact outputs_ok ⟨rfl, rfl, rfl, (carriedOver_nil s).symm, (List.append_nil _).symm, residualsAdded_nil _⟩ h.cursor
  | cons r rs ih =>
    rw [codedBlocks_cons] at hcoded
    generalize hv : (if s.deltaEn then deltas s.dprev[3] r else r) = v at hcoded
    subst hcoded
    rw [List.flatMap_cons, List.append_assoc] at h
    rw [List.flatMap_cons, List.length_append] at hroom ⊢
    rw [List.length_cons, Res.times]
    refine (blkEnc_outputs h hv.symm (by omega)).bind fun a t hr hle hoc kept taken => ?_
    have ready := outputs_confined_ready h hr kept (Res.keeps_mono (blkEnc_emits s) fun _ g => g.confined)
      (by rw [taken.ic]; simp) (by omega)
    refine (ih ready (by rw [kept.deltaEn, taken.carried]) ?_).mono fun _ u _ _ _ hu => taken.cons kept.deltaEn hu
    rw [taken.metadata, kept.cfg, List.length_append, List.flatMap_singleton]
    omega


/-! ### A page -/

/-- The encoder with an empty container and empty buckets (R191). -/
def pageCleared (s : State) : State := { esClear s with bcMem := [] }

theorem pageCleared_kept (s : State) : HostKept s (pageCleared s) := by constructor <;> simp [pageCleared]

theorem pageCleared_fields (s : State) :
    (pageCleared s).mem = s.mem ∧ (pageCleared s).oc = s.oc ∧ (pageCleared s).ic = s.ic ∧ (pageCleared s).hdr = s.hdr ∧
      (pageCleared s).rem = s.rem ∧ (pageCleared s).mp = s.mp ∧ (pageCleared s).dprev = s.dprev ∧
      (pageCleared s).bcMem = [] ∧ ∀ k : Fin 32, (pageCleared s).es[k.val].val = [] := by
  simp [pageCleared, esClear]

/-- The first part of `PAGE.ENC`: the header word, its padding, the blocks (R191). -/
def pageEncHead (n : Nat) (s : State) : Res Unit :=
  (emitRecords [.pageHdr 0#32] { s with hdr := s.oc }).bind fun _ s =>
    (emitRecords (List.replicate (padTo4 s.oc) .pagePad) (pageCleared s)).bind fun _ s =>
      Res.times blkEnc (n / 128) s

/-- The second part: the patch of the header, the container, the store (R191). -/
def pageEncBack (s : State) : Res Unit :=
  (patchHeader s).bind fun _ s => (bcWrite s).bind fun _ s => (esWrite s).bind fun _ s => .ok () s

theorem pageEnc_eq (n : Nat) (s : State) : pageEnc n s = (pageEncHead n s).bind fun _ s => pageEncBack s := by
  simp only [pageEnc, pageEncHead, pageEncBack, pageCleared, Res.bind_assoc]

/-- The records of a store are those of its residuals; capacities and cursors play no part (R147). -/
theorem esRecords_congr {es es' : Vector Bucket 32} (h : ∀ k : Fin 32, es[k.val].val = es'[k.val].val) (i : Nat) :
    esRecords i es = esRecords i es' := by
  have hbuckets (ks : List (Fin 32)) (i : Nat) : bucketsRecords es ks i = bucketsRecords es' ks i := by
    induction ks generalizing i with
    | nil => rfl
    | cons k ks ih => simp only [bucketsRecords, h k, ih]
  simp only [esRecords, esBitmapOf, h, hbuckets]

/-- What the encoding of a page changes of the cursors and the delta state (R191). -/
structure PageTaken (raw : List (Vector Word 128)) (s t : State) : Prop where
  rem : t.rem = s.rem
  ic : t.ic = s.ic + 128 * raw.length
  carried : t.dprev = carriedOver s raw

theorem patchHeader_outputs {s : State} (h : DstReady s) (hhdr : s.hdr < s.dstCap.toNat) :
    Outputs 0 s (patchHeader s) (Emitted 0 s) := by
  have haddr : dstAddr s s.hdr + 4 ≤ 2 ^ s.cfg.addrW := by
    have := h.inSpace
    simp only [dstAddr]
    omega
  have hok := putWord_ok haddr (BitVec.ofNat 32 (s.oc - s.hdr))
  exact ⟨fun _ => ⟨(), _, hok, rfl, by constructor <;> rfl, rfl, _, rfl⟩, fun hlt => absurd h.cursor (by omega)⟩

theorem Emitted.dst {n : Nat} {s t : State} (h : DstReady s) (hle : s.oc + n ≤ s.dstCap.toNat) (he : Emitted n s t) :
    DstReady t := by
  obtain ⟨m, rfl⟩ := he
  exact ⟨hle, h.inSpace⟩

theorem bcWrite_outputs {s : State} (h : DstReady s) :
    Outputs (wordsOf (bcRecords s.bcMem)).length s (bcWrite s) (Emitted (wordsOf (bcRecords s.bcMem)).length s) :=
  outputs_emitAll h _

theorem esWrite_outputs {s : State} (h : DstReady s) :
    Outputs (wordsOf (esRecords s.oc s.es)).length s (esWrite s) (Emitted (wordsOf (esRecords s.oc s.es)).length s) :=
  (outputs_emitAll h (wordsOf (esRecords s.oc s.es))).bind (m := 0) fun _ _ _ hle _ _ ht =>
    outputs_ok ht (ht.dst h hle).cursor

/-- The container and the store of the blocks of a page are emitted (R192, R147). -/
theorem pageEncBack_outputs {s : State} {coded : List (Vector Word 128)} (h : DstReady s)
    (hhdr : s.hdr < s.dstCap.toNat) (hmeta : s.bcMem = coded.flatMap blockMeta)
    (hes : ∀ k : Fin 32, s.es[k.val].val = coded.flatMap (blockResiduals k)) :
    Outputs (wordsOf (pageBack s.oc coded)).length s (pageEncBack s) fun t =>
      Emitted (wordsOf (pageBack s.oc coded)).length s t := by
  have hstore (i : Nat) : esRecords i s.es = esRecords i (pageStore coded) :=
    esRecords_congr (fun k => by rw [hes, pageStore_val]) i
  have htotal : (wordsOf (pageBack s.oc coded)).length = 0 + ((wordsOf (bcRecords s.bcMem)).length +
      ((wordsOf (esRecords (s.oc + (wordsOf (bcRecords s.bcMem)).length) s.es)).length + 0)) := by
    rw [hstore, hmeta, Nat.zero_add, Nat.add_zero, pageBack, wordsOf, List.flatMap_append, List.length_append]
  rw [htotal]
  refine (patchHeader_outputs h hhdr).bind fun _ t _ hle _ _ ht => ?_
  have hdst := ht.dst h hle
  obtain ⟨m, rfl⟩ := ht
  refine (bcWrite_outputs hdst).bind fun _ u _ hle' _ _ hu => ?_
  have hdst' := hu.dst hdst hle'
  obtain ⟨m', rfl⟩ := hu
  refine (esWrite_outputs hdst').bind fun _ w _ hle'' _ _ hw => ?_
  obtain ⟨m'', rfl⟩ := hw
  exact outputs_ok ⟨m'', by simp [Nat.add_assoc]⟩ hle''

/-- Words emitted leave the values where they are. -/
theorem EncReady.emit {s t : State} {vals ws : List Word} (h : EncReady s vals) (hr : emitAll ws s = .ok () t)
    (he : Emitted ws.length s t) (hle : s.oc + ws.length ≤ s.dstCap.toNat) : EncReady t vals := by
  have kept := emitAll_keeps ws s
  have emits := emitAll_emits ws s
  rw [hr] at kept emits
  obtain ⟨m, rfl⟩ := he
  exact h.next (xs := []) kept emits.confined rfl hle

theorem wordsOf_pagePads_length (n : Nat) : (wordsOf (List.replicate n .pagePad)).length = n := by
  simp [wordsOf, List.flatMap_replicate, recWords]

/-- An update of neither memory nor the cursors leaves the values where they are. -/
theorem EncReady.update {s t : State} {vals : List Word} (h : EncReady s vals) (kept : HostKept s t)
    (mem : t.mem = s.mem) (ic : t.ic = s.ic) (oc : t.oc = s.oc) : EncReady t vals where
  wf := by rw [mem]; exact h.wf
  lendable := kept.lendable h.lendable
  cursor := by rw [oc, kept.dstCap]; exact h.cursor
  inside := by rw [ic, kept.srcLen]; exact h.inside
  values := by
    intro j hj hend
    rw [ic, kept.srcLen] at hend
    rw [mem, srcAddr, kept.srcBase, ic]
    exact h.values j hj hend

/-- The encoder behind the header and the padding of a page, before its blocks (R191). -/
structure PageBegun (vals : List Word) (s t : State) : Prop where
  ready : EncReady t vals
  hdr : t.hdr = s.oc
  rem : t.rem = s.rem
  ic : t.ic = s.ic
  dprev : t.dprev = s.dprev
  container : t.bcMem = []
  buckets : ∀ k : Fin 32, t.es[k.val].val = []

theorem pageBegun {s t u : State} {n : Nat} {vals : List Word} (ht : Emitted 1 { s with hdr := s.oc } t)
    (hu : Emitted n (pageCleared t) u) (ready : EncReady u vals) : PageBegun vals s u := by
  obtain ⟨m, rfl⟩ := ht
  obtain ⟨-, -, ic, hdr, rem, -, dprev, container, buckets⟩ :=
    pageCleared_fields { s with hdr := s.oc, mem := m, oc := s.oc + 1 }
  obtain ⟨m', rfl⟩ := hu
  exact ⟨ready, hdr, rem, ic, dprev, container, buckets⟩

/-- The header of a page is emitted (R191). -/
theorem pageHeader_outputs {s : State} {vals : List Word} (h : EncReady s vals) :
    Outputs 1 s (emitRecords [.pageHdr 0#32] { s with hdr := s.oc }) fun t =>
      EncReady t vals ∧ Emitted 1 { s with hdr := s.oc } t := by
  have kept : HostKept s { s with hdr := s.oc } := by constructor <;> rfl
  have ready := h.update kept rfl rfl rfl
  exact ((outputs_emitAll ready.dst [0#32]).mono fun _ t hr hle _ ht => ⟨ready.emit hr ht hle, ht⟩).after kept rfl rfl

/-- The container and the buckets are emptied, and the padding behind the header is emitted (R191). -/
theorem pagePads_outputs {s : State} {vals : List Word} (h : EncReady s vals) :
    Outputs (padTo4 s.oc) s (emitRecords (List.replicate (padTo4 s.oc) .pagePad) (pageCleared s))
      fun t => EncReady t vals ∧ Emitted (padTo4 s.oc) (pageCleared s) t := by
  obtain ⟨mem, oc, ic, -, -, mp, -, -, -⟩ := pageCleared_fields s
  have ready := h.update (pageCleared_kept s) mem ic oc
  have out := outputs_emitAll ready.dst (wordsOf (List.replicate (padTo4 s.oc) .pagePad))
  have emit {t : State} := ready.emit (t := t) (ws := wordsOf (List.replicate (padTo4 s.oc) .pagePad))
  rw [wordsOf_pagePads_length] at out emit
  exact (out.mono fun _ t hr hle _ ht => ⟨emit hr ht hle, ht⟩).after (pageCleared_kept s) oc mp

/-- The header, the padding and the blocks of a page are emitted (R191). -/
theorem pageEncHead_outputs {s : State} {raw coded : List (Vector Word 128)} {rest : List Word}
    (h : EncReady s (raw.flatMap Vector.toList ++ rest)) (hcoded : coded = codedBlocks s.deltaEn s.dprev[3] raw)
    (hpage : 128 * raw.length ≤ s.cfg.pageSize) :
    Outputs (headLength s.oc coded) s (pageEncHead (128 * raw.length) s) fun t => PageTaken raw s t ∧
      t.hdr = s.oc ∧ t.bcMem = coded.flatMap blockMeta ∧
      ∀ k : Fin 32, t.es[k.val].val = coded.flatMap (blockResiduals k) := by
  have hcount : coded.length = raw.length := hcoded ▸ codedBlocks_length _ _ _
  have htotal : headLength s.oc coded = 1 + (padTo4 (s.oc + 1) + (coded.flatMap blockPacked).length) := by
    rw [headLength_eq, Nat.add_assoc]
  have hroom := metadata_length_le (p := s.cfg) (by omega : 128 * coded.length ≤ s.cfg.pageSize)
  rw [htotal]
  refine (pageHeader_outputs h).bind fun _ t _ _ hoc kept ⟨ready, ht⟩ => ?_
  refine hoc ▸ (pagePads_outputs ready).bind fun _ u _ _ _ kept' ⟨ready', hu⟩ => ?_
  have begun := pageBegun ht hu ready'
  have kept := kept.trans kept'
  rw [Nat.mul_div_cancel_left _ (by decide)]
  refine (blocksEnc_outputs ready' (by rw [kept.deltaEn, begun.dprev]; exact hcoded) ?_).mono fun _ w _ _ _ hw => ?_
  · rwa [begun.container, List.length_nil, Nat.zero_add, kept.cfg]
  · refine ⟨⟨hw.rem.trans begun.rem, by rw [hw.ic, begun.ic], ?_⟩, hw.hdr.trans begun.hdr, ?_, fun k => ?_⟩
    · rw [hw.carried, carriedOver_congr kept.deltaEn begun.dprev]
    · rw [hw.metadata, begun.container, List.nil_append]
    · rw [hw.residuals k, begun.buckets k, List.nil_append]

theorem pageStream_length (h : Nat) (blocks : List (Vector Word 128)) :
    (pageStream h blocks).length =
      headLength h blocks + (wordsOf (pageBack (h + headLength h blocks) blocks)).length := by
  rw [pageStream, pageRecords, wordsOf_pageHead_length, wordsOf, List.flatMap_append, List.length_append]
  change (wordsOf _).length + _ = _
  rw [wordsOf_pageHead_length]

/-- `PAGE.ENC` of the first values still to be encoded (R191). -/
theorem pageEnc_outputs {s : State} {raw coded : List (Vector Word 128)} {rest : List Word}
    (h : EncReady s (raw.flatMap Vector.toList ++ rest)) (hcoded : coded = codedBlocks s.deltaEn s.dprev[3] raw)
    (hpage : 128 * raw.length ≤ s.cfg.pageSize) :
    Outputs (pageStream s.oc coded).length s (pageEnc (128 * raw.length) s) (PageTaken raw s) := by
  rw [pageStream_length, pageEnc_eq]
  refine (pageEncHead_outputs h hcoded hpage).bind fun _ t _ hle hoc kept ⟨taken, hhdr, hmeta, hes⟩ => ?_
  have hpos : 0 < headLength s.oc coded := by
    rw [headLength_eq]
    omega
  have hdst := h.dst.inSpace
  have ready : DstReady t :=
    ⟨by rw [hoc, kept.dstCap]; exact hle, by rw [kept.dstBase, kept.dstCap, kept.cfg]; exact hdst⟩
  refine hoc ▸ (pageEncBack_outputs ready (by rw [hhdr, kept.dstCap]; omega) hmeta hes).mono fun _ u _ _ _ hu => ?_
  obtain ⟨m, rfl⟩ := hu
  exact ⟨taken.rem, taken.ic, taken.carried⟩

/-! ### The pages of an array -/

/-- The value carried behind some blocks is the one the delta state then holds (R34). -/
theorem codedBlocks_append (s : State) (xs ys : List (Vector Word 128)) :
    codedBlocks s.deltaEn s.dprev[3] (xs ++ ys) =
      codedBlocks s.deltaEn s.dprev[3] xs ++ codedBlocks s.deltaEn (carriedOver s xs)[3] ys := by
  induction xs generalizing s with
  | nil => rw [carriedOver_nil]; rfl
  | cons x xs ih =>
    have hnext := ih { s with dprev := carriedOver s [x] }
    rw [carriedOver_cons (s := s) (t := { s with dprev := carriedOver s [x] }) xs rfl rfl] at hnext
    rw [List.cons_append, codedBlocks_cons, codedBlocks_cons, List.cons_append]
    exact congrArg _ hnext

theorem codedBlocks_take (delta : Bool) (p : Word) (raw : List (Vector Word 128)) (c : Nat) :
    (codedBlocks delta p raw).take c = codedBlocks delta p (raw.take c) := by
  induction raw generalizing p c with
  | nil => simp [codedBlocks]
  | cons v vs ih =>
    cases c with
    | zero => rfl
    | succ c => rw [codedBlocks, List.take_succ_cons, ih, List.take_succ_cons, codedBlocks]

theorem codedBlocks_drop (s : State) (raw : List (Vector Word 128)) (c : Nat) :
    (codedBlocks s.deltaEn s.dprev[3] raw).drop c =
      codedBlocks s.deltaEn (carriedOver s (raw.take c))[3] (raw.drop c) := by
  have happend := codedBlocks_append s (raw.take c) (raw.drop c)
  rw [← codedBlocks_take, List.take_append_drop] at happend
  exact List.append_cancel_left ((List.take_append_drop c _).trans happend)

theorem ceilDiv_sub {c : Nat} (hc : 0 < c) (x : Nat) : ceilDiv (x - c) c = ceilDiv x c - 1 := by
  unfold ceilDiv
  by_cases hx : c ≤ x
  · rw [show x + c - 1 = x - c + c - 1 + c by omega, Nat.add_div_right _ hc, Nat.succ_sub_one]
  · rw [show x - c + c - 1 = c - 1 by omega, Nat.div_eq_of_lt (by omega)]
    have : (x + c - 1) / c < 2 := (Nat.div_lt_iff_lt_mul hc).2 (by omega)
    omega

theorem wordsOf_pagesRecords_cons (h : Nat) (p : List (Vector Word 128)) (ps : List (List (Vector Word 128))) :
    (wordsOf (pagesRecords h (p :: ps))).length =
      (pageStream h p).length + (wordsOf (pagesRecords (h + (pageStream h p).length) ps)).length := by
  rw [pagesRecords, wordsOf, List.flatMap_append, List.length_append]
  rfl

theorem length_toLists (blocks : List (Vector Word 128)) :
    (blocks.flatMap Vector.toList).length = 128 * blocks.length := by
  induction blocks with
  | nil => rfl
  | cons v vs ih =>
    rw [List.flatMap_cons, List.length_append, ih, Vector.length_toList, List.length_cons, Nat.mul_succ, Nat.add_comm]

/-- The encoder with `n` values fewer to encode (R190). -/
def pagePassed (n : Nat) (s : State) : State := { s with rem := s.rem - BitVec.ofNat 32 n }

theorem pagePassed_kept (n : Nat) (s : State) : HostKept s (pagePassed n s) := by constructor <;> rfl

theorem pagePassed_rem {n : Nat} {s : State} (h : n ≤ s.rem.toNat) : (pagePassed n s).rem.toNat = s.rem.toNat - n := by
  have hn : (BitVec.ofNat 32 n).toNat = n := by
    rw [BitVec.toNat_ofNat]
    omega
  rw [pagePassed, BitVec.toNat_sub_of_le (by rw [BitVec.le_def, hn]; exact h), hn]

/-- The page loop, from the first of the blocks still to be encoded on (R190). -/
theorem pagesEnc_outputs {k c : Nat} {s : State} {raw coded : List (Vector Word 128)}
    (h : EncReady s (raw.flatMap Vector.toList)) (hc : s.cfg.pageSize = 128 * c) (hrem : s.rem.toNat = 128 * raw.length)
    (hcoded : coded = codedBlocks s.deltaEn s.dprev[3] raw) (hk : k = ceilDiv raw.length c) :
    Outputs (wordsOf (pagesRecords s.oc (pieces c k coded))).length s (pagesEnc k s) fun _ => True := by
  have hcpos : 0 < c := by
    have := s.cfg.pageSize_min
    omega
  induction k generalizing s raw coded with
  | zero => exact outputs_ok trivial h.cursor
  | succ k ih =>
    have hpos : 0 < raw.length := by
      by_contra h0
      rw [show raw.length = 0 by omega, ceilDiv, Nat.zero_add, Nat.div_eq_of_lt (by omega)] at hk
      omega
    have hne : s.rem ≠ 0#32 := fun h0 => by
      rw [h0, show (0#32 : Word).toNat = 0 from rfl] at hrem
      omega
    have hsize : min s.cfg.pageSize s.rem.toNat = 128 * (raw.take c).length := by
      rw [hc, hrem, List.length_take]
      omega
    have hfirst : coded.take c = codedBlocks s.deltaEn s.dprev[3] (raw.take c) := by rw [hcoded, codedBlocks_take]
    rw [← List.take_append_drop c raw, List.flatMap_append] at h
    rw [pieces, wordsOf_pagesRecords_cons, pagesEnc, if_neg hne, hsize]
    have hpage : 128 * (raw.take c).length ≤ s.cfg.pageSize := by
      rw [hc, List.length_take]
      omega
    refine (pageEnc_outputs h hfirst hpage).bind fun _ t hr hle hoc kept taken => ?_
    have confined := pageEnc_confined (128 * (raw.take c).length) s
    have ready := outputs_confined_ready h hr kept confined (by rw [taken.ic, length_toLists]) (by omega)
    have hsize' : min t.cfg.pageSize t.rem.toNat = 128 * (raw.take c).length := by rw [kept.cfg, taken.rem, hsize]
    rw [hsize', ← hoc]
    refine (ih (s := pagePassed (128 * (raw.take c).length) t) (raw := raw.drop c) ?_ ?_ ?_ ?_ ?_).after
      (pagePassed_kept _ t) rfl rfl
    · exact ready.update (pagePassed_kept _ t) rfl rfl rfl
    · exact (congrArg Params.pageSize kept.cfg).trans hc
    · rw [pagePassed_rem (by rw [← hsize']; exact Nat.min_le_right _ _), taken.rem, hrem, List.length_take,
        List.length_drop]
      omega
    · change _ = codedBlocks t.deltaEn t.dprev[3] _
      rw [hcoded, codedBlocks_drop, kept.deltaEn, taken.carried]
    · rw [List.length_drop, ceilDiv_sub hcpos, ← hk, Nat.add_sub_cancel]

/-! ### The array -/

theorem blockOf_toList {vals : List Word} (h : vals.length = 128) : (blockOf vals).toList = vals := by
  apply List.ext_getElem (by simp [h])
  intro i h1 h2
  rw [Vector.getElem_toList, blockOf_getElem _ (by omega), List.getD_eq_getElem _ _ h2]

/-- The blocks of an array hold its values (R84). -/
theorem toLists_blocksOf {vals : List Word} (h : vals.length % 128 = 0) :
    (blocksOf vals).flatMap Vector.toList = vals := by
  have hpieces (k : Nat) {xs : List Word} (hx : xs.length = 128 * k) :
      ((pieces 128 k xs).map blockOf).flatMap Vector.toList = xs := by
    induction k generalizing xs with
    | zero => exact (List.eq_nil_of_length_eq_zero hx).symm
    | succ k ih =>
      rw [pieces, List.map_cons, List.flatMap_cons, ih (by rw [List.length_drop]; omega),
        blockOf_toList (by rw [List.length_take]; omega), List.take_append_drop]
  exact hpieces _ (by omega)

theorem ceilDiv_mul {m : Nat} (hm : 0 < m) (x : Nat) {c : Nat} (hc : 0 < c) :
    ceilDiv (m * x) (m * c) = ceilDiv x c := by
  have hsplit : m * x + m * c - 1 = m * (x + c - 1) + (m - 1) := by
    obtain ⟨n, hn⟩ : ∃ n, x + c = n + 1 := ⟨x + c - 1, by omega⟩
    rw [← Nat.mul_add, hn, Nat.add_sub_cancel, Nat.mul_succ]
    omega
  rw [ceilDiv, ceilDiv, ← Nat.div_div_eq_div_mul, hsplit, Nat.mul_add_div hm,
    Nat.div_eq_of_lt (show m - 1 < m by omega), Nat.add_zero]

/-- Where `ARR.ENC` begins: the cursors at 0 (R190). -/
def arrayStart (s : State) : State := { s with ic := 0, oc := 0, rem := s.srcLen }

/-- `ARR.ENC` of the values at `SRC`, from a zero carried value (R190). -/
theorem arrEnc_outputs {s : State} (wf : Memory.wf s.mem) (lendable : Lendable s) (hlen : s.srcLen.toNat % 128 = 0)
    (hcarry : s.dprev[3] = 0#32) :
    Outputs (streamOf s.cfg.pageSize s.deltaEn (inputValues s)).length (arrayStart s) (arrEnc s) fun _ => True := by
  obtain ⟨c, hc⟩ : ∃ c, s.cfg.pageSize = 128 * c := Nat.dvd_of_mod_eq_zero s.cfg.pageSize_blocks
  have hcpos : 0 < c := by
    have := s.cfg.pageSize_min
    omega
  have hvals : (inputValues s).length = s.srcLen.toNat := srcView_length _ _ _
  have hlists := toLists_blocksOf (hvals ▸ hlen)
  generalize hraw : blocksOf (inputValues s) = raw at hlists
  have hcount : s.srcLen.toNat = 128 * raw.length := by rw [← length_toLists, hlists, hvals]
  have hstream : (streamOf s.cfg.pageSize s.deltaEn (inputValues s)).length =
      1 + (wordsOf (pagesRecords 1
        (pieces c (ceilDiv raw.length c) (codedBlocks s.deltaEn s.dprev[3] raw)))).length := by
    rw [streamOf, arrayRecords, codedPages, pagesOf, codedBlocks_length, hraw, hcarry, hc,
      Nat.mul_div_cancel_left _ (by decide), wordsOf, List.flatMap_cons, List.length_append]
    rfl
  have ready : EncReady (arrayStart s) (raw.flatMap Vector.toList) := by
    refine ⟨wf, lendable, Nat.zero_le _, ?_, ?_⟩
    · rw [hlists, hvals]
      exact Nat.le_of_eq (Nat.zero_add _)
    · rw [hlists]
      exact holdsWords_of_view (s := arrayStart s) (q := 0) (by rw [hvals]; rfl)
  rw [hstream, arrEnc]
  refine (outputs_emitAll ready.dst [s.srcLen]).bind fun _ t hr hle hoc kept ht => ?_
  have ready' := ready.emit hr ht hle
  obtain ⟨m, rfl⟩ := ht
  have hpages : ceilDiv s.srcLen.toNat s.cfg.pageSize = ceilDiv raw.length c := by
    rw [hcount, hc, ceilDiv_mul (by decide) _ hcpos]
  dsimp only [arrayStart] at ready' ⊢
  rw [hpages]
  exact (pagesEnc_outputs ready' hc hcount rfl rfl).bind (m := 0) fun _ u _ hle' hoc' kept' _ =>
    outputs_ok trivial (by rw [hoc', kept'.dstCap]; exact hle')

end Sys2Proof.Machine

/-! SUPPORT. ENC of a stream that does not fit (R234, R238). -/

namespace Sys2Proof.Machine

/-- Where the work of ENC begins (R213, R214). -/
def encStart (delta : Bool) (s : State) : State := { instReset s with deltaEn := delta }

/-- ENC of a stream longer than `DST_CAP` raises `BufferOverrun` (R57, R234). -/
theorem exec_enc_overruns {delta : Bool} {s : State} (wf : Memory.wf s.mem) (hl : Lendable s) (ha : Aligned s)
    (hlen : s.srcLen.toNat % 128 = 0)
    (hover : s.dstCap.toNat < (streamOf s.cfg.pageSize delta (inputValues s)).length) :
    ∃ u, exec (encOf delta) s = .next (raise .bufferOverrun u) ∧ u.mp = s.mp ∧ HostKept (encStart delta s) u := by
  obtain ⟨u, hr, hmp⟩ := (arrEnc_outputs (s := encStart delta s) wf hl hlen rfl).overruns
    (Nat.lt_of_lt_of_eq hover (Nat.zero_add _).symm)
  have kept := arrEnc_keeps (encStart delta s)
  rw [hr] at kept
  refine ⟨u, ?_, hmp, kept⟩
  rw [exec_encOf, encError_none.2 ⟨ha, hlen⟩, codecCommand_work hl]
  change finishCommand (arrEnc (encStart delta s)) = _
  rw [hr]
  rfl

/-- Settles O25: what `raise` leaves, and the frame of the commands for memory. -/
theorem encOverruns : Obligations.EncOverruns := by
  intro delta s wf hl ha hlen hover
  obtain ⟨u, hexec, hmp, kept⟩ := exec_enc_overruns wf hl ha hlen hover
  obtain ⟨-, -, -, -, -, outside⟩ := commandsWriteOnlyDst (encOf delta) s _ (by cases delta <;> rfl) wf hexec
  refine ⟨raise .bufferOverrun u, hexec, rfl, rfl, rfl, rfl, ?_, rfl, rfl, noCarry_replicate, kept.cmd, kept.srcBase,
    kept.srcLen, kept.dstBase, kept.dstCap, kept.cfg, kept.issue, kept.host, kept.hostLog, kept.deltaEn, hmp, kept.ret,
    outside⟩
  have hcfg : u.cfg = s.cfg := kept.cfg
  exact hcfg ▸ emptyStore_replicate u.cfg

end Sys2Proof.Machine

/-! SUPPORT. The decoder and the encoder as inverses of each other (R80 to R97): what each reader of the decoder makes
of bytes that were laid out, and of which bytes it made what it answered. -/

namespace Sys2Proof

open Sys2Proof.Machine

/-! ### Operands -/

theorem smallByte_toNat {n : Nat} (h : n < 256) : (smallByte n).toNat = n := by
  rw [smallByte, BitVec.toNat_ofNat]
  exact Nat.mod_eq_of_lt h

theorem smallByte_of_toNat (b : Byte) : smallByte b.toNat = b := by
  rw [smallByte, BitVec.ofNat_toNat, BitVec.setWidth_eq]

@[simp] theorem takeWidth_smallByte (b : Fin 33) (rest : List Byte) :
    takeWidth (smallByte b.val :: rest) = .ok (b, rest) := by
  have hb : (smallByte b.val).toNat = b.val := smallByte_toNat (by omega)
  simp [takeWidth, hb]

@[simp] theorem takeBucket_smallByte (k : Fin 32) (rest : List Byte) :
    takeBucket (smallByte k.val :: rest) = .ok (k, rest) := by
  have hk : (smallByte k.val).toNat = k.val := smallByte_toNat (by omega)
  simp [takeBucket, hk]

theorem takeWords_of_length {ws : List Word} {n : Nat} (h : ws.length = n) (rest : List Byte) :
    takeWords n (bytesOfWords ws ++ rest) = .ok (ws, rest) := h ▸ takeWords_bytesOfWords ws rest

/-! ### Records of the stream -/

/-- Padded bytes are taken with their padding, which is then dropped (R54, R89). -/
theorem takeBytes_packBytes (bytes rest : List Byte) :
    takeBytes (4 * ceilDiv bytes.length 4) (bytesOfWords (packBytes bytes) ++ rest) =
      .ok (bytesOfWords (packBytes bytes), rest) := by
  have hlen : (bytesOfWords (packBytes bytes)).length = 4 * ceilDiv bytes.length 4 := by
    rw [bytesOfWords_length, packBytes_length]
  rw [← hlen]
  exact takeBytes_append _ _

theorem decodeMeta_metaBytes {b c m : Byte} {pos : List Byte} (h : MetaOk b c m pos) (rest : List Byte) :
    decodeMeta (metaBytes b c m pos ++ rest) = .ok (.metaRec b c m pos, rest) := by
  obtain ⟨-, -, hlen, -, hm⟩ := id h
  by_cases hc : c = 0#8
  · subst hc
    obtain rfl : pos = [] := List.eq_nil_of_length_eq_zero hlen
    obtain rfl : m = b := hm
    simp only [decodeMeta, metaBytes, if_true, List.cons_append, takeByte_cons, andThen_ok, if_pos h]
    rfl
  · simp only [decodeMeta, metaBytes, if_neg hc, List.cons_append, takeByte_cons, andThen_ok, ← hlen,
      takeBytes_append, if_pos h]

/-! ### Decoding an encoding -/

theorem decode_internal_cons (code : Byte) (bs : List Byte) :
    decode .internal (code :: bs) = decodeOperands code.toNat bs := rfl

theorem decode_command_leBytes (w : Word) (rest : List Byte) :
    decode .command (leBytes w ++ rest) = .ok (decodeCommand w, rest) := by
  rw [decode, takeWord_leBytes, andThen_ok]

theorem decodeCommand_illegal {w : Word} (h : w ∉ legalCommandWords) : decodeCommand w = .illegal w := by
  simp only [legalCommandWords, List.mem_cons, List.not_mem_nil, or_false, not_or] at h
  obtain ⟨h0, h1, h2, h3, h4⟩ := h
  rw [decodeCommand, if_neg h0, if_neg h1, if_neg h2, if_neg h3, if_neg h4]

/-- Settles O1: a command by its word, an internal operation by its number and operands, a record by its words. -/
theorem decodeInvertsEncode : Obligations.DecodeInvertsEncode := by
  intro i rest hwf
  cases i with
  | reset | encP | encD | decP | decD => exact decode_command_leBytes _ rest
  | illegal w =>
    refine (decode_command_leBytes w rest).trans ?_
    rw [decodeCommand_illegal (by simpa [Instr.wf] using hwf)]
  | vpack128 b v | vunpack128 b v | spack32 b v | sunpack32 b v =>
    have hlen := of_decide_eq_true hwf
    simp [Instr.ctx, encode, decode_internal_cons, decodeOperands, takeWords_of_length hlen]
  | esEnsure k x | esAppend k x => simp [Instr.ctx, encode, decode_internal_cons, decodeOperands]
  | esGet k => simp [Instr.ctx, encode, decode_internal_cons, decodeOperands]
  | esRead x | pageEnc x | bcRead x => simp [Instr.ctx, encode, decode_internal_cons, decodeOperands]
  | pageDec n h => simp [Instr.ctx, encode, decode_internal_cons, decodeOperands]
  | esClear | esReset | esWrite | blkDelta | blkHist | blkSelect | blkEmit | blkLoad | blkStore | blkEnc | blkMeta
  | blkPatch | blkPrefix | blkDec | arrEnc | bcWrite | arrDec | bcPut | bcGet => rfl
  | arrayHdr w | pageHdr w | bcSize w | esBitmap w => simp [Instr.ctx, encode, decode, decodeRecord, recWords]
  | pagePad | esPad => simp [Instr.ctx, encode, decode, decodeRecord, recWords]
  | esCount k c => simp [Instr.ctx, encode, decode, decodeRecord, recWords]
  | packed128 b ws | esG128 b ws =>
    have hlen := of_decide_eq_true hwf
    simp [Instr.ctx, encode, decode, decodeRecord, recWords, takeWords_of_length hlen]
  | esG32 k n ws =>
    obtain ⟨hlen, hn⟩ := of_decide_eq_true hwf
    simp [Instr.ctx, encode, decode, decodeRecord, recWords, takeWords_of_length hlen, Nat.ne_of_gt hn]
  | bcBytes bytes =>
    simp only [Instr.ctx, encode, decode, decodeRecord, recWords, takeBytes_packBytes, andThen_ok]
    rw [bytesOfWords_packBytes, List.take_left]
  | metaRec b c m pos => exact decodeMeta_metaBytes (of_decide_eq_true hwf) rest

/-! ### The commands -/

/-- The command of a word: well formed, the word is its encoding, and it is `ILLEGAL` where the word is none of the
five (R80, R81). -/
theorem decodeCommand_spec (w : Word) :
    (decodeCommand w).wf = true ∧ (decodeCommand w).ctx = .command ∧ encode (decodeCommand w) = leBytes w ∧
      ((∃ v, decodeCommand w = .illegal v) ↔ w ∉ legalCommandWords) := by
  by_cases h : w ∈ legalCommandWords
  · have hw := h
    simp only [legalCommandWords, List.mem_cons, List.not_mem_nil, or_false] at hw
    rcases hw with rfl | rfl | rfl | rfl | rfl <;>
      exact ⟨rfl, rfl, rfl, ⟨fun ⟨v, hv⟩ => Instr.noConfusion hv, fun hn => absurd h hn⟩⟩
  · rw [decodeCommand_illegal h]
    exact ⟨decide_eq_true h, rfl, rfl, ⟨fun _ => h, fun _ => ⟨w, rfl⟩⟩⟩

/-- Settles O2: `decodeCommand_spec`. -/
theorem commandWordsTotal : Obligations.CommandWordsTotal := by
  intro w
  obtain ⟨hwf, -, henc, hill⟩ := decodeCommand_spec w
  exact ⟨decodeCommand w, by simpa using decode_command_leBytes w [], hwf, henc, hill⟩

/-! ### What was read -/

theorem takeWord_eq_ok {bs rest : List Byte} {w : Word} (h : takeWord bs = .ok (w, rest)) : bs = leBytes w ++ rest := by
  unfold takeWord at h
  split at h
  · simp only [Except.ok.injEq, Prod.mk.injEq] at h
    obtain ⟨rfl, rfl⟩ := h
    simp [leBytes, byteOf_ofLe]
  · cases h

theorem takeByte_eq_ok {bs rest : List Byte} {b : Byte} (h : takeByte bs = .ok (b, rest)) : bs = b :: rest := by
  cases bs with
  | nil => cases h
  | cons a bs => cases h; rfl

theorem takeWords_eq_ok {n : Nat} {bs rest : List Byte} {ws : List Word} (h : takeWords n bs = .ok (ws, rest)) :
    ws.length = n ∧ bs = bytesOfWords ws ++ rest := by
  induction n generalizing bs ws with
  | zero => cases h; exact ⟨rfl, rfl⟩
  | succ n ih =>
    rw [takeWords] at h
    split at h
    · cases h
    · rename_i w r hw
      split at h
      · cases h
      · rename_i ws' r' hws
        simp only [Except.ok.injEq, Prod.mk.injEq] at h
        obtain ⟨rfl, rfl⟩ := h
        obtain ⟨hlen, rfl⟩ := ih hws
        rw [takeWord_eq_ok hw, bytesOfWords_cons, List.append_assoc, List.length_cons, hlen]
        exact ⟨rfl, rfl⟩

theorem takeWidth_eq_ok {bs rest : List Byte} {b : Fin 33} (h : takeWidth bs = .ok (b, rest)) :
    bs = smallByte b.val :: rest := by
  obtain ⟨x, r, hx, hk⟩ := andThen_eq_ok h
  split at hk
  · simp only [Except.ok.injEq, Prod.mk.injEq] at hk
    obtain ⟨rfl, rfl⟩ := hk
    rw [takeByte_eq_ok hx, smallByte_of_toNat]
  · cases hk

theorem takeBucket_eq_ok {bs rest : List Byte} {k : Fin 32} (h : takeBucket bs = .ok (k, rest)) :
    bs = smallByte k.val :: rest := by
  obtain ⟨x, r, hx, hk⟩ := andThen_eq_ok h
  split at hk
  · simp only [Except.ok.injEq, Prod.mk.injEq] at hk
    obtain ⟨rfl, rfl⟩ := hk
    rw [takeByte_eq_ok hx, smallByte_of_toNat]
  · cases hk

theorem takeBytes_eq_ok {n : Nat} {bs rest xs : List Byte} (h : takeBytes n bs = .ok (xs, rest)) :
    xs.length = n ∧ bs = xs ++ rest := by
  unfold takeBytes at h
  split at h
  · simp only [Except.ok.injEq, Prod.mk.injEq] at h
    obtain ⟨rfl, rfl⟩ := h
    exact ⟨by rw [List.length_take]; omega, (List.take_append_drop n bs).symm⟩
  · cases h
/-! ### Internal operations read -/

/-- The internal operation `i`, well formed, with its number and operands laid out in `code :: bs` before `rest`. -/
def ReadAs (code : Byte) (bs : List Byte) (i : Instr) (rest : List Byte) : Prop :=
  i.wf = true ∧ i.ctx = .internal ∧ code :: bs = encode i ++ rest

section Shapes

variable {code : Byte} {bs rest : List Byte} {i : Instr}

theorem readAs_plain {j : Instr} (h : Except.ok (j, bs) = (.ok (i, rest) : Except DecodeError _)) (hwf : j.wf = true)
    (hctx : j.ctx = .internal) (henc : encode j = [code]) : ReadAs code bs i rest := by
  simp only [Except.ok.injEq, Prod.mk.injEq] at h
  obtain ⟨rfl, rfl⟩ := h
  exact ⟨hwf, hctx, by rw [henc]; rfl⟩

theorem readAs_word {f : Word → Instr} (h : (andThen (takeWord bs) fun w r => .ok (f w, r)) = .ok (i, rest))
    (hf : ∀ w, (f w).wf = true ∧ (f w).ctx = .internal ∧ encode (f w) = code :: leBytes w) :
    ReadAs code bs i rest := by
  obtain ⟨w, r, hw, h⟩ := andThen_eq_ok h
  simp only [Except.ok.injEq, Prod.mk.injEq] at h
  obtain ⟨rfl, rfl⟩ := h
  obtain ⟨hwf, hctx, henc⟩ := hf w
  exact ⟨hwf, hctx, by rw [henc, takeWord_eq_ok hw, List.cons_append]⟩

theorem readAs_bucket_word {f : Fin 32 → Word → Instr}
    (h : (andThen (takeBucket bs) fun k r => andThen (takeWord r) fun w r' => .ok (f k w, r')) = .ok (i, rest))
    (hf : ∀ k w, (f k w).wf = true ∧ (f k w).ctx = .internal ∧
      encode (f k w) = code :: smallByte k.val :: leBytes w) : ReadAs code bs i rest := by
  obtain ⟨k, r, hk, h⟩ := andThen_eq_ok h
  obtain ⟨w, r', hw, h⟩ := andThen_eq_ok h
  simp only [Except.ok.injEq, Prod.mk.injEq] at h
  obtain ⟨rfl, rfl⟩ := h
  obtain ⟨hwf, hctx, henc⟩ := hf k w
  exact ⟨hwf, hctx, by rw [henc, takeBucket_eq_ok hk, takeWord_eq_ok hw]; rfl⟩

theorem readAs_width_words {n : Fin 33 → Nat} {f : Fin 33 → List Word → Instr}
    (h : (andThen (takeWidth bs) fun b r => andThen (takeWords (n b) r) fun ws r' => .ok (f b ws, r')) =
      .ok (i, rest))
    (hf : ∀ b ws, (f b ws).wf = decide (ws.length = n b) ∧ (f b ws).ctx = .internal ∧
      encode (f b ws) = code :: smallByte b.val :: bytesOfWords ws) : ReadAs code bs i rest := by
  obtain ⟨b, r, hb, h⟩ := andThen_eq_ok h
  obtain ⟨ws, r', hws, h⟩ := andThen_eq_ok h
  simp only [Except.ok.injEq, Prod.mk.injEq] at h
  obtain ⟨rfl, rfl⟩ := h
  obtain ⟨hwf, hctx, henc⟩ := hf b ws
  obtain ⟨hlen, rfl⟩ := takeWords_eq_ok hws
  exact ⟨hwf.trans (decide_eq_true hlen), hctx, by rw [henc, takeWidth_eq_ok hb]; rfl⟩

end Shapes

/-- What an operation number and the bytes after it were read as (R81; log 9). -/
theorem decodeOperands_eq_ok {n : Nat} {bs rest : List Byte} {i : Instr}
    (h : decodeOperands n bs = .ok (i, rest)) : ReadAs (BitVec.ofNat 8 n) bs i rest := by
  unfold decodeOperands at h
  split at h
  case h_1 | h_2 | h_3 | h_4 => exact readAs_width_words h fun _ _ => ⟨rfl, rfl, rfl⟩
  case h_7 | h_8 => exact readAs_bucket_word h fun _ _ => ⟨rfl, rfl, rfl⟩
  case h_10 | h_24 | h_28 => exact readAs_word h fun _ => ⟨rfl, rfl, rfl⟩
  case h_11 =>
    obtain ⟨k, r, hk, h⟩ := andThen_eq_ok h
    cases h
    exact ⟨rfl, rfl, by rw [takeBucket_eq_ok hk]; rfl⟩
  case h_27 =>
    obtain ⟨w, r, hw, h⟩ := andThen_eq_ok h
    obtain ⟨x, r', hx, h⟩ := andThen_eq_ok h
    cases h
    exact ⟨rfl, rfl, by rw [takeWord_eq_ok hw, takeWord_eq_ok hx, encode, List.cons_append, List.append_assoc]⟩
  case h_29 =>
    obtain ⟨x, r, hx, h⟩ := andThen_eq_ok h
    cases h
    exact ⟨rfl, rfl, by rw [takeByte_eq_ok hx]; rfl⟩
  case h_31 => cases h
  all_goals exact readAs_plain h rfl rfl rfl

/-! ### Records read -/

theorem decodeMeta_eq_ok {bs rest : List Byte} {i : Instr} (h : decodeMeta bs = .ok (i, rest)) :
    i.wf = true ∧ i.ctx = .stream .metaRec := by
  obtain ⟨b, r, -, h⟩ := andThen_eq_ok h
  obtain ⟨c, r, -, h⟩ := andThen_eq_ok h
  split at h
  · split at h
    · rename_i hok
      cases h
      exact ⟨decide_eq_true hok, rfl⟩
    · cases h
  · obtain ⟨m, r, -, h⟩ := andThen_eq_ok h
    obtain ⟨pos, r, -, h⟩ := andThen_eq_ok h
    split at h
    · rename_i hok
      cases h
      exact ⟨decide_eq_true hok, rfl⟩
    · cases h

/-- A record that was read is well formed, and one of its place (R84 to R97). -/
theorem decodeRecord_eq_ok {e : Expect} {bs rest : List Byte} {i : Instr} (h : decodeRecord e bs = .ok (i, rest)) :
    i.wf = true ∧ i.ctx = .stream e := by
  cases e with
  | metaRec => exact decodeMeta_eq_ok h
  | arrayHdr | pageHdr | pagePad | bcSize | esBitmap | esPad | esCount =>
    obtain ⟨w, r, -, h⟩ := andThen_eq_ok h
    cases h
    exact ⟨rfl, rfl⟩
  | packed128 | esG128 =>
    obtain ⟨ws, r, hws, h⟩ := andThen_eq_ok h
    cases h
    exact ⟨decide_eq_true (takeWords_eq_ok hws).1, rfl⟩
  | esG32 k n =>
    obtain ⟨ws, r, hws, h⟩ := andThen_eq_ok h
    split at h
    · rename_i hn
      cases h
      exact ⟨decide_eq_true ⟨(takeWords_eq_ok hws).1, hn⟩, rfl⟩
    · cases h
  | bcBytes n =>
    obtain ⟨bytes, r, hbytes, h⟩ := andThen_eq_ok h
    cases h
    have hlen : (bytes.take n).length = n := by
      rw [List.length_take, (takeBytes_eq_ok hbytes).1]
      exact Nat.min_eq_left (ceilDiv_four n).1
    exact ⟨rfl, by rw [Instr.ctx, hlen]⟩

/-- Settles O3: `decodeCommand_spec`, `decodeOperands_eq_ok` and `decodeRecord_eq_ok`, by the place. -/
theorem decodedIsWellFormed : Obligations.DecodedIsWellFormed := by
  intro c bs rest i h
  cases c with
  | command =>
    obtain ⟨w, r, hw, h⟩ := andThen_eq_ok h
    cases h
    obtain ⟨hwf, hctx, henc, -⟩ := decodeCommand_spec w
    exact ⟨hwf, hctx, fun _ => by rw [henc, takeWord_eq_ok hw]⟩
  | internal =>
    obtain ⟨code, r, hcode, h⟩ := andThen_eq_ok h
    obtain ⟨hwf, hctx, henc⟩ := decodeOperands_eq_ok h
    refine ⟨hwf, hctx, fun _ => ?_⟩
    rw [takeByte_eq_ok hcode, ← henc]
    exact congrArg (· :: r) (smallByte_of_toNat code).symm
  | stream e =>
    obtain ⟨hwf, hctx⟩ := decodeRecord_eq_ok h
    exact ⟨hwf, hctx, fun hc => by rcases hc with hc | hc <;> cases hc⟩

/-! ### Words written out -/

/-- The operation number of a table row is read before operands that are all 0 (log 9). -/
theorem decodeTableWord_operation {n : Nat} {i : Instr} {rest : List Byte}
    (h : decodeOperands (BitVec.ofNat 8 n).toNat operandRoom = .ok (i, rest)) : decodeTableWord 8 n = some i := by
  simp only [decodeTableWord, tableBytes, decode_internal_cons, h]

theorem decodeTableWord_command (n : Nat) :
    decodeTableWord 32 n = some (decodeCommand (BitVec.ofNat 32 n)) := by
  have h := decode_command_leBytes (BitVec.ofNat 32 n) []
  rw [List.append_nil] at h
  simp only [decodeTableWord, tableBytes, h]

/-- Settles O4: the command words by `decodeCommand`, the operation numbers by `decodeOperands`. -/
theorem tableWordsDecode : Obligations.TableWordsDecode :=
  ⟨decodeTableWord_command _, decodeTableWord_command _, decodeTableWord_command _, decodeTableWord_command _,
    decodeTableWord_command _, decodeTableWord_command _, decodeTableWord_operation rfl, decodeTableWord_operation rfl,
    decodeTableWord_operation rfl, rfl⟩

end Sys2Proof

namespace Sys2Proof.Machine

/-- Settles O12: the host takes the outcome from the three registers. -/
theorem waitYieldsOutcome : Obligations.WaitYieldsOutcome := by
  intro s h hdone hs
  rw [step_host hs]
  exact if_pos hdone

end Sys2Proof.Machine

/-! SUPPORT. `BLK.EMIT`, `BLK.META` and `BLK.PATCH` on any state: the exact container and store the first leaves, the
head the second takes or finds malformed, and the positions the third goes through before it ends or faults (R165,
R169, R170). -/

namespace Sys2Proof.Machine

theorem bucketIndex_eq {b m : Nat} {k : Fin 32} (h : m = b + k.val + 1) : bucketIndex b m = some k := by
  rw [bucketIndex, dif_pos (by omega)]
  exact congrArg some (Fin.ext (by simp only; omega))

/-! ### The record of a block -/

/-- The exceptional part of `BLK.EMIT` puts `maxb` and the positions into the container, the residuals into the
grown bucket (R145, R165). -/
theorem emitExceptions_bucket {s : State} {k : Fin 32} {xs : List (Nat × Word)}
    (hk : s.selM.toNat = s.selB.toNat + k.val + 1) (hxs : exceptionsFrom s.selB.toNat 0 s.blk.toList = xs)
    (hroom : s.bcMem.length + (1 + xs.length) ≤ bcCap s.cfg) :
    emitExceptions s = .ok () { s with
      bcMem := s.bcMem ++ s.selM.setWidth 8 :: xs.map fun e => BitVec.ofNat 8 e.1
      es := s.es.set k.val {
        val := s.es[k.val].val ++ xs.map (·.2)
        cap := grownCap s.es[k.val].val.length s.es[k.val].cap s.selC.toNat
        rd := s.es[k.val].rd } } := by
  rw [emitExceptions, bcPut_ok (by omega), Res.bind_ok]
  dsimp only
  rw [bucketIndex_eq hk, hxs]
  dsimp only [esEnsure, setBucket]
  rw [putExceptions_ok (by simp; omega)]
  simp [appended]

/-- `BLK.EMIT` puts the head, and goes on where there are exceptions (R165). -/
theorem blkEmit_head {s : State} (hroom : s.bcMem.length + 2 ≤ bcCap s.cfg) :
    blkEmit s =
      if s.selC = 0#8 then .ok () { s with bcMem := s.bcMem ++ [s.selB.setWidth 8, s.selC] }
      else emitExceptions { s with bcMem := s.bcMem ++ [s.selB.setWidth 8, s.selC] } := by
  rw [blkEmit, bcPut_ok (by omega), Res.bind_ok, bcPut_ok (by simp; omega), Res.bind_ok]
  simp only [List.append_assoc, List.cons_append, List.nil_append]

/-- Settles O48: `blkEmit_head`, and `emitExceptions_bucket` at the positions of the exceptions. -/
theorem blockEmit : Obligations.BlockEmit := by
  rintro s pos rfl
  have hxs := exceptionsFrom_drop s.selB.toNat s.blk (Nat.zero_le 128)
  rw [List.drop_zero, List.drop_zero] at hxs
  refine ⟨fun hc hroom => ?_, fun k hc hk hroom => ?_⟩
  · change (blkEmit s).outcome = _
    rw [blkEmit_head hroom, if_pos hc, hc, Res.outcome_ok]
  · have hexc := emitExceptions_bucket (s := { s with bcMem := s.bcMem ++ [s.selB.setWidth 8, s.selC] }) hk hxs
      (by simp only [List.length_append, List.length_cons, List.length_nil, List.length_map]; omega)
    change (blkEmit s).outcome = _
    rw [blkEmit_head (by omega), if_neg hc, hexc, Res.outcome_ok]
    simp [Function.comp_def]

/-! ### The head of a record -/

/-- `BLK.META` where the container holds two bytes: the checks of R169 in their order. -/
theorem blkMeta_head {s : State} {b c : Byte} {bs : List Byte} (h : s.bcMem.drop s.bcRd = b :: c :: bs) :
    blkMeta s = Res.check (checkMetaHead b c)
      (if c = 0#8 then .ok () (setSel b.toNat 0 b.toNat { s with bcRd := s.bcRd + 2 })
      else if bs.length < 1 + c.toNat then .stop (.malformed .exceptionEnd)
      else (bcGet { s with bcRd := s.bcRd + 2 }).bind fun m t =>
        Res.check (checkMetaMaxb b m) (.ok () (setSel b.toNat c.toNat m.toNat t))) := by
  have hlen := length_of_drop h
  simp only [List.length_cons] at hlen
  have hend : s.bcMem.length < s.bcRd + 1 + 1 + 1 + c.toNat ↔ bs.length < 1 + c.toNat := by omega
  rw [blkMeta, if_neg (by omega), bcGet_ok h, Res.bind_ok,
    bcGet_ok (s := { s with bcRd := s.bcRd + 1 }) (drop_succ_of_cons h), Res.bind_ok]
  simp only [hend]

theorem checkMetaHead_ok {b c : Byte} (hb : b.toNat ≤ 32) (hc : c.toNat ≤ 128) : checkMetaHead b c = none :=
  if_neg (by omega)

/-- Settles O50: `blkMeta_plain` and `blkMeta_exceptions`; the faults by `blkMeta_head`. -/
theorem blockMeta_holds : Obligations.BlockMeta := by
  intro s b c m rest
  have run : exec .blkMeta s = (blkMeta s).outcome := rfl
  simp only [run]
  refine ⟨fun h hb hc => ?_, fun h hc hc' hrest hbm hm => ?_, fun hend => ?_, fun h hbad => ?_,
    fun h hb hc hc' hend => ?_, fun h hb hc hc' hrest hbad => ?_⟩
  · rw [blkMeta_plain (hc ▸ h) hb, Res.outcome_ok]
    simp only [setSel, BitVec.ofNat_toNat]
  · rw [blkMeta_exceptions h (by omega) hc hc' hrest hbm hm, Res.outcome_ok]
    simp only [setSel, BitVec.ofNat_toNat, BitVec.setWidth_eq]
  · rw [blkMeta, if_pos hend]
    rfl
  · have hcheck : checkMetaHead b c = some .metaHead := if_pos hbad
    rw [blkMeta_head h, hcheck]
    rfl
  · rw [blkMeta_head h, checkMetaHead_ok hb hc', Res.check, if_neg hc, if_pos hend]
    rfl
  · have hcheck : checkMetaMaxb b m = some .metaMaxb := if_neg hbad
    have hlen : ¬(m :: rest).length < 1 + c.toNat := by
      rw [List.length_cons]
      omega
    rw [blkMeta_head h, checkMetaHead_ok hb hc', Res.check, if_neg hc, if_neg hlen,
      bcGet_ok (s := { s with bcRd := s.bcRd + 2 }) (drop_succ_of_cons (drop_succ_of_cons h)), Res.bind_ok, hcheck]
    rfl

/-! ### The patch -/

theorem bcGet_end {s : State} (h : s.bcMem.drop s.bcRd = []) : bcGet s = .stop (.malformed .containerEnd) := by
  rw [bcGet, List.getElem?_eq_none (List.drop_eq_nil_iff.1 h)]

theorem esGet_end {s : State} {k : Fin 32} (h : s.es[k.val].val.drop s.es[k.val].rd = []) :
    esGet k s = .stop (.malformed .bucketEnd) := by
  rw [esGet, List.getElem?_eq_none (List.drop_eq_nil_iff.1 h)]

theorem blkPatch_bucket {s : State} {k : Fin 32} (hc : s.selC ≠ 0#8)
    (hk : s.selM.toNat = s.selB.toNat + k.val + 1) : blkPatch s = patchLoop k s.selC.toNat 0 s := by
  rw [blkPatch, if_neg hc, bucketIndex_eq hk]

/-- The state after positions with their residuals have been patched (R170). -/
def patched (k : Fin 32) (pos : List (Fin 128)) (xs : List Word) (s : State) : State :=
  { s with
    blk := orAt s.selB.toNat s.blk (pos.zip xs)
    bcRd := s.bcRd + pos.length
    es := s.es.set k.val { s.es[k.val] with rd := s.es[k.val].rd + pos.length } }

theorem patched_nil (k : Fin 32) (xs : List Word) (s : State) : patched k [] xs s = s := by
  have hsame : s.es.set k.val { s.es[k.val] with rd := s.es[k.val].rd + 0 } = s.es :=
    Vector.set_getElem_self k.isLt
  rw [patched, List.length_nil, hsame]
  rfl

theorem patched_cons (k : Fin 32) (i : Fin 128) (pos : List (Fin 128)) (x : Word) (xs : List Word) (s : State) :
    patched k pos xs (patched k [i] [x] s) = patched k (i :: pos) (x :: xs) s := by
  simp [patched, orAt, Nat.add_assoc, Nat.add_comm 1]

/-- The least position that may follow `pos`, after those below `lo` are past (R170). -/
def nextPosition : Nat → List (Fin 128) → Nat
  | lo, [] => lo
  | _, i :: pos => nextPosition (i.val + 1) pos

theorem nextPosition_le_iff {lo x : Nat} {pos : List (Fin 128)} (hsorted : pos.Pairwise (· < ·))
    (hlo : ∀ i ∈ pos, lo ≤ i.val) : nextPosition lo pos ≤ x ↔ lo ≤ x ∧ ∀ i ∈ pos, i.val < x := by
  induction pos generalizing lo with
  | nil => simp [nextPosition]
  | cons i pos ih =>
    obtain ⟨hi, hsorted⟩ := List.pairwise_cons.1 hsorted
    have := hlo i (List.mem_cons_self ..)
    rw [nextPosition, ih hsorted hi, List.forall_mem_cons]
    exact ⟨fun ⟨h, hall⟩ => ⟨by omega, h, hall⟩, fun ⟨_, h, hall⟩ => ⟨h, hall⟩⟩

/-- A good position, and the rest of the loop (R170). -/
theorem patchLoop_step {k : Fin 32} {n lo : Nat} {i : Fin 128} {x : Word} {bs : List Byte} {rs : List Word}
    {s : State} (hi : s.bcMem.drop s.bcRd = BitVec.ofNat 8 i.val :: bs)
    (hx : s.es[k.val].val.drop s.es[k.val].rd = x :: rs) (hlo : lo ≤ i.val) :
    patchLoop k (n + 1) lo s = patchLoop k n (i.val + 1) (patched k [i] [x] s) := by
  have hbyte : (BitVec.ofNat 8 i.val).toNat = i.val := by
    rw [BitVec.toNat_ofNat]
    omega
  rw [patchLoop, bcGet_ok hi, Res.bind_ok, dif_pos (by omega), esGet_ok (s := { s with bcRd := s.bcRd + 1 }) hx,
    Res.bind_ok]
  simp [patched, orAt, setBucket, hbyte]

/-- Good positions, and the rest of the loop (R170). -/
theorem patchLoop_good {k : Fin 32} {n lo : Nat} {pos : List (Fin 128)} {xs rs : List Word} {bs : List Byte}
    {s : State} (hpos : s.bcMem.drop s.bcRd = (pos.map fun i : Fin 128 => BitVec.ofNat 8 i.val) ++ bs)
    (hxs : s.es[k.val].val.drop s.es[k.val].rd = xs ++ rs) (hlen : xs.length = pos.length)
    (hsorted : pos.Pairwise (· < ·)) (hlo : ∀ i ∈ pos, lo ≤ i.val) :
    patchLoop k (pos.length + n) lo s = patchLoop k n (nextPosition lo pos) (patched k pos xs s) := by
  induction pos generalizing xs lo s with
  | nil => rw [patched_nil, List.length_nil, Nat.zero_add, nextPosition]
  | cons i pos ih =>
    obtain ⟨x, xs, rfl⟩ : ∃ x ys, xs = x :: ys := List.exists_cons_of_length_pos (by simp [hlen])
    obtain ⟨hi, hsorted⟩ := List.pairwise_cons.1 hsorted
    rw [List.length_cons, Nat.add_right_comm, patchLoop_step hpos hxs (hlo i (List.mem_cons_self ..)),
      ih (xs := xs) (by exact drop_succ_of_cons hpos) ?_ (by simpa using hlen) hsorted hi, patched_cons, nextPosition]
    simpa [patched] using drop_succ_of_cons hxs

/-- What is left of the container and the bucket behind good positions. -/
theorem patched_rest {k : Fin 32} {pos : List (Fin 128)} {xs rs : List Word} {bs : List Byte} {s : State}
    (hpos : s.bcMem.drop s.bcRd = (pos.map fun i : Fin 128 => BitVec.ofNat 8 i.val) ++ bs)
    (hxs : s.es[k.val].val.drop s.es[k.val].rd = xs ++ rs) (hlen : xs.length = pos.length) :
    (patched k pos xs s).bcMem.drop (patched k pos xs s).bcRd = bs ∧
      (patched k pos xs s).es[k.val].val.drop (patched k pos xs s).es[k.val].rd = rs := by
  refine ⟨?_, ?_⟩
  · change s.bcMem.drop (s.bcRd + pos.length) = bs
    rw [← List.drop_drop, hpos]
    exact List.drop_left' (List.length_map ..)
  · simp only [patched, Vector.getElem_set_self]
    rw [← List.drop_drop, hxs]
    exact List.drop_left' hlen

/-- How the loop ends at the end of the container, at a bad position, and at the end of the bucket (R104 items 6
and 7). -/
theorem patchLoop_faults {k : Fin 32} {n lo : Nat} {s : State} :
    (s.bcMem.drop s.bcRd = [] → patchLoop k (n + 1) lo s = .stop (.malformed .containerEnd)) ∧
    ∀ x bs, s.bcMem.drop s.bcRd = x :: bs →
      (¬(x.toNat < 128 ∧ lo ≤ x.toNat) → patchLoop k (n + 1) lo s = .stop (.malformed .position)) ∧
      (x.toNat < 128 ∧ lo ≤ x.toNat → s.es[k.val].val.drop s.es[k.val].rd = [] →
        patchLoop k (n + 1) lo s = .stop (.malformed .bucketEnd)) := by
  refine ⟨fun hend => ?_, fun x bs hx => ⟨fun hbad => ?_, fun hgood hend => ?_⟩⟩
  · rw [patchLoop, bcGet_end hend, Res.bind_stop]
  · rw [patchLoop, bcGet_ok hx, Res.bind_ok, dif_neg hbad]
  · rw [patchLoop, bcGet_ok hx, Res.bind_ok, dif_pos hgood, esGet_end (s := { s with bcRd := s.bcRd + 1 }) hend,
      Res.bind_stop]

/-- Settles O51: the good positions by `patchLoop_good`, what comes behind them by `patchLoop_faults`. -/
theorem blockPatch : Obligations.BlockPatch := by
  intro s pos xs k bs rs
  have run : exec .blkPatch s = (blkPatch s).outcome := rfl
  simp only [run]
  refine ⟨fun hc => ?_, fun hc hk hlen hsorted hpos hxs => ?_⟩
  · rw [blkPatch, if_pos hc, Res.outcome_ok]
  rw [blkPatch_bucket hc hk]
  have hgood (n : Nat) := patchLoop_good (n := n) hpos hxs hlen hsorted fun _ _ => Nat.zero_le _
  have hnext (x : Byte) : nextPosition 0 pos ≤ x.toNat ↔ ∀ i ∈ pos, i.val < x.toNat := by
    rw [nextPosition_le_iff hsorted fun _ _ => Nat.zero_le _]
    simp
  obtain ⟨hbytes, hres⟩ := patched_rest hpos hxs hlen
  have hfst : (pos.zip xs).map (·.1) = pos := List.map_fst_zip (by omega)
  have hnodup : pos.Nodup := hsorted.imp fun h => ne_of_lt h
  refine ⟨fun hall => ⟨orAt s.selB.toNat s.blk (pos.zip xs), ?_, fun i hi => orAt_of_not_mem (by rwa [hfst]),
    fun p hp => orAt_of_mem (by rwa [hfst]) hp⟩, fun hmore => ?_⟩
  · rw [← hall, ← Nat.add_zero pos.length, hgood 0, patchLoop, Res.outcome_ok]
    rfl
  · obtain ⟨n, hn⟩ := Nat.exists_eq_add_of_lt hmore
    rw [hn, Nat.add_assoc, hgood (n + 1)]
    obtain ⟨hend, hbyte⟩ := patchLoop_faults (k := k) (n := n) (lo := nextPosition 0 pos) (s := patched k pos xs s)
    refine ⟨fun hbs => ?_, fun x rest hx => ⟨fun hbad => ?_, fun hx128 hbelow hrs => ?_⟩⟩
    · rw [hend (hbytes.trans hbs)]
      rfl
    · rw [(hbyte x rest (hbytes.trans hx)).1 ?_]
      · rfl
      · rw [hnext]
        rintro ⟨hlt, hall⟩
        rcases hbad with hge | ⟨i, hi, hle⟩
        · omega
        · exact Nat.not_lt.2 hle (hall i hi)
    · rw [(hbyte x rest (hbytes.trans hx)).2 ⟨hx128, (hnext x).2 hbelow⟩ (hres.trans hrs)]
      rfl

end Sys2Proof.Machine

/-! SUPPORT. The stream records run alone, in the direction of the running command (R84 to R97; log 13). -/

namespace Sys2Proof.Machine

/-! ### The direction -/

theorem recordOp_produce {s : State} (h : codingOf s.cmd = .produce) (p q : State → Res Unit) :
    recordOp p q s = (p s).outcome := by
  rw [recordOp, h]

theorem recordOp_parse {s : State} (h : codingOf s.cmd = .parse) (p q : State → Res Unit) :
    recordOp p q s = (q s).outcome := by
  rw [recordOp, h]

theorem groupOp_of_fits {fits : Bool} (h : fits = true) (p q : State → Res Unit) (s : State) :
    groupOp fits p q s = recordOp p q s := if_pos h

/-! ### Produced -/

theorem emitRecords_singleton (i : Instr) (s : State) : emitRecords [i] s = emitAll (recWords i) s := by
  simp [emitRecords]

/-- Words emitted by an operation run alone, where they fit (R57). -/
theorem emitAll_stored {s : State} {ws : List Word} (wf : Memory.wf s.mem) (room : Room s ws.length) :
    ∃ m, (emitAll ws s).outcome = .next { s with mem := m, oc := s.oc + ws.length } ∧ Stored s s.oc ws m :=
  ⟨_, by rw [emitAll_ok room, Res.outcome_ok], stored_writeWords wf _ _⟩

/-- A record whose production is the emission of its words. -/
theorem produces_of_recordOp {i : Instr} {ws : List Word} {parse : State → Res Unit} (hws : recWords i = ws)
    (h : ∀ s, exec i s = recordOp (emitRecords [i]) parse s) : Produces i ws := by
  intro s hc wf room
  rw [h, recordOp_produce hc, emitRecords_singleton, hws]
  exact emitAll_stored wf room

/-- A group record of the right size. -/
theorem produces_of_groupOp {i : Instr} {ws : List Word} {fits : Bool} {parse : State → Res Unit}
    (hws : recWords i = ws) (hfits : fits = true) (h : ∀ s, exec i s = groupOp fits (emitRecords [i]) parse s) :
    Produces i ws :=
  produces_of_recordOp hws fun s => (h s).trans (groupOp_of_fits hfits _ _ s)

theorem metaBytes_eq (b c m : Byte) (pos : List Byte) :
    metaBytes b c m pos = if c = 0#8 then [b, 0#8] else b :: c :: m :: pos := by
  unfold metaBytes
  split <;> simp_all

/-- Settles O59: each record by the emission of its words, `META` by the bytes put. -/
theorem recordsProduced : Obligations.RecordsProduced := by
  refine ⟨fun l => produces_of_recordOp rfl fun _ => rfl, fun w s hc wf room => ?_,
    produces_of_recordOp rfl fun _ => rfl,
    fun b ws hlen => produces_of_groupOp rfl (beq_iff_eq.2 hlen) fun _ => rfl,
    fun bs => produces_of_recordOp rfl fun _ => rfl,
    fun bytes => produces_of_recordOp rfl fun _ => rfl,
    fun b c m pos s hc hok hroom => ?_,
    fun m => produces_of_recordOp rfl fun _ => rfl,
    fun k c => produces_of_recordOp rfl fun _ => rfl,
    produces_of_recordOp rfl fun _ => rfl,
    fun k ws hlen => produces_of_groupOp rfl (beq_iff_eq.2 hlen) fun _ => rfl,
    fun k n ws hlen => produces_of_groupOp rfl (beq_iff_eq.2 hlen) fun _ => rfl⟩
  · obtain ⟨m, hm, hstored⟩ := emitAll_stored (s := { s with hdr := s.oc }) (ws := [w]) wf room
    refine ⟨m, ?_, hstored.wf, hstored.words, hstored.frame⟩
    change execPageHdr w s = _
    rw [execPageHdr, recordOp_produce hc, emitRecords_singleton]
    exact hm
  · have hlen : (metaBytes b c m pos).length = if c = 0#8 then 2 else 3 + pos.length := by
      unfold metaBytes
      split
      · rfl
      · simp only [List.length_cons]
        omega
    change execMetaRec b c m pos s = _
    rw [execMetaRec, recordOp_produce hc, putMeta, bcPutAll_ok (hlen ▸ hroom), Res.outcome_ok, metaBytes_eq]

/-! ### Parsed -/

/-- A record whose parse ends with a value wherever `pre` holds. -/
theorem parses_of_recordOp {i : Instr} {pre : State → Prop} {f : State → State} {produce parse : State → Res Unit}
    (h : ∀ s, exec i s = recordOp produce parse s) (hp : ∀ s, pre s → parse s = .ok () (f s)) : Parses i pre f := by
  intro s hc hpre
  rw [h, recordOp_parse hc, hp s hpre, Res.outcome_ok]

theorem parses_of_groupOp {i : Instr} {fits : Bool} {pre : State → Prop} {f : State → State}
    {produce parse : State → Res Unit} (h : ∀ s, exec i s = groupOp fits produce parse s)
    (hfits : ∀ s, pre s → fits = true) (hp : ∀ s, pre s → parse s = .ok () (f s)) : Parses i pre f := by
  intro s hc hpre
  rw [h, groupOp_of_fits (hfits s hpre), recordOp_parse hc, hp s hpre, Res.outcome_ok]

theorem takeArrayHdr_ok {l : Word} {s : State} (hcap : l.toNat ≤ s.dstCap.toNat) (hlen : l.toNat % 128 = 0) :
    takeArrayHdr l s = .ok () { s with rem := l } := by
  rw [takeArrayHdr, if_neg (by omega), if_neg (by omega)]

theorem takePageHdr_ok {h : Nat} {w : Word} {s : State} (hw : 1 + padTo4 (h + 1) ≤ w.toNat) :
    takePageHdr h w s = .ok () { s with hdr := h, mp := h + w.toNat } := if_neg (Nat.not_lt.2 hw)

theorem takeBcSize_ok {bs : Word} {s : State} (h : bs.toNat ≤ bcCap s.cfg) : takeBcSize bs s = .ok () s :=
  if_neg (Nat.not_lt.2 h)

theorem takeEsCount_ok {k : Fin 32} {c : Word} {s : State} (hc : c ≠ 0#32) (hbound : c.toNat ≤ bucketBound s.cfg) :
    takeEsCount k c s = .ok () (withStore (opened s.es k c.toNat) s) := by
  have h := takeEsCount_withStore k c s.es s
  rwa [if_neg (not_or.2 ⟨hc, Nat.not_lt.2 hbound⟩)] at h

/-- The head of a `META` record the encoding admits is taken (R90, R169). -/
theorem takeMeta_ok {b c m : Byte} {pos : List Byte} (h : MetaOk b c m pos) (s : State) :
    takeMeta b c m s = .ok () { s with
      selB := b.setWidth 6, selC := c, selM := m.setWidth 6, bcRd := s.bcRd + if c = 0#8 then 2 else 3 } := by
  obtain ⟨hb, hc, -, -, hm⟩ := h
  rw [takeMeta, checkMetaHead_ok hb hc, Res.check]
  split_ifs at hm ⊢ with hc0
  · rw [hm, hc0]
    simp only [setSel, BitVec.ofNat_toNat]
  · have hmaxb : checkMetaMaxb b m = none := if_pos hm
    rw [hmaxb, Res.check]
    simp only [setSel, BitVec.ofNat_toNat, BitVec.setWidth_eq]

/-- Settles O60: each record by what is taken of it. -/
theorem recordsParsed : Obligations.RecordsParsed := by
  refine ⟨fun l => parses_of_recordOp (fun _ => rfl) fun s ⟨hcap, hlen⟩ => ?_,
    fun w => parses_of_recordOp (fun _ => rfl) fun s hw => ?_,
    parses_of_recordOp (fun _ => rfl) fun _ _ => rfl,
    fun b ws => parses_of_groupOp (fun _ => rfl) (fun _ hlen => beq_iff_eq.2 hlen) fun s hlen => ?_,
    fun bs => parses_of_recordOp (fun _ => rfl) fun s hbs => ?_,
    fun bytes => parses_of_recordOp (fun _ => rfl) fun s hbytes => ?_,
    fun b c m pos => parses_of_recordOp (fun _ => rfl) fun s hok => takeMeta_ok hok s,
    fun m s hc => ⟨(esClear s).es, ?_, fun k => by simp [esClear]⟩,
    fun k c => parses_of_recordOp (fun _ => rfl) fun s ⟨hc, hbound⟩ => ?_,
    parses_of_recordOp (fun _ => rfl) fun _ _ => rfl,
    fun k ws => parses_of_groupOp (fun _ => rfl) (fun _ hlen => beq_iff_eq.2 hlen) fun s hlen => ?_,
    fun k n ws => parses_of_groupOp (fun _ => rfl) (fun _ hlen => beq_iff_eq.2 hlen) fun s hlen => ?_⟩
  · rw [takeArrayHdr_ok (by exact hcap) hlen, Res.bind_ok]
  · rw [takePageHdr_ok hw, Res.bind_ok]
    rfl
  · simp only [takePacked, blockOf, hlen]
  · rw [takeBcSize_ok hbs, Res.bind_ok]
    rfl
  · rw [if_neg (Nat.not_lt.2 hbytes), packBytes_length]
    rfl
  · change execEsBitmap m s = _
    rw [execEsBitmap, recordOp_parse hc, Res.outcome_ok]
    simp only [passWords, esClear]
  · rw [takeEsCount_ok hc hbound, Res.bind_ok]
    rfl
  · simp only [takeEsG128, esAppendAll, setBucket, passWords, hlen]
  · simp only [takeEsG32, esAppendAll, setBucket, passWords, hlen]

end Sys2Proof.Machine

/-! SUPPORT. The words `ES.WRITE` emits, each at the place `StoreLayout` names (R93 to R97, R147). -/

namespace Sys2Proof.Machine

/-! ### Pieces of a sequence -/

theorem drop_append_add {α : Type} {xs ys : List α} {m : Nat} (h : xs.length = m) (n : Nat) :
    (xs ++ ys).drop (m + n) = ys.drop n := by
  rw [← List.drop_drop, List.drop_left' h]

/-- Piece `j` of pieces of equal length laid one after the other. -/
theorem flatMap_range_piece {α : Type} {f : Nat → List α} {m : Nat} (hf : ∀ j, (f j).length = m) (rest : List α)
    {g j : Nat} (hj : j < g) : (((List.range g).flatMap f ++ rest).drop (m * j)).take m = f j := by
  induction g generalizing f j with
  | zero => omega
  | succ g ih =>
    rw [List.range_succ_eq_map, List.flatMap_cons, List.flatMap_map, List.append_assoc]
    cases j with
    | zero =>
      rw [Nat.mul_zero, List.drop_zero]
      exact List.take_left' (hf 0)
    | succ j =>
      rw [Nat.mul_succ, Nat.add_comm, drop_append_add (hf 0)]
      exact ih (f := fun j => f (j + 1)) (fun j => hf (j + 1)) (by omega)

/-- Thirty-two elements of a sequence, zeros behind its end. -/
theorem take_drop_eq_range {xs : List Word} {n a z : Nat} (h : a + 32 ≤ (xs.drop n).length + z) :
    ((xs.drop n ++ List.replicate z 0#32).drop a).take 32 =
      (List.range 32).map fun e => xs.getD (n + a + e) 0#32 := by
  apply List.ext_getElem
  · simp only [List.length_take, List.length_drop, List.length_append, List.length_replicate, List.length_map,
      List.length_range] at *
    omega
  · intro e h1 h2
    have hget := getD_append_replicate (xs.drop n) z (a + e) 0#32
    rw [List.getD_eq_getElem _ _ (by
      simp only [List.length_take, List.length_drop, List.length_append, List.length_replicate] at h1 ⊢
      omega)] at hget
    simp only [List.getElem_take, List.getElem_drop, List.getElem_map, List.getElem_range]
    rw [hget]
    simp [List.getD_eq_getElem?_getD, Nat.add_assoc]

/-! ### One bucket -/

theorem tailGroups_spec (c : Nat) :
    tailCount c ≤ 32 * tailGroups c := by
  unfold tailGroups ceilDiv
  omega

/-- The words of a bucket, whatever follows them (R94 to R97). -/
theorem bucketLayout_records (i : Nat) (k : Fin 32) (val rest : List Word) :
    BucketLayout i k val (wordsOf (bucketRecords i k val) ++ rest) := by
  have hws : wordsOf (bucketRecords i k val) ++ rest =
      (BitVec.ofNat 32 val.length :: List.replicate (bucketPad i val.length) 0#32) ++ (groupWords k val ++ rest) := by
    rw [wordsOf_bucketRecords]
    simp only [List.append_assoc, List.cons_append, List.nil_append]
  have hhead : (BitVec.ofNat 32 val.length :: List.replicate (bucketPad i val.length) 0#32).length =
      1 + bucketPad i val.length := by
    rw [List.length_cons, List.length_replicate, Nat.add_comm]
  rw [hws]
  refine ⟨rfl, fun j hj => ?_, fun j hj => ?_, fun j hj => ?_⟩
  · rw [Nat.add_comm, List.cons_append, List.getElem?_cons_succ, List.getElem?_append_left (by simpa using hj),
      List.getElem?_replicate, if_pos hj]
  · rw [drop_append_add hhead, groupWords, List.append_assoc]
    exact flatMap_range_piece (fun _ => vpack_length _ _) _ hj
  · have hj : j < tailGroups val.length := hj
    have htail : 32 * j + 32 ≤ (val.drop (128 * (val.length / 128))).length +
        (32 * tailGroups val.length - tailCount val.length) := by
      have hcount := tailGroups_spec val.length
      rw [List.length_drop]
      unfold tailCount at *
      omega
    rw [Nat.add_assoc, drop_append_add hhead, groupWords, List.append_assoc,
      drop_append_add (vectorGroups_length k (val.length / 128) val), tailGroupWords,
      flatMap_range_piece (fun _ => spack_length _ _) rest hj, take_drop_eq_range htail]

/-! ### The store -/

theorem wordsOf_bucketsRecords_length (es : Vector Bucket 32) (o : Nat) {n : Nat} (hn : n ≤ 32) :
    bucketStart o (countsOf es) n +
        (wordsOf (bucketsRecords es (bucketNumbers.drop n) (bucketStart o (countsOf es) n))).length =
      bucketStart o (countsOf es) 32 := by
  induction hd : 32 - n generalizing n with
  | zero =>
    obtain rfl : n = 32 := by omega
    rfl
  | succ d ih =>
    have hlt : n < 32 := by omega
    have hrest := ih (n := n + 1) hlt (by omega)
    rw [bucketStart, countsOf_eq es hlt] at hrest
    rw [bucketNumbers_drop hlt, wordsOf_bucketsRecords_cons]
    split
    · rename_i hempty
      have hempty : es[n].val = [] := hempty
      rw [hempty] at hrest
      exact hrest
    · rename_i hval
      rw [List.length_append, wordsOf_bucketRecords_length _ _ hval, ← Nat.add_assoc]
      exact hrest

theorem wordsOf_esRecords (o : Nat) (es : Vector Bucket 32) :
    wordsOf (esRecords o es) = esBitmapOf es :: wordsOf (bucketsRecords es bucketNumbers (o + 1)) := rfl

theorem wordsOf_esRecords_length (o : Nat) (es : Vector Bucket 32) :
    (wordsOf (esRecords o es)).length = storeLength o (countsOf es) := by
  have hlen := wordsOf_bucketsRecords_length es o (Nat.zero_le 32)
  rw [bucketStart, List.drop_zero] at hlen
  rw [wordsOf_esRecords, List.length_cons, storeLength, ← hlen]
  omega

/-- Every word of a store is where R93 to R97 place it. -/
theorem storeLayout_records (o : Nat) (es : Vector Bucket 32) : StoreLayout o es (wordsOf (esRecords o es)) where
  length := wordsOf_esRecords_length o es
  bitmap := ⟨esBitmapOf es, rfl, esBitmapOf_getLsbD es⟩
  buckets k hval := by
    rw [storeWords_drop es o (Nat.le_of_lt k.isLt), bucketNumbers_drop k.isLt, wordsOf_bucketsRecords_cons, if_neg hval]
    exact bucketLayout_records _ k _ _

theorem esBitmapOf_empty {es : Vector Bucket 32} (h : ∀ k : Fin 32, es[k.val].val = []) : esBitmapOf es = 0#32 := by
  apply BitVec.eq_of_getLsbD_eq
  intro i hi
  have hbit := esBitmapOf_getLsbD es ⟨i, hi⟩
  have hempty : es[i].val = [] := h ⟨i, hi⟩
  simpa [hempty] using hbit

/-- Settles O40: the words are stored by `emitAll_ok` and lie as `storeLayout_records` says. -/
theorem storeWritten : Obligations.StoreWritten := by
  rintro s ws wf rfl room
  refine ⟨⟨_, ?_, stored_writeWords wf _ _⟩, storeLayout_records _ _, fun hempty => ?_⟩
  · change (esWrite s).returningNat = _
    rw [esWrite, emitRecords, emitAll_ok room, Res.bind_ok, Res.returningNat_ok, Nat.add_sub_cancel_left]
  · rw [wordsOf_esRecords, esBitmapOf_empty hempty, bucketsRecords_empty fun k _ => hempty k]
    rfl

end Sys2Proof.Machine

/-! SUPPORT. `PAGE.ENC` where its words fit: the state it leaves, and the words of the page in `DST` (R165 to R168,
R191). -/

namespace Sys2Proof.Machine

/-! ### The read cursors of the store -/

/-- The read cursors of the buckets are as they were. -/
def CursorsKept (s t : State) : Prop := ∀ k : Fin 32, t.es[k.val].rd = s.es[k.val].rd

theorem CursorsKept.refl (s : State) : CursorsKept s s := fun _ => rfl

theorem CursorsKept.trans {s t u : State} (h : CursorsKept s t) (g : CursorsKept t u) : CursorsKept s u :=
  fun k => (g k).trans (h k)

theorem CursorsKept.of_es {s t : State} (h : t.es = s.es) : CursorsKept s t := fun k => by rw [h]

theorem cursorsKept_bind {α β : Type} {s : State} {r : Res α} {k : α → State → Res β} (h : r.Keeps CursorsKept s)
    (hk : ∀ a t, (k a t).Keeps CursorsKept t) : (r.bind k).Keeps CursorsKept s :=
  Res.keeps_bind (fun _ _ _ h g => h.trans g) h hk

theorem cursorsKept_after {α : Type} {s u : State} {r : Res α} (h : CursorsKept s u) (hr : r.Keeps CursorsKept u) :
    r.Keeps CursorsKept s :=
  Res.keeps_mono hr fun _ g => h.trans g

theorem setBucket_cursors {k : Fin 32} {b : Bucket} {s : State} (h : b.rd = s.es[k.val].rd) :
    CursorsKept s (setBucket k b s) := by
  intro j
  rw [setBucket_bucket]
  split
  · rename_i hj
    rw [h, hj]
  · rfl

theorem esAppend_cursors (k : Fin 32) (x : Word) (s : State) : CursorsKept s (esAppend k x s) := setBucket_cursors rfl

theorem esEnsure_cursors (k : Fin 32) (n : Nat) (s : State) : CursorsKept s (esEnsure k n s) := setBucket_cursors rfl

theorem bcPut_cursors (x : Byte) (s : State) : (bcPut x s).Keeps CursorsKept s := by
  unfold bcPut
  split
  · trivial
  · exact CursorsKept.of_es rfl

theorem putExceptions_cursors (k : Fin 32) (xs : List (Nat × Word)) (s : State) :
    (putExceptions k xs s).Keeps CursorsKept s := by
  induction xs generalizing s with
  | nil => exact CursorsKept.refl s
  | cons x xs ih => exact cursorsKept_bind (bcPut_cursors _ s) fun _ t => cursorsKept_after (esAppend_cursors k _ t) (ih _)

theorem blkEmit_cursors (s : State) : (blkEmit s).Keeps CursorsKept s := by
  refine cursorsKept_bind (bcPut_cursors _ s) fun _ t => cursorsKept_bind (bcPut_cursors _ t) fun _ u => ?_
  split
  · exact CursorsKept.refl u
  · refine cursorsKept_bind (bcPut_cursors _ u) fun _ v => ?_
    split
    · trivial
    · exact cursorsKept_after (esEnsure_cursors _ _ v) (putExceptions_cursors _ _ _)

theorem emitAll_cursors (ws : List Word) (s : State) : (emitAll ws s).Keeps CursorsKept s := by
  have hemit (w : Word) (s : State) : (emit w s).Keeps CursorsKept s := by
    unfold emit putWord
    split
    · exact CursorsKept.refl s
    · split
      · trivial
      · exact CursorsKept.of_es rfl
  induction ws generalizing s with
  | nil => exact CursorsKept.refl s
  | cons w ws ih => exact cursorsKept_bind (hemit w s) fun _ t => ih t

theorem blkEnc_cursors (s : State) : (blkEnc s).Keeps CursorsKept s := by
  have hload : (blkLoad s).Keeps CursorsKept s := by
    unfold blkLoad
    split
    · trivial
    · exact CursorsKept.of_es rfl
  refine cursorsKept_bind hload fun _ t => cursorsKept_bind (cursorsKept_after (CursorsKept.of_es ?_)
    (blkEmit_cursors _)) fun _ u => emitAll_cursors _ u
  simp [blkHist, deltaIfEnabled_eq]

/-! ### The span of the encoder's input and output -/

/-- The values `vals` stand at the input cursor, `n` words can be emitted, and none of them is stored on a value. -/
structure EncSpan (s : State) (vals : List Word) (n : Nat) : Prop where
  wf : Memory.wf s.mem
  inSpace : srcAddr s (s.ic + vals.length) ≤ 2 ^ s.cfg.addrW
  values : ∀ j, j < vals.length → Memory.readWord s.mem (srcAddr s (s.ic + j)) = vals.getD j 0#32
  room : Room s n
  disjoint : vals = [] ∨ srcAddr s (s.ic + vals.length) ≤ dstAddr s s.oc ∨ dstAddr s (s.oc + n) ≤ srcAddr s s.ic

/-- The first values, and room for fewer words. -/
theorem EncSpan.left {s : State} {xs ys : List Word} {m n : Nat} (h : EncSpan s (xs ++ ys) n) (hm : m ≤ n) :
    EncSpan s xs m := by
  obtain ⟨wf, inSpace, values, ⟨hcap, hdst⟩, disjoint⟩ := h
  rw [List.length_append] at inSpace values disjoint
  refine ⟨wf, by unfold srcAddr at *; omega, fun j hj => ?_, ⟨by omega, hdst⟩, ?_⟩
  · rw [values j (by omega), List.getD_append _ _ _ _ hj]
  · rcases disjoint with hnil | hlow | hhigh
    · exact .inl (List.append_eq_nil_iff.1 hnil).1
    · exact .inr (.inl (by unfold srcAddr at *; omega))
    · exact .inr (.inr (by unfold dstAddr at *; omega))

/-- The encoder goes on behind the values it has read and the words it has emitted. -/
theorem EncSpan.next {s t : State} {xs ys ws : List Word} {n : Nat} (h : EncSpan s (xs ++ ys) (ws.length + n))
    (stored : Stored s s.oc ws t.mem) (hic : t.ic = s.ic + xs.length) (hoc : t.oc = s.oc + ws.length)
    (hsrc : t.srcBase = s.srcBase) (hdst : t.dstBase = s.dstBase) (hcap : t.dstCap = s.dstCap) (hcfg : t.cfg = s.cfg) :
    EncSpan t ys n := by
  obtain ⟨-, inSpace, values, room, disjoint⟩ := h
  rw [List.length_append] at inSpace values disjoint
  refine ⟨stored.wf, ?_, fun j hj => ?_, ?_, ?_⟩
  · simp only [srcAddr, hsrc, hic, hcfg] at *
    omega
  · have hne : xs ++ ys ≠ [] := fun h0 => by
      rw [(List.append_eq_nil_iff.1 h0).2] at hj
      simp at hj
    have hkept : Memory.readWord t.mem (srcAddr s (s.ic + (xs.length + j))) =
        Memory.readWord s.mem (srcAddr s (s.ic + (xs.length + j))) := by
      refine stored.frame.readWord ?_
      have := disjoint.resolve_left hne
      simp only [srcAddr, dstAddr] at *
      omega
    rw [show srcAddr t (t.ic + j) = srcAddr s (s.ic + (xs.length + j)) by simp only [srcAddr, hsrc, hic]; omega, hkept,
      values _ (by omega), List.getD_append_right _ _ _ _ (by omega), Nat.add_sub_cancel_left]
  · simp only [Room, hoc, hcap, hdst, hcfg] at *
    omega
  · rcases disjoint with hnil | hlow | hhigh
    · exact .inl (List.append_eq_nil_iff.1 hnil).2
    · refine .inr (.inl ?_)
      simp only [srcAddr, dstAddr, hsrc, hdst, hic, hoc] at *
      omega
    · refine .inr (.inr ?_)
      simp only [srcAddr, dstAddr, hsrc, hdst, hic, hoc] at *
      omega

/-! ### The blocks -/

/-- The state after the block `raw`, coded as `v`, has been encoded (R168). -/
def blockEncoded (raw v : Vector Word 128) (es : Vector Bucket 32) (s : State) : State :=
  { blockTaken raw v es s with
    mem := Memory.writeWords s.mem (dstAddr s s.oc) (blockPacked v), oc := s.oc + (blockPacked v).length }

theorem blockEncoded_stored {s : State} {raw v : Vector Word 128} (wf : Memory.wf s.mem) (es : Vector Bucket 32) :
    Stored s s.oc (blockPacked v) (blockEncoded raw v es s).mem := by
  simpa only [blockEncoded] using stored_writeWords wf s.oc (blockPacked v)

/-- The residuals of coded blocks have been appended, and no bucket has been read. -/
def StoreGrown (es es' : Vector Bucket 32) (coded : List (Vector Word 128)) : Prop :=
  ResidualsAdded es es' coded ∧ ∀ k : Fin 32, es'[k.val].rd = es[k.val].rd

/-- `BLK.ENC` of the block at the input cursor, where its words fit (R168). -/
theorem blkEnc_ok {s : State} {raw v : Vector Word 128} (h : EncSpan s raw.toList (blockPacked v).length)
    (hv : v = if s.deltaEn then deltas s.dprev[3] raw else raw)
    (hroom : s.bcMem.length + (blockMeta v).length ≤ bcCap s.cfg) :
    ∃ es, blkEnc s = .ok () (blockEncoded raw v es s) ∧ StoreGrown s.es es [v] := by
  obtain ⟨-, inSpace, values, room, -⟩ := h
  rw [Vector.length_toList] at inSpace values
  obtain ⟨es, henc, hes⟩ := blkEnc_block inSpace (fun i => by simpa using values i.val i.isLt) hv hroom
  have hok : blkEnc s = .ok () (blockEncoded raw v es s) := by
    rw [henc, emitAll_ok (s := blockTaken raw v es s) room]
    rfl
  have hrd := blkEnc_cursors s
  rw [hok] at hrd
  exact ⟨es, hok, hes, hrd⟩

theorem storeGrown_nil (es : Vector Bucket 32) : StoreGrown es es [] := ⟨residualsAdded_nil es, fun _ => rfl⟩

theorem StoreGrown.cons {es es' es'' : Vector Bucket 32} {v : Vector Word 128} {vs : List (Vector Word 128)}
    (h : StoreGrown es es' [v]) (g : StoreGrown es' es'' vs) : StoreGrown es es'' (v :: vs) :=
  ⟨h.1.cons g.1, fun k => (g.2 k).trans (h.2 k)⟩

/-- The blocks at the input cursor are encoded one after the other, where their words fit (R191). -/
theorem blocksEnc_ok {s : State} {raw coded : List (Vector Word 128)}
    (h : EncSpan s (raw.flatMap Vector.toList) (coded.flatMap blockPacked).length)
    (hcoded : coded = codedBlocks s.deltaEn s.dprev[3] raw)
    (hroom : s.bcMem.length + (coded.flatMap blockMeta).length ≤ bcCap s.cfg) :
    ∃ m e bl fr sb sc sm, Res.times blkEnc raw.length s = .ok () { s with
        mem := m, oc := s.oc + (coded.flatMap blockPacked).length, ic := s.ic + 128 * raw.length,
        dprev := carriedOver s raw, bcMem := s.bcMem ++ coded.flatMap blockMeta, es := e,
        blk := bl, freq := fr, selB := sb, selC := sc, selM := sm } ∧
      Stored s s.oc (coded.flatMap blockPacked) m ∧ StoreGrown s.es e coded := by
  induction raw generalizing s coded with
  | nil =>
    subst hcoded
    refine ⟨s.mem, s.es, s.blk, s.freq, s.selB, s.selC, s.selM, ?_, ⟨h.wf, rfl, fun _ _ => rfl⟩, storeGrown_nil _⟩
    rw [carriedOver_nil, codedBlocks, List.flatMap_nil, List.flatMap_nil, List.append_nil]
    rfl
  | cons r rs ih =>
    rw [codedBlocks_cons] at hcoded
    generalize hv : (if s.deltaEn then deltas s.dprev[3] r else r) = v at hcoded
    subst hcoded
    simp only [List.flatMap_cons, List.length_append] at h hroom ⊢
    obtain ⟨es, henc, hgrown⟩ := blkEnc_ok (h.left (Nat.le_add_right _ _)) hv.symm (by omega)
    have hblock := blockEncoded_stored (raw := r) (v := v) h.wf es
    have hspan := EncSpan.next (t := blockEncoded r v es s) (xs := r.toList) (ws := blockPacked v) h hblock
      (by rw [Vector.length_toList]; rfl) rfl rfl rfl rfl rfl
    have hroom' : (blockEncoded r v es s).bcMem.length + ((codedBlocks s.deltaEn (carriedOver s [r])[3] rs).flatMap
        blockMeta).length ≤ bcCap s.cfg := by
      rw [blockEncoded, blockTaken, List.length_append, Nat.add_assoc]
      exact hroom
    obtain ⟨m, e, bl, fr, sb, sc, sm, hok, hstored, hgrown'⟩ := ih hspan rfl hroom'
    refine ⟨m, e, bl, fr, sb, sc, sm, ?_, hblock.append hstored rfl, hgrown.cons hgrown'⟩
    rw [List.length_cons, Res.times, henc, Res.bind_ok, hok,
      carriedOver_cons (s := s) (t := blockEncoded r v es s) rs rfl rfl]
    simp only [blockEncoded, blockTaken, Nat.mul_succ, Nat.add_assoc, Nat.add_comm (128 * rs.length) 128,
      List.append_assoc]

end Sys2Proof.Machine

/-! SUPPORT. The parts of a page around its blocks: the header with its padding, the patch of the header, the container
and the store; and `PAGE.ENC` as a whole, where its words fit (R191). -/

namespace Sys2Proof.Machine

/-! ### Words emitted -/

/-- The state after words have been emitted (R57). -/
def emitted (ws : List Word) (s : State) : State :=
  { s with mem := Memory.writeWords s.mem (dstAddr s s.oc) ws, oc := s.oc + ws.length }

theorem emitAll_emitted {ws : List Word} {s : State} (room : Room s ws.length) : emitAll ws s = .ok () (emitted ws s) :=
  emitAll_ok room

theorem emitted_emitted (xs ys : List Word) (s : State) : emitted ys (emitted xs s) = emitted (xs ++ ys) s := by
  have hnext : dstAddr s (s.oc + xs.length) = dstAddr s s.oc + 4 * xs.length := by
    simp only [dstAddr]
    omega
  simp only [emitted, Memory.writeWords_append, List.length_append, Nat.add_assoc, ← hnext]
  rfl

theorem Room.emitted {ws : List Word} {s : State} {n : Nat} (room : Room s (ws.length + n)) :
    Room (emitted ws s) n := by
  obtain ⟨hcap, hdst⟩ := room
  exact ⟨by simp only [Machine.emitted]; omega, hdst⟩

theorem emitted_stored {s : State} (wf : Memory.wf s.mem) (ws : List Word) :
    Stored s s.oc ws (emitted ws s).mem := by
  simpa only [emitted] using stored_writeWords wf s.oc ws

@[simp] theorem emitted_fields (ws : List Word) (s : State) :
    (emitted ws s).oc = s.oc + ws.length ∧ (emitted ws s).ic = s.ic ∧ (emitted ws s).hdr = s.hdr ∧
      (emitted ws s).dprev = s.dprev ∧ (emitted ws s).deltaEn = s.deltaEn ∧ (emitted ws s).bcMem = s.bcMem ∧
      (emitted ws s).es = s.es ∧ (emitted ws s).srcBase = s.srcBase ∧ (emitted ws s).dstBase = s.dstBase ∧
      (emitted ws s).dstCap = s.dstCap ∧ (emitted ws s).cfg = s.cfg := by
  simp only [emitted, and_self]

theorem pageCleared_emitted (ws : List Word) (s : State) : pageCleared (emitted ws s) = emitted ws (pageCleared s) := by
  simp only [pageCleared, emitted, esClear, dstAddr]

/-! ### Before the blocks -/

/-- The words before the blocks, the header not yet known (R86). -/
def blankHead (o : Nat) : List Word := 0#32 :: List.replicate (padTo4 (o + 1)) 0#32

theorem blankHead_length (o : Nat) : (blankHead o).length = 1 + padTo4 (o + 1) := by
  rw [blankHead, List.length_cons, List.length_replicate, Nat.add_comm]

/-- The state before the blocks of a page are encoded (R191). -/
def pageHeaded (s : State) : State := emitted (blankHead s.oc) (pageCleared { s with hdr := s.oc })

@[simp] theorem pageHeaded_fields (s : State) :
    (pageHeaded s).oc = s.oc + (blankHead s.oc).length ∧ (pageHeaded s).ic = s.ic ∧ (pageHeaded s).hdr = s.oc ∧
      (pageHeaded s).dprev = s.dprev ∧ (pageHeaded s).deltaEn = s.deltaEn ∧ (pageHeaded s).bcMem = [] ∧
      (pageHeaded s).srcBase = s.srcBase ∧ (pageHeaded s).dstBase = s.dstBase ∧
      (pageHeaded s).dstCap = s.dstCap ∧ (pageHeaded s).cfg = s.cfg := by
  simp [pageHeaded, pageCleared]

theorem pageHeaded_stored {s : State} (wf : Memory.wf s.mem) :
    Stored s s.oc (blankHead s.oc) (pageHeaded s).mem := by
  simpa [pageHeaded, emitted, pageCleared, esClear, dstAddr] using stored_writeWords wf s.oc (blankHead s.oc)

theorem wordsOf_pagePads (n : Nat) : wordsOf (List.replicate n .pagePad) = List.replicate n 0#32 := by
  simp [wordsOf, List.flatMap_replicate, recWords]

theorem pageEncHead_eq {s : State} (room : Room s (blankHead s.oc).length) (n : Nat) :
    pageEncHead n s = Res.times blkEnc (n / 128) (pageHeaded s) := by
  have hroom : Room (pageCleared { s with hdr := s.oc }) ([0#32].length +
      (List.replicate (padTo4 (s.oc + 1)) 0#32).length) := by
    simpa [blankHead_length, pageCleared] using room
  have hfirst : Room { s with hdr := s.oc } [0#32].length := by
    obtain ⟨hcap, hdst⟩ := room
    rw [blankHead_length] at hcap
    exact ⟨by simp only [List.length_singleton]; omega, hdst⟩
  have hpad : (emitted [0#32] { s with hdr := s.oc }).oc = s.oc + 1 := by simp
  rw [pageEncHead, emitRecords_singleton, show recWords (.pageHdr 0#32) = [0#32] from rfl, emitAll_emitted hfirst,
    Res.bind_ok, hpad, pageCleared_emitted, emitRecords, wordsOf_pagePads, emitAll_emitted hroom.emitted, Res.bind_ok,
    emitted_emitted, pageHeaded, blankHead, List.singleton_append]

/-- The header, the padding and the blocks of a page, where they fit (R191). -/
theorem pageEncHead_ok {s : State} {raw coded : List (Vector Word 128)}
    (h : EncSpan s (raw.flatMap Vector.toList) (headLength s.oc coded))
    (hcoded : coded = codedBlocks s.deltaEn s.dprev[3] raw) (hpage : 128 * raw.length ≤ s.cfg.pageSize) :
    ∃ m e bl fr sb sc sm, pageEncHead (128 * raw.length) s = .ok () { s with
        mem := m, oc := s.oc + headLength s.oc coded, ic := s.ic + 128 * raw.length, hdr := s.oc,
        dprev := carriedOver s raw, bcMem := coded.flatMap blockMeta, es := e,
        blk := bl, freq := fr, selB := sb, selC := sc, selM := sm } ∧
      Stored s s.oc (blankHead s.oc ++ coded.flatMap blockPacked) m ∧
      ∀ k : Fin 32, e[k.val].val = coded.flatMap (blockResiduals k) ∧ e[k.val].rd = 0 := by
  have hcount : coded.length = raw.length := hcoded ▸ codedBlocks_length _ _ _
  have htotal : headLength s.oc coded = (blankHead s.oc).length + (coded.flatMap blockPacked).length := by
    rw [headLength_eq, blankHead_length]
  rw [htotal] at h
  have hhead := pageHeaded_stored (s := s) h.wf
  have hspan := EncSpan.next (t := pageHeaded s) (xs := []) h hhead (by simp) (by simp) (by simp) (by simp) (by simp)
    (by simp)
  have hroom : (pageHeaded s).bcMem.length + (coded.flatMap blockMeta).length ≤ bcCap (pageHeaded s).cfg := by
    simpa using metadata_length_le (p := s.cfg) (hcount ▸ hpage : 128 * coded.length ≤ s.cfg.pageSize)
  obtain ⟨m, e, bl, fr, sb, sc, sm, hok, hstored, hvals, hrds⟩ := blocksEnc_ok hspan (by simpa using hcoded) hroom
  have hafter : Stored (pageHeaded s) (s.oc + (blankHead s.oc).length) (coded.flatMap blockPacked) m := by
    simpa using hstored
  refine ⟨m, e, bl, fr, sb, sc, sm, ?_, hhead.append hafter (by simp), fun k => ⟨?_, ?_⟩⟩
  · rw [pageEncHead_eq (h.left (xs := []) (Nat.le_add_right _ _)).room, Nat.mul_div_cancel_left _ (by decide), hok,
      carriedOver_congr (s := s) (t := pageHeaded s) (by simp) (by simp), htotal]
    simp only [pageHeaded, emitted, pageCleared, esClear, List.nil_append, Nat.add_assoc]
  · rw [hvals k]
    simp [pageHeaded, pageCleared, esClear]
  · rw [hrds k]
    simp [pageHeaded, pageCleared, esClear]

/-! ### Behind the blocks -/

/-- The first of some stored words is replaced (R57). -/
theorem Stored.patch {s : State} {j : Nat} {x : Word} {xs : List Word} {m : List Host.Cell}
    (h : Stored s j (x :: xs) m) (w : Word) : Stored s j (w :: xs) (Memory.writeWord m (dstAddr s j) w) := by
  obtain ⟨wf, words, frame⟩ := h
  rw [List.length_cons, Memory.readWords_succ, List.cons.injEq] at words
  refine ⟨Memory.writeWord_wf wf _ _, ?_, fun a ha => ?_⟩
  · rw [List.length_cons, Memory.readWords_succ, Memory.readWord_writeWord wf, Memory.readWords_congr fun i _ =>
      Memory.readWord_writeWord_of_disjoint wf w (by omega), words.2]
  · rw [List.length_cons] at ha
    rw [Memory.read_writeWord wf, if_neg (by omega), frame a (by rw [List.length_cons]; exact ha)]

/-- The words of a page behind its blocks, the container before the store (R88 to R97). -/
theorem wordsOf_pageBack_eq {o : Nat} {coded : List (Vector Word 128)} {bytes : List Byte} {es : Vector Bucket 32}
    (hmeta : bytes = coded.flatMap blockMeta) (hes : ∀ k : Fin 32, es[k.val].val = coded.flatMap (blockResiduals k)) :
    wordsOf (pageBack o coded) =
      wordsOf (bcRecords bytes) ++ wordsOf (esRecords (o + (wordsOf (bcRecords bytes)).length) es) := by
  rw [esRecords_congr (fun k => by rw [hes, pageStore_val] : ∀ k : Fin 32, es[k.val].val = (pageStore coded)[k.val].val),
    hmeta, wordsOf_pageBack, wordsOf_bcRecords_length]

/-- The state with the header of the page patched (R57). -/
def headerPatched (s : State) : State :=
  { s with mem := Memory.writeWord s.mem (dstAddr s s.hdr) (BitVec.ofNat 32 (s.oc - s.hdr)) }

theorem patchHeader_ok {s : State} (hdst : s.dstBase + 4 * s.dstCap.toNat ≤ 2 ^ s.cfg.addrW)
    (hhdr : s.hdr < s.dstCap.toNat) : patchHeader s = .ok () (headerPatched s) :=
  putWord_ok (by simp only [dstAddr]; omega) _

/-- The header is patched, the container and the store are emitted (R191). -/
theorem pageEncBack_ok {s : State} {coded : List (Vector Word 128)} (hhdr : s.hdr < s.dstCap.toNat)
    (room : Room s (wordsOf (pageBack s.oc coded)).length) (hmeta : s.bcMem = coded.flatMap blockMeta)
    (hes : ∀ k : Fin 32, s.es[k.val].val = coded.flatMap (blockResiduals k)) :
    pageEncBack s = .ok () (emitted (wordsOf (pageBack s.oc coded)) (headerPatched s)) := by
  rw [wordsOf_pageBack_eq hmeta hes] at room ⊢
  rw [List.length_append] at room
  have room' : Room (headerPatched s) ((wordsOf (bcRecords s.bcMem)).length +
    (wordsOf (esRecords (s.oc + (wordsOf (bcRecords s.bcMem)).length) s.es)).length) := room
  have hbc : bcWrite (headerPatched s) = .ok () (emitted (wordsOf (bcRecords s.bcMem)) (headerPatched s)) :=
    emitAll_emitted (s := headerPatched s) ⟨Nat.le_trans (Nat.add_le_add_left (Nat.le_add_right _ _) _) room'.1, room'.2⟩
  have hes : esWrite (emitted (wordsOf (bcRecords s.bcMem)) (headerPatched s)) =
      (emitAll (wordsOf (esRecords (s.oc + (wordsOf (bcRecords s.bcMem)).length) s.es))
        (emitted (wordsOf (bcRecords s.bcMem)) (headerPatched s))).bind fun _ t =>
          .ok (t.oc - (s.oc + (wordsOf (bcRecords s.bcMem)).length)) t := rfl
  rw [pageEncBack, patchHeader_ok room.2 hhdr, Res.bind_ok, hbc, Res.bind_ok, hes, emitAll_emitted room'.emitted,
    Res.bind_ok, Res.bind_ok, emitted_emitted]

/-- `PAGE.ENC` of the values at the input cursor, where its words fit and are not stored on the values (R191). -/
theorem pageEnc_ok {s : State} {raw coded : List (Vector Word 128)}
    (h : EncSpan s (raw.flatMap Vector.toList) (pageStream s.oc coded).length)
    (hcoded : coded = codedBlocks s.deltaEn s.dprev[3] raw) (hpage : 128 * raw.length ≤ s.cfg.pageSize) :
    ∃ m e bl fr sb sc sm, pageEnc (128 * raw.length) s = .ok () { s with
        mem := m, oc := s.oc + (pageStream s.oc coded).length, ic := s.ic + 128 * raw.length, hdr := s.oc,
        dprev := carriedOver s raw, bcMem := coded.flatMap blockMeta, es := e,
        blk := bl, freq := fr, selB := sb, selC := sc, selM := sm } ∧
      Stored s s.oc (pageStream s.oc coded) m ∧
      ∀ k : Fin 32, e[k.val].val = coded.flatMap (blockResiduals k) ∧ e[k.val].rd = 0 := by
  have hlen := pageStream_length s.oc coded
  have hpos : 0 < headLength s.oc coded := by
    rw [headLength_eq]
    omega
  obtain ⟨hcap, hdst⟩ := h.room
  rw [← List.append_nil (raw.flatMap Vector.toList)] at h
  obtain ⟨m, e, bl, fr, sb, sc, sm, hhead, hstored, hes⟩ := pageEncHead_ok (h.left (by omega)) hcoded hpage
  have hpatched := hstored.patch (BitVec.ofNat 32 (headLength s.oc coded))
  have hfront : (BitVec.ofNat 32 (headLength s.oc coded) ::
      (List.replicate (padTo4 (s.oc + 1)) 0#32 ++ coded.flatMap blockPacked)).length = headLength s.oc coded := by
    rw [headLength_eq]
    simp only [List.length_cons, List.length_append, List.length_replicate]
    omega
  generalize ht : ({ s with
        mem := m, oc := s.oc + headLength s.oc coded, ic := s.ic + 128 * raw.length, hdr := s.oc,
        dprev := carriedOver s raw, bcMem := coded.flatMap blockMeta, es := e,
        blk := bl, freq := fr, selB := sb, selC := sc, selM := sm } : State) = t at hhead
  have hoc : t.oc = s.oc + headLength s.oc coded := by rw [← ht]
  have hback := pageEncBack_ok (s := t) (coded := coded) (by rw [← ht]; dsimp only; omega)
    (by rw [hoc, ← ht]; exact ⟨by dsimp only; omega, hdst⟩) (by rw [← ht]) (fun k => by rw [← ht]; exact (hes k).1)
  have hmem : (headerPatched t).mem = Memory.writeWord m (dstAddr s s.oc) (BitVec.ofNat 32 (headLength s.oc coded)) := by
    rw [← ht, headerPatched]
    dsimp only [dstAddr]
    rw [Nat.add_sub_cancel_left]
  rw [hoc] at hback
  refine ⟨(emitted (wordsOf (pageBack (s.oc + headLength s.oc coded) coded)) (headerPatched t)).mem, e, bl, fr, sb, sc,
    sm, ?_, ?_, hes⟩
  · rw [pageEnc_eq, hhead, Res.bind_ok, hback, hlen, ← Nat.add_assoc, ← ht]
    rfl
  · rw [pageStream_eq, ← List.append_assoc, List.cons_append]
    refine (hmem ▸ hpatched).append ?_ (by rw [← ht]; rfl)
    change Stored _ (s.oc + List.length (_ :: (_ ++ _))) _ _
    rw [hfront, ← hoc]
    exact emitted_stored (hmem ▸ hpatched.wf) _

end Sys2Proof.Machine

/-! SUPPORT. The lengths of R98, computed from counts alone, and the places of the vector groups (R198); with them the
statement of `PAGE.ENC`. -/

namespace Sys2Proof.Machine

/-! ### Lengths -/

/-- A block's record, by the number of its exceptions (R90). -/
theorem blockMeta_length (v : Vector Word 128) :
    (blockMeta v).length = if (blockChoice v).c = 0 then 2 else 3 + (blockChoice v).c := by
  rw [blockMeta_eq, recordBytes_length (recordOk_block v), ← blockPositions_length]
  simp only [List.length_eq_zero_iff]

theorem metaLength_eq (blocks : List (Vector Word 128)) : metaLength blocks = (blocks.flatMap blockMeta).length := by
  rw [metaLength, List.length_flatMap]
  simp only [blockMeta_length]

/-- The residuals a block puts into a bucket, by number (R141). -/
theorem blockResiduals_length (k : Fin 32) (v : Vector Word 128) :
    (blockResiduals k v).length =
      if (blockChoice v).c ≠ 0 ∧ blockMaxb v - (blockChoice v).b - 1 = k.val then (blockChoice v).c else 0 := by
  have hlt : (blockChoice v).c ≠ 0 → (blockChoice v).b < blockMaxb v := fun hc =>
    Nat.not_le.1 fun hle => hc (blockChoice_c_eq_zero hle)
  by_cases hk : blockMaxb v = (blockChoice v).b + k.val + 1
  · rw [blockResiduals_of_bucket hk, blockRest_length, blockPositions_length]
    split <;> omega
  · rw [blockResiduals_of_not_bucket hk, if_neg, List.length_nil]
    rintro ⟨hc, he⟩
    have := hlt hc
    omega

theorem pageCounts_eq (blocks : List (Vector Word 128)) {k : Nat} (hk : k < 32) :
    pageCounts blocks k = countsOf (pageStore blocks) k := by
  have hval := pageStore_val blocks ⟨k, hk⟩
  rw [countsOf_eq _ hk, hval, List.length_flatMap, pageCounts]
  simp only [blockResiduals_length]

/-- Where the buckets begin depends on the counts of the buckets before alone. -/
theorem bucketStart_congr {cnt cnt' : Nat → Nat} {n : Nat} (h : ∀ k, k < n → cnt k = cnt' k) (o : Nat) :
    bucketStart o cnt n = bucketStart o cnt' n := by
  induction n with
  | zero => rfl
  | succ n ih => rw [bucketStart, bucketStart, ih fun k hk => h k (by omega), h n (by omega)]

theorem pageStore_length (o : Nat) (blocks : List (Vector Word 128)) :
    (wordsOf (esRecords o (pageStore blocks))).length = storeLength o (pageCounts blocks) := by
  rw [wordsOf_esRecords_length, storeLength, storeLength, bucketStart_congr fun k hk => pageCounts_eq blocks hk]

theorem wordsOf_pageBack_length (q : Nat) (blocks : List (Vector Word 128)) :
    (wordsOf (pageBack q blocks)).length = 1 + ceilDiv (metaLength blocks) 4 +
      storeLength (q + (1 + ceilDiv (metaLength blocks) 4)) (pageCounts blocks) := by
  rw [wordsOf_pageBack, List.length_append, wordsOf_bcRecords_length, pageStore_length, metaLength_eq]

/-- A page has the `T_page` words of R98. -/
theorem pageStream_length_eq (h : Nat) (blocks : List (Vector Word 128)) :
    (pageStream h blocks).length = pageLength h blocks := by
  rw [pageStream_length, wordsOf_pageBack_length, pageLength]
  simp only [Nat.add_assoc]

/-! ### The places of the vector groups -/

/-- A record whose words must begin at a multiple of 4 (R87, R95). -/
def IsVector (r : Instr) : Prop := (∃ w ws, r = .packed128 w ws) ∨ ∃ k ws, r = .esG128 k ws

theorem groupsAligned_nil (o : Nat) : GroupsAligned o [] := by
  intro a r b h
  simp at h

theorem groupsAligned_cons {o : Nat} {r : Instr} {rs : List Instr} (hr : IsVector r → o % 4 = 0)
    (hrs : GroupsAligned (o + (recWords r).length) rs) : GroupsAligned o (r :: rs) := by
  intro a x b h hx
  cases a with
  | nil =>
    obtain ⟨rfl, -⟩ := List.cons.inj h
    exact hr hx
  | cons y a =>
    obtain ⟨rfl, htail⟩ := List.cons.inj h
    have hplace := hrs a x b htail hx
    rwa [Nat.add_assoc, ← List.length_append] at hplace

theorem GroupsAligned.append {o : Nat} {xs ys : List Instr} (hx : GroupsAligned o xs)
    (hy : GroupsAligned (o + (wordsOf xs).length) ys) : GroupsAligned o (xs ++ ys) := by
  induction xs generalizing o with
  | nil => exact hy
  | cons x xs ih =>
    refine groupsAligned_cons (fun h => by simpa using hx [] x xs rfl h) (ih (fun a r b h hr => ?_) ?_)
    · have hplace := hx (x :: a) r b (by rw [h]; rfl) hr
      rwa [wordsOf, List.flatMap_cons, List.length_append, ← Nat.add_assoc] at hplace
    · rwa [wordsOf, List.flatMap_cons, List.length_append, ← Nat.add_assoc] at hy

theorem groupsAligned_none {rs : List Instr} (h : ∀ r ∈ rs, ¬IsVector r) (o : Nat) : GroupsAligned o rs := by
  intro a r b he hr
  exact absurd hr (h r (by rw [he]; simp))

/-- Records of whole vectors from a multiple of 4 on. -/
theorem groupsAligned_vectors {rs : List Instr} (h : ∀ r ∈ rs, (recWords r).length % 4 = 0) {o : Nat}
    (ho : o % 4 = 0) : GroupsAligned o rs := by
  induction rs generalizing o with
  | nil => exact groupsAligned_nil o
  | cons r rs ih =>
    have hr := h r (List.mem_cons_self ..)
    exact groupsAligned_cons (fun _ => ho) (ih (fun x hx => h x (List.mem_cons_of_mem _ hx)) (by omega))

theorem wordsOf_esPads_length (n : Nat) : (wordsOf (List.replicate n .esPad)).length = n := by
  simp [wordsOf, List.flatMap_replicate, recWords]

/-- The vector groups of a bucket follow its padding (R96). -/
theorem bucketRecords_aligned (i : Nat) (k : Fin 32) (val : List Word) :
    GroupsAligned i (bucketRecords i k val) := by
  unfold bucketRecords
  refine groupsAligned_cons (by simp [IsVector]) (GroupsAligned.append (GroupsAligned.append
    (groupsAligned_none (fun r hr => ?_) _) ?_) (groupsAligned_none (fun r hr => ?_) _))
  · rw [List.eq_of_mem_replicate hr]
    simp [IsVector]
  · rw [wordsOf_esPads_length]
    by_cases hg : 1 ≤ val.length / 128
    · rw [if_pos hg]
      refine groupsAligned_vectors (fun r hr => ?_) (padTo4_aligns (i + 1))
      obtain ⟨j, -, rfl⟩ := List.mem_map.1 hr
      simp [recWords]
    · rw [show val.length / 128 = 0 by omega]
      exact groupsAligned_nil _
  · obtain ⟨j, -, rfl⟩ := List.mem_map.1 hr
    simp [IsVector]

theorem bucketsRecords_aligned (es : Vector Bucket 32) (ks : List (Fin 32)) (i : Nat) :
    GroupsAligned i (bucketsRecords es ks i) := by
  induction ks generalizing i with
  | nil => exact groupsAligned_nil i
  | cons k ks ih =>
    rw [bucketsRecords]
    split
    · exact ih i
    · exact (bucketRecords_aligned i k _).append (ih _)

theorem pageHead_aligned (h : Nat) (blocks : List (Vector Word 128)) : GroupsAligned h (pageHead h blocks) := by
  unfold pageHead
  refine groupsAligned_cons (by simp [IsVector]) (GroupsAligned.append (groupsAligned_none (fun r hr => ?_) _)
    (groupsAligned_vectors (fun r hr => ?_) ?_))
  · rw [List.eq_of_mem_replicate hr]
    simp [IsVector]
  · obtain ⟨v, -, rfl⟩ := List.mem_map.1 hr
    simp [packedRecord, recWords]
  · rw [wordsOf_pagePads_length]
    exact padTo4_aligns (h + 1)

theorem pageBack_aligned (q : Nat) (blocks : List (Vector Word 128)) : GroupsAligned q (pageBack q blocks) := by
  refine (groupsAligned_none ?_ q).append (groupsAligned_cons (by simp [IsVector]) (bucketsRecords_aligned _ _ _))
  simp [bcRecords, IsVector]

/-- Every vector group of a page is at a multiple of 4 (R198 (c)). -/
theorem pageRecords_aligned (h : Nat) (blocks : List (Vector Word 128)) : GroupsAligned h (pageRecords h blocks) :=
  (pageHead_aligned h blocks).append (pageBack_aligned _ blocks)

/-! ### The statement -/

theorem blocksOf_length (vals : List Word) : (blocksOf vals).length = vals.length / 128 := by
  have hpieces (k : Nat) (xs : List Word) : (pieces 128 k xs).length = k := by
    induction k generalizing xs with
    | zero => rfl
    | succ k ih => rw [pieces, List.length_cons, ih]
  rw [blocksOf, List.length_map, hpieces]

/-- Settles O55: `pageEnc_ok`, and the places and lengths of the records. -/
theorem pageEncode : Obligations.PageEncode := by
  rintro s n raw coded ws wf hn hpage hspace rfl hcoded rfl room hdisjoint
  have hlists : (blocksOf (srcView s s.ic n.toNat)).flatMap Vector.toList = srcView s s.ic n.toNat :=
    toLists_blocksOf (by rw [srcView_length]; exact hn)
  have hcount : n.toNat = 128 * (blocksOf (srcView s s.ic n.toNat)).length := by
    rw [blocksOf_length, srcView_length]
    omega
  have hspan : EncSpan s ((blocksOf (srcView s s.ic n.toNat)).flatMap Vector.toList) (pageStream s.oc coded).length := by
    rw [hlists]
    refine ⟨wf, by rwa [srcView_length], fun j hj => ?_, room, .inr (by rwa [srcView_length])⟩
    rw [List.getD_eq_getElem _ _ hj]
    simp only [srcView, Memory.getElem_readWords, srcAddr]
    congr 1
    omega
  obtain ⟨m, e, bl, fr, sb, sc, sm, henc, hstored, hes⟩ := pageEnc_ok hspan hcoded (hcount ▸ hpage)
  refine ⟨m, e, bl, fr, sb, sc, sm, ?_, hstored, pageStream_length_eq _ _, pageRecords_aligned _ _, hes⟩
  change (pageEnc n.toNat s).outcome = _
  rw [← hcount] at henc
  rw [henc, Res.outcome_ok]

end Sys2Proof.Machine

/-! SUPPORT. `ARR.ENC` and ENC where the stream fits: the words of the array in `DST` (R190, R213, R214), their number
and the places of the vector groups (R98, R198). -/

namespace Sys2Proof.Machine

/-! ### The pages -/

theorem carriedOver_append {s t : State} {xs : List (Vector Word 128)} (ys : List (Vector Word 128))
    (hd : t.deltaEn = s.deltaEn) (hp : t.dprev = carriedOver s xs) : carriedOver t ys = carriedOver s (xs ++ ys) := by
  induction xs generalizing s with
  | nil => exact carriedOver_congr hd (hp.trans (carriedOver_nil s)) ys
  | cons x xs ih =>
    have hstep (zs : List (Vector Word 128)) :
        carriedOver { s with dprev := carriedOver s [x] } zs = carriedOver s (x :: zs) := carriedOver_cons zs rfl rfl
    rw [List.cons_append, ← hstep]
    exact ih hd (hp.trans (hstep xs).symm)

theorem wordsOf_pagesRecords (h : Nat) (p : List (Vector Word 128)) (ps : List (List (Vector Word 128))) :
    wordsOf (pagesRecords h (p :: ps)) =
      pageStream h p ++ wordsOf (pagesRecords (h + (pageStream h p).length) ps) := by
  rw [pagesRecords, wordsOf, List.flatMap_append]
  rfl

/-- A page loop that goes on has a first page, of the first blocks, and blocks left for the others (R190, R193). -/
structure PageSplit (p : Params) (c k n : Nat) : Prop where
  positive : 0 < n
  size : min p.pageSize (128 * n) = 128 * min c n
  page : 128 * min c n ≤ p.pageSize
  rest : k = ceilDiv (n - c) c

theorem pageSplit {p : Params} {c k n : Nat} (hc : p.pageSize = 128 * c) (hk : k + 1 = ceilDiv n c) :
    PageSplit p c k n := by
  have hcpos : 0 < c := by
    have := p.pageSize_min
    omega
  have hpos : 0 < n := by
    by_contra h0
    rw [show n = 0 by omega, ceilDiv, Nat.zero_add, Nat.div_eq_of_lt (by omega)] at hk
    omega
  exact ⟨hpos, by omega, by omega, by rw [ceilDiv_sub hcpos, ← hk, Nat.add_sub_cancel]⟩

theorem ceilDiv_eq_zero {n c : Nat} (hc : 0 < c) (h : ceilDiv n c = 0) : n = 0 := by
  rw [ceilDiv, Nat.div_eq_zero_iff] at h
  omega

/-- The page loop, from the first of the blocks still to be encoded on, where its words fit (R190). -/
theorem pagesEnc_ok {k c : Nat} {s : State} {raw coded : List (Vector Word 128)}
    (h : EncSpan s (raw.flatMap Vector.toList) (wordsOf (pagesRecords s.oc (pieces c k coded))).length)
    (hc : s.cfg.pageSize = 128 * c) (hrem : s.rem.toNat = 128 * raw.length)
    (hcoded : coded = codedBlocks s.deltaEn s.dprev[3] raw) (hk : k = ceilDiv raw.length c) :
    ∃ m e bm bl fr sb sc sm hd, pagesEnc k s = .ok () { s with
        mem := m, oc := s.oc + (wordsOf (pagesRecords s.oc (pieces c k coded))).length,
        ic := s.ic + 128 * raw.length, rem := 0#32, hdr := hd, dprev := carriedOver s raw, bcMem := bm, es := e,
        blk := bl, freq := fr, selB := sb, selC := sc, selM := sm } ∧
      Stored s s.oc (wordsOf (pagesRecords s.oc (pieces c k coded))) m := by
  induction k generalizing s raw coded with
  | zero =>
    have hcpos : 0 < c := by
      have := s.cfg.pageSize_min
      omega
    obtain rfl : raw = [] := List.eq_nil_of_length_eq_zero (ceilDiv_eq_zero hcpos hk.symm)
    have hrem0 : s.rem = 0#32 := BitVec.eq_of_toNat_eq hrem
    refine ⟨s.mem, s.es, s.bcMem, s.blk, s.freq, s.selB, s.selC, s.selM, s.hdr, ?_, h.wf, rfl, fun _ _ => rfl⟩
    rw [carriedOver_nil, ← hrem0]
    rfl
  | succ k ih =>
    have hsplit := pageSplit hc hk
    obtain ⟨hpos, hsize, hpage, hrest⟩ := hsplit
    rw [← hrem, ← List.length_take] at hsize
    rw [← List.length_take] at hpage
    have hne : s.rem ≠ 0#32 := fun h0 => by
      rw [h0, show (0#32 : Word).toNat = 0 from rfl] at hrem
      omega
    have hfirst : coded.take c = codedBlocks s.deltaEn s.dprev[3] (raw.take c) := by rw [hcoded, codedBlocks_take]
    have hlast : coded.drop c = codedBlocks s.deltaEn (carriedOver s (raw.take c))[3] (raw.drop c) := by
      rw [hcoded, codedBlocks_drop]
    rw [pieces, wordsOf_pagesRecords, List.length_append]
    rw [pieces, wordsOf_pagesRecords, List.length_append, ← List.take_append_drop c raw, List.flatMap_append] at h
    obtain ⟨m, e, bl, fr, sb, sc, sm, henc, hstored, -⟩ := pageEnc_ok (h.left (Nat.le_add_right _ _)) hfirst hpage
    generalize ht : ({ s with
        mem := m, oc := s.oc + (pageStream s.oc (coded.take c)).length, ic := s.ic + 128 * (raw.take c).length,
        hdr := s.oc, dprev := carriedOver s (raw.take c), bcMem := (coded.take c).flatMap blockMeta, es := e,
        blk := bl, freq := fr, selB := sb, selC := sc, selM := sm, } : State) = t at henc
    have hspan : EncSpan (pagePassed (128 * (raw.take c).length) t) ((raw.drop c).flatMap Vector.toList)
        (wordsOf (pagesRecords (s.oc + (pageStream s.oc (coded.take c)).length) (pieces c k (coded.drop c)))).length := by
      refine EncSpan.next (xs := (raw.take c).flatMap Vector.toList) h ?_ ?_ ?_ ?_ ?_ ?_ ?_
      · rw [← ht]
        exact hstored
      · rw [length_toLists, ← ht]
        rfl
      all_goals rw [← ht]; rfl
    have hrem' : (pagePassed (128 * (raw.take c).length) t).rem.toNat = 128 * (raw.drop c).length := by
      have hle : 128 * (raw.take c).length ≤ s.rem.toNat := hsize ▸ Nat.min_le_right _ _
      have hrem_t : t.rem = s.rem := by rw [← ht]
      rw [pagePassed_rem (by rw [hrem_t]; exact hle), hrem_t, hrem, List.length_take, List.length_drop]
      omega
    obtain ⟨m', e', bm, bl', fr', sb', sc', sm', hd, hloop, hstored'⟩ :=
      ih (s := pagePassed (128 * (raw.take c).length) t) (raw := raw.drop c) (coded := coded.drop c)
        (by rw [← ht] at hspan ⊢; exact hspan) (by rw [← ht]; exact hc) hrem' (by rw [hlast, ← ht]; rfl)
        (by rw [List.length_drop]; exact hrest)
    have hcarried : carriedOver (pagePassed (128 * (raw.take c).length) t) (raw.drop c) = carriedOver s raw := by
      rw [carriedOver_append (s := s) (xs := raw.take c) _ (by rw [← ht]; rfl) (by rw [← ht]; rfl),
        List.take_append_drop]
    have hoc : (pagePassed (128 * (raw.take c).length) t).oc = s.oc + (pageStream s.oc (coded.take c)).length := by
      rw [← ht]; rfl
    have hic : (pagePassed (128 * (raw.take c).length) t).ic + 128 * (raw.drop c).length =
        s.ic + 128 * raw.length := by
      rw [← ht]
      simp only [pagePassed, List.length_take, List.length_drop]
      omega
    rw [hcarried, hoc, hic, Nat.add_assoc s.oc] at hloop
    rw [hoc] at hstored'
    have hsize' : min t.cfg.pageSize t.rem.toNat = 128 * (raw.take c).length := by
      rw [← ht]
      exact hsize
    refine ⟨m', e', bm, bl', fr', sb', sc', sm', hd, ?_, ?_⟩
    · rw [pagesEnc, if_neg hne, hsize, henc, Res.bind_ok, hsize']
      change pagesEnc k (pagePassed (128 * (raw.take c).length) t) = _
      rw [hloop, ← ht]
      rfl
    · refine Stored.append (t := pagePassed (128 * (raw.take c).length) t) ?_ hstored' (by rw [← ht]; rfl)
      rw [← ht]
      exact hstored

/-! ### The array -/

theorem inputValues_length (s : State) : (inputValues s).length = s.srcLen.toNat := srcView_length _ _ _

/-- The values of ENC and the words of its stream do not meet (R61). -/
theorem encSpan_array {s : State} {n : Nat} (wf : Memory.wf s.mem) (hl : Lendable s) (hn : n ≤ s.dstCap.toNat)
    (hpos : 0 < n) : EncSpan (arrayStart s) (inputValues s) n := by
  obtain ⟨hwraps, hover⟩ := hl
  simp only [Wraps, not_or, Nat.not_lt] at hwraps
  have hcap : s.dstCap ≠ 0#32 := fun h0 => by
    rw [h0] at hn
    simp at hn
    omega
  refine ⟨wf, ?_, fun j hj => ?_, ⟨by simpa [arrayStart] using hn, hwraps.2⟩, ?_⟩
  · rw [inputValues_length]
    simpa [arrayStart, srcAddr] using hwraps.1
  · rw [List.getD_eq_getElem _ _ hj]
    simp only [inputValues, srcView, Memory.getElem_readWords, srcAddr, arrayStart]
    congr 1
    omega
  · by_cases hlen : s.srcLen = 0#32
    · exact .inl (List.eq_nil_of_length_eq_zero (by rw [inputValues_length, hlen]; rfl))
    · refine .inr ?_
      rw [inputValues_length]
      have hapart : ¬(s.srcBase < s.dstBase + 4 * s.dstCap.toNat ∧ s.dstBase < s.srcBase + 4 * s.srcLen.toNat) :=
        fun hboth => hover ⟨hlen, hcap, hboth⟩
      simp only [srcAddr, dstAddr, arrayStart]
      omega

theorem streamOf_eq {s : State} {delta : Bool} {raw : List (Vector Word 128)} {c : Nat}
    (hraw : blocksOf (inputValues s) = raw) (hc : s.cfg.pageSize = 128 * c) :
    streamOf s.cfg.pageSize delta (inputValues s) =
      [s.srcLen] ++ wordsOf (pagesRecords 1 (pieces c (ceilDiv raw.length c) (codedBlocks delta 0#32 raw))) := by
  have hlen : BitVec.ofNat 32 (inputValues s).length = s.srcLen := by
    rw [inputValues_length]
    rw [BitVec.ofNat_toNat, BitVec.setWidth_eq]
  rw [streamOf, arrayRecords, codedPages, pagesOf, codedBlocks_length, hraw, hc, Nat.mul_div_cancel_left _ (by decide),
    hlen]
  rfl

/-- The encoder behind the word of the array header (R190). -/
def arrayHeaded (s : State) : State := emitted [s.srcLen] (arrayStart s)

@[simp] theorem arrayHeaded_fields (s : State) :
    (arrayHeaded s).oc = 1 ∧ (arrayHeaded s).ic = 0 ∧ (arrayHeaded s).dprev = s.dprev ∧
      (arrayHeaded s).deltaEn = s.deltaEn ∧ (arrayHeaded s).srcBase = s.srcBase ∧
      (arrayHeaded s).dstBase = s.dstBase ∧ (arrayHeaded s).dstCap = s.dstCap ∧ (arrayHeaded s).cfg = s.cfg ∧
      (arrayHeaded s).rem = s.srcLen := by
  simp [arrayHeaded, arrayStart, emitted]

theorem arrEnc_headed {s : State} (room : Room (arrayStart s) [s.srcLen].length) :
    arrEnc s = (pagesEnc (ceilDiv s.srcLen.toNat s.cfg.pageSize) (arrayHeaded s)).bind fun _ t => .ok t.oc t := by
  rw [arrEnc, emitRecords_singleton]
  change (emitAll [s.srcLen] (arrayStart s)).bind _ = _
  rw [emitAll_emitted room, Res.bind_ok]
  rfl

/-- `ARR.ENC` of the values at `SRC`, from a zero carried value, where the stream fits (R190). -/
theorem arrEnc_ok {s : State} {ws : List Word} (wf : Memory.wf s.mem) (hl : Lendable s)
    (hlen : s.srcLen.toNat % 128 = 0) (hcarry : s.dprev[3] = 0#32)
    (hws : ws = streamOf s.cfg.pageSize s.deltaEn (inputValues s)) (hfit : ws.length ≤ s.dstCap.toNat) :
    ∃ m e bm bl fr sb sc sm hd, arrEnc s = .ok ws.length { s with
        mem := m, ic := s.srcLen.toNat, oc := ws.length, rem := 0#32, hdr := hd,
        dprev := carriedOver s (blocksOf (inputValues s)), bcMem := bm, es := e,
        blk := bl, freq := fr, selB := sb, selC := sc, selM := sm } ∧ Stored s 0 ws m := by
  obtain ⟨c, hc⟩ : ∃ c, s.cfg.pageSize = 128 * c := Nat.dvd_of_mod_eq_zero s.cfg.pageSize_blocks
  have hcpos : 0 < c := by
    have := s.cfg.pageSize_min
    omega
  have hlists := toLists_blocksOf ((inputValues_length s).symm ▸ hlen)
  generalize hraw : blocksOf (inputValues s) = raw at hlists
  have hcount : s.srcLen.toNat = 128 * raw.length := by rw [← length_toLists, hlists, inputValues_length]
  have hpages : ceilDiv s.srcLen.toNat s.cfg.pageSize = ceilDiv raw.length c := by
    rw [hcount, hc, ceilDiv_mul (by decide) _ hcpos]
  rw [streamOf_eq hraw hc, ← hcarry] at hws
  generalize hbody : wordsOf (pagesRecords 1 (pieces c (ceilDiv raw.length c)
    (codedBlocks s.deltaEn s.dprev[3] raw))) = body at hws
  subst hws
  rw [List.length_append] at hfit
  have hspan := encSpan_array wf hl hfit (by rw [List.length_singleton]; omega)
  have hroom : Room (arrayStart s) [s.srcLen].length :=
    (EncSpan.left (xs := []) hspan (Nat.le_add_right _ _)).room
  rw [← hlists] at hspan
  have hhead : Stored s 0 [s.srcLen] (arrayHeaded s).mem := by
    simpa [arrayHeaded, arrayStart, emitted, dstAddr] using stored_writeWords wf 0 [s.srcLen]
  have hnext : EncSpan (arrayHeaded s) (raw.flatMap Vector.toList) body.length :=
    EncSpan.next (xs := []) (ws := [s.srcLen]) hspan (emitted_stored (s := arrayStart s) wf _) (by simp [arrayStart])
      (by simp [arrayStart]) (by simp [arrayStart]) (by simp [arrayStart]) (by simp [arrayStart]) (by simp [arrayStart])
  obtain ⟨m, e, bm, bl, fr, sb, sc, sm, hd, hok, hstored⟩ := pagesEnc_ok (c := c) (raw := raw) (s := arrayHeaded s)
    (coded := codedBlocks s.deltaEn s.dprev[3] raw) (k := ceilDiv raw.length c) (by simpa [hbody] using hnext)
    (by simpa using hc) (by simpa using hcount) (by simp) rfl
  simp only [arrayHeaded_fields, hbody] at hok hstored
  refine ⟨m, e, bm, bl, fr, sb, sc, sm, hd, ?_, ?_⟩
  · rw [arrEnc_headed hroom, hpages, hok, Res.bind_ok, carriedOver_congr (s := s) (t := arrayHeaded s) (by simp) (by simp),
      List.length_append, List.length_singleton, Nat.zero_add, hcount]
    rfl
  · refine Stored.append (t := arrayHeaded s) hhead ?_ (by simp)
    rwa [List.length_singleton, Nat.zero_add]

theorem pagesRecords_aligned (h : Nat) (ps : List (List (Vector Word 128))) : GroupsAligned h (pagesRecords h ps) := by
  induction ps generalizing h with
  | nil => exact groupsAligned_nil h
  | cons p ps ih => exact (pageRecords_aligned h p).append (ih _)

theorem pagesRecords_length (h : Nat) (ps : List (List (Vector Word 128))) :
    (wordsOf (pagesRecords h ps)).length = pagesLength h ps := by
  induction ps generalizing h with
  | nil => rfl
  | cons p ps ih => rw [wordsOf_pagesRecords, List.length_append, ih, pageStream_length_eq, pagesLength]

/-- The stream has the word of its header, and `T_page` words for each page (R198 (a)). -/
theorem streamOf_length (pageSize : Nat) (delta : Bool) (vals : List Word) :
    (streamOf pageSize delta vals).length = 1 + pagesLength 1 (codedPages pageSize delta vals) := by
  rw [streamOf, arrayRecords, wordsOf, List.flatMap_cons, List.length_append, pagesRecords_length]
  rfl

theorem arrayRecords_aligned (pageSize : Nat) (delta : Bool) (vals : List Word) :
    GroupsAligned 0 (arrayRecords pageSize delta vals) :=
  groupsAligned_cons (by simp [IsVector]) (pagesRecords_aligned 1 _)

/-- Settles O56: `arrEnc_ok`, and the places and lengths of the records. -/
theorem arrayEncode : Obligations.ArrayEncode := by
  intro s ws wf hl hlen hcarry hws hfit
  obtain ⟨m, e, bm, bl, fr, sb, sc, sm, hd, henc, hstored⟩ := arrEnc_ok wf hl hlen hcarry hws hfit
  refine ⟨m, e, bm, bl, fr, sb, sc, sm, hd, ?_, hstored, hws ▸ streamOf_length _ _ _, arrayRecords_aligned _ _ _⟩
  change (arrEnc s).returningNat = _
  rw [henc, Res.returningNat_ok]

/-! ### The command -/

/-- ENC where the stream fits: the stream in `DST`, its length in `RESULT`, the state reset (R211, R213, R214). -/
theorem exec_enc_ok {delta : Bool} {s : State} {ws : List Word} (wf : Memory.wf s.mem) (hl : Lendable s)
    (ha : Aligned s) (hlen : s.srcLen.toNat % 128 = 0) (hws : ws = streamOf s.cfg.pageSize delta (inputValues s))
    (hfit : ws.length ≤ s.dstCap.toNat) :
    ∃ m hd bl fr sb sc sm, exec (encOf delta) s = .next { s with
        mem := m, status := Status.ended .ok, result := BitVec.ofNat 32 ws.length, phase := .idle,
        es := Vector.replicate 32 (Bucket.empty s.cfg), bcMem := [], bcRd := 0, dprev := Vector.replicate 4 0#32,
        deltaEn := delta, ic := s.srcLen.toNat, oc := ws.length, rem := 0#32, hdr := hd,
        blk := bl, freq := fr, selB := sb, selC := sc, selM := sm } ∧ Stored s 0 ws m := by
  obtain ⟨m, e, bm, bl, fr, sb, sc, sm, hd, henc, hstored⟩ :=
    arrEnc_ok (s := encStart delta s) wf hl hlen rfl hws hfit
  refine ⟨m, hd, bl, fr, sb, sc, sm, ?_, hstored.wf, hstored.words, hstored.frame⟩
  rw [exec_encOf, encError_none.2 ⟨ha, hlen⟩, codecCommand_work hl]
  change finishCommand (arrEnc (encStart delta s)) = _
  rw [henc]
  rfl

end Sys2Proof.Machine

/-! SUPPORT. DEC of a stream: the pages decoded one after the other, whatever raw blocks the coded ones stand for
(R193, R215, R216), so that a stream may be decoded with either variant (R100). -/

namespace Sys2Proof.Machine

/-! ### The span of the decoder's input and output -/

/-- The words `ws` stand at word index `h`, `n` values can be stored, and none of them on a word of `ws`. -/
structure DecSpan (s : State) (h : Nat) (ws : List Word) (n : Nat) : Prop where
  wf : Memory.wf s.mem
  inSpace : SrcExists s
  inside : h + ws.length ≤ s.srcLen.toNat
  words : HoldsWords s h ws
  room : dstAddr s (s.oc + n) ≤ 2 ^ s.cfg.addrW
  disjoint : n = 0 ∨ srcAddr s (h + ws.length) ≤ dstAddr s s.oc ∨ dstAddr s (s.oc + n) ≤ srcAddr s h

/-- The first words, and fewer values. -/
theorem DecSpan.left {s : State} {h m n : Nat} {xs ys : List Word} (hs : DecSpan s h (xs ++ ys) n) (hm : m ≤ n) :
    DecSpan s h xs m := by
  obtain ⟨wf, inSpace, inside, words, room, disjoint⟩ := hs
  rw [List.length_append] at inside disjoint
  refine ⟨wf, inSpace, by omega, words.append.1, ?_, ?_⟩
  · simp only [dstAddr] at *
    omega
  · simp only [srcAddr, dstAddr] at *
    omega

/-- The decoder goes on behind the words it has read and the values it has stored. -/
theorem DecSpan.next {s t : State} {h n : Nat} {xs ys vs : List Word} (hs : DecSpan s h (xs ++ ys) (vs.length + n))
    (stored : Stored s s.oc vs t.mem) (hoc : t.oc = s.oc + vs.length) (hsrc : t.srcBase = s.srcBase)
    (hlen : t.srcLen = s.srcLen) (hdst : t.dstBase = s.dstBase) (hcfg : t.cfg = s.cfg) :
    DecSpan t (h + xs.length) ys n := by
  obtain ⟨-, inSpace, inside, words, room, disjoint⟩ := hs
  rw [List.length_append] at inside disjoint
  refine ⟨stored.wf, ?_, by rw [hlen]; omega, fun j hj hend => ?_, ?_, ?_⟩
  · simpa only [SrcExists, hsrc, hlen, hcfg] using inSpace
  · rw [hlen] at hend
    rw [← words.append.2 j hj hend]
    simp only [srcAddr, hsrc]
    by_cases hnone : vs.length = 0
    · simp only [Memory.readWord]
      rw [stored.frame _ (by omega), stored.frame _ (by omega), stored.frame _ (by omega), stored.frame _ (by omega)]
    · refine stored.frame.readWord ?_
      simp only [srcAddr, dstAddr] at *
      omega
  · simp only [dstAddr, hoc, hdst, hcfg] at *
    omega
  · simp only [srcAddr, dstAddr, hoc, hsrc, hdst] at *
    omega

/-! ### One page -/

/-- `PAGE.DEC` of the words of a page (R194). -/
theorem pageDec_ok {s : State} {h : Nat} {raw coded : List (Vector Word 128)}
    (hs : DecSpan s h (pageStream h coded) (128 * raw.length)) (hcoded : coded = codedBlocks s.deltaEn s.dprev[3] raw)
    (hpage : 128 * raw.length ≤ s.cfg.pageSize) (hpos : 0 < raw.length) :
    ∃ m e bm rd ic hd mp bl sb sc sm, pageDec (128 * raw.length) h s = .ok (pageStream h coded).length { s with
        mem := m, oc := s.oc + 128 * raw.length, dprev := carriedOver s raw, bcMem := bm, bcRd := rd, es := e,
        ic := ic, hdr := hd, mp := mp, blk := bl, selB := sb, selC := sc, selM := sm } ∧
      Stored s s.oc (raw.flatMap Vector.toList) m := by
  obtain ⟨wf, inSpace, inside, words, room, disjoint⟩ := hs
  have hcount : coded.length = raw.length := hcoded ▸ codedBlocks_length _ _ _
  have hW : (BitVec.ofNat 32 (headLength h coded)).toNat = headLength h coded := by
    rw [BitVec.toNat_ofNat]
    exact Nat.mod_eq_of_lt (headLength_lt (p := s.cfg) (by omega))
  have hlen := pageStream_length h coded
  have hfront := headLength_eq h coded
  have hplace : h + 1 + padTo4 (h + 1) + (coded.flatMap blockPacked).length = h + headLength h coded := by omega
  rw [pageStream_eq] at words
  obtain ⟨hhead, hrest⟩ := words.append
  obtain ⟨hheader, -⟩ := HoldsWords.append (xs := [_]) hhead
  rw [List.length_cons, List.length_replicate, ← Nat.add_assoc, Nat.add_right_comm] at hrest
  obtain ⟨harea, hback⟩ := hrest.append
  rw [hplace] at hback
  obtain ⟨t, m, e, bl, sb, sc, sm, ht, hdec, hstored⟩ := pageDec_parts (h := h) (n := 128 * raw.length) inSpace wf rfl
    hpage hcoded (hheader.srcWord inSpace (by omega)) (by rw [hW]; omega) (by rw [hW]; exact hback)
    (by rw [hW]; omega) harea (by omega) room (by simp only [srcAddr] at *; omega)
  rw [hW, if_neg (not_not.2 hplace), ← hlen] at hdec
  exact ⟨m, e, _, _, _, _, _, bl, sb, sc, sm, by rw [hdec, ht], hstored⟩

/-! ### The pages -/

/-- The page loop, from the first of the pages still to be decoded on (R193). -/
theorem pagesDec_ok {k c h : Nat} {s : State} {raw coded : List (Vector Word 128)}
    (hs : DecSpan s h (wordsOf (pagesRecords h (pieces c k coded))) (128 * raw.length))
    (hc : s.cfg.pageSize = 128 * c) (hrem : s.rem.toNat = 128 * raw.length)
    (hcoded : coded = codedBlocks s.deltaEn s.dprev[3] raw) (hk : k = ceilDiv raw.length c) :
    ∃ m e bm rd ic hd mp bl sb sc sm,
      pagesDec k h s = .ok (h + (wordsOf (pagesRecords h (pieces c k coded))).length) { s with
        mem := m, oc := s.oc + 128 * raw.length, rem := 0#32, dprev := carriedOver s raw, bcMem := bm, bcRd := rd,
        es := e, ic := ic, hdr := hd, mp := mp, blk := bl, selB := sb, selC := sc, selM := sm } ∧
      Stored s s.oc (raw.flatMap Vector.toList) m := by
  induction k generalizing s h raw coded with
  | zero =>
    have hcpos : 0 < c := by
      have := s.cfg.pageSize_min
      omega
    obtain rfl : raw = [] := List.eq_nil_of_length_eq_zero (ceilDiv_eq_zero hcpos hk.symm)
    have hrem0 : s.rem = 0#32 := BitVec.eq_of_toNat_eq hrem
    refine ⟨s.mem, s.es, s.bcMem, s.bcRd, s.ic, s.hdr, s.mp, s.blk, s.selB, s.selC, s.selM, ?_, hs.wf, rfl,
      fun _ _ => rfl⟩
    rw [carriedOver_nil, ← hrem0]
    rfl
  | succ k ih =>
    obtain ⟨hpos, hsize, hpage, hrest⟩ := pageSplit hc hk
    rw [← hrem, ← List.length_take] at hsize
    rw [← List.length_take] at hpage
    have hne : s.rem ≠ 0#32 := fun h0 => by
      rw [h0, show (0#32 : Word).toNat = 0 from rfl] at hrem
      omega
    have hcpos : 0 < c := by
      have := s.cfg.pageSize_min
      omega
    have hfirst : coded.take c = codedBlocks s.deltaEn s.dprev[3] (raw.take c) := by rw [hcoded, codedBlocks_take]
    have hlast : coded.drop c = codedBlocks s.deltaEn (carriedOver s (raw.take c))[3] (raw.drop c) := by
      rw [hcoded, codedBlocks_drop]
    have hblocks : 128 * raw.length = ((raw.take c).flatMap Vector.toList).length + 128 * (raw.drop c).length := by
      rw [length_toLists, List.length_take, List.length_drop]
      omega
    rw [pieces, wordsOf_pagesRecords, List.length_append]
    rw [pieces, wordsOf_pagesRecords, hblocks] at hs
    obtain ⟨m, e, bm, rd, ic, hd, mp, bl, sb, sc, sm, hdec, hstored⟩ := pageDec_ok
      (hs.left (by rw [length_toLists]; exact Nat.le_add_right _ _)) hfirst hpage (by rw [List.length_take]; omega)
    generalize ht : ({ s with
        mem := m, oc := s.oc + 128 * (raw.take c).length, dprev := carriedOver s (raw.take c), bcMem := bm, bcRd := rd,
        es := e, ic := ic, hdr := hd, mp := mp, blk := bl, selB := sb, selC := sc, selM := sm } : State) = t at hdec
    have hspan : DecSpan (pagePassed (128 * (raw.take c).length) t) (h + (pageStream h (coded.take c)).length)
        (wordsOf (pagesRecords (h + (pageStream h (coded.take c)).length) (pieces c k (coded.drop c))))
        (128 * (raw.drop c).length) := by
      refine hs.next ?_ ?_ ?_ ?_ ?_ ?_
      · rw [← ht]
        exact hstored
      · rw [length_toLists, ← ht]
        rfl
      all_goals rw [← ht]; rfl
    have hrem' : (pagePassed (128 * (raw.take c).length) t).rem.toNat = 128 * (raw.drop c).length := by
      have hle : 128 * (raw.take c).length ≤ s.rem.toNat := hsize ▸ Nat.min_le_right _ _
      have hrem_t : t.rem = s.rem := by rw [← ht]
      rw [pagePassed_rem (by rw [hrem_t]; exact hle), hrem_t, hrem, List.length_take, List.length_drop]
      omega
    obtain ⟨m', e', bm', rd', ic', hd', mp', bl', sb', sc', sm', hloop, hstored'⟩ :=
      ih (s := pagePassed (128 * (raw.take c).length) t) (raw := raw.drop c) (coded := coded.drop c) hspan
        (by rw [← ht]; exact hc) hrem' (by rw [hlast, ← ht]; rfl) (by rw [List.length_drop]; exact hrest)
    have hcarried : carriedOver (pagePassed (128 * (raw.take c).length) t) (raw.drop c) = carriedOver s raw := by
      rw [carriedOver_append (s := s) (xs := raw.take c) _ (by rw [← ht]; rfl) (by rw [← ht]; rfl),
        List.take_append_drop]
    have hoc : (pagePassed (128 * (raw.take c).length) t).oc + 128 * (raw.drop c).length = s.oc + 128 * raw.length := by
      rw [hblocks, length_toLists, ← Nat.add_assoc, ← ht]
      rfl
    have hoc' : (pagePassed (128 * (raw.take c).length) t).oc =
        s.oc + ((raw.take c).flatMap Vector.toList).length := by
      rw [length_toLists, ← ht]
      rfl
    rw [hcarried, hoc, Nat.add_assoc h] at hloop
    rw [hoc'] at hstored'
    have hsize' : min t.cfg.pageSize t.rem.toNat = 128 * (raw.take c).length := by
      rw [← ht]
      exact hsize
    refine ⟨m', e', bm', rd', ic', hd', mp', bl', sb', sc', sm', ?_, ?_⟩
    · rw [pagesDec, if_neg hne, hsize, hdec, Res.bind_ok, hsize']
      change pagesDec k _ (pagePassed (128 * (raw.take c).length) t) = _
      rw [hloop, ← ht]
      rfl
    · rw [← List.take_append_drop c raw, List.flatMap_append]
      refine Stored.append (t := pagePassed (128 * (raw.take c).length) t) ?_ hstored' (by rw [← ht]; rfl)
      rw [← ht]
      exact hstored

/-! ### The array -/

/-- The words of an array of coded blocks (R83, R84). -/
def codedStream (pageSize : Nat) (coded : List (Vector Word 128)) : List Word :=
  BitVec.ofNat 32 (128 * coded.length) :: wordsOf (pagesRecords 1 (pagesOf pageSize coded))

theorem streamOf_coded (pageSize : Nat) (delta : Bool) {vals : List Word} (h : vals.length % 128 = 0) :
    streamOf pageSize delta vals = codedStream pageSize (codedBlocks delta 0#32 (blocksOf vals)) := by
  have hlen : 128 * (codedBlocks delta 0#32 (blocksOf vals)).length = vals.length := by
    rw [codedBlocks_length, blocksOf_length]
    omega
  rw [codedStream, hlen]
  rfl

/-- `ARR.DEC` of the words of coded blocks, from a zero carried value: the raw blocks they stand for (R193). -/
theorem arrDec_ok {s : State} {raw : List (Vector Word 128)} {ws : List Word}
    (hws : ws = codedStream s.cfg.pageSize (codedBlocks s.deltaEn s.dprev[3] raw))
    (hs : DecSpan { s with oc := 0 } 0 ws (128 * raw.length)) (hfit : 128 * raw.length ≤ s.dstCap.toNat) :
    ∃ m e bm rd ic hd mp bl sb sc sm,
      arrDec s = .ok { values := 128 * raw.length, words := ws.length } { s with
        mem := m, oc := 128 * raw.length, rem := 0#32, dprev := carriedOver s raw, bcMem := bm, bcRd := rd,
        es := e, ic := ic, hdr := hd, mp := mp, blk := bl, selB := sb, selC := sc, selM := sm } ∧
      Stored s 0 (raw.flatMap Vector.toList) m := by
  obtain ⟨c, hc⟩ : ∃ c, s.cfg.pageSize = 128 * c := Nat.dvd_of_mod_eq_zero s.cfg.pageSize_blocks
  have hcpos : 0 < c := by
    have := s.cfg.pageSize_min
    omega
  have hL : (BitVec.ofNat 32 (128 * raw.length)).toNat = 128 * raw.length := by
    rw [BitVec.toNat_ofNat]
    exact Nat.mod_eq_of_lt (by omega)
  rw [codedStream, pagesOf, codedBlocks_length, hc, Nat.mul_div_cancel_left _ (by decide)] at hws
  subst hws
  obtain ⟨-, inSpace, inside, words, -, -⟩ := id hs
  obtain ⟨hheader, -⟩ := HoldsWords.append (xs := [_]) words
  have hread : srcWord s 0 = .ok (BitVec.ofNat 32 (128 * raw.length)) :=
    HoldsWords.srcWord (s := { s with oc := 0 }) inSpace hheader (by rw [List.length_cons] at inside; omega)
  have hpages : ceilDiv (BitVec.ofNat 32 (128 * raw.length)).toNat s.cfg.pageSize = ceilDiv raw.length c := by
    rw [hL, hc, ceilDiv_mul (by decide) _ hcpos]
  have hnext : DecSpan { s with oc := 0, rem := BitVec.ofNat 32 (128 * raw.length) } 1
      (wordsOf (pagesRecords 1 (pieces c (ceilDiv raw.length c) (codedBlocks s.deltaEn s.dprev[3] raw))))
      (128 * raw.length) := by
    have hzero : 128 * raw.length = ([] : List Word).length + 128 * raw.length := by simp
    rw [hzero] at hs
    exact DecSpan.next (xs := [_]) (vs := []) hs ⟨hs.wf, rfl, fun _ _ => rfl⟩ rfl rfl rfl rfl rfl
  obtain ⟨m, e, bm, rd, ic, hd, mp, bl, sb, sc, sm, hdec, hstored⟩ := pagesDec_ok hnext hc hL rfl rfl
  refine ⟨m, e, bm, rd, ic, hd, mp, bl, sb, sc, sm, ?_, hstored.wf, hstored.words, hstored.frame⟩
  rw [arrDec, hread, Res.need_ok, takeArrayHdr_ok (s := { s with oc := 0 }) (by rw [hL]; exact hfit) (by rw [hL]; omega),
    Res.bind_ok]
  dsimp only
  rw [hpages, hdec, Res.bind_ok, hL, List.length_cons, Nat.zero_add, Nat.add_comm 1]
  rfl

/-! ### The command -/

/-- The state in which the work of DEC begins (R215, R216). -/
def decStart (delta : Bool) (s : State) : State := { instReset s with deltaEn := delta }

/-- The words of `SRC` and the values to come do not meet (R61). -/
theorem decSpan_array {s : State} {ws : List Word} {n : Nat} (wf : Memory.wf s.mem) (hl : Lendable s)
    (hws : ws.length ≤ s.srcLen.toNat) (hview : srcView s 0 ws.length = ws) (hn : n ≤ s.dstCap.toNat)
    (hpos : 0 < ws.length) : DecSpan { s with oc := 0 } 0 ws n := by
  obtain ⟨hwraps, hover⟩ := hl
  simp only [Wraps, not_or, Nat.not_lt] at hwraps
  refine ⟨wf, hwraps.1, by simpa using hws, holdsWords_of_view (s := { s with oc := 0 }) hview, ?_, ?_⟩
  · simp only [dstAddr]
    omega
  · by_cases hzero : n = 0
    · exact .inl hzero
    · have hlen : s.srcLen ≠ 0#32 := fun h0 => by
        have hnone : ws.length ≤ 0 := by
          rw [h0] at hws
          exact hws
        omega
      have hcap : s.dstCap ≠ 0#32 := fun h0 => by
        have hnone : n ≤ 0 := by
          rw [h0] at hn
          exact hn
        omega
      have hapart : ¬(s.srcBase < s.dstBase + 4 * s.dstCap.toNat ∧ s.dstBase < s.srcBase + 4 * s.srcLen.toNat) :=
        fun hboth => hover ⟨hlen, hcap, hboth⟩
      simp only [srcAddr, dstAddr]
      omega

/-- DEC, of either variant, of the words of coded blocks: the raw blocks they stand for in that variant, the
state reset (R193, R211, R215, R216). -/
theorem exec_dec_ok {delta : Bool} {s : State} {raw : List (Vector Word 128)} {ws : List Word} (wf : Memory.wf s.mem)
    (hl : Lendable s) (ha : Aligned s) (hws : ws = codedStream s.cfg.pageSize (codedBlocks delta 0#32 raw))
    (hlen : ws.length ≤ s.srcLen.toNat) (hview : srcView s 0 ws.length = ws)
    (hfit : 128 * raw.length ≤ s.dstCap.toNat) :
    ∃ m ic hd mp bl sb sc sm, exec (decOf delta) s = .next { s with
        mem := m, status := Status.ended .ok, result := BitVec.ofNat 32 (128 * raw.length), phase := .idle,
        es := Vector.replicate 32 (Bucket.empty s.cfg), bcMem := [], bcRd := 0, dprev := Vector.replicate 4 0#32,
        deltaEn := delta, ic := ic, oc := 128 * raw.length, rem := 0#32, hdr := hd, mp := mp,
        blk := bl, selB := sb, selC := sc, selM := sm } ∧
      Stored s 0 (raw.flatMap Vector.toList) m := by
  have hspan := decSpan_array wf hl hlen hview hfit (by rw [hws]; exact Nat.succ_pos _)
  obtain ⟨-, inSpace, inside, words, room, disjoint⟩ := hspan
  obtain ⟨m, e, bm, rd, ic, hd, mp, bl, sb, sc, sm, hdec, hstored⟩ := arrDec_ok (s := decStart delta s) (raw := raw)
    hws ⟨wf, inSpace, inside, words, room, disjoint⟩ hfit
  refine ⟨m, ic, hd, mp, bl, sb, sc, sm, ?_, hstored.wf, hstored.words, hstored.frame⟩
  rw [exec_decOf, decError_none.2 ha, codecCommand_work hl]
  change finishCommand (arrDecValues (decStart delta s)) = _
  rw [arrDecValues, hdec]
  rfl

/-- Settles O26: `exec_dec_ok` at the blocks of the array. -/
theorem decRestoresValues : Obligations.DecRestoresValues := by
  intro delta s vals ws wf hl ha hmod hfit hws hlen hview
  have hlists := toLists_blocksOf hmod
  have hcount : 128 * (blocksOf vals).length = vals.length := by rw [← length_toLists, hlists]
  obtain ⟨m, ic, hd, mp, bl, sb, sc, sm, hdec, hstored⟩ := exec_dec_ok wf hl ha (hws.trans (streamOf_coded _ _ hmod))
    hlen hview (hcount ▸ hfit)
  rw [hcount] at hdec
  rw [hlists] at hstored
  exact ⟨m, _, _, ic, hd, mp, bl, sb, sc, sm, hdec, hstored, emptyStore_replicate s.cfg, noCarry_replicate⟩

end Sys2Proof.Machine

/-! SUPPORT. The round trip of the commands: what an ENC that ends with `OK` was launched with, and the DEC of the words
it left in `DST` (R105, R218 (a)). -/

namespace Sys2Proof.Machine

theorem code_ne_ok (e : Error) : e.code ≠ .ok := by
  cases e <;> simp [Error.code]

/-- What an ENC that ended with `OK` was launched with: good arguments, and room for the stream (R61, R213, R214). -/
structure EncLaunch (delta : Bool) (s : State) : Prop where
  lendable : Lendable s
  aligned : Aligned s
  blocks : s.srcLen.toNat % 128 = 0
  fits : (streamOf s.cfg.pageSize delta (inputValues s)).length ≤ s.dstCap.toNat

theorem encLaunch_of_ok {delta : Bool} {s t : State} (wf : Memory.wf s.mem) (h : exec (encOf delta) s = .next t)
    (hok : t.status.err = .ok) : EncLaunch delta s := by
  have hcommand := h
  rw [exec_encOf] at hcommand
  obtain ⟨hl, hcases⟩ := codecCommand_cases hcommand
  obtain ⟨ha, hlen⟩ : Aligned s ∧ s.srcLen.toNat % 128 = 0 := by
    obtain ⟨e, -, rfl⟩ | ⟨hnone, -⟩ | ⟨hnone, -⟩ := hcases
    · exact absurd hok (code_ne_ok e)
    · exact encError_none.1 hnone
    · exact encError_none.1 hnone
  refine ⟨hl, ha, hlen, ?_⟩
  by_contra hover
  obtain ⟨u, hraised, -⟩ := exec_enc_overruns wf hl ha hlen (Nat.lt_of_not_le hover)
  rw [h] at hraised
  cases hraised
  exact code_ne_ok .bufferOverrun hok

/-- Settles O27: `exec_enc_ok`, then `decRestoresValues` of the words it stored. -/
theorem commandRoundTrip : Obligations.CommandRoundTrip := by
  intro delta s t base cap wf henc hok hcap hl hbase
  obtain ⟨hlendable, haligned, hblocks, hfit⟩ := encLaunch_of_ok wf henc hok
  obtain ⟨m, hd, bl, fr, sb, sc, sm, hexec, hstored⟩ := exec_enc_ok wf hlendable haligned hblocks rfl hfit
  rw [henc] at hexec
  cases hexec
  have hvals : (inputValues s).length = s.srcLen.toNat := inputValues_length s
  have hresult : (BitVec.ofNat 32 (streamOf s.cfg.pageSize delta (inputValues s)).length).toNat =
      (streamOf s.cfg.pageSize delta (inputValues s)).length := by
    rw [BitVec.toNat_ofNat]
    exact Nat.mod_eq_of_lt (by omega)
  obtain ⟨m', e, d, ic, hd', mp, bl', sb', sc', sm', hdec, hdecoded, -, -⟩ := decRestoresValues delta _ (inputValues s) _
    hstored.wf hl ⟨haligned.2, hbase⟩ (by rw [hvals]; exact hblocks) (by rw [hvals]; exact hcap) rfl
    (Nat.le_of_eq hresult.symm) hstored.words
  refine ⟨_, hdec, rfl, ?_, ?_⟩
  · dsimp only
    rw [hvals, BitVec.ofNat_toNat, BitVec.setWidth_eq]
  · rw [← hvals]
    exact hdecoded.words

end Sys2Proof.Machine

/-! SUPPORT. Decoding with the other variant: the raw blocks a coded stream stands for in each variant (R100, R271). -/

namespace Sys2Proof.Machine

/-! ### Running sums -/

theorem deltas_prefixSums (p : Word) (d : Vector Word 128) : deltas p (prefixSums p d) = d := by
  apply Vector.ext
  intro i hi
  cases i with
  | zero => rw [deltas_zero, prefixSums_zero, BitVec.add_comm, BitVec.add_sub_cancel]
  | succ i => rw [deltas_succ _ _ hi, prefixSums_succ _ _ hi, BitVec.add_comm, BitVec.add_sub_cancel]

theorem prefixSums_toList (p : Word) (d : Vector Word 128) : (prefixSums p d).toList = runningSums p d.toList := by
  refine List.ext_getElem (by simp) fun i _ _ => ?_
  simp [prefixSums]

theorem runningSums_append (p : Word) (xs ys : List Word) :
    runningSums p (xs ++ ys) = runningSums p xs ++ runningSums ((runningSums p xs).getLastD p) ys := by
  induction xs generalizing p with
  | nil => rfl
  | cons x xs ih => rw [List.cons_append, runningSums, ih, runningSums, List.getLastD_cons, List.cons_append]

theorem runningSums_toNat (p : Word) (xs : List Word) {i : Nat} (hi : i < (runningSums p xs).length) :
    (runningSums p xs)[i].toNat = (p.toNat + ∑ j ∈ Finset.range (i + 1), (xs.getD j 0#32).toNat) % 2 ^ 32 := by
  have hlen := runningSums_length p xs
  induction i with
  | zero =>
    cases xs with
    | nil => exact absurd hi (Nat.not_lt_zero _)
    | cons x xs => simp [runningSums]
  | succ i ih =>
    rw [runningSums_succ p xs (by omega), BitVec.toNat_add, ih (by omega), Finset.sum_range_succ _ (i + 1),
      List.getD_eq_getElem xs _ (by omega)]
    omega

/-- Each element is the running sum at its place less the one before it. -/
theorem sub_runningSums (ds : List Word) {i : Nat} (hi : i < ds.length) :
    ds[i] = (runningSums 0#32 ds).getD i 0#32 -
      (if i = 0 then 0#32 else (runningSums 0#32 ds).getD (i - 1) 0#32) := by
  cases i with
  | zero =>
    cases ds with
    | nil => exact absurd hi (Nat.not_lt_zero _)
    | cons d ds => simp [runningSums]
  | succ i =>
    rw [if_neg (Nat.succ_ne_zero i), Nat.add_sub_cancel, List.getD_eq_getElem _ _ (by simpa using hi),
      List.getD_eq_getElem _ _ (by simp; omega), runningSums_succ _ _ hi, BitVec.add_comm, BitVec.add_sub_cancel]

/-! ### The blocks of the other variant -/

/-- The raw blocks whose deltas the given blocks are, `p` carried into the first (R171). -/
def summedBlocks : Word → List (Vector Word 128) → List (Vector Word 128)
  | _, [] => []
  | p, v :: vs => prefixSums p v :: summedBlocks (prefixSums p v)[127] vs

theorem codedBlocks_summedBlocks (p : Word) (vs : List (Vector Word 128)) :
    codedBlocks true p (summedBlocks p vs) = vs := by
  induction vs generalizing p with
  | nil => rfl
  | cons v vs ih => rw [summedBlocks, codedBlocks, if_pos rfl, deltas_prefixSums, ih]

theorem summedBlocks_codedBlocks (p : Word) (raw : List (Vector Word 128)) :
    summedBlocks p (codedBlocks true p raw) = raw := by
  induction raw generalizing p with
  | nil => rfl
  | cons v vs ih => rw [codedBlocks, if_pos rfl, summedBlocks, prefixSums_deltas, ih]

theorem summedBlocks_length (p : Word) (vs : List (Vector Word 128)) : (summedBlocks p vs).length = vs.length := by
  induction vs generalizing p with
  | nil => rfl
  | cons v vs ih => rw [summedBlocks, List.length_cons, ih, List.length_cons]

theorem toLists_summedBlocks (p : Word) (vs : List (Vector Word 128)) :
    (summedBlocks p vs).flatMap Vector.toList = runningSums p (vs.flatMap Vector.toList) := by
  induction vs generalizing p with
  | nil => rfl
  | cons v vs ih =>
    have hlast : (runningSums p v.toList).getLastD p = (prefixSums p v)[127] := by
      rw [← prefixSums_toList, List.getLastD_eq_getLast?, List.getLast?_eq_getElem?]
      simp
    rw [summedBlocks, List.flatMap_cons, List.flatMap_cons, runningSums_append, hlast, ih, prefixSums_toList]

/-! ### The statements -/

/-- DEC of coded blocks that stand for `raw` in its variant ends with `OK` and the values of `raw` in `DST`. -/
theorem exec_dec_words {delta : Bool} {s : State} {raw : List (Vector Word 128)} {ws vals : List Word}
    (wf : Memory.wf s.mem) (hl : Lendable s) (ha : Aligned s)
    (hws : ws = codedStream s.cfg.pageSize (codedBlocks delta 0#32 raw)) (hlen : ws.length ≤ s.srcLen.toNat)
    (hview : srcView s 0 ws.length = ws) (hcount : raw.length = vals.length / 128) (hmod : vals.length % 128 = 0)
    (hfit : vals.length ≤ s.dstCap.toNat) :
    ∃ t, exec (decOf delta) s = .next t ∧ t.status = { busy := false, done := true, err := .ok } ∧
      t.result = BitVec.ofNat 32 vals.length ∧ Stored s 0 (raw.flatMap Vector.toList) t.mem := by
  have hvals : 128 * raw.length = vals.length := by omega
  obtain ⟨m, ic, hd, mp, bl, sb, sc, sm, hdec, hstored⟩ := exec_dec_ok wf hl ha hws hlen hview (hvals ▸ hfit)
  exact ⟨_, hdec, rfl, by dsimp only; rw [hvals], hstored⟩

/-- The plain variant takes the deltas for the values (R271). -/
theorem decP_of_delta {s : State} {vals ws : List Word} (wf : Memory.wf s.mem) (hl : Lendable s) (ha : Aligned s)
    (hmod : vals.length % 128 = 0) (hfit : vals.length ≤ s.dstCap.toNat)
    (hws : ws = streamOf s.cfg.pageSize true vals) (hlen : ws.length ≤ s.srcLen.toNat)
    (hview : srcView s 0 ws.length = ws) :
    ∃ t, exec .decP s = .next t ∧ t.status = { busy := false, done := true, err := .ok } ∧
      t.result = BitVec.ofNat 32 vals.length ∧
      ∀ i, i < vals.length → Memory.readWord t.mem (dstAddr s i) =
        vals.getD i 0#32 - (if i = 0 then 0#32 else vals.getD (i - 1) 0#32) := by
  generalize hcoded : codedBlocks true 0#32 (blocksOf vals) = coded
  have hcount : coded.length = vals.length / 128 := by rw [← hcoded, codedBlocks_length, blocksOf_length]
  have hsums : runningSums 0#32 (coded.flatMap Vector.toList) = vals := by
    rw [← hcoded, ← toLists_summedBlocks, summedBlocks_codedBlocks, toLists_blocksOf hmod]
  obtain ⟨t, hexec, hstatus, hresult, hstored⟩ := exec_dec_words (delta := false) (raw := coded) wf hl ha
    (by rw [codedBlocks_plain, ← hcoded, hws, streamOf_coded _ _ hmod]) hlen hview hcount hmod hfit
  refine ⟨t, hexec, hstatus, hresult, fun i hi => ?_⟩
  have hi' : i < (coded.flatMap Vector.toList).length := by
    rw [length_toLists]
    omega
  have hword := hstored.word hi'
  rw [Nat.zero_add] at hword
  rw [hword, sub_runningSums _ hi', hsums]

/-- The delta variant takes the values for deltas (R271). -/
theorem decD_of_plain {s : State} {vals ws : List Word} (wf : Memory.wf s.mem) (hl : Lendable s) (ha : Aligned s)
    (hmod : vals.length % 128 = 0) (hfit : vals.length ≤ s.dstCap.toNat)
    (hws : ws = streamOf s.cfg.pageSize false vals) (hlen : ws.length ≤ s.srcLen.toNat)
    (hview : srcView s 0 ws.length = ws) :
    ∃ t, exec .decD s = .next t ∧ t.status = { busy := false, done := true, err := .ok } ∧
      t.result = BitVec.ofNat 32 vals.length ∧
      ∀ i, i < vals.length → (Memory.readWord t.mem (dstAddr s i)).toNat =
        (∑ j ∈ Finset.range (i + 1), (vals.getD j 0#32).toNat) % 2 ^ 32 := by
  obtain ⟨t, hexec, hstatus, hresult, hstored⟩ := exec_dec_words (delta := true)
    (raw := summedBlocks 0#32 (blocksOf vals)) wf hl ha
    (by rw [codedBlocks_summedBlocks, hws, streamOf_coded _ _ hmod, codedBlocks_plain]) hlen hview
    (by rw [summedBlocks_length, blocksOf_length]) hmod hfit
  refine ⟨t, hexec, hstatus, hresult, fun i hi => ?_⟩
  rw [toLists_summedBlocks, toLists_blocksOf hmod] at hstored
  have hword := hstored.word (i := i) (by simpa using hi)
  rw [Nat.zero_add] at hword
  rw [hword, runningSums_toNat]
  exact congrArg (· % 2 ^ 32) (Nat.zero_add _)

/-- Settles O28: the two ways to decode with the other variant. -/
theorem plainDecodeYieldsDeltas : Obligations.PlainDecodeYieldsDeltas :=
  fun _ _ wf hl ha hmod hfit =>
    ⟨fun _ => decP_of_delta wf hl ha hmod hfit, fun _ => decD_of_plain wf hl ha hmod hfit⟩

end Sys2Proof.Machine

/-! SUPPORT. The bound of R99: a page has at most `pageBound` words, whatever its values, and the stream of an array
no more than `worstCase` (R98, R163, R218 (c)). The bits of a page are counted, 32 to the word: the cost of R163 bounds
what a block adds to the block area, the metadata and the buckets together. -/

namespace Sys2Proof.Machine

/-! ### The exception store of a page -/

theorem bucketPad_le (i c : Nat) : bucketPad i c ≤ 3 := by
  rw [bucketPad, roundup, ceilDiv]
  split <;> omega

/-- A bucket takes its residuals' bits, and less than one group more (R94 to R97). -/
theorem bucketLength_le (i k c : Nat) : 32 * bucketLength i k c ≤ 128 + (k + 1) * c + 31 * (k + 1) := by
  by_cases hc : c = 0
  · simp [bucketLength, hc]
  · have hpad := bucketPad_le i c
    have hwords : 128 * (c / 128) + 32 * ceilDiv (c % 128) 32 ≤ c + 31 := by
      rw [ceilDiv]
      omega
    have hbits := Nat.mul_le_mul_left (k + 1) hwords
    rw [bucketLength, if_neg hc, Nat.mul_assoc 4]
    rw [Nat.mul_add, Nat.mul_left_comm (k + 1) 128, Nat.mul_left_comm (k + 1) 32, Nat.mul_add (k + 1) c] at hbits
    omega

theorem bucketStart_bound (o : Nat) (cnt : Nat → Nat) (n : Nat) :
    32 * bucketStart o cnt n ≤ 32 * (o + 1) + 128 * n + ∑ k ∈ Finset.range n, (k + 1) * cnt k +
      31 * ∑ k ∈ Finset.range n, (k + 1) := by
  induction n with
  | zero => simp [bucketStart]
  | succ n ih =>
    have hbucket := bucketLength_le (bucketStart o cnt n) n (cnt n)
    rw [bucketStart, Finset.sum_range_succ, Finset.sum_range_succ]
    omega

/-- The bits of the residuals of a page (R92). -/
def residualBits (blocks : List (Vector Word 128)) : Nat :=
  (blocks.map fun v => (blockMaxb v - (blockChoice v).b) * (blockChoice v).c).sum

/-- A block puts its residuals into one bucket, of their width (R165). -/
theorem sum_block_residuals (v : Vector Word 128) :
    ∑ k ∈ Finset.range 32, (k + 1) *
        (if (blockChoice v).c ≠ 0 ∧ blockMaxb v - (blockChoice v).b - 1 = k then (blockChoice v).c else 0) =
      (blockMaxb v - (blockChoice v).b) * (blockChoice v).c := by
  by_cases hc : (blockChoice v).c = 0
  · simp [hc]
  · have hb : (blockChoice v).b < blockMaxb v := by
      by_contra hnot
      exact hc (blockChoice_c_eq_zero (Nat.le_of_not_lt hnot))
    have hmax := blockMaxb_le v
    have hmem : blockMaxb v - (blockChoice v).b - 1 ∈ Finset.range 32 := Finset.mem_range.2 (by omega)
    simp only [hc, ne_eq, not_false_eq_true, true_and, mul_ite, Nat.mul_zero, Finset.sum_ite_eq, hmem, if_true]
    rw [show blockMaxb v - (blockChoice v).b - 1 + 1 = blockMaxb v - (blockChoice v).b by omega]

theorem sum_pageCounts (blocks : List (Vector Word 128)) :
    ∑ k ∈ Finset.range 32, (k + 1) * pageCounts blocks k = residualBits blocks := by
  induction blocks with
  | nil => simp [pageCounts, residualBits]
  | cons v vs ih =>
    simp only [pageCounts, residualBits, List.map_cons, List.sum_cons, Nat.mul_add, Finset.sum_add_distrib] at ih ⊢
    rw [ih, sum_block_residuals]

/-- The store of a page: its residuals' bits, and 20496 bits at most for the bitmap, the counts, the padding and
unfilled groups. -/
theorem storeLength_le (o : Nat) (blocks : List (Vector Word 128)) :
    32 * storeLength o (pageCounts blocks) ≤ 20496 + residualBits blocks := by
  have hstart := bucketStart_bound o (pageCounts blocks) 32
  rw [sum_pageCounts, show ∑ k ∈ Finset.range 32, (k + 1) = 528 by decide] at hstart
  rw [storeLength]
  omega

/-! ### A page -/

/-- The cost of R163 is at most that of 128 values of 32 bits. -/
theorem blockChoice_cost_le (v : Vector Word 128) :
    8 * (blockChoice v).c + (blockMaxb v - (blockChoice v).b) * (blockChoice v).c + 128 * (blockChoice v).b ≤ 4096 := by
  have hok := blockChoice_ok v
  have hcost := hok.cost_le
  have hmax := blockMaxb_le v
  rw [hok.cost, costOf] at hcost
  omega

/-- The bits of the block area, of the metadata and of the residuals of a page. -/
theorem blocks_cost_le (blocks : List (Vector Word 128)) :
    32 * (blocks.map fun v => 4 * (blockChoice v).b).sum + 8 * metaLength blocks + residualBits blocks ≤
      4120 * blocks.length := by
  induction blocks with
  | nil => simp [metaLength, residualBits]
  | cons v vs ih =>
    have hcost := blockChoice_cost_le v
    have hmeta : (if (blockChoice v).c = 0 then 2 else 3 + (blockChoice v).c) ≤ 3 + (blockChoice v).c := by
      split <;> omega
    simp only [metaLength, residualBits, List.map_cons, List.sum_cons, List.length_cons] at ih ⊢
    omega

/-- `T_page` is within the advised bound (R98, R99). -/
theorem pageLength_le (h : Nat) (blocks : List (Vector Word 128)) : pageLength h blocks ≤ pageBound blocks.length := by
  have hstore := storeLength_le (h + (headLength h blocks + 1 + ceilDiv (metaLength blocks) 4)) blocks
  have hblocks := blocks_cost_le blocks
  have hhead : headLength h blocks ≤ 4 + (blocks.map fun v => 4 * (blockChoice v).b).sum := by
    rw [headLength, roundup, ceilDiv]
    omega
  have hmeta : 4 * ceilDiv (metaLength blocks) 4 ≤ metaLength blocks + 3 := by
    rw [ceilDiv]
    omega
  have hbound : 3 * blocks.length ≤ 4 * ceilDiv (3 * blocks.length) 4 := by
    rw [ceilDiv]
    omega
  rw [pageLength, pageBound]
  omega

/-! ### An array -/

/-- The bound on the pages of `n` blocks, `c` to the page (R99). -/
def pagesBound (c n : Nat) : Nat := n / c * pageBound c + if n % c = 0 then 0 else pageBound (n % c)

/-- A first page, and the pages behind it. -/
theorem pagesBound_split {c n : Nat} (hc : 0 < c) (hn : 0 < n) :
    pageBound (min c n) + pagesBound c (n - c) = pagesBound c n := by
  by_cases hfull : c ≤ n
  · rw [Nat.min_eq_left hfull, pagesBound, pagesBound, Nat.div_eq_sub_div hc hfull, Nat.mod_eq_sub_mod hfull,
      Nat.succ_mul]
    omega
  · have hlt := Nat.lt_of_not_le hfull
    rw [Nat.min_eq_right hlt.le, Nat.sub_eq_zero_of_le hlt.le, pagesBound, pagesBound, Nat.div_eq_of_lt hlt,
      Nat.mod_eq_of_lt hlt, if_neg hn.ne']
    simp

theorem pagesLength_le {c k : Nat} (hc : 0 < c) (h : Nat) (blocks : List (Vector Word 128))
    (hk : k = ceilDiv blocks.length c) : pagesLength h (pieces c k blocks) ≤ pagesBound c blocks.length := by
  induction k generalizing h blocks with
  | zero => exact Nat.zero_le _
  | succ k ih =>
    have hpos : 0 < blocks.length := by
      by_contra hnone
      rw [show blocks.length = 0 by omega, ceilDiv, Nat.zero_add, Nat.div_eq_of_lt (by omega)] at hk
      omega
    have hfirst := pageLength_le h (blocks.take c)
    have hrest := ih (h + pageLength h (blocks.take c)) (blocks.drop c)
      (by rw [List.length_drop, ceilDiv_sub hc]; omega)
    rw [List.length_take] at hfirst
    rw [List.length_drop] at hrest
    rw [pieces, pagesLength, ← pagesBound_split hc hpos]
    omega

theorem streamOf_length_le (p : Params) (delta : Bool) (vals : List Word) :
    (streamOf p.pageSize delta vals).length ≤ worstCase p (vals.length / 128) := by
  have hc : 0 < p.pageSize / 128 := by
    have := p.pageSize_min
    omega
  have hpages := pagesLength_le hc 1 (codedBlocks delta 0#32 (blocksOf vals)) rfl
  rw [codedBlocks_length, blocksOf_length] at hpages
  rw [streamOf_length, worstCase, codedPages, pagesOf, codedBlocks_length, blocksOf_length, Nat.add_assoc]
  exact Nat.add_le_add_left hpages 1

/-- Settles O29: `exec_enc_ok`, the stream being within the bound. -/
theorem sufficientCapacity : Obligations.SufficientCapacity := by
  intro delta s wf hl ha hlen hroom
  have hbound := streamOf_length_le s.cfg delta (inputValues s)
  rw [inputValues_length] at hbound
  obtain ⟨m, hd, bl, fr, sb, sc, sm, hexec, -⟩ := exec_enc_ok wf hl ha hlen rfl (Nat.le_trans hbound hroom)
  refine ⟨_, hexec, rfl, ?_⟩
  exact Nat.le_trans (by rw [BitVec.toNat_ofNat]; exact Nat.mod_le _ _) hbound

end Sys2Proof.Machine

/-! SUPPORT. The operations of the pack engine run alone: what each returns as a positional number (R122 to R125), the
laws of R126 that pack again what was unpacked, and what is refused (R127, U8; log 13). -/

namespace Sys2Proof.Machine

/-! ### Positional numbers of words -/

theorem getD_map_range {n j : Nat} (f : Nat → Word) (h : j < n) : ((List.range n).map f).getD j 0#32 = f j := by
  rw [List.getD_eq_getElem _ _ (by simpa using h), List.getElem_map, List.getElem_range]

/-- A number of whole words, of which no digit has a bit to mask off (R123, R125). -/
theorem joinBits_words_eq_sum (ws : List Word) :
    joinBits 32 ws = ∑ t ∈ Finset.range ws.length, (ws.getD t 0#32).toNat * 2 ^ (32 * t) := by
  rw [joinBits_eq_sum]
  refine Finset.sum_congr rfl fun t _ => ?_
  rw [Nat.mod_eq_of_lt (ws.getD t 0#32).isLt, Nat.mul_comm t]

/-- The number of a lane of values (R122). -/
theorem joinBits_laneOf (b : Nat) (v : List Word) (l : Nat) :
    joinBits b (laneOf v l) =
      ∑ j ∈ Finset.range 32, (v.getD (4 * j + l) 0#32).toNat % 2 ^ b * 2 ^ (j * b) := by
  rw [joinBits_eq_sum, laneOf_length]
  refine Finset.sum_congr rfl fun j hj => ?_
  rw [laneOf, getD_map_range _ (Finset.mem_range.1 hj)]

/-- The number of a lane of packed words (R123). -/
theorem joinBits_laneWords (b : Nat) (w : List Word) (l : Nat) :
    joinBits 32 (laneWords b w l) =
      ∑ t ∈ Finset.range b, (w.getD (4 * t + l) 0#32).toNat * 2 ^ (32 * t) := by
  rw [joinBits_words_eq_sum, laneWords_length]
  refine Finset.sum_congr rfl fun t ht => ?_
  rw [laneWords, getD_map_range _ (Finset.mem_range.1 ht)]

/-! ### Results, element by element -/

/-- Word `t` of lane `l` of a packed group (R122). -/
theorem vpack_getD {b t l : Nat} (v : List Word) (hl : l < 4) (ht : t < b) :
    (vpack b v).getD (4 * t + l) 0#32 = digit 32 (joinBits b (laneOf v l)) t :=
  List.map_inj_left.1 (laneWords_vpack b v hl) t (List.mem_range.2 ht)

/-- Value `j` of lane `l` of an unpacked group (R123). -/
theorem vunpack_getD (b : Nat) {j l : Nat} (w : List Word) (hl : l < 4) (hj : j < 32) :
    (vunpack b w).getD (4 * j + l) 0#32 = digit b (joinBits 32 (laneWords b w l)) j := by
  rw [vunpack, getD_map_range _ (by omega), show (4 * j + l) % 4 = l by omega, show (4 * j + l) / 4 = j by omega]

theorem spack_getD {b t : Nat} (v : List Word) (ht : t < b) :
    (spack b v).getD t 0#32 = digit 32 (joinBits b v) t := getD_map_range _ ht

theorem sunpack_getD (b : Nat) {j : Nat} (w : List Word) (hj : j < 32) :
    (sunpack b w).getD j 0#32 = digit b (joinBits 32 w) j := getD_map_range _ hj

/-! ### The operations run alone -/

/-- A group of the right size: only what is returned changes (R120). -/
theorem engineOp_of_fits {fits : Bool} (h : fits = true) (out : List Word) (s : State) :
    engineOp fits out s = .next { s with ret := out } := if_pos h

theorem engineOp_of_not_fits {fits : Bool} (h : fits = false) (out : List Word) (s : State) :
    engineOp fits out s = .refused .groupSize := if_neg (Bool.not_eq_true _ ▸ h)

/-- Settles O32: each result element by element, as the digit of its lane's number. -/
theorem vectorResults : Obligations.VectorResults := by
  refine fun b v s => ⟨fun hv => ⟨_, engineOp_of_fits (beq_iff_eq.2 hv) _ s, vpack_length _ _, fun l t hl ht => ?_⟩,
    fun hv => ⟨_, engineOp_of_fits (beq_iff_eq.2 hv) _ s, vunpack_length _ _, fun l j hl hj => ?_⟩⟩
  · rw [vpack_getD v hl ht, digit_toNat (by omega), joinBits_laneOf, Nat.mul_comm t]
  · rw [vunpack_getD _ v hl hj, digit_toNat (by omega), joinBits_laneWords]

/-- Settles O33: each result element by element, as the digit of the group's number. -/
theorem scalarResults : Obligations.ScalarResults := by
  refine fun b v s => ⟨fun hv => ⟨_, engineOp_of_fits (beq_iff_eq.2 hv) _ s, spack_length _ _, fun t ht => ?_⟩,
    fun hv => ⟨_, engineOp_of_fits (beq_iff_eq.2 hv) _ s, sunpack_length _ _, fun j hj => ?_⟩⟩
  · rw [spack_getD v ht, digit_toNat (by omega), joinBits_eq_sum, hv, Nat.mul_comm t]
  · rw [sunpack_getD _ v hj, digit_toNat (by omega), joinBits_words_eq_sum, hv]

/-! ### Packing what was unpacked -/

/-- The first `n` digits of width `b` make a number up to `2^(n*b)`. -/
theorem sum_digits (b S n : Nat) :
    ∑ j ∈ Finset.range n, S / 2 ^ (j * b) % 2 ^ b * 2 ^ (j * b) = S % 2 ^ (n * b) := by
  induction n with
  | zero => simp [Nat.mod_one]
  | succ n ih =>
    rw [Finset.sum_range_succ, ih, Nat.add_mul, Nat.one_mul, Nat.pow_add, Nat.mod_mul, Nat.mul_comm (2 ^ (n * b))]

/-- The digits of a number, joined again: `joinBits_digits` at every width of the engine. -/
theorem joinBits_map_digit {b : Nat} (hb : b ≤ 32) (S n : Nat) :
    joinBits b ((List.range n).map (digit b S)) = S % 2 ^ (n * b) := by
  rw [joinBits_eq_sum, List.length_map, List.length_range, ← sum_digits]
  refine Finset.sum_congr rfl fun j hj => ?_
  rw [getD_map_range _ (Finset.mem_range.1 hj), digit_toNat hb, Nat.mod_mod]

/-- The words of a lane survive the cut into 32 values of width `b`: as many bits, for the lane has `b` words. -/
theorem digit_joinBits_values {b t : Nat} (hb : b ≤ 32) {ws : List Word} (hlen : ws.length = b) (ht : t < ws.length) :
    digit 32 (joinBits b ((List.range 32).map (digit b (joinBits 32 ws)))) t = ws[t] := by
  have hlt := joinBits_lt 32 ws
  rw [hlen] at hlt
  rw [joinBits_map_digit hb, Nat.mod_eq_of_lt hlt, digit_joinBits 32 ht, lowBits_of_lt ws[t].isLt]

/-- The values of a lane are the digits of its number: `laneWords_vpack` the other way (R122, R123). -/
theorem laneOf_vunpack (b : Nat) (w : List Word) {l : Nat} (hl : l < 4) :
    laneOf (vunpack b w) l = (List.range 32).map (digit b (joinBits 32 (laneWords b w l))) :=
  List.map_congr_left fun _ hj => vunpack_getD b w hl (List.mem_range.1 hj)

/-- R126 (b). -/
theorem vpack_vunpack {b : Nat} (hb : b ≤ 32) {w : List Word} (hw : w.length = 4 * b) :
    vpack b (vunpack b w) = w := by
  apply List.ext_getElem (by rw [vpack_length, hw])
  intro i _ hi
  have ht : i / 4 < (laneWords b w (i % 4)).length := by
    rw [laneWords_length]
    omega
  simp only [vpack, List.getElem_map, List.getElem_range]
  rw [laneOf_vunpack b w (by omega), digit_joinBits_values hb (laneWords_length _ _ _) ht]
  simp only [laneWords, List.getElem_map, List.getElem_range]
  rw [Nat.div_add_mod, List.getD_eq_getElem _ _ hi]

/-- R126 (d). -/
theorem spack_sunpack {b : Nat} (hb : b ≤ 32) {w : List Word} (hw : w.length = b) :
    spack b (sunpack b w) = w := by
  apply List.ext_getElem (by rw [spack_length, hw])
  intro t _ ht
  simp only [spack, List.getElem_map, List.getElem_range]
  exact digit_joinBits_values hb hw ht

/-! ### A pack depends on the low bits alone -/

theorem joinBits_congr {b : Nat} {xs ys : List Word}
    (h : (xs.map fun x => x.toNat % 2 ^ b) = ys.map fun x => x.toNat % 2 ^ b) : joinBits b xs = joinBits b ys := by
  induction xs generalizing ys with
  | nil => rw [List.map_eq_nil_iff.1 h.symm]
  | cons x xs ih =>
    obtain ⟨y, ys, rfl, hhead, htail⟩ := List.map_eq_cons_iff.1 h.symm
    rw [joinBits, joinBits, hhead, ih htail.symm]

/-- A lane takes its low bits from those of the group. -/
theorem map_mod_laneOf (b : Nat) (v : List Word) (l : Nat) :
    ((laneOf v l).map fun x => x.toNat % 2 ^ b) =
      (List.range 32).map fun j => (v.map fun x => x.toNat % 2 ^ b).getD (4 * j + l) 0 := by
  rw [laneOf, List.map_map]
  refine List.map_congr_left fun j _ => ?_
  rw [Function.comp_apply, ← List.getD_map (f := fun x : Word => x.toNat % 2 ^ b)]
  simp only [BitVec.toNat_ofNat, Nat.zero_mod]

/-- R126 (e), for a vector group. -/
theorem vpack_congr {b : Nat} {v v' : List Word}
    (h : (v.map fun x => x.toNat % 2 ^ b) = v'.map fun x => x.toNat % 2 ^ b) : vpack b v = vpack b v' := by
  refine List.map_congr_left fun i _ => ?_
  rw [joinBits_congr (ys := laneOf v' (i % 4)) (by rw [map_mod_laneOf, map_mod_laneOf, h])]

/-- R126 (e), for a scalar group. -/
theorem spack_congr {b : Nat} {v v' : List Word}
    (h : (v.map fun x => x.toNat % 2 ^ b) = v'.map fun x => x.toNat % 2 ^ b) : spack b v = spack b v' := by
  rw [spack, spack, joinBits_congr h]

/-- Settles O34: the five laws, each by its own name. -/
theorem engineLaws : Obligations.EngineLaws := fun _ hb =>
  ⟨fun _ hv => vunpack_vpack hv, fun _ hw => vpack_vunpack hb hw, fun _ hv => sunpack_spack hv,
    fun _ hw => spack_sunpack hb hw, fun _ _ h => ⟨vpack_congr h, spack_congr h⟩⟩

/-! ### What is refused -/

theorem recordOp_none {s : State} (h : codingOf s.cmd = .none) (p q : State → Res Unit) :
    recordOp p q s = .refused .noStream := by
  rw [recordOp, h]

theorem noStream_of_recordOp {i : Instr} {p q : State → Res Unit} {s : State} (h : codingOf s.cmd = .none)
    (hi : ∀ t, exec i t = recordOp p q t) : exec i s = .refused .noStream :=
  (hi s).trans (recordOp_none h p q)

/-- A group, once it has the words of its width, is a record like the others. -/
theorem noStream_of_groupOp {i : Instr} {fits : Bool} {p q : State → Res Unit} {s : State}
    (h : codingOf s.cmd = .none) (hfits : fits = true) (hi : ∀ t, exec i t = groupOp fits p q t) :
    exec i s = .refused .noStream :=
  noStream_of_recordOp h fun t => (hi t).trans (groupOp_of_fits hfits p q t)

theorem groupOp_of_not_fits {fits : Bool} (h : fits = false) (p q : State → Res Unit) (s : State) :
    groupOp fits p q s = .refused .groupSize := if_neg (Bool.not_eq_true _ ▸ h)

/-- A record of the stream where no stream is coded (log 13). -/
theorem exec_record_noStream {i : Instr} {e : Expect} {s : State} (hwf : i.wf = true) (hctx : i.ctx = .stream e)
    (h : codingOf s.cmd = .none) : exec i s = .refused .noStream := by
  cases i with
  | packed128 | esG128 =>
    have hlen := of_decide_eq_true hwf
    exact noStream_of_groupOp h (beq_iff_eq.2 hlen) fun _ => rfl
  | esG32 =>
    obtain ⟨hlen, -⟩ := of_decide_eq_true hwf
    exact noStream_of_groupOp h (beq_iff_eq.2 hlen) fun _ => rfl
  | arrayHdr | pageHdr | pagePad | bcSize | bcBytes | metaRec | esBitmap | esCount | esPad =>
    exact noStream_of_recordOp h fun _ => rfl
  | _ => cases hctx

/-- Settles O22: `exec_record_noStream`, and the guard on the size in front of each group operation. -/
theorem recordsAndGroupsRefused : Obligations.RecordsAndGroupsRefused := by
  refine ⟨fun i e s hwf hctx h => exec_record_noStream hwf hctx h, fun b v s => ?_⟩
  have op {n : Nat} (h : v.length ≠ n) (out : List Word) : engineOp (v.length == n) out s = .refused .groupSize :=
    engineOp_of_not_fits (beq_eq_false_iff_ne.2 h) out s
  have group {n : Nat} (h : v.length ≠ n) (p q : State → Res Unit) :
      groupOp (v.length == n) p q s = .refused .groupSize := groupOp_of_not_fits (beq_eq_false_iff_ne.2 h) p q s
  exact ⟨fun h => op h _, fun h => ⟨op h _, group h _ _⟩, fun h => op h _, fun h => op h _,
    fun k => ⟨fun h => group h _ _, fun h => group h _ _⟩⟩

end Sys2Proof.Machine

/-! SUPPORT. The operations of the exception store run alone: what each of R143 to R146 and R149 leaves of the
buckets (log 22). -/

namespace Sys2Proof.Machine

/-! ### Capacities -/

/-- `roundup(x, m)` is the multiple of `m` that `x` needs (R7). -/
theorem roundup_multiple (x : Nat) {m : Nat} (hm : 0 < m) :
    roundup x m % m = 0 ∧ x ≤ roundup x m ∧ roundup x m < x + m := by
  have hdiv := Nat.div_add_mod (x + m - 1) m
  have hlt := Nat.mod_lt (x + m - 1) hm
  rw [roundup, ceilDiv]
  exact ⟨Nat.mul_mod_right m _, by omega, by omega⟩

theorem grownCap_of_fits {c cap n : Nat} (h : c + n ≤ cap) : grownCap c cap n = cap := if_neg (by omega)

theorem grownCap_of_lt {c cap n : Nat} (h : cap < c + n) :
    grownCap c cap n = roundup (max (c + n) (2 * cap)) 128 := if_pos h

/-! ### The buckets -/

theorem esClear_bucket (s : State) (k : Fin 32) :
    (esClear s).es[k.val] = { val := [], cap := s.es[k.val].cap, rd := 0 } := Vector.getElem_ofFn k.isLt

/-- Settles O38: the buckets of `esClear`, the store of `INST.RESET`, and `grownCap` where the residuals fit and
where they do not. -/
theorem storeClearedAndGrown : Obligations.StoreClearedAndGrown := by
  refine fun s => ⟨⟨(esClear s).es, rfl, fun k => ?_⟩, ⟨_, rfl, emptyStore_replicate s.cfg⟩,
    fun k n => ⟨_, rfl, grownCap_of_fits, fun h => ?_⟩⟩
  · rw [esClear_bucket]
    exact ⟨rfl, rfl, rfl⟩
  · rw [grownCap_of_lt h]
    exact roundup_multiple _ (by decide)

/-- `ES.GET` run alone returns what `esGet` answers (R149). -/
theorem exec_esGet (k : Fin 32) (s : State) :
    exec (.esGet k) s = ((esGet k s).bind fun x t => .ok [x] t).returning := rfl

/-- Settles O39: `ES.APPEND` by definition, `ES.GET` by `esGet_ok` and `esGet_end`. -/
theorem storeAppendsAndReads : Obligations.StoreAppendsAndReads := by
  refine fun s k => ⟨fun _ => rfl, fun h => ?_, fun hend => ?_⟩
  · rw [exec_esGet, esGet_ok (List.drop_eq_getElem_cons h), Res.bind_ok, Res.returning_ok, setBucket]
  · rw [exec_esGet, esGet_end (List.drop_eq_nil_iff.2 hend), Res.bind_stop]
    rfl

end Sys2Proof.Machine

/-! SUPPORT. The selector on any histogram: the counters of a block counted by value (R162), the choice as the largest
width of least cost and the count above it (R163), and its guarantees (R164). -/

namespace Sys2Proof.Machine

/-! ### The histogram -/

/-- `bits` is the least width that holds the value (R9). -/
theorem bitWidth_eq_iff (x : Word) (w : Nat) :
    bitWidth x = w ↔ x.toNat < 2 ^ w ∧ ∀ u < w, 2 ^ u ≤ x.toNat := by
  have hfits (u : Nat) : 2 ^ u ≤ x.toNat ↔ u < bitWidth x := by
    rw [← Nat.not_lt, ← bitWidth_le_iff, Nat.not_le]
  simp only [← bitWidth_le_iff, hfits]
  refine ⟨fun h => ⟨h.le, fun u hu => h ▸ hu⟩, fun ⟨hle, hbelow⟩ => Nat.le_antisymm hle ?_⟩
  by_contra hlt
  exact Nat.lt_irrefl _ (hbelow _ (Nat.not_le.1 hlt))

/-- A count over the values of a block is one over their places. -/
theorem countP_toList_eq_card (v : Vector Word 128) (p : Word → Prop) [DecidablePred p] :
    (v.toList.countP fun x => decide (p x)) = (Finset.univ.filter fun i : Fin 128 => p v[i.val]).card := by
  have hlist : v.toList = (List.finRange 128).map fun i : Fin 128 => v[i.val] := by
    apply List.ext_getElem <;> simp
  rw [hlist, List.countP_map, List.countP_eq_length_filter]
  rfl

/-- The counter of a width counts the values whose least width it is (R162). -/
theorem histogram_eq_card (v : Vector Word 128) (w : Fin 33) :
    (histogram v)[w.val].toNat = (Finset.univ.filter fun i : Fin 128 => bitWidth v[i.val] = w.val).card := by
  rw [histogram_toNat, ← countP_toList_eq_card v fun x => bitWidth x = w.val]
  rfl

/-- Every value is counted once (R162). -/
theorem histogram_sum (v : Vector Word 128) : ∑ w : Fin 33, (histogram v)[w.val].toNat = 128 := by
  simp only [histogram_eq_card]
  rw [Fin.sum_univ_eq_sum_range fun w => (Finset.univ.filter fun i : Fin 128 => bitWidth v[i.val] = w).card,
    ← Finset.card_eq_sum_card_fiberwise fun i _ => ?_]
  · simp
  · have := bitWidth_le_32 v[i.val]
    simp
    omega

/-- Settles O44: `histogram_eq_card` by the definition of `bits`, and `histogram_sum`. -/
theorem blockHistogram : Obligations.BlockHistogram := by
  refine fun s => ⟨histogram s.blk, rfl, fun w => ?_, histogram_sum s.blk⟩
  simp only [histogram_eq_card, bitWidth_eq_iff]

/-! ### The least cost -/

/-- The cost of width `u` where the highest width is `m` (R163). -/
def costAt (f : Nat → Nat) (m u : Nat) : Nat := costOf m u (∑ w ∈ Finset.Ioc u m, f w)

theorem CandidateOk.cost_eq {f : Nat → Nat} {m : Nat} {x : Candidate} (h : CandidateOk f m x) :
    x.cost = costAt f m x.b := by
  rw [costAt, ← h.count, h.cost]

/-- Of the widths `n .. m`, `b` is the largest at which the cost is least (R163). -/
structure LargestLeast (cost : Nat → Nat) (n m b : Nat) : Prop where
  from_le : n ≤ b
  least : ∀ u, n ≤ u → u ≤ m → cost b ≤ cost u
  largest : ∀ u, n ≤ u → u ≤ m → cost u = cost b → u ≤ b

/-- A challenger below all candidates wins only with a strictly smaller cost (R163). -/
theorem LargestLeast.challenge {cost : Nat → Nat} {n m b : Nat} (h : LargestLeast cost (n + 1) m b) :
    LargestLeast cost n m (if cost n < cost b then n else b) := by
  obtain ⟨hfrom, hleast, hlargest⟩ := h
  split
  · rename_i hlt
    refine ⟨Nat.le_refl n, fun u hu hum => ?_, fun u hu hum heq => ?_⟩
    · rcases Nat.eq_or_lt_of_le hu with rfl | hu
      · exact Nat.le_refl _
      · exact Nat.le_trans (Nat.le_of_lt hlt) (hleast u hu hum)
    · by_contra hun
      have := hleast u (by omega) hum
      omega
  · rename_i hge
    refine ⟨by omega, fun u hu hum => ?_, fun u hu hum heq => ?_⟩
    · rcases Nat.eq_or_lt_of_le hu with rfl | hu
      · exact Nat.not_lt.1 hge
      · exact hleast u hu hum
    · rcases Nat.eq_or_lt_of_le hu with rfl | hu
      · omega
      · exact hlargest u hu hum heq

/-- The scan keeps the best candidate (R163). -/
theorem scanWidths_least {f : Nat → Nat} {m n c : Nat} {best : Candidate} (hn : n ≤ m)
    (hc : c = ∑ w ∈ Finset.Ioc n m, f w) (hcost : best.cost = costAt f m best.b)
    (h : LargestLeast (costAt f m) n m best.b) :
    LargestLeast (costAt f m) 0 m (scanWidths f m n c best).b := by
  induction n generalizing c best with
  | zero => exact h
  | succ n ih =>
    have hnext : c + f (n + 1) = ∑ w ∈ Finset.Ioc n m, f w := by
      rw [hc, ← Finset.sum_Ioc_consecutive f (Nat.le_succ n) hn, Finset.sum_Ioc_succ_top (by omega)]
      simp [Nat.add_comm]
    have hchallenger : costOf m n (c + f (n + 1)) = costAt f m n := by rw [hnext, costAt]
    have hbest := h.challenge
    rw [scanWidths, hchallenger, hcost]
    refine ih (by omega) hnext ?_ ?_
    · split
      · rfl
      · exact hcost
    · rw [apply_ite Candidate.b]
      exact hbest

/-- The chosen width is the largest of least cost (R163). -/
theorem chooseWidth_least (f : Nat → Nat) (m : Nat) : LargestLeast (costAt f m) 0 m (chooseWidth f m).b := by
  refine scanWidths_least (Nat.le_refl m) (by simp) (by simp [costAt, costOf])
    ⟨Nat.le_refl m, fun u hu hum => ?_, fun u _ hum _ => hum⟩
  rw [Nat.le_antisymm hum hu]

/-- The cost bounds the count (R164 (c)). -/
theorem CandidateOk.c_le {f : Nat → Nat} {m : Nat} {x : Candidate} (h : CandidateOk f m x) (hm : m ≤ 32) :
    x.c ≤ 102 := by
  obtain ⟨hb, -, hcost, hle⟩ := h
  rw [hcost, costOf] at hle
  obtain ⟨d, hd⟩ := Nat.exists_eq_add_of_le hb
  by_contra hc
  have hprod : d * 103 ≤ d * x.c := Nat.mul_le_mul_left d (by omega)
  rw [hd, Nat.add_sub_cancel_left] at hle
  omega

/-- Where width `m` is counted, only the choice of `m` itself leaves no exception (R164 (b)). -/
theorem CandidateOk.c_eq_zero_iff {f : Nat → Nat} {m : Nat} {x : Candidate} (h : CandidateOk f m x) (hm : f m ≠ 0) :
    x.c = 0 ↔ x.b = m := by
  rw [h.count, Finset.sum_eq_zero_iff]
  refine ⟨fun hzero => ?_, fun hb w hw => ?_⟩
  · by_contra hne
    exact hm (hzero m (Finset.mem_Ioc.2 ⟨Nat.lt_of_le_of_ne h.b_le hne, Nat.le_refl m⟩))
  · rw [hb, Finset.Ioc_self] at hw
    cases hw

/-! ### The selector -/

theorem freqAt_eq (f : Vector (BitVec 8) 33) (w : Fin 33) : freqAt f w.val = f[w.val].toNat := by
  rw [freqAt, List.getD_eq_getElem _ _ (by simp), Vector.getElem_toList]

/-- A histogram that counts a value has a highest width. -/
theorem highestWidth_exists {f : Vector (BitVec 8) 33} (h : ∑ w : Fin 33, f[w.val].toNat ≠ 0) :
    ∃ m, highestWidth f 33 = some m := by
  by_contra hnone
  have hnone : highestWidth f 33 = none := Option.eq_none_iff_forall_ne_some.2 fun m hm => hnone ⟨m, hm⟩
  refine h (Finset.sum_eq_zero fun w _ => ?_)
  rw [← freqAt_eq]
  exact highestWidth_none (Nat.le_refl _) hnone w.isLt

/-- A histogram without a nonzero counter has none. -/
theorem highestWidth_empty {f : Vector (BitVec 8) 33} (h : ∀ w : Fin 33, f[w.val] = 0#8) :
    highestWidth f 33 = none := by
  cases hm : highestWidth f 33 with
  | none => rfl
  | some m =>
    obtain ⟨-, hcount, -⟩ := highestWidth_some (Nat.le_refl _) hm
    rw [freqAt_eq, h m] at hcount
    exact absurd rfl hcount

/-- The values above a width, counted over all widths or up to the highest one (R163). -/
theorem sum_above_eq {f : Vector (BitVec 8) 33} {m : Fin 33} (h : highestWidth f 33 = some m) (b : Nat) :
    (∑ w : Fin 33, if b < w.val then f[w.val].toNat else 0) = ∑ w ∈ Finset.Ioc b m.val, freqAt f w := by
  obtain ⟨-, -, habove⟩ := highestWidth_some (Nat.le_refl _) h
  simp only [← freqAt_eq]
  rw [Fin.sum_univ_eq_sum_range (fun w => if b < w then freqAt f w else 0), ← Finset.sum_filter]
  symm
  refine Finset.sum_subset (fun w hw => ?_) fun w hw hout => ?_
  · have := Finset.mem_Ioc.1 hw
    simp only [Finset.mem_filter, Finset.mem_range]
    omega
  · simp only [Finset.mem_filter, Finset.mem_range, Finset.mem_Ioc] at hw hout
    exact habove w (by omega) hw.1

/-- The register `SEL` holds the choice of a candidate (R23, R164). -/
theorem CandidateOk.registers {f : Nat → Nat} {m : Nat} {x : Candidate} (h : CandidateOk f m x) (hm : m ≤ 32) :
    (BitVec.ofNat 6 x.b).toNat = x.b ∧ (BitVec.ofNat 8 x.c).toNat = x.c ∧ (BitVec.ofNat 6 m).toNat = m := by
  have hb := h.b_le
  have hc := h.c_le hm
  simp only [BitVec.toNat_ofNat]
  omega

/-- `BLK.SELECT` of a histogram of 128 values: the choice at its highest width (R163). -/
theorem blkSelect_counted {s : State} (h : ∑ w : Fin 33, (s.freq[w.val]).toNat = 128) :
    ∃ m : Fin 33, highestWidth s.freq 33 = some m ∧ exec .blkSelect s = .next (selectAt m.val s) := by
  obtain ⟨m, hm⟩ := highestWidth_exists (f := s.freq) (by omega)
  refine ⟨m, hm, ?_⟩
  change Host.Outcome.next (blkSelect s) = _
  rw [blkSelect, hm]

/-- Settles O45: the highest width by `highestWidth_some`, the choice by `chooseWidth_least`. -/
theorem widthSelection : Obligations.WidthSelection := by
  intro s cx cost hsum hcx
  obtain ⟨m, hm, hexec⟩ := blkSelect_counted hsum
  obtain ⟨-, hcount, -⟩ := highestWidth_some (Nat.le_refl _) hm
  have hok := chooseWidth_ok (freqAt s.freq) m.val
  obtain ⟨hB, hC, hM⟩ := hok.registers (Nat.le_of_lt_succ m.isLt)
  have habove (u : Nat) : cx u = ∑ w ∈ Finset.Ioc u m.val, freqAt s.freq w := (hcx u).trans (sum_above_eq hm u)
  refine ⟨_, _, _, hexec, ?_⟩
  simp only [hB, hC, hM]
  refine ⟨⟨m.isLt, by rwa [← freqAt_eq]⟩, by simp [habove], hok.b_le, by rw [habove, hok.count], fun hcost u hu => ?_⟩
  have hcostAt : cost = costAt (freqAt s.freq) m.val := funext fun u => by rw [hcost, habove, costAt, costOf]
  obtain ⟨-, hleast, hlargest⟩ := chooseWidth_least (freqAt s.freq) m.val
  rw [hcostAt]
  exact ⟨hleast u (Nat.zero_le u) hu, hlargest u (Nat.zero_le u) hu⟩

/-- Settles O47: what `CandidateOk` says of the choice. -/
theorem selectionGuarantees : Obligations.SelectionGuarantees := by
  intro s hsum
  obtain ⟨m, hm, hexec⟩ := blkSelect_counted hsum
  obtain ⟨-, hcount, -⟩ := highestWidth_some (Nat.le_refl _) hm
  have hok := chooseWidth_ok (freqAt s.freq) m.val
  have hm32 : m.val ≤ 32 := Nat.le_of_lt_succ m.isLt
  obtain ⟨hB, hC, hM⟩ := hok.registers hm32
  refine ⟨_, _, _, hexec, ?_⟩
  simp only [← BitVec.toNat_inj, hB, hC, hM]
  refine ⟨hok.b_le, hm32, hok.c_eq_zero_iff hcount, hok.c_le hm32, ?_⟩
  have hcost := hok.cost_le
  have hb := hok.b_le
  rw [hok.cost, costOf] at hcost
  rw [Nat.add_sub_assoc hb, Nat.mul_add, Nat.mul_comm _ 8, Nat.mul_comm _ (m.val - _)]
  omega

/-- Where nothing is counted, the least cost is that of width 0 (R163; log 12). -/
theorem chooseWidth_empty {f : Nat → Nat} {m : Nat} (h : ∀ w ≤ m, f w = 0) :
    (chooseWidth f m).b = 0 ∧ (chooseWidth f m).c = 0 := by
  have hnone (u : Nat) : ∑ w ∈ Finset.Ioc u m, f w = 0 :=
    Finset.sum_eq_zero fun w hw => h w (Finset.mem_Ioc.1 hw).2
  refine ⟨?_, by rw [(chooseWidth_ok f m).count, hnone]⟩
  have hleast := (chooseWidth_least f m).least 0 (Nat.zero_le 0) (Nat.zero_le m)
  simp only [costAt, hnone, costOf] at hleast
  omega

/-- Settles O46: there is no highest width, and `chooseWidth_empty` at the free one. -/
theorem emptyHistogramSelects : Obligations.EmptyHistogramSelects := by
  intro s hzero
  refine ⟨Config.freeWidth s.freeCtr, ?_⟩
  have hfreq : ∀ w ≤ (Config.freeWidth s.freeCtr).val, freqAt s.freq w = 0 := fun w hw => by
    rw [freqAt_eq s.freq ⟨w, by omega⟩, hzero]
    rfl
  obtain ⟨hb, hc⟩ := chooseWidth_empty hfreq
  change Host.Outcome.next (blkSelect s) = _
  rw [blkSelect, highestWidth_empty hzero]
  simp only [selectAt, setSel, hb, hc]

end Sys2Proof.Machine

/-! SUPPORT. `BLK.ENC` and `BLK.DEC` run alone on one block: what the first leaves of it, and the block the second
makes of that (R168, R172). -/

namespace Sys2Proof.Machine

/-! ### Encoding -/

/-- The words of `SRC` a block was loaded from are its values (R166). -/
theorem readWord_of_view {s : State} {raw : Vector Word 128} (h : raw.toList = srcView s s.ic 128) (i : Fin 128) :
    Memory.readWord s.mem (srcAddr s (s.ic + i.val)) = raw[i.val] := by
  rw [← Vector.getElem_toList (by simp)]
  simp only [h, srcView, Memory.getElem_readWords, srcAddr, Nat.mul_add, Nat.add_assoc]

/-- Settles O52: `blkEnc_block`, then the packed words by `emitAll_ok`. -/
theorem blockEncode : Obligations.BlockEncode := by
  intro s raw v wf haddr hview hv hroom hwords
  obtain ⟨es, henc, hres⟩ := blkEnc_block haddr (readWord_of_view hview) hv hroom
  have hok : blkEnc s = .ok () (blockEncoded raw v es s) := by
    rw [henc, emitAll_ok (s := blockTaken raw v es s) hwords]
    rfl
  have hcursors : CursorsKept s (blockEncoded raw v es s) := by
    have hkept := blkEnc_cursors s
    rwa [hok] at hkept
  refine ⟨(blockEncoded raw v es s).mem, es, histogram v, ?_, blockEncoded_stored wf es, ?_, fun k => ⟨?_, hcursors k⟩⟩
  · change (blkEnc s).outcome = _
    rw [hok, Res.outcome_ok]
    simp only [blockEncoded, blockTaken]
  · rw [blockPacked_length, Nat.add_mul_mod_self_left]
  · rw [hres k, List.flatMap_singleton]

/-! ### Decoding -/

/-- Settles O53: `blkDec_block`, and the cursors of the buckets by `readOn_block`. -/
theorem blockDecode : Obligations.BlockDecode := by
  intro s raw v bs wf hv hrec hres hread hview hstore
  refine ⟨_, readOn s.es (blockChoice v).b (blockMaxb v) (blockPositions v), ?_, stored_writeWords wf s.oc raw.toList,
    fun k => ?_⟩
  · change (blkDec s).outcome = _
    rw [blkDec_block hv hrec hres hread hview hstore, Res.outcome_ok, afterBlock, blockPositions_length]
  · rw [readOn_block]
    exact ⟨rfl, rfl, rfl⟩

end Sys2Proof.Machine

/-! SUPPORT. The array frame as the obligations state it: ENC ends with the stream in `DST`, and `ARR.DEC` of a stream
gives its array back (R190, R193). -/

namespace Sys2Proof.Machine

/-- Settles O24: `exec_enc_ok`, with the store and the carried value that `INST.RESET` leaves (R211). -/
theorem encWritesStream : Obligations.EncWritesStream := by
  intro delta s ws wf hl ha hlen hws hfit
  obtain ⟨m, hd, bl, fr, sb, sc, sm, henc, hstored⟩ := exec_enc_ok wf hl ha hlen hws hfit
  exact ⟨m, _, _, hd, bl, fr, sb, sc, sm, henc, hstored, emptyStore_replicate s.cfg, noCarry_replicate⟩

/-- `ARR.DEC` run alone returns the number of values its loop ended with (R193). -/
theorem exec_arrDec_ok {s t : State} {d : Decoded} (h : arrDec s = .ok d t) :
    exec .arrDec s = .next { t with ret := [BitVec.ofNat 32 d.values] } := by
  change (arrDecValues s).returningNat = _
  rw [arrDecValues_of h, Res.returningNat_ok]

/-- Settles O58: `arrDec_ok` at the blocks of the array, whose coded blocks are the stream's because the carried value
is zero (R84). -/
theorem arrayDecode : Obligations.ArrayDecode := by
  intro s vals ws wf hl hcarry hmod hfit hws hlen hview
  have hlists := toLists_blocksOf hmod
  have hcount : 128 * (blocksOf vals).length = vals.length := by rw [← length_toLists, hlists]
  have hcoded : ws = codedStream s.cfg.pageSize (codedBlocks s.deltaEn s.dprev[3] (blocksOf vals)) := by
    rw [hws, streamOf_coded _ _ hmod, hcarry]
  have hspan : DecSpan { s with oc := 0 } 0 ws (128 * (blocksOf vals).length) :=
    decSpan_array wf hl hlen hview (hcount ▸ hfit) (by rw [hcoded]; exact Nat.succ_pos _)
  obtain ⟨m, e, bm, rd, ic, hd, mp, bl, sb, sc, sm, hdec, hstored⟩ := arrDec_ok hcoded hspan (hcount ▸ hfit)
  rw [hcount] at hdec
  rw [hlists] at hstored
  exact ⟨_, m, e, bm, rd, ic, hd, mp, bl, sb, sc, sm, rfl, hdec, exec_arrDec_ok hdec, hstored⟩

end Sys2Proof.Machine

/-! SUPPORT. How far a DEC that ends with a value has moved the output cursor: by every value it announced, so that each
word of its output is one it stored (R59, R167, R193). -/

namespace Sys2Proof.Machine

/-- What every end of an operation stands in, the end with a value does. -/
theorem Res.Keeps.of_ok {α : Type} {R : State → State → Prop} {s t : State} {r : Res α} {a : α} (h : r.Keeps R s)
    (hr : r = .ok a t) : R s t := by
  rw [hr] at h
  exact h

theorem blkStore_oc {s t : State} (h : blkStore s = .ok () t) : t.oc = s.oc + 128 := by
  unfold blkStore at h
  split at h
  · cases h
  · cases h
    rfl

theorem blkDec_oc {s t : State} (h : blkDec s = .ok () t) : t.oc = s.oc + 128 := by
  obtain ⟨_, u, hmeta, h⟩ := Res.bind_eq_ok h
  obtain ⟨ws, -, h⟩ := Res.need_eq_ok h
  obtain ⟨_, v, hpatch, hstore⟩ := Res.bind_eq_ok h
  calc t.oc = (prefixIfEnabled v).oc + 128 := blkStore_oc hstore
    _ = v.oc + 128 := by rw [(prefixIfEnabled_quiet v).oc]
    _ = u.oc + 128 := by rw [((blkPatch_quiet _).of_ok hpatch).oc, (takePacked_quiet _ ws u).oc]
    _ = s.oc + 128 := by rw [((blkMeta_quiet s).of_ok hmeta).oc]

theorem blocksDec_oc {n : Nat} {s t : State} (h : Res.times blkDec n s = .ok () t) : t.oc = s.oc + 128 * n := by
  induction n generalizing s with
  | zero =>
    cases h
    rfl
  | succ n ih =>
    obtain ⟨_, u, hblock, hrest⟩ := Res.bind_eq_ok h
    rw [ih hrest, blkDec_oc hblock]
    omega

theorem takePageHdr_oc {h : Nat} {w : Word} {s t : State} (hp : takePageHdr h w s = .ok () t) : t.oc = s.oc := by
  unfold takePageHdr at hp
  split at hp
  · cases hp
  · cases hp
    rfl

theorem pageDec_oc {n h m : Nat} {s t : State} (hp : pageDec n h s = .ok m t) : t.oc = s.oc + 128 * (n / 128) := by
  obtain ⟨w, -, hp⟩ := Res.need_eq_ok hp
  obtain ⟨_, u, hhdr, hp⟩ := Res.bind_eq_ok hp
  obtain ⟨cb, v, hbytes, hp⟩ := Res.bind_eq_ok hp
  obtain ⟨ce, x, hstore, hp⟩ := Res.bind_eq_ok hp
  obtain ⟨_, y, hblocks, hend⟩ := Res.bind_eq_ok hp
  have hty : t = y := by
    split at hend
    · cases hend
    · cases hend
      rfl
  calc t.oc = x.oc + 128 * (n / 128) := by rw [hty, blocksDec_oc hblocks]
    _ = u.oc + 128 * (n / 128) := by rw [((esRead_quiet _ v).of_ok hstore).oc, ((bcRead_quiet _ u).of_ok hbytes).oc]
    _ = s.oc + 128 * (n / 128) := by rw [takePageHdr_oc hhdr]

/-- A page loop long enough for the values that remain stores all of them (R84, R193). -/
theorem pagesDec_oc {k h m : Nat} {s t : State} (hblocks : s.rem.toNat % 128 = 0)
    (hk : s.rem.toNat ≤ k * s.cfg.pageSize) (hp : pagesDec k h s = .ok m t) : t.oc = s.oc + s.rem.toNat := by
  induction k generalizing h s with
  | zero =>
    cases hp
    omega
  | succ k ih =>
    unfold pagesDec at hp
    split at hp
    next hdone =>
      cases hp
      rw [hdone]
      rfl
    next =>
      obtain ⟨n, u, hpage, hrest⟩ := Res.bind_eq_ok hp
      have hstores := (pageDec_stores _ h s).of_ok hpage
      have hpageSize := s.cfg.pageSize_blocks
      have hlt := s.rem.isLt
      rw [Nat.succ_mul] at hk
      have hleft : (u.rem - BitVec.ofNat 32 (min u.cfg.pageSize u.rem.toNat)).toNat =
          s.rem.toNat - min s.cfg.pageSize s.rem.toNat := by
        rw [hstores.rem, hstores.writes.cfg, BitVec.toNat_sub, BitVec.toNat_ofNat]
        omega
      have hrest' := ih (by rw [hleft]; omega) (by rw [hleft, hstores.writes.cfg]; omega) hrest
      rw [hrest', hleft, pageDec_oc hpage]
      omega

theorem le_ceilDiv_mul (n : Nat) {c : Nat} (hc : 0 < c) : n ≤ ceilDiv n c * c := by
  have hdiv := Nat.div_add_mod (n + c - 1) c
  have hmod := Nat.mod_lt (n + c - 1) hc
  rw [ceilDiv, Nat.mul_comm]
  omega

/-- A DEC that ends with a value has stored as many words as it answers (R193). -/
theorem arrDec_oc {d : Decoded} {s t : State} (h : arrDec s = .ok d t) : t.oc = d.values := by
  obtain ⟨l, -, h⟩ := Res.need_eq_ok h
  obtain ⟨_, u, hhdr, h⟩ := Res.bind_eq_ok h
  obtain ⟨m, v, hpages, hend⟩ := Res.bind_eq_ok h
  obtain ⟨-, hmod, hu⟩ := takeArrayHdr_cases hhdr
  have hrem : u.rem = l := by rw [hu]
  have hoc : u.oc = 0 := by rw [hu]
  have hpos : 0 < u.cfg.pageSize := by
    have := u.cfg.pageSize_min
    omega
  have hall := pagesDec_oc (hrem ▸ hmod) (le_ceilDiv_mul _ hpos) hpages
  rw [hrem, hoc, Nat.zero_add] at hall
  cases hend
  exact hall

end Sys2Proof.Machine

/-! SUPPORT. Two runs of the decoder from states that agree on `SRC`, the argument registers, the parameters and the
registers it has written so far: each operation ends alike in both, and what it has stored in `DST` is the same. The
registers `INST.RESET` leaves alone may differ until the decoder writes them, so the relation names the stage it is at
(R211, R218 (b)). -/

namespace Sys2Proof.Machine

/-! ### Two operations that end alike -/

/-- Both end with the same value in states that `R` relates, or raise the same error, or stop with the same fault. -/
def Res.Agree {α : Type} (R : State → State → Prop) (r r' : Res α) : Prop :=
  match r, r' with
  | .ok a s, .ok a' s' => a' = a ∧ R s s'
  | .raised e _, .raised e' _ => e' = e
  | .stop f, .stop f' => f' = f
  | _, _ => False

section Rules
variable {α β : Type} {R R' : State → State → Prop}

theorem agree_ok {s s' : State} (a : α) (h : R s s') : (Res.ok a s).Agree R (.ok a s') := ⟨rfl, h⟩

theorem agree_stop (f : Fault) : (Res.stop f : Res α).Agree R (.stop f) := rfl

theorem Res.Agree.bind {r r' : Res α} {k k' : α → State → Res β} (h : r.Agree R r')
    (hk : ∀ a s s', R s s' → (k a s).Agree R' (k' a s')) : (r.bind k).Agree R' (r'.bind k') := by
  cases r <;> cases r'
  case ok.ok a s a' s' =>
    obtain ⟨rfl, hs⟩ := h
    exact hk _ s s' hs
  case raised.raised => exact h
  case stop.stop => exact h
  all_goals exact h.elim

theorem Res.Agree.of_ok {r r' : Res α} {a : α} {s : State} (h : r.Agree R r') (hr : r = .ok a s) :
    ∃ s', r' = .ok a s' ∧ R s s' := by
  subst hr
  cases r' with
  | ok a' s' =>
    obtain ⟨rfl, hs⟩ := h
    exact ⟨s', rfl, hs⟩
  | raised | stop => exact h.elim

theorem Res.Agree.of_raised {r r' : Res α} {e : Error} {s : State} (h : r.Agree R r') (hr : r = .raised e s) :
    ∃ s', r' = .raised e s' := by
  subst hr
  cases r' with
  | raised e' s' =>
    obtain rfl : e' = e := h
    exact ⟨s', rfl⟩
  | ok | stop => exact h.elim

theorem Res.Agree.mono {r r' : Res α} (h : r.Agree R r') (hR : ∀ s s', R s s' → R' s s') : r.Agree R' r' := by
  cases r <;> cases r'
  case ok.ok => exact ⟨h.1, hR _ _ h.2⟩
  all_goals exact h

theorem agree_need {r r' : Except Fault α} {k k' : α → Res β} (h : r' = r) (hk : ∀ a, (k a).Agree R (k' a)) :
    (Res.need r k).Agree R (Res.need r' k') := by
  subst h
  cases r' with
  | ok a => exact hk a
  | error f => exact agree_stop f

theorem agree_check {r r' : Res Unit} (c : Option Malformed) (h : r.Agree R r') :
    (Res.check c r).Agree R (Res.check c r') := by
  cases c with
  | none => exact h
  | some why => exact agree_stop _

/-- An operation that keeps two states related keeps them so however often it is repeated. -/
theorem agree_times {f : State → Res Unit} (hf : ∀ s s', R s s' → (f s).Agree R (f s')) (n : Nat) {s s' : State}
    (h : R s s') : (Res.times f n s).Agree R (Res.times f n s') := by
  induction n generalizing s s' with
  | zero => exact agree_ok () h
  | succ n ih => exact (hf s s' h).bind fun _ _ _ ht => ih ht

end Rules

/-! ### Memory -/

theorem Memory.readWord_congr {m m' : List Host.Cell} {a : Nat}
    (h : ∀ b, a ≤ b → b < a + 4 → Memory.read m' b = Memory.read m b) :
    Memory.readWord m' a = Memory.readWord m a := by
  simp only [Memory.readWord]
  rw [h a (by omega) (by omega), h (a + 1) (by omega) (by omega), h (a + 2) (by omega) (by omega),
    h (a + 3) (by omega) (by omega)]

/-- After the same words were written to two memories at the same place, a byte reads alike where it did before, and
where it was written. -/
theorem Memory.read_writeWords_congr {m m' : List Host.Cell} {a b : Nat} {ws : List Word} (h : Memory.wf m)
    (h' : Memory.wf m') (hb : (a ≤ b ∧ b < a + 4 * ws.length) ∨ Memory.read m' b = Memory.read m b) :
    Memory.read (Memory.writeWords m' a ws) b = Memory.read (Memory.writeWords m a ws) b := by
  induction ws generalizing m m' a with
  | nil => exact hb.resolve_left fun hin => by simp at hin; omega
  | cons w ws ih =>
    refine ih (Memory.writeWord_wf h a w) (Memory.writeWord_wf h' a w) ?_
    rw [Memory.read_writeWord h, Memory.read_writeWord h']
    by_cases hin : a ≤ b ∧ b < a + 4
    · simp only [if_pos hin, or_true]
    · rw [if_neg hin, if_neg hin]
      refine hb.imp_left fun hw => ?_
      rw [List.length_cons] at hw
      omega

/-! ### The relation -/

/-- The two states agree on what a read of `SRC` depends on. -/
structure SameSrc (s s' : State) : Prop where
  srcBase : s'.srcBase = s.srcBase
  srcLen : s'.srcLen = s.srcLen
  cfg : s'.cfg = s.cfg
  src : ∀ a, InSrc s a → Memory.read s'.mem a = Memory.read s.mem a

/-- The two states agree on all that the rest of a DEC depends on and on the words of `DST` stored so far. Stage 0 is
between two pages; from stage 1 on the header of a page gave `MP`, from stage 2 on its place gave `IC`, from stage 3 on a
`META` record gave `SEL`, and from stage 4 on a block's words gave `BLK`. -/
structure Alike (stage : Nat) (s s' : State) : Prop extends SameSrc s s' where
  dstBase : s'.dstBase = s.dstBase
  deltaEn : s'.deltaEn = s.deltaEn
  dprev : s'.dprev = s.dprev
  bcMem : s'.bcMem = s.bcMem
  bcRd : s'.bcRd = s.bcRd
  es : s'.es = s.es
  oc : s'.oc = s.oc
  rem : s'.rem = s.rem
  wf : Memory.wf s.mem
  wf' : Memory.wf s'.mem
  dst : ∀ a, s.dstBase ≤ a → a < dstAddr s s.oc → Memory.read s'.mem a = Memory.read s.mem a
  mp : 1 ≤ stage → s'.mp = s.mp
  ic : 2 ≤ stage → s'.ic = s.ic
  sel : 3 ≤ stage → s'.selB = s.selB ∧ s'.selC = s.selC ∧ s'.selM = s.selM
  blk : 4 ≤ stage → s'.blk = s.blk

theorem Alike.weaken {j k : Nat} {s s' : State} (h : Alike k s s') (hj : j ≤ k) : Alike j s s' :=
  { h with
    mp := fun hs => h.mp (hs.trans hj)
    ic := fun hs => h.ic (hs.trans hj)
    sel := fun hs => h.sel (hs.trans hj)
    blk := fun hs => h.blk (hs.trans hj) }

/-- The words of `DST` stored so far read alike. -/
theorem Alike.dstView {k n : Nat} {s s' : State} (h : Alike k s s') (hn : n ≤ s.oc) :
    dstView s' 0 n = dstView s 0 n := by
  have base : dstAddr s' 0 = dstAddr s 0 := by rw [dstAddr, dstAddr, h.dstBase]
  rw [Machine.dstView, Machine.dstView, base]
  refine Memory.readWords_congr fun i hi => Memory.readWord_congr fun b hlo hhi => h.dst b ?_ ?_
  · simp only [dstAddr] at hlo
    omega
  · simp only [dstAddr] at hhi ⊢
    omega

/-! ### Reads of `SRC` -/

theorem SameSrc.srcWord {s s' : State} (h : SameSrc s s') (i : Nat) : srcWord s' i = srcWord s i := by
  have addr : srcAddr s' i = srcAddr s i := by rw [srcAddr, srcAddr, h.srcBase]
  simp only [Machine.srcWord, addr, h.srcLen, h.cfg]
  split
  · rfl
  next hlen =>
    rw [Memory.readWord_congr fun b hlo hhi => h.src b ?_]
    simp only [srcAddr] at hlo hhi
    exact ⟨by omega, by omega⟩

theorem SameSrc.srcWords {s s' : State} (h : SameSrc s s') (i n : Nat) : srcWords s' i n = srcWords s i n := by
  induction n generalizing i with
  | zero => rfl
  | succ n ih => simp only [Machine.srcWords, h.srcWord, ih]

/-! ### The container and the exception store -/

section Parsing
variable {j : Nat} {s s' : State}

theorem bcGet_alike (h : Alike j s s') : (bcGet s).Agree (Alike j) (bcGet s') := by
  unfold bcGet
  rw [h.bcMem, h.bcRd]
  split
  · exact agree_stop _
  · exact agree_ok _ { h with bcMem := rfl, bcRd := rfl }

theorem bcRead_alike (h : Alike j s s') (q : Nat) : (bcRead q s).Agree (Alike j) (bcRead q s') := by
  refine agree_need (h.srcWord q) fun bs => ?_
  have size : (takeBcSize bs s).Agree (Alike j) (takeBcSize bs s') := by
    unfold takeBcSize
    rw [h.cfg]
    split
    · exact agree_stop _
    · exact agree_ok () h
  exact size.bind fun _ t t' ht => agree_need (ht.srcWords _ _) fun ws =>
    agree_ok _ { ht with bcMem := rfl, bcRd := rfl }

theorem setBucket_alike (h : Alike j s s') (k : Fin 32) (b : Bucket) : Alike j (setBucket k b s) (setBucket k b s') :=
  { h with es := by rw [setBucket, setBucket, h.es] }

theorem openBucket_alike (h : Alike j s s') (k : Fin 32) : Alike j (openBucket k s) (openBucket k s') := by
  unfold openBucket
  rw [h.es]
  exact setBucket_alike h k _

theorem esEnsure_alike (h : Alike j s s') (k : Fin 32) (n : Nat) : Alike j (esEnsure k n s) (esEnsure k n s') := by
  unfold esEnsure
  rw [h.es]
  exact setBucket_alike h k _

theorem esAppendAll_alike (h : Alike j s s') (k : Fin 32) (xs : List Word) :
    Alike j (esAppendAll k xs s) (esAppendAll k xs s') := by
  unfold esAppendAll
  rw [h.es]
  exact setBucket_alike h k _

theorem esGet_alike (h : Alike j s s') (k : Fin 32) : (esGet k s).Agree (Alike j) (esGet k s') := by
  unfold esGet
  rw [h.es]
  split
  · exact agree_stop _
  · exact agree_ok _ (setBucket_alike h k _)

theorem takeEsCount_alike (h : Alike j s s') (k : Fin 32) (c : Word) :
    (takeEsCount k c s).Agree (Alike j) (takeEsCount k c s') := by
  unfold takeEsCount
  rw [h.cfg]
  split
  · exact agree_stop _
  · exact agree_ok () (esEnsure_alike (openBucket_alike h k) k _)

theorem readG128s_alike (h : Alike j s s') (k : Fin 32) (g q : Nat) :
    (readG128s k g q s).Agree (Alike j) (readG128s k g q s') := by
  induction g generalizing q s s' with
  | zero => exact agree_ok q h
  | succ g ih => exact agree_need (h.srcWords _ _) fun ws => ih (esAppendAll_alike h k _) _

theorem readG32s_alike (h : Alike j s s') (k : Fin 32) (t r q : Nat) :
    (readG32s k t r q s).Agree (Alike j) (readG32s k t r q s') := by
  induction t generalizing r q s s' with
  | zero => exact agree_ok q h
  | succ t ih => exact agree_need (h.srcWords _ _) fun ws => ih (esAppendAll_alike h k _) _ _

theorem esReadBucket_alike (h : Alike j s s') (m : Word) (k : Fin 32) (q : Nat) :
    (esReadBucket m k q s).Agree (Alike j) (esReadBucket m k q s') := by
  unfold esReadBucket
  split_ifs
  · exact agree_need (h.srcWord q) fun c => (takeEsCount_alike h k c).bind fun _ t t' ht =>
      (readG128s_alike ht k _ _).bind fun _ u u' hu => readG32s_alike hu k _ _ _
  · exact agree_ok q (openBucket_alike h k)

theorem esReadBuckets_alike (h : Alike j s s') (m : Word) (ks : List (Fin 32)) (q : Nat) :
    (esReadBuckets m ks q s).Agree (Alike j) (esReadBuckets m ks q s') := by
  induction ks generalizing q s s' with
  | nil => exact agree_ok q h
  | cons k ks ih => exact (esReadBucket_alike h m k q).bind fun _ _ _ ht => ih ht _

theorem esRead_alike (h : Alike j s s') (p : Nat) : (esRead p s).Agree (Alike j) (esRead p s') :=
  agree_need (h.srcWord p) fun m => (esReadBuckets_alike h m _ _).bind fun _ _ _ ht => agree_ok _ ht

end Parsing

/-! ### A block -/

section Block
variable {s s' : State}

theorem setSel_alike (h : Alike 2 s s') (b c m : Nat) : Alike 3 (setSel b c m s) (setSel b c m s') :=
  { h with
    mp := fun _ => h.mp (by decide)
    ic := fun _ => h.ic (by decide)
    sel := fun _ => ⟨rfl, rfl, rfl⟩
    blk := fun hs => absurd hs (by decide) }

theorem blkMeta_alike (h : Alike 2 s s') : (blkMeta s).Agree (Alike 3) (blkMeta s') := by
  unfold blkMeta
  rw [h.bcMem, h.bcRd]
  split
  · exact agree_stop _
  refine (bcGet_alike h).bind fun b t t' ht => (bcGet_alike ht).bind fun c u u' hu => agree_check _ ?_
  rw [hu.bcMem, hu.bcRd]
  split_ifs
  · exact agree_ok () (setSel_alike hu _ _ _)
  · exact agree_stop _
  · exact (bcGet_alike hu).bind fun m v v' hv => agree_check _ (agree_ok () (setSel_alike hv _ _ _))

theorem takePacked_alike (h : Alike 3 s s') (b : Nat) (ws : List Word) :
    Alike 4 (takePacked b ws s) (takePacked b ws s') := by
  unfold takePacked
  generalize blockOf (vunpack b ws) = v
  exact { h with
    mp := fun _ => h.mp (by decide)
    ic := fun _ => congrArg (· + 4 * b) (h.ic (by decide))
    sel := fun _ => h.sel (by decide)
    blk := fun _ => rfl }

theorem setBlk_alike (h : Alike 4 s s') {v v' : Vector Word 128} (hv : v' = v) :
    Alike 4 { s with blk := v } { s' with blk := v' } :=
  { h with blk := fun _ => hv }

theorem patchLoop_alike (h : Alike 4 s s') (k : Fin 32) (n lo : Nat) :
    (patchLoop k n lo s).Agree (Alike 4) (patchLoop k n lo s') := by
  induction n generalizing lo s s' with
  | zero => exact agree_ok () h
  | succ n ih =>
    refine (bcGet_alike h).bind fun i t t' ht => ?_
    split
    · refine (esGet_alike ht k).bind fun x u u' hu => ih (setBlk_alike hu ?_) _
      obtain ⟨hb, -, -⟩ := hu.sel (by decide)
      simp only [hu.blk le_rfl, hb]
    · exact agree_stop _

theorem blkPatch_alike (h : Alike 4 s s') : (blkPatch s).Agree (Alike 4) (blkPatch s') := by
  obtain ⟨hb, hc, hm⟩ := h.sel (by decide)
  unfold blkPatch
  rw [hb, hc, hm]
  split
  · exact agree_ok () h
  · split
    · exact agree_stop _
    · exact patchLoop_alike h _ _ _

theorem prefixIfEnabled_alike (h : Alike 4 s s') : Alike 4 (prefixIfEnabled s) (prefixIfEnabled s') := by
  unfold prefixIfEnabled blkPrefix
  rw [h.deltaEn]
  split
  · simp only [h.dprev, h.blk le_rfl]
    generalize prefixSums s.dprev[3] s.blk = v
    exact { h with deltaEn := rfl, dprev := rfl, blk := fun _ => rfl }
  · exact h

/-- The same block stored at the same place: where the memories read alike before, and on the block, they do after. -/
theorem blkStore_alike (h : Alike 4 s s') : (blkStore s).Agree (Alike 4) (blkStore s') := by
  have addr (i : Nat) : dstAddr s' i = dstAddr s i := by rw [dstAddr, dstAddr, h.dstBase]
  unfold blkStore
  rw [h.cfg, h.oc, addr, addr, h.blk le_rfl]
  split
  · exact agree_stop _
  · refine agree_ok () { h with
      cfg := rfl
      oc := rfl
      blk := fun _ => rfl
      wf := Memory.writeWords_wf h.wf _ _
      wf' := Memory.writeWords_wf h.wf' _ _
      src := fun a ha => Memory.read_writeWords_congr h.wf h.wf' (.inr (h.src a ha))
      dst := fun a hlo hhi => Memory.read_writeWords_congr h.wf h.wf' ?_ }
    by_cases ha : a < dstAddr s s.oc
    · exact .inr (h.dst a hlo ha)
    · simp only [dstAddr, Vector.length_toList] at hhi ha ⊢
      omega

theorem blkDec_alike (h : Alike 2 s s') : (blkDec s).Agree (Alike 2) (blkDec s') := by
  refine (blkMeta_alike h).bind fun _ t t' ht => ?_
  obtain ⟨hb, -, -⟩ := ht.sel le_rfl
  rw [hb, ht.ic (by decide)]
  exact agree_need (ht.srcWords _ _) fun ws => (blkPatch_alike (takePacked_alike ht _ ws)).bind fun _ u u' hu =>
    (blkStore_alike (prefixIfEnabled_alike hu)).mono fun _ _ hv => hv.weaken (by decide)

end Block

/-! ### The pages and the array -/

section Pages
variable {s s' : State}

theorem takePageHdr_alike (hs : Alike 0 s s') (h : Nat) (w : Word) :
    (takePageHdr h w s).Agree (Alike 1) (takePageHdr h w s') := by
  unfold takePageHdr
  split_ifs
  · exact agree_stop _
  · exact agree_ok () { hs with
      mp := fun _ => rfl
      ic := fun hj => absurd hj (by decide)
      sel := fun hj => absurd hj (by decide)
      blk := fun hj => absurd hj (by decide) }

theorem setIc_alike (h : Alike 1 s s') (i : Nat) : Alike 2 { s with ic := i } { s' with ic := i } :=
  { h with
    mp := fun _ => h.mp le_rfl
    ic := fun _ => rfl
    sel := fun hj => absurd hj (by decide)
    blk := fun hj => absurd hj (by decide) }

theorem pageDec_alike (hs : Alike 0 s s') (n h : Nat) : (pageDec n h s).Agree (Alike 0) (pageDec n h s') := by
  refine agree_need (hs.srcWord h) fun w => (takePageHdr_alike hs h w).bind fun _ t t' ht => ?_
  rw [ht.mp le_rfl]
  refine (bcRead_alike ht _).bind fun cb u u' hu => ?_
  rw [hu.mp le_rfl]
  refine (esRead_alike hu _).bind fun ce v v' hv => ?_
  refine (agree_times (fun _ _ => blkDec_alike) _ (setIc_alike hv _)).bind fun _ x x' hx => ?_
  rw [hx.ic le_rfl, hx.mp (by decide)]
  split
  · exact agree_stop _
  · exact agree_ok _ (hx.weaken (by decide))

theorem setRem_alike (h : Alike 0 s s') {r r' : Word} (hr : r' = r) :
    Alike 0 { s with rem := r } { s' with rem := r' } :=
  { h with rem := hr }

theorem pagesDec_alike (hs : Alike 0 s s') (k h : Nat) : (pagesDec k h s).Agree (Alike 0) (pagesDec k h s') := by
  induction k generalizing h s s' with
  | zero => exact agree_ok h hs
  | succ k ih =>
    unfold pagesDec
    rw [hs.cfg, hs.rem]
    split
    · exact agree_ok h hs
    · refine (pageDec_alike hs _ h).bind fun m t t' ht => ih (setRem_alike ht ?_) _
      rw [ht.cfg, ht.rem]

theorem takeArrayHdr_alike {l : Word} (hcap : s'.dstCap = s.dstCap)
    (h : Alike 0 { s with rem := l } { s' with rem := l }) :
    (takeArrayHdr l s).Agree (Alike 0) (takeArrayHdr l s') := by
  have cap : s'.dstCap.toNat < l.toNat ↔ s.dstCap.toNat < l.toNat := by rw [hcap]
  unfold takeArrayHdr
  by_cases hl : s.dstCap.toNat < l.toNat
  · rw [if_pos hl, if_pos (cap.2 hl)]
    rfl
  · rw [if_neg hl, if_neg (mt cap.1 hl)]
    split_ifs
    · exact agree_stop _
    · exact agree_ok () h

end Pages

end Sys2Proof.Machine

/-! SUPPORT. That a codec command given the same input ends with the same outcome, whatever came before (R218 (b)), and
that a step runs what was issued. -/

namespace Sys2Proof.Machine

/-! ### What a command is given, and what it answers -/

/-- Two states in which a command is given the same: the argument registers, the parameters and the contents of `SRC`.
In both `REQUIRED` is 0, as acceptance leaves it (R210). -/
structure SameInput (s s' : State) : Prop extends SameSrc s s' where
  dstBase : s'.dstBase = s.dstBase
  dstCap : s'.dstCap = s.dstCap
  wf : Memory.wf s.mem
  wf' : Memory.wf s'.mem
  required : s.required = 0#32
  required' : s'.required = 0#32

/-- The outcome of a command: what it reports, and, where it ends with `OK`, the words it has left in `DST`. -/
structure SameOutcome (t t' : State) : Prop where
  status : t'.status = t.status
  result : t'.result = t.result
  required : t'.required = t.required
  view : t.status.err = .ok → dstView t' 0 t.result.toNat = dstView t 0 t.result.toNat

/-- What an error reports does not depend on the state it is taken in (R236). -/
theorem raise_sameOutcome (e : Error) (u u' : State) : SameOutcome (raise e u) (raise e u') where
  status := rfl
  result := rfl
  required := rfl
  view := fun hok => absurd hok (code_ne_ok e)

theorem complete_sameOutcome {n : Nat} {u u' : State} (hreq : u'.required = u.required)
    (hview : dstView u' 0 (BitVec.ofNat 32 n).toNat = dstView u 0 (BitVec.ofNat 32 n).toNat) :
    SameOutcome (complete (BitVec.ofNat 32 n) (instReset u)) (complete (BitVec.ofNat 32 n) (instReset u')) where
  status := rfl
  result := rfl
  required := hreq
  view := fun _ => hview

section Launch
variable {s s' : State}

theorem SameInput.lendable (h : SameInput s s') (hl : Lendable s) : Lendable s' := by
  rw [Lendable, Wraps, Overlaps, h.cfg, h.srcBase, h.srcLen, h.dstBase, h.dstCap]
  exact hl

theorem SameInput.encError (h : SameInput s s') : encError s' = encError s := by
  simp only [Machine.encError, Misaligned, h.srcBase, h.dstBase, h.srcLen]

theorem SameInput.decError (h : SameInput s s') : decError s' = decError s := by
  simp only [Machine.decError, Misaligned, h.srcBase, h.dstBase]

theorem SameInput.aligned (h : SameInput s s') (ha : Aligned s) : Aligned s' := by
  rw [Aligned, h.srcBase, h.dstBase]
  exact ha

theorem SameInput.inputValues (h : SameInput s s') : inputValues s' = inputValues s := by
  rw [Machine.inputValues, Machine.inputValues, srcView, srcView, srcAddr, srcAddr, h.srcBase, h.srcLen]
  exact Memory.readWords_congr fun i hi => Memory.readWord_congr fun b hlo hhi => h.src b ⟨by omega, by omega⟩

/-! ### DEC -/

/-- Past its array header, DEC is between two pages: `INST.RESET` and the header have written all that the pages
depend on. -/
theorem SameInput.alike (h : SameInput s s') (delta : Bool) (l : Word) :
    Alike 0 { decStart delta s with oc := 0, rem := l } { decStart delta s' with oc := 0, rem := l } where
  srcBase := h.srcBase
  srcLen := h.srcLen
  cfg := h.cfg
  src := h.src
  dstBase := h.dstBase
  deltaEn := rfl
  dprev := rfl
  bcMem := rfl
  bcRd := rfl
  es := congrArg (fun p => Vector.replicate 32 (Bucket.empty p)) h.cfg
  oc := rfl
  rem := rfl
  wf := h.wf
  wf' := h.wf'
  dst := fun a hlo hhi => absurd hhi (Nat.not_lt.2 hlo)
  mp := fun hj => absurd hj (by decide)
  ic := fun hj => absurd hj (by decide)
  sel := fun hj => absurd hj (by decide)
  blk := fun hj => absurd hj (by decide)

theorem arrDec_agree (h : SameInput s s') (delta : Bool) :
    (arrDec (decStart delta s)).Agree (Alike 0) (arrDec (decStart delta s')) := by
  have src : SameSrc (decStart delta s) (decStart delta s') := ⟨h.srcBase, h.srcLen, h.cfg, h.src⟩
  have head (l : Word) : (takeArrayHdr l { decStart delta s with oc := 0 }).Agree (Alike 0)
      (takeArrayHdr l { decStart delta s' with oc := 0 }) := takeArrayHdr_alike h.dstCap (h.alike delta l)
  refine agree_need (src.srcWord 0) fun l => (head l).bind fun _ t t' ht => ?_
  rw [ht.cfg, ht.rem]
  exact (pagesDec_alike ht _ _).bind fun m _ _ hu => agree_ok _ hu

/-- The work of DEC moves the output cursor by the number of values it answers. -/
theorem arrDecValues_oc {n : Nat} {t : State} (h : arrDecValues s = .ok n t) : t.oc = n := by
  obtain ⟨d, u, hdec, hend⟩ := Res.bind_eq_ok h
  cases hend
  exact arrDec_oc hdec

theorem dec_history {delta : Bool} {t : State} (h : SameInput s s') (ht : exec (decOf delta) s = .next t) :
    ∃ t', exec (decOf delta) s' = .next t' ∧ SameOutcome t t' := by
  rw [exec_decOf] at ht ⊢
  obtain ⟨hl, hcases⟩ := codecCommand_cases ht
  have agree : (arrDecValues (decStart delta s)).Agree (Alike 0) (arrDecValues (decStart delta s')) :=
    (arrDec_agree h delta).bind fun d _ _ hu => agree_ok _ hu
  have required {n : Nat} {u v : State} (hv : v.required = 0#32) (hr : arrDecValues (decStart delta v) = .ok n u) :
      u.required = 0#32 := ((arrDecValues_keeps _).of_ok hr).required.trans hv
  rw [h.decError]
  obtain ⟨e, herr, rfl⟩ | ⟨herr, e, u, hr, rfl⟩ | ⟨herr, n, u, hr, rfl⟩ := hcases
  · rw [herr, codecCommand_error (h.lendable hl)]
    exact ⟨_, rfl, raise_sameOutcome e s s'⟩
  · obtain ⟨u', hr'⟩ := agree.of_raised hr
    rw [herr, codecCommand_work (h.lendable hl)]
    exact ⟨_, congrArg finishCommand hr', raise_sameOutcome e u u'⟩
  · obtain ⟨u', hr', hu⟩ := agree.of_ok hr
    rw [herr, codecCommand_work (h.lendable hl)]
    refine ⟨_, congrArg finishCommand hr', complete_sameOutcome ?_ (hu.dstView ?_)⟩
    · rw [required h.required hr, required h.required' hr']
    · rw [arrDecValues_oc hr, BitVec.toNat_ofNat]
      exact Nat.mod_le _ _

/-! ### ENC -/

/-- ENC either stores the stream of its input, which both states give it, or ends with an error that the arguments and
the length of the stream decide (R218). -/
theorem enc_history {delta : Bool} {t : State} (h : SameInput s s') (ht : exec (encOf delta) s = .next t) :
    ∃ t', exec (encOf delta) s' = .next t' ∧ SameOutcome t t' := by
  have hl : Lendable s := (codecCommand_cases (exec_encOf delta s ▸ ht)).1
  have hl' := h.lendable hl
  cases herr : encError s with
  | some e =>
    rw [exec_encOf, herr, codecCommand_error hl] at ht
    cases ht
    rw [exec_encOf, h.encError, herr, codecCommand_error hl']
    exact ⟨_, rfl, raise_sameOutcome e s s'⟩
  | none =>
    obtain ⟨ha, hlen⟩ := encError_none.1 herr
    have ha' := h.aligned ha
    have hlen' : s'.srcLen.toNat % 128 = 0 := h.srcLen ▸ hlen
    have stream : streamOf s'.cfg.pageSize delta (inputValues s') = streamOf s.cfg.pageSize delta (inputValues s) := by
      rw [h.cfg, h.inputValues]
    by_cases hfit : (streamOf s.cfg.pageSize delta (inputValues s)).length ≤ s.dstCap.toNat
    · obtain ⟨m, hd, bl, fr, sb, sc, sm, hexec, hstored⟩ := exec_enc_ok h.wf hl ha hlen rfl hfit
      obtain ⟨m', hd', bl', fr', sb', sc', sm', hexec', hstored'⟩ :=
        exec_enc_ok (delta := delta) h.wf' hl' ha' hlen' rfl (by rw [stream, h.dstCap]; exact hfit)
      rw [hexec] at ht
      cases ht
      refine ⟨_, hexec', rfl, by dsimp only; rw [stream], h.required'.trans h.required.symm, fun _ => ?_⟩
      have hresult : (BitVec.ofNat 32 (streamOf s.cfg.pageSize delta (inputValues s)).length).toNat =
          (streamOf s.cfg.pageSize delta (inputValues s)).length := by
        rw [BitVec.toNat_ofNat]
        exact Nat.mod_eq_of_lt (by omega)
      have words' := hstored'.words
      rw [stream] at words'
      dsimp only
      rw [hresult]
      exact words'.trans hstored.words.symm
    · obtain ⟨u, hexec, -⟩ := exec_enc_overruns h.wf hl ha hlen (Nat.lt_of_not_le hfit)
      obtain ⟨u', hexec', -⟩ := exec_enc_overruns (delta := delta) h.wf' hl' ha' hlen'
        (by rw [stream, h.dstCap]; exact Nat.lt_of_not_le hfit)
      rw [hexec] at ht
      cases ht
      exact ⟨_, hexec', raise_sameOutcome _ u u'⟩

end Launch

/-! ### The statements -/

/-- With no action of the host left, the machine goes on by itself (log 7). -/
theorem step_hostless {s : State} (hs : s.host = []) : step s = advance s := by
  simp only [step, hs]

/-- Settles O30: ENC by what it stores (`enc_history`), DEC by its two runs side by side (`dec_history`). -/
theorem historyIndependence : Obligations.HistoryIndependence := by
  intro i hi s s' t wf wf' hcfg hsb hsl hdb hdc hreq hreq' hsrc ht
  have h : SameInput s s' := ⟨⟨hsb, hsl, hcfg, hsrc⟩, hdb, hdc, wf, wf', hreq, hreq'⟩
  have hcommand : ∃ t', exec i s' = .next t' ∧ SameOutcome t t' := by
    simp only [List.mem_cons, List.not_mem_nil, or_false] at hi
    rcases hi with rfl | rfl | rfl | rfl
    · exact enc_history (delta := false) h ht
    · exact enc_history (delta := true) h ht
    · exact dec_history (delta := false) h ht
    · exact dec_history (delta := true) h ht
  obtain ⟨t', hexec, hstatus, hresult, hrequired, hview⟩ := hcommand
  exact ⟨t', hexec, hstatus, hresult, hrequired, hview⟩

/-- Settles O5: where the host waits or does nothing, the step is `advance`, which runs what was issued. -/
theorem stepRunsIssuedOperation : Obligations.StepRunsIssuedOperation := by
  intro s c bs rest i h hissue hdecode
  refine ⟨fun hhost => ?_, fun hhost => ?_, fun hhost hdone => ?_⟩
  · rw [step_hostless hhost]
    exact advance_of_decode hissue hdecode
  · rw [step_host hhost]
    exact advance_of_decode (s := { s with host := h }) hissue hdecode
  · have waits : step s = advance { s with host := .wait :: h } := by
      simp only [step_host hhost, hostStep, hdone, Bool.false_eq_true, if_false]
    rw [waits, advance_of_decode (s := { s with host := .wait :: h }) hissue hdecode, issued, ← hhost]

end Sys2Proof.Machine

/-! SUPPORT. The error of an illegal command word: the one error that leaves the instance as it stands, `INST.RESET`
not being run (R217, R235). -/

namespace Sys2Proof.Machine

/-- An illegal word raises its error in any state, whichever word it is (R217). -/
theorem exec_illegal (w : Word) (s : State) : exec (.illegal w) s = .next (raise .illegalCommand s) := rfl

/-- All that `IllegalCommand` changes: the flags, the two result registers and `PHASE` (R235, R236). -/
theorem raise_illegalCommand (s : State) :
    raise .illegalCommand s =
      { s with status := Status.ended .illegalCommand, result := 0#32, required := 0#32, phase := .idle } := rfl

/-- Settles O19: `decodeCommand_illegal`, as the word is none of the five, and what `raise_illegalCommand` changes. -/
theorem illegalCommandTaken : Obligations.IllegalCommandTaken := by
  intro w s hw
  constructor
  · have decoded := decode_command_leBytes w []
    rwa [List.append_nil, decodeCommand_illegal hw] at decoded
  · rw [exec_illegal, raise_illegalCommand, Status.ended]

end Sys2Proof.Machine

/-! SUPPORT. The machine at rest and the machine reset: an instance with nothing issued changes no state (R277), and
hardware reset leaves the fresh instance over the memory it found, `DST` of a command cut short apart (R260, R261). -/

namespace Sys2Proof.Machine

/-! ### Rest -/

/-- With nothing issued there is nothing to go on with (R277). -/
theorem advance_of_unissued {s : State} (hi : s.issue = none) : advance s = .next s := by
  simp only [advance, fetch, hi]

/-- A host that waits while `DONE = 0` lets the instance go on, and is left waiting (R265, log 7). -/
theorem step_of_waiting {s : State} {h : List HostAction} (hs : s.host = .wait :: h) (hd : s.status.done = false) :
    step s = advance s := by
  simp only [step_host hs, hostStep, hd, Bool.false_eq_true, if_false, ← hs]

/-- Settles O6: the instance goes on where the host leaves it the step, and with nothing issued that changes nothing
(`advance_of_unissued`). -/
theorem idleInstanceRests : Obligations.IdleInstanceRests := by
  intro s h hi
  refine ⟨fun hs => ?_, fun hs => ?_, fun hs hd => ?_⟩
  · rw [step_hostless hs, advance_of_unissued hi]
  · rw [step_host hs]
    exact advance_of_unissued (s := { s with host := h }) hi
  · rw [step_of_waiting hs hd, advance_of_unissued hi]

/-! ### Hardware reset -/

/-- At rest, or with a command running that codes no stream, hardware reset leaves memory (R260, log 23). -/
theorem hardReset_of_not_coded {s : State} (hc : ¬Coded s) :
    hardReset s = .next (State.fresh s.cfg s.mem s.host s.hostLog s.freeCtr) := if_neg hc

/-- An ENC or DEC cut short leaves `DST` unspecified (R261, logs 11 and 23). -/
theorem hardReset_of_coded {s : State} (hc : Coded s) (hl : Lendable s) :
    hardReset s = .next (State.fresh s.cfg (forgetDst s).mem s.host s.hostLog (forgetDst s).freeCtr) := by
  rw [hardReset, if_pos hc, launchRefusal_none.2 hl]

/-- Hardware reset leaves the fresh instance, over a memory that differs in `DST` alone, and there only where an ENC or
DEC was cut short (R260, R261). -/
theorem hardReset_fresh {s : State} (wf : Memory.wf s.mem) (hl : Coded s → Lendable s) :
    ∃ m free, hardReset s = .next (State.fresh s.cfg m s.host s.hostLog free) ∧ (¬Coded s → m = s.mem) ∧
      ∀ a, ¬InDst s a → Memory.read m a = Memory.read s.mem a := by
  by_cases hc : Coded s
  · exact ⟨_, _, hardReset_of_coded hc (hl hc), absurd hc, (forgetDst_confined s).outside wf⟩
  · exact ⟨_, _, hardReset_of_not_coded hc, fun _ => rfl, fun _ _ => rfl⟩

/-- Settles O13: the reset values are those of the fresh instance `hardReset_fresh` answers, the memory is the one it
describes. -/
theorem hardwareReset : Obligations.HardwareReset := by
  intro s h wf hs hl
  obtain ⟨m, free, hreset, hrest, houtside⟩ := hardReset_fresh (s := { s with host := h }) wf hl
  refine ⟨State.fresh s.cfg m h s.hostLog free, (step_host hs).trans hreset, ?_⟩
  have carry : NoCarry (State.fresh s.cfg m h s.hostLog free).dprev := noCarry_replicate
  have store : EmptyStore s.cfg (State.fresh s.cfg m h s.hostLog free).es := emptyStore_replicate s.cfg
  exact ⟨rfl, rfl, rfl, rfl, rfl, rfl, rfl, rfl, rfl, rfl, carry, rfl, rfl, store, rfl, rfl, rfl,
    rfl, hrest, houtside⟩

/-- Settles O14: the machine after reset is a fresh instance over the empty memory, which lists no address. -/
theorem resetMeetsInvariant : Obligations.ResetMeetsInvariant :=
  fresh_inv reset_memory_wf nofun [] [] 0

end Sys2Proof.Machine
